-- ==== Sys2Proof/Word.lean ====
section
/-! DEFINITION. The 32-bit word and the byte (00_scope.md R9, R12), and the four-word block (R3). -/

namespace Sys2Proof

/-- One 32-bit word, bit 0 least significant (R12). -/
abbrev Word := BitVec 32

/-- One byte of caller memory (R82). -/
abbrev Byte := BitVec 8

/-- A block of four words (R3), index 0 first. -/
abbrev Block := Vector Word 4

/-- The NULL address and the NULL id (R112). -/
abbrev null : Word := 0#32

/-- `ceil_div(a, b)` of R12. -/
def ceilDiv (a b : Nat) : Nat := (a + b - 1) / b

end Sys2Proof
end

