-- ==== Sys2Proof/Syntax.lean ====
section
/-! DEFINITION. The commands, events and bus micro-operations (30_encoding.md R111): one constructor of `Instr` per row of the opcode map. -/

namespace Sys2Proof

/-- The two physical instances (00_scope.md R2), in the encoding order of 30_encoding.md R112. -/
inductive Inst | aes | saes
  deriving DecidableEq, Repr, Inhabited

/-- The two FIFOs and DMA directions IN and OUT (R112 `fifo`). -/
inductive Fifo | input | output
  deriving DecidableEq, Repr, Inhabited

/-- The status flags in encoding order (R112 `flag`, 10_state.md R42). -/
inductive FlagName | ccf | busy | keyvalid | keif | rngeif | rweif | rderr | wrerr
  deriving DecidableEq, Repr, Inhabited

/-- The fields of the control register in the order of 10_state.md R41 (R112 `field`). -/
inductive CrField
  | en | datatype | mode | chmod | gcmph | dmainen | dmaouten | keysize | npblb | kmod | kshareid
  | keysel | keyprot
  deriving DecidableEq, Repr, Inhabited

/-- The width of a `CR` field in bits (10_state.md R41). -/
def CrField.width : CrField → Nat
  | .en => 1 | .datatype => 2 | .mode => 2 | .chmod => 3 | .gcmph => 2 | .dmainen => 1
  | .dmaouten => 1 | .keysize => 1 | .npblb => 4 | .kmod => 2 | .kshareid => 2 | .keysel => 3
  | .keyprot => 1

/-- The three formats of 30_encoding.md R110. -/
inductive Format | cmd | evt | bus
  deriving DecidableEq, Repr, Inhabited

/-- An instruction: its opcode, the instance `u` it is addressed to (30_encoding.md R116,
60_exceptions.md R530) and its operand record. Enumerated operands of a command are words, because a
value outside the list is a command that returns INVALID_PARAM (R112). -/
inductive Instr
  /-- `INIT`, opcode 0x01 (R182). -/
  | init (u : Inst) (inst : Word)
  /-- `DEINIT`, opcode 0x02 (R183). -/
  | deinit (u : Inst)
  /-- `SET_CONFIG_ECB`, opcode 0x03 (R185). -/
  | setConfigEcb (u : Inst)
  /-- `SET_CONFIG_CBC`, opcode 0x04 (R186). -/
  | setConfigCbc (u : Inst) (pIv : Word)
  /-- `SET_CONFIG_CTR`, opcode 0x05 (R187). -/
  | setConfigCtr (u : Inst) (pIv : Word)
  /-- `SET_CONFIG_GCM_GMAC`, opcode 0x06 (R188). -/
  | setConfigGcmGmac (u : Inst) (pIv : Word) (pHeader : Word) (headerSize : Word)
  /-- `SET_CONFIG_CCM`, opcode 0x07 (R189). -/
  | setConfigCcm (u : Inst) (pB0 : Word) (pHeader : Word) (headerSize : Word)
  /-- `SET_DATA_SWAP`, opcode 0x08 (R190). -/
  | setDataSwap (u : Inst) (datatype : Word)
  /-- `GET_DATA_SWAP`, opcode 0x09 (R191). -/
  | getDataSwap (u : Inst)
  /-- `GET_STATE`, opcode 0x0a (R192). -/
  | getState (u : Inst)
  /-- `GET_LAST_ERROR_CODES`, opcode 0x0b (R193). -/
  | getLastErrorCodes (u : Inst)
  /-- `SET_USER_DATA`, opcode 0x0c (R194). -/
  | setUserData (u : Inst) (pUserData : Word)
  /-- `GET_USER_DATA`, opcode 0x0d (R198). -/
  | getUserData (u : Inst)
  /-- `REGISTER_CALLBACK`, opcode 0x0e (R196). -/
  | registerCallback (u : Inst) (kind : Word) (cb : Word)
  /-- `LINK_DMA`, opcode 0x0f (R197). -/
  | linkDma (u : Inst) (fifo : Word) (channel : Word)
  /-- `SET_NORMAL_KEY`, opcode 0x10 (R220). -/
  | setNormalKey (u : Inst) (pKey : Word) (keySize : Word)
  /-- `SET_HW_KEY`, opcode 0x11 (R225). -/
  | setHwKey (u : Inst) (keysel : Word) (kmod : Word) (keySize : Word)
  /-- `SET_SHARED_KEY`, opcode 0x12 (R224). -/
  | setSharedKey (u : Inst) (keySize : Word) (shareId : Word)
  /-- `ENABLE_KEY_PROTECTION`, opcode 0x13 (R227). -/
  | enableKeyProtection (u : Inst)
  /-- `DISABLE_KEY_PROTECTION`, opcode 0x14 (R229). -/
  | disableKeyProtection (u : Inst)
  /-- `ENCRYPT`, opcode 0x20 (R320). -/
  | encrypt (u : Inst) (pIn : Word) (sizeByte : Word) (pOut : Word) (timeoutMs : Word)
  /-- `DECRYPT`, opcode 0x21 (R321). -/
  | decrypt (u : Inst) (pIn : Word) (sizeByte : Word) (pOut : Word) (timeoutMs : Word)
  /-- `ENCRYPT_IT`, opcode 0x22 (R325). -/
  | encryptIt (u : Inst) (pIn : Word) (sizeByte : Word) (pOut : Word)
  /-- `DECRYPT_IT`, opcode 0x23 (R326). -/
  | decryptIt (u : Inst) (pIn : Word) (sizeByte : Word) (pOut : Word)
  /-- `ENCRYPT_DMA`, opcode 0x24 (R340). -/
  | encryptDma (u : Inst) (pIn : Word) (sizeByte : Word) (pOut : Word)
  /-- `DECRYPT_DMA`, opcode 0x25 (R341). -/
  | decryptDma (u : Inst) (pIn : Word) (sizeByte : Word) (pOut : Word)
  /-- `GCM_GENERATE_TAG`, opcode 0x28 (R300). -/
  | gcmGenerateTag (u : Inst) (pTag : Word) (timeoutMs : Word)
  /-- `CCM_GENERATE_TAG`, opcode 0x29 (R301). -/
  | ccmGenerateTag (u : Inst) (pTag : Word) (timeoutMs : Word)
  /-- `REQUEST_SUSPEND`, opcode 0x30 (R370). -/
  | requestSuspend (u : Inst)
  /-- `RESUME`, opcode 0x31 (R379). -/
  | resume (u : Inst)
  /-- `SAVE_CONTEXT`, opcode 0x32 (R373). -/
  | saveContext (u : Inst) (ctx : Word)
  /-- `RESTORE_CONTEXT`, opcode 0x33 (R376). -/
  | restoreContext (u : Inst) (ctx : Word)
  /-- `WRAP_KEY`, opcode 0x40 (R400). -/
  | wrapKey (u : Inst) (pKeyIn : Word) (pOut : Word) (timeoutMs : Word)
  /-- `UNWRAP_KEY`, opcode 0x41 (R401). -/
  | unwrapKey (u : Inst) (pWrapped : Word) (timeoutMs : Word)
  /-- `ENCRYPT_SHARED_KEY`, opcode 0x42 (R402). -/
  | encryptSharedKey (u : Inst) (pKeyIn : Word) (pOut : Word) (shareId : Word) (timeoutMs : Word)
  /-- `DECRYPT_SHARED_KEY`, opcode 0x43 (R404). -/
  | decryptSharedKey (u : Inst) (pEncKey : Word) (shareId : Word) (timeoutMs : Word)
  /-- `IRQ`, opcode 0x80 (R330). -/
  | irq (u : Inst)
  /-- `DMA_IN_CPLT`, opcode 0x81 (R345). -/
  | dmaInCplt (u : Inst)
  /-- `DMA_OUT_CPLT`, opcode 0x82 (R346). -/
  | dmaOutCplt (u : Inst)
  /-- `DMA_ERROR`, opcode 0x83 (R347). -/
  | dmaError (u : Inst) (fifo : Fifo)
  /-- `BUS_CR_WRITE`, opcode 0xc0 (R141). -/
  | busCrWrite (u : Inst) (field : CrField) (value : Word)
  /-- `BUS_CR_READ`, opcode 0xc1 (R144). -/
  | busCrRead (u : Inst)
  /-- `BUS_FLAG_READ`, opcode 0xc2 (R142). -/
  | busFlagRead (u : Inst) (flag : FlagName)
  /-- `BUS_FLAG_CLEAR`, opcode 0xc3 (R143). -/
  | busFlagClear (u : Inst) (flag : FlagName)
  /-- `BUS_DIN_WRITE`, opcode 0xc4 (R145). -/
  | busDinWrite (u : Inst) (w : Word)
  /-- `BUS_DOUT_READ`, opcode 0xc5 (R146). -/
  | busDoutRead (u : Inst)
  /-- `BUS_KEYR_WRITE`, opcode 0xc6 (R149). -/
  | busKeyrWrite (u : Inst) (i : Fin 8) (w : Word)
  /-- `BUS_IVR_WRITE`, opcode 0xc7 (R150). -/
  | busIvrWrite (u : Inst) (i : Fin 4) (w : Word)
  /-- `BUS_IVR_READ`, opcode 0xc8 (R159). -/
  | busIvrRead (u : Inst) (i : Fin 4)
  /-- `BUS_SUSPR_WRITE`, opcode 0xc9 (R160). -/
  | busSusprWrite (u : Inst) (i : Fin 8) (w : Word)
  /-- `BUS_SUSPR_READ`, opcode 0xca (R161). -/
  | busSusprRead (u : Inst) (i : Fin 8)
  /-- `BUS_IER_WRITE`, opcode 0xcb (R162). -/
  | busIerWrite (u : Inst) (mask : BitVec 4)
  deriving DecidableEq, Repr

/-- The operand record as words (log 1): the addressed instance, then up to four operands. -/
structure Record where
  target : Word
  a      : Word
  b      : Word
  c      : Word
  d      : Word
  deriving DecidableEq, Repr

/-- The format of an instruction (R110: told apart by the opcode alone). -/
def Instr.format : Instr → Format
  | .init _ _ => .cmd
  | .deinit _ => .cmd
  | .setConfigEcb _ => .cmd
  | .setConfigCbc _ _ => .cmd
  | .setConfigCtr _ _ => .cmd
  | .setConfigGcmGmac _ _ _ _ => .cmd
  | .setConfigCcm _ _ _ _ => .cmd
  | .setDataSwap _ _ => .cmd
  | .getDataSwap _ => .cmd
  | .getState _ => .cmd
  | .getLastErrorCodes _ => .cmd
  | .setUserData _ _ => .cmd
  | .getUserData _ => .cmd
  | .registerCallback _ _ _ => .cmd
  | .linkDma _ _ _ => .cmd
  | .setNormalKey _ _ _ => .cmd
  | .setHwKey _ _ _ _ => .cmd
  | .setSharedKey _ _ _ => .cmd
  | .enableKeyProtection _ => .cmd
  | .disableKeyProtection _ => .cmd
  | .encrypt _ _ _ _ _ => .cmd
  | .decrypt _ _ _ _ _ => .cmd
  | .encryptIt _ _ _ _ => .cmd
  | .decryptIt _ _ _ _ => .cmd
  | .encryptDma _ _ _ _ => .cmd
  | .decryptDma _ _ _ _ => .cmd
  | .gcmGenerateTag _ _ _ => .cmd
  | .ccmGenerateTag _ _ _ => .cmd
  | .requestSuspend _ => .cmd
  | .resume _ => .cmd
  | .saveContext _ _ => .cmd
  | .restoreContext _ _ => .cmd
  | .wrapKey _ _ _ _ => .cmd
  | .unwrapKey _ _ _ => .cmd
  | .encryptSharedKey _ _ _ _ _ => .cmd
  | .decryptSharedKey _ _ _ _ => .cmd
  | .irq _ => .evt
  | .dmaInCplt _ => .evt
  | .dmaOutCplt _ => .evt
  | .dmaError _ _ => .evt
  | .busCrWrite _ _ _ => .bus
  | .busCrRead _ => .bus
  | .busFlagRead _ _ => .bus
  | .busFlagClear _ _ => .bus
  | .busDinWrite _ _ => .bus
  | .busDoutRead _ => .bus
  | .busKeyrWrite _ _ _ => .bus
  | .busIvrWrite _ _ _ => .bus
  | .busIvrRead _ _ => .bus
  | .busSusprWrite _ _ _ => .bus
  | .busSusprRead _ _ => .bus
  | .busIerWrite _ _ => .bus

/-- The instance an instruction is addressed to (30_encoding.md R116). -/
def Instr.target : Instr → Inst
  | .init u _ => u
  | .deinit u => u
  | .setConfigEcb u => u
  | .setConfigCbc u _ => u
  | .setConfigCtr u _ => u
  | .setConfigGcmGmac u _ _ _ => u
  | .setConfigCcm u _ _ _ => u
  | .setDataSwap u _ => u
  | .getDataSwap u => u
  | .getState u => u
  | .getLastErrorCodes u => u
  | .setUserData u _ => u
  | .getUserData u => u
  | .registerCallback u _ _ => u
  | .linkDma u _ _ => u
  | .setNormalKey u _ _ => u
  | .setHwKey u _ _ _ => u
  | .setSharedKey u _ _ => u
  | .enableKeyProtection u => u
  | .disableKeyProtection u => u
  | .encrypt u _ _ _ _ => u
  | .decrypt u _ _ _ _ => u
  | .encryptIt u _ _ _ => u
  | .decryptIt u _ _ _ => u
  | .encryptDma u _ _ _ => u
  | .decryptDma u _ _ _ => u
  | .gcmGenerateTag u _ _ => u
  | .ccmGenerateTag u _ _ => u
  | .requestSuspend u => u
  | .resume u => u
  | .saveContext u _ => u
  | .restoreContext u _ => u
  | .wrapKey u _ _ _ => u
  | .unwrapKey u _ _ => u
  | .encryptSharedKey u _ _ _ _ => u
  | .decryptSharedKey u _ _ _ => u
  | .irq u => u
  | .dmaInCplt u => u
  | .dmaOutCplt u => u
  | .dmaError u _ => u
  | .busCrWrite u _ _ => u
  | .busCrRead u => u
  | .busFlagRead u _ => u
  | .busFlagClear u _ => u
  | .busDinWrite u _ => u
  | .busDoutRead u => u
  | .busKeyrWrite u _ _ => u
  | .busIvrWrite u _ _ => u
  | .busIvrRead u _ => u
  | .busSusprWrite u _ _ => u
  | .busSusprRead u _ => u
  | .busIerWrite u _ => u

end Sys2Proof
end

