-- ==== Sys2Proof/Config.lean ====
section
/-! DEFINITION. The control register's fields and values, the AES core's interface, the agents' turns, and the opaque constants that stand for what the spec leaves open (00_scope.md R9, 10_state.md R67, 92_eei_decisions.md open parameters). -/

namespace Sys2Proof

/-! ### Enumerated values (30_encoding.md R112, 10_state.md R41), in encoding order -/

/-- `CR.DATATYPE`, the data-swap setting. -/
inductive DataType | none | halfword | byte | bit
  deriving DecidableEq, Repr, Inhabited

/-- `CR.MODE`. The reserved value is never held (R41). -/
inductive Mode | encrypt | keyDeriv | decrypt
  deriving DecidableEq, Repr, Inhabited

/-- `CR.CHMOD` and the chaining algorithm. -/
inductive Alg | ecb | cbc | ctr | gcmGmac | ccm
  deriving DecidableEq, Repr, Inhabited

/-- `CR.GCMPH`, the phase of GCM, GMAC and CCM (44_phase_machine.md R280). -/
inductive Phase | init | header | payload | final
  deriving DecidableEq, Repr, Inhabited

/-- `CR.KEYSIZE`. -/
inductive KeySize | k128 | k256
  deriving DecidableEq, Repr, Inhabited

/-- `KEY_WORDS(s)` (00_scope.md R9). -/
def KeySize.words : KeySize → Nat
  | .k128 => 4
  | .k256 => 8

/-- `CR.KMOD`, the key mode. -/
inductive KMod | normal | wrapped | shared
  deriving DecidableEq, Repr, Inhabited

/-- `CR.KEYSEL`, the key source. -/
inductive KeySel | software | dhuk | bhk | dhukXorBhk
  deriving DecidableEq, Repr, Inhabited

/-- The control register, one field per row of 10_state.md R41. -/
structure CR where
  en       : Bool
  datatype : DataType
  mode     : Mode
  chmod    : Alg
  gcmph    : Phase
  dmainen  : Bool
  dmaouten : Bool
  keysize  : KeySize
  npblb    : BitVec 4
  kmod     : KMod
  kshareid : BitVec 2
  keysel   : KeySel
  keyprot  : Bool
  deriving DecidableEq, Repr, Inhabited

/-- The hardware-reset value of `CR`: every field its first listed value (10_state.md R41, R66). -/
def CR.reset : CR where
  en := false
  datatype := .none
  mode := .encrypt
  chmod := .ecb
  gcmph := .init
  dmainen := false
  dmaouten := false
  keysize := .k128
  npblb := 0
  kmod := .normal
  kshareid := 0
  keysel := .software
  keyprot := false

/-- One write of one `CR` field with a symbolic value (40_register_access.md R141). -/
inductive CrWrite
  | en (v : Bool)
  | datatype (v : DataType)
  | mode (v : Mode)
  | chmod (v : Alg)
  | gcmph (v : Phase)
  | dmainen (v : Bool)
  | dmaouten (v : Bool)
  | keysize (v : KeySize)
  | npblb (v : BitVec 4)
  | kmod (v : KMod)
  | kshareid (v : BitVec 2)
  | keysel (v : KeySel)
  | keyprot (v : Bool)
  deriving DecidableEq, Repr

/-! ### The AES core's interface (10_state.md R44 to R46, R50) -/

/-- The configuration the AES transform sees (R44). -/
structure CoreCfg where
  chmod    : Alg
  mode     : Mode
  gcmph    : Phase
  datatype : DataType
  keysize  : KeySize
  npblb    : BitVec 4
  kmod     : KMod
  deriving DecidableEq, Repr, Inhabited

/-- `CoreCfg(CR)` (R44, 40_register_access.md R152). -/
def CR.coreCfg (c : CR) : CoreCfg :=
  ⟨c.chmod, c.mode, c.gcmph, c.datatype, c.keysize, c.npblb, c.kmod⟩

/-- The key material (R46): an opaque value, held as a code so that states stay comparable (log 10). -/
structure KeyMat where
  code : Nat
  deriving DecidableEq, Repr, Inhabited

/-- The core's chaining, counter and hash state (R44): an opaque value, held as a code (log 10). -/
structure Chain where
  code : Nat
  deriving DecidableEq, Repr, Inhabited

/-- The jobs of the core (R44). -/
inductive Job
  | block (w0 w1 w2 w3 : Word)
  | init
  | keyDeriv
  | finalCcm
  deriving DecidableEq, Repr, Inhabited

/-- The source of a key load (40_register_access.md R154). -/
inductive KeySource
  | software
  | hw (k : KeySel)
  | shared (id : Nat)
  deriving DecidableEq, Repr, Inhabited

/-! ### Agents and their draws (00_scope.md R18, 93_implementation_defined.md section 5) -/

/-- The events a DMA channel delivers (20_memory.md R92). -/
inductive DmaEvent
  | inCplt
  | outCplt
  | error (q : Fifo)
  deriving DecidableEq, Repr, Inhabited

/-- A delivered event whose entry has not run (60_exceptions.md R511). `stale`: its call has ended, by
`Fail` or by a `DEINIT`, and the entry has no effect (R504, 45_transport.md R348, log 39). -/
structure PendingEvent where
  event : DmaEvent
  stale : Bool
  deriving DecidableEq, Repr, Inhabited

/-- What the AES core does in one of its steps, with that step's draws. -/
inductive CoreAct
  /-- Complete the job; `enAfter` is the draw of 40_register_access.md R164. -/
  | finishJob (enAfter : Bool)
  /-- Complete the key load; `ok = false` is the draw `core_key_error` (R155). -/
  | finishKeyLoad (ok : Bool)
  /-- A key error mid-flight (R158); whether `KEYVALID` falls with it is drawn (log 14). -/
  | keyError (keyLost : Bool)
  /-- An RNG error (R157); whether the job in progress is lost is drawn (log 13). -/
  | rngError (jobLost : Bool)
  /-- End the SAES start-up; `rngErr` is the draw of 70_reset_and_hazards.md R602. -/
  | endStartup (rngErr : Bool)
  deriving DecidableEq, Repr, Inhabited

/-- Which agent moves in a step (00_scope.md R18), with that step's draws. -/
inductive Turn
  /-- The mainline: begin the next command, or one iteration of the running command's WaitFlag, whose
  bound elapses if `timeout` (43_block_pump.md R250). -/
  | mainline (timeout : Bool)
  /-- The interrupt handler of `u` is entered (60_exceptions.md R510). -/
  | irq (u : Inst)
  /-- A pending DMA event of `u` is handled (60_exceptions.md R511). -/
  | dmaEntry (u : Inst) (e : PendingEvent)
  /-- One iteration of the WaitFlag of the interrupt-context entry in progress (20_memory.md R88). -/
  | handlerWait (timeout : Bool)
  /-- A DMA channel of `u` moves one word, or stops with an error (20_memory.md R92). -/
  | dma (u : Inst) (q : Fifo) (err : Bool)
  /-- The AES core of `u`. -/
  | core (u : Inst) (a : CoreAct)
  deriving DecidableEq, Repr, Inhabited

namespace Config

/-- The AES transform (10_state.md R44): the four output words and the next chaining state. -/
opaque aesCore : CoreCfg → KeyMat → Chain → Job → Block × Chain

/-- `key_from` (40_register_access.md R155): the key material a load yields, from its source and the key
words that the source uses (10_state.md R46, log 40). -/
opaque keyFrom : KeySource → List Word → KeySize → KMod → KeyMat

/-- The decryption schedule derived from a key (40_register_access.md R152). -/
opaque derivedSchedule : KeyMat → KeyMat

/-- The key made of the words an unwrap or shared-key decryption collected (40_register_access.md R156). -/
opaque keyOfWords : KeySize → List Word → KeyMat

/-- `chain_from` (40_register_access.md R151, 10_state.md R50). -/
opaque chainFrom : CR → Vector Word 4 → Vector Word 8 → KeyMat → Chain

/-- The projection of the chaining state on `IVR` (10_state.md R47, R50). -/
opaque ivOf : Chain → Vector Word 4

/-- The projection of the chaining state on `SUSPR` (10_state.md R48, R50). -/
opaque suspOf : Chain → Vector Word 8

/-- The word the `n`-th read error returns (40_register_access.md R146): any value. -/
opaque readErrorWord : Nat → Word

/-- The agent that moves in the `n`-th step, with its draws: any value. -/
opaque schedule : Nat → Turn

/-- `KSHAREID_VALUES - 1`, from 0 to 3 (00_scope.md R9: OPEN, at least one value; log 18). -/
opaque moreShareIds : Fin 4

/-- `KSHAREID_VALUES` (00_scope.md R9). -/
def kshareidValues : Nat := moreShareIds.val + 1

/-- `AES_BASE`, the base address of the AES (00_scope.md R9, 20_memory.md R99: OPEN). -/
opaque aesBase : Nat

/-- `SAES_BASE`, the base address of the SAES (R9, R99: OPEN). -/
opaque saesBase : Nat

/-- `SAES_RESET_BUSY` (00_scope.md R9, 10_state.md R66): the spec's default 1. -/
def saesResetBusy : Bool := true

end Config

end Sys2Proof
end

