-- ==== Sys2Proof/WellFormed.lean ====
section
/-! DEFINITION. Well-formed instructions: the one operand whose range depends on another operand is the value of a bus write to `CR`, which must be one of the encodings of its field (10_state.md R41, 40_register_access.md R141). Every other range is in the operand's type. -/

namespace Sys2Proof

/-- A value fits the width of its `CR` field (10_state.md R41). -/
def CrField.admits (f : CrField) (v : Word) : Bool := v.toNat < 2 ^ f.width

/-- The operands of the instruction are ones its operand record can hold. -/
def Instr.wellFormed : Instr → Bool
  | .init _ _ => true
  | .deinit _ => true
  | .setConfigEcb _ => true
  | .setConfigCbc _ _ => true
  | .setConfigCtr _ _ => true
  | .setConfigGcmGmac _ _ _ _ => true
  | .setConfigCcm _ _ _ _ => true
  | .setDataSwap _ _ => true
  | .getDataSwap _ => true
  | .getState _ => true
  | .getLastErrorCodes _ => true
  | .setUserData _ _ => true
  | .getUserData _ => true
  | .registerCallback _ _ _ => true
  | .linkDma _ _ _ => true
  | .setNormalKey _ _ _ => true
  | .setHwKey _ _ _ _ => true
  | .setSharedKey _ _ _ => true
  | .enableKeyProtection _ => true
  | .disableKeyProtection _ => true
  | .encrypt _ _ _ _ _ => true
  | .decrypt _ _ _ _ _ => true
  | .encryptIt _ _ _ _ => true
  | .decryptIt _ _ _ _ => true
  | .encryptDma _ _ _ _ => true
  | .decryptDma _ _ _ _ => true
  | .gcmGenerateTag _ _ _ => true
  | .ccmGenerateTag _ _ _ => true
  | .requestSuspend _ => true
  | .resume _ => true
  | .saveContext _ _ => true
  | .restoreContext _ _ => true
  | .wrapKey _ _ _ _ => true
  | .unwrapKey _ _ _ => true
  | .encryptSharedKey _ _ _ _ _ => true
  | .decryptSharedKey _ _ _ _ => true
  | .irq _ => true
  | .dmaInCplt _ => true
  | .dmaOutCplt _ => true
  | .dmaError _ _ => true
  | .busCrWrite _ f v => f.admits v
  | .busCrRead _ => true
  | .busFlagRead _ _ => true
  | .busFlagClear _ _ => true
  | .busDinWrite _ _ => true
  | .busDoutRead _ => true
  | .busKeyrWrite _ _ _ => true
  | .busIvrWrite _ _ _ => true
  | .busIvrRead _ _ => true
  | .busSusprWrite _ _ _ => true
  | .busSusprRead _ _ => true
  | .busIerWrite _ _ => true

end Sys2Proof
end

