-- ==== Sys2Proof/Decode.lean ====
section
/-! DEFINITION. The decoder of a command word with its operand record (30_encoding.md R110 to R114), the encoder, and the decoder over table words. The numbering of the record's slots is log 1. -/

namespace Sys2Proof

/-- Why a word and its record are no instruction. -/
inductive DecodeError
  /-- bits [31:8] are not zero, or the opcode is not in the map (R114) -/
  | unknownOpcode
  /-- the record addresses neither AES nor SAES (log 1) -/
  | badTarget
  /-- a slot beyond the opcode's operands is not zero (log 1) -/
  | surplusOperand
  /-- an operand of an event or bus operation lies outside its list (R112) -/
  | badOperand
  deriving DecidableEq, Repr

/-! ### Operand values (R112) -/

def instWord : Inst → Word
  | .aes => 0
  | .saes => 1

def fifoWord : Fifo → Word
  | .input => 0
  | .output => 1

def flagWord : FlagName → Word
  | .ccf => 0
  | .busy => 1
  | .keyvalid => 2
  | .keif => 3
  | .rngeif => 4
  | .rweif => 5
  | .rderr => 6
  | .wrerr => 7

/-- The `CR` fields in the order of 10_state.md R41. -/
def crFieldWord : CrField → Word
  | .en => 0
  | .datatype => 1
  | .mode => 2
  | .chmod => 3
  | .gcmph => 4
  | .dmainen => 5
  | .dmaouten => 6
  | .keysize => 7
  | .npblb => 8
  | .kmod => 9
  | .kshareid => 10
  | .keysel => 11
  | .keyprot => 12

def targetOf (w : Word) : Except DecodeError Inst :=
  match w.toNat with
  | 0 => .ok .aes
  | 1 => .ok .saes
  | _ => .error .badTarget

def fifoOf (w : Word) : Except DecodeError Fifo :=
  match w.toNat with
  | 0 => .ok .input
  | 1 => .ok .output
  | _ => .error .badOperand

def flagOf (w : Word) : Except DecodeError FlagName :=
  match w.toNat with
  | 0 => .ok .ccf
  | 1 => .ok .busy
  | 2 => .ok .keyvalid
  | 3 => .ok .keif
  | 4 => .ok .rngeif
  | 5 => .ok .rweif
  | 6 => .ok .rderr
  | 7 => .ok .wrerr
  | _ => .error .badOperand

def crFieldOfWord (w : Word) : Except DecodeError CrField :=
  match w.toNat with
  | 0 => .ok .en
  | 1 => .ok .datatype
  | 2 => .ok .mode
  | 3 => .ok .chmod
  | 4 => .ok .gcmph
  | 5 => .ok .dmainen
  | 6 => .ok .dmaouten
  | 7 => .ok .keysize
  | 8 => .ok .npblb
  | 9 => .ok .kmod
  | 10 => .ok .kshareid
  | 11 => .ok .keysel
  | 12 => .ok .keyprot
  | _ => .error .badOperand

/-- The value of a bus write must fit its field (10_state.md R41). -/
def crValueOf (f : CrField) (v : Word) : Except DecodeError Word :=
  if f.admits v then .ok v else .error .badOperand

/-- A register index. -/
def indexOf (n : Nat) (w : Word) : Except DecodeError (Fin n) :=
  if h : w.toNat < n then .ok ⟨w.toNat, h⟩ else .error .badOperand

/-- A set of the four interrupt-enable bits, `CCFIE` in bit 0 (log 1). -/
def maskOf (w : Word) : Except DecodeError (BitVec 4) :=
  if w.toNat < 16 then .ok (w.truncate 4) else .error .badOperand

/-- The slots from number `n` on are zero; then the instruction. -/
def surplus (n : Nat) (r : Record) (i : Instr) : Except DecodeError Instr :=
  if (n ≤ 0 → r.a = 0) ∧ (n ≤ 1 → r.b = 0) ∧ (n ≤ 2 → r.c = 0) ∧ (n ≤ 3 → r.d = 0) then .ok i
  else .error .surplusOperand

/-! ### The opcode map (R111) -/

/-- The instruction of an opcode, given the instance it is addressed to; `none` is an opcode outside the
map. -/
def decodeOp (op : Nat) (r : Record) : Option (Inst → Except DecodeError Instr) :=
  match op with
  | 0x01 => some fun u => surplus 1 r (.init u r.a)
  | 0x02 => some fun u => surplus 0 r (.deinit u)
  | 0x03 => some fun u => surplus 0 r (.setConfigEcb u)
  | 0x04 => some fun u => surplus 1 r (.setConfigCbc u r.a)
  | 0x05 => some fun u => surplus 1 r (.setConfigCtr u r.a)
  | 0x06 => some fun u => surplus 3 r (.setConfigGcmGmac u r.a r.b r.c)
  | 0x07 => some fun u => surplus 3 r (.setConfigCcm u r.a r.b r.c)
  | 0x08 => some fun u => surplus 1 r (.setDataSwap u r.a)
  | 0x09 => some fun u => surplus 0 r (.getDataSwap u)
  | 0x0a => some fun u => surplus 0 r (.getState u)
  | 0x0b => some fun u => surplus 0 r (.getLastErrorCodes u)
  | 0x0c => some fun u => surplus 1 r (.setUserData u r.a)
  | 0x0d => some fun u => surplus 0 r (.getUserData u)
  | 0x0e => some fun u => surplus 2 r (.registerCallback u r.a r.b)
  | 0x0f => some fun u => surplus 2 r (.linkDma u r.a r.b)
  | 0x10 => some fun u => surplus 2 r (.setNormalKey u r.a r.b)
  | 0x11 => some fun u => surplus 3 r (.setHwKey u r.a r.b r.c)
  | 0x12 => some fun u => surplus 2 r (.setSharedKey u r.a r.b)
  | 0x13 => some fun u => surplus 0 r (.enableKeyProtection u)
  | 0x14 => some fun u => surplus 0 r (.disableKeyProtection u)
  | 0x20 => some fun u => surplus 4 r (.encrypt u r.a r.b r.c r.d)
  | 0x21 => some fun u => surplus 4 r (.decrypt u r.a r.b r.c r.d)
  | 0x22 => some fun u => surplus 3 r (.encryptIt u r.a r.b r.c)
  | 0x23 => some fun u => surplus 3 r (.decryptIt u r.a r.b r.c)
  | 0x24 => some fun u => surplus 3 r (.encryptDma u r.a r.b r.c)
  | 0x25 => some fun u => surplus 3 r (.decryptDma u r.a r.b r.c)
  | 0x28 => some fun u => surplus 2 r (.gcmGenerateTag u r.a r.b)
  | 0x29 => some fun u => surplus 2 r (.ccmGenerateTag u r.a r.b)
  | 0x30 => some fun u => surplus 0 r (.requestSuspend u)
  | 0x31 => some fun u => surplus 0 r (.resume u)
  | 0x32 => some fun u => surplus 1 r (.saveContext u r.a)
  | 0x33 => some fun u => surplus 1 r (.restoreContext u r.a)
  | 0x40 => some fun u => surplus 3 r (.wrapKey u r.a r.b r.c)
  | 0x41 => some fun u => surplus 2 r (.unwrapKey u r.a r.b)
  | 0x42 => some fun u => surplus 4 r (.encryptSharedKey u r.a r.b r.c r.d)
  | 0x43 => some fun u => surplus 3 r (.decryptSharedKey u r.a r.b r.c)
  | 0x80 => some fun u => surplus 0 r (.irq u)
  | 0x81 => some fun u => surplus 0 r (.dmaInCplt u)
  | 0x82 => some fun u => surplus 0 r (.dmaOutCplt u)
  | 0x83 => some fun u => (fifoOf r.a).bind fun x => surplus 1 r (.dmaError u x)
  | 0xc0 => some fun u => (crFieldOfWord r.a).bind fun x => (crValueOf x r.b).bind fun v => surplus 2 r (.busCrWrite u x v)
  | 0xc1 => some fun u => surplus 0 r (.busCrRead u)
  | 0xc2 => some fun u => (flagOf r.a).bind fun x => surplus 1 r (.busFlagRead u x)
  | 0xc3 => some fun u => (flagOf r.a).bind fun x => surplus 1 r (.busFlagClear u x)
  | 0xc4 => some fun u => surplus 1 r (.busDinWrite u r.a)
  | 0xc5 => some fun u => surplus 0 r (.busDoutRead u)
  | 0xc6 => some fun u => (indexOf 8 r.a).bind fun x => surplus 2 r (.busKeyrWrite u x r.b)
  | 0xc7 => some fun u => (indexOf 4 r.a).bind fun x => surplus 2 r (.busIvrWrite u x r.b)
  | 0xc8 => some fun u => (indexOf 4 r.a).bind fun x => surplus 1 r (.busIvrRead u x)
  | 0xc9 => some fun u => (indexOf 8 r.a).bind fun x => surplus 2 r (.busSusprWrite u x r.b)
  | 0xca => some fun u => (indexOf 8 r.a).bind fun x => surplus 1 r (.busSusprRead u x)
  | 0xcb => some fun u => (maskOf r.a).bind fun x => surplus 1 r (.busIerWrite u x)
  | _ => none

/-- The decoder: the whole word is the opcode, so a set bit above [7:0] spells nothing (R110, R114). -/
def decode (w : Word) (r : Record) : Except DecodeError Instr :=
  match decodeOp w.toNat r with
  | none => .error .unknownOpcode
  | some f => (targetOf r.target).bind f

/-- The encoder: the word and the operand record of an instruction. -/
def encode (i : Instr) : Word × Record :=
  match i with
  | .init u inst => (0x01, ⟨instWord u, inst, 0, 0, 0⟩)
  | .deinit u => (0x02, ⟨instWord u, 0, 0, 0, 0⟩)
  | .setConfigEcb u => (0x03, ⟨instWord u, 0, 0, 0, 0⟩)
  | .setConfigCbc u pIv => (0x04, ⟨instWord u, pIv, 0, 0, 0⟩)
  | .setConfigCtr u pIv => (0x05, ⟨instWord u, pIv, 0, 0, 0⟩)
  | .setConfigGcmGmac u pIv pHeader headerSize => (0x06, ⟨instWord u, pIv, pHeader, headerSize, 0⟩)
  | .setConfigCcm u pB0 pHeader headerSize => (0x07, ⟨instWord u, pB0, pHeader, headerSize, 0⟩)
  | .setDataSwap u datatype => (0x08, ⟨instWord u, datatype, 0, 0, 0⟩)
  | .getDataSwap u => (0x09, ⟨instWord u, 0, 0, 0, 0⟩)
  | .getState u => (0x0a, ⟨instWord u, 0, 0, 0, 0⟩)
  | .getLastErrorCodes u => (0x0b, ⟨instWord u, 0, 0, 0, 0⟩)
  | .setUserData u pUserData => (0x0c, ⟨instWord u, pUserData, 0, 0, 0⟩)
  | .getUserData u => (0x0d, ⟨instWord u, 0, 0, 0, 0⟩)
  | .registerCallback u kind cb => (0x0e, ⟨instWord u, kind, cb, 0, 0⟩)
  | .linkDma u fifo channel => (0x0f, ⟨instWord u, fifo, channel, 0, 0⟩)
  | .setNormalKey u pKey keySize => (0x10, ⟨instWord u, pKey, keySize, 0, 0⟩)
  | .setHwKey u keysel kmod keySize => (0x11, ⟨instWord u, keysel, kmod, keySize, 0⟩)
  | .setSharedKey u keySize shareId => (0x12, ⟨instWord u, keySize, shareId, 0, 0⟩)
  | .enableKeyProtection u => (0x13, ⟨instWord u, 0, 0, 0, 0⟩)
  | .disableKeyProtection u => (0x14, ⟨instWord u, 0, 0, 0, 0⟩)
  | .encrypt u pIn sizeByte pOut timeoutMs => (0x20, ⟨instWord u, pIn, sizeByte, pOut, timeoutMs⟩)
  | .decrypt u pIn sizeByte pOut timeoutMs => (0x21, ⟨instWord u, pIn, sizeByte, pOut, timeoutMs⟩)
  | .encryptIt u pIn sizeByte pOut => (0x22, ⟨instWord u, pIn, sizeByte, pOut, 0⟩)
  | .decryptIt u pIn sizeByte pOut => (0x23, ⟨instWord u, pIn, sizeByte, pOut, 0⟩)
  | .encryptDma u pIn sizeByte pOut => (0x24, ⟨instWord u, pIn, sizeByte, pOut, 0⟩)
  | .decryptDma u pIn sizeByte pOut => (0x25, ⟨instWord u, pIn, sizeByte, pOut, 0⟩)
  | .gcmGenerateTag u pTag timeoutMs => (0x28, ⟨instWord u, pTag, timeoutMs, 0, 0⟩)
  | .ccmGenerateTag u pTag timeoutMs => (0x29, ⟨instWord u, pTag, timeoutMs, 0, 0⟩)
  | .requestSuspend u => (0x30, ⟨instWord u, 0, 0, 0, 0⟩)
  | .resume u => (0x31, ⟨instWord u, 0, 0, 0, 0⟩)
  | .saveContext u ctx => (0x32, ⟨instWord u, ctx, 0, 0, 0⟩)
  | .restoreContext u ctx => (0x33, ⟨instWord u, ctx, 0, 0, 0⟩)
  | .wrapKey u pKeyIn pOut timeoutMs => (0x40, ⟨instWord u, pKeyIn, pOut, timeoutMs, 0⟩)
  | .unwrapKey u pWrapped timeoutMs => (0x41, ⟨instWord u, pWrapped, timeoutMs, 0, 0⟩)
  | .encryptSharedKey u pKeyIn pOut shareId timeoutMs => (0x42, ⟨instWord u, pKeyIn, pOut, shareId, timeoutMs⟩)
  | .decryptSharedKey u pEncKey shareId timeoutMs => (0x43, ⟨instWord u, pEncKey, shareId, timeoutMs, 0⟩)
  | .irq u => (0x80, ⟨instWord u, 0, 0, 0, 0⟩)
  | .dmaInCplt u => (0x81, ⟨instWord u, 0, 0, 0, 0⟩)
  | .dmaOutCplt u => (0x82, ⟨instWord u, 0, 0, 0, 0⟩)
  | .dmaError u fifo => (0x83, ⟨instWord u, fifoWord fifo, 0, 0, 0⟩)
  | .busCrWrite u field value => (0xc0, ⟨instWord u, crFieldWord field, value, 0, 0⟩)
  | .busCrRead u => (0xc1, ⟨instWord u, 0, 0, 0, 0⟩)
  | .busFlagRead u flag => (0xc2, ⟨instWord u, flagWord flag, 0, 0, 0⟩)
  | .busFlagClear u flag => (0xc3, ⟨instWord u, flagWord flag, 0, 0, 0⟩)
  | .busDinWrite u w => (0xc4, ⟨instWord u, w, 0, 0, 0⟩)
  | .busDoutRead u => (0xc5, ⟨instWord u, 0, 0, 0, 0⟩)
  | .busKeyrWrite u i w => (0xc6, ⟨instWord u, BitVec.ofNat 32 i.val, w, 0, 0⟩)
  | .busIvrWrite u i w => (0xc7, ⟨instWord u, BitVec.ofNat 32 i.val, w, 0, 0⟩)
  | .busIvrRead u i => (0xc8, ⟨instWord u, BitVec.ofNat 32 i.val, 0, 0, 0⟩)
  | .busSusprWrite u i w => (0xc9, ⟨instWord u, BitVec.ofNat 32 i.val, w, 0, 0⟩)
  | .busSusprRead u i => (0xca, ⟨instWord u, BitVec.ofNat 32 i.val, 0, 0, 0⟩)
  | .busIerWrite u mask => (0xcb, ⟨instWord u, mask.zeroExtend 32, 0, 0, 0⟩)

/-- Word `k` of an instruction whose bits are `v`, bit 0 the least significant bit of the first word. -/
def tableWord (v k : Nat) : Word := BitVec.ofNat 32 (v / 2 ^ (32 * k))

/-- The command word and the operand record laid out after it: target, then the four slots (log 1). -/
def tableRecord (v : Nat) : Record :=
  ⟨tableWord v 1, tableWord v 2, tableWord v 3, tableWord v 4, tableWord v 5⟩

/-- The instruction the decoder reads from the bits `w` of an opcode-table row; the bits above `nbits`
are 0. -/
def decodeTableWord (nbits w : Nat) : Option Instr :=
  let v := w % 2 ^ nbits
  match decode (tableWord v 0) (tableRecord v) with
  | .ok i => some i
  | .error _ => none

end Sys2Proof
end

