-- ==== Sys2Proof/Machine/State.lean ====
section
/-! DEFINITION. The machine's state (10_state.md), the reasons a run stops (93_implementation_defined.md sections 2 to 4), and the state after a hardware reset (70_reset_and_hazards.md R600, R601). -/

namespace Sys2Proof.Machine

/-! ### The handle (10_state.md R21) -/

/-- The lifecycle (R22), in the encoding order of 30_encoding.md R112. -/
inductive Life | reset | init | idle | active | suspended
  deriving DecidableEq, Repr, Inhabited

/-- The transport of the call in progress (R21, hidden). -/
inductive Transport | none | poll | it | dma
  deriving DecidableEq, Repr, Inhabited

/-- The direction of the current message (R21, hidden). -/
inductive Direction | none | enc | dec
  deriving DecidableEq, Repr, Inhabited

/-- Whether the message may take more calls (R21, hidden). -/
inductive MsgStatus | open | tagOnly | closed
  deriving DecidableEq, Repr, Inhabited

/-- Which schedule the key registers hold (R21, hidden). -/
inductive KeySched | none | enc | dec
  deriving DecidableEq, Repr, Inhabited

/-- Where the key in the core came from (R21, hidden). -/
inductive KeyOrigin | none | software | hw | unwrapped | shared
  deriving DecidableEq, Repr, Inhabited

/-- The handle, one per instance (R20, R21). An address 0 is NULL; a callback `none` is `NOOP` (R32). -/
structure Handle where
  inst           : Option Inst
  state          : Life
  algorithm      : Option Alg
  pIn            : Word
  pOut           : Word
  dataSizeByte   : Word
  dataSizeSum    : Word
  pHeader        : Word
  headerSize     : Word
  blockIndex     : Word
  suspendRequest : Bool
  lastErrorCodes : Word
  pUserData      : Word
  cbInCplt       : Option Word
  cbOutCplt      : Option Word
  cbError        : Option Word
  cbSuspend      : Option Word
  hdmaIn         : Word
  hdmaOut        : Word
  pKey           : Word
  keySize        : KeySize
  transport      : Transport
  direction      : Direction
  msgStatus      : MsgStatus
  keySched       : KeySched
  keySrc         : KeyOrigin
  dmaInDone      : Bool
  dmaOutDone     : Bool
  deriving DecidableEq, Repr

/-- The handle in state RESET (R65). DESIGN CHOICE: `keySize`, which R65 does not list (log 5). -/
def Handle.reset : Handle where
  inst := none
  state := .reset
  algorithm := none
  pIn := null
  pOut := null
  dataSizeByte := 0
  dataSizeSum := 0
  pHeader := null
  headerSize := 0
  blockIndex := 0
  suspendRequest := false
  lastErrorCodes := 0
  pUserData := null
  cbInCplt := none
  cbOutCplt := none
  cbError := none
  cbSuspend := none
  hdmaIn := null
  hdmaOut := null
  pKey := null
  keySize := .k128
  transport := .none
  direction := .none
  msgStatus := .closed
  keySched := .none
  keySrc := .none
  dmaInDone := false
  dmaOutDone := false

/-! ### The register file and the core (10_state.md R40 to R49) -/

/-- The status flags (R42). -/
structure Flags where
  ccf      : Bool
  busy     : Bool
  keyvalid : Bool
  keif     : Bool
  rngeif   : Bool
  rweif    : Bool
  rderr    : Bool
  wrerr    : Bool
  deriving DecidableEq, Repr

/-- The interrupt enables (R43). -/
structure Ier where
  ccfie  : Bool
  rweie  : Bool
  keie   : Bool
  rngeie : Bool
  deriving DecidableEq, Repr

/-- The AES core's internal state (R45; 40_register_access.md R149, R154, R156; 70_reset_and_hazards.md R602). -/
structure Core where
  /-- words written to the input FIFO and not yet consumed, as the core sees them -/
  inFifo   : List Word
  /-- words produced and not yet read, as the core sees them -/
  outFifo  : List Word
  /-- the job in progress -/
  job      : Option Job
  chain    : Chain
  keymat   : KeyMat
  /-- the key load in progress -/
  keyLoad  : Option KeySource
  /-- which key registers were written since the last key load -/
  keyMarks : Vector Bool 8
  /-- the key words an unwrap or shared-key decryption has collected -/
  keyWords : List Word
  /-- the SAES start-up is pending -/
  startup  : Bool
  deriving DecidableEq, Repr

/-- An active transfer of a DMA channel (20_memory.md R92): address in caller memory, words in all, words moved. -/
structure Transfer where
  addr  : Word
  words : Nat
  moved : Nat
  /-- its call has ended, by `Fail` or by a `DEINIT` (60_exceptions.md R504, 45_transport.md R348, log 39) -/
  stale : Bool
  deriving DecidableEq, Repr

/-- One instance: its handle, register file, core and DMA channels (60_exceptions.md R530). -/
structure Periph where
  h         : Handle
  cr        : CR
  fl        : Flags
  ier       : Ier
  keyr      : Vector Word 8
  ivr       : Vector Word 4
  suspr     : Vector Word 8
  core      : Core
  dmaIn     : Option Transfer
  dmaOut    : Option Transfer
  /-- delivered DMA events whose entry has not run yet (60_exceptions.md R511) -/
  dmaEvents : List PendingEvent
  deriving DecidableEq, Repr

/-- An instance after a hardware reset (R66, 70_reset_and_hazards.md R600, R602). DESIGN CHOICE: zeros
for `KEYR`, `chain` and `keymat`, which the spec leaves unspecified (log 5). -/
def Periph.reset (u : Inst) : Periph where
  h := Handle.reset
  cr := CR.reset
  fl := ⟨false, u == .saes && Config.saesResetBusy, false, false, false, false, false, false⟩
  ier := ⟨false, false, false, false⟩
  keyr := Vector.replicate 8 0
  ivr := Vector.replicate 4 0
  suspr := Vector.replicate 8 0
  core :=
    { inFifo := [], outFifo := [], job := none, chain := ⟨0⟩, keymat := ⟨0⟩, keyLoad := none,
      keyMarks := Vector.replicate 8 false, keyWords := [],
      startup := u == .saes && Config.saesResetBusy }
  dmaIn := none
  dmaOut := none
  dmaEvents := []

/-! ### The suspend context record (10_state.md R60) -/

/-- A written context record. Fields outside their condition keep what the record held before (R60);
in a record written for the first time they are 0 (log 32). -/
structure Context where
  cr             : CR
  inst           : Option Inst
  algorithm      : Option Alg
  dataSizeByte   : Word
  dataSizeSum    : Word
  pIn            : Word
  pOut           : Word
  blockIndex     : Word
  pHeader        : Word
  headerSize     : Word
  suspendRequest : Bool
  pKey           : Word
  keySize        : KeySize
  cbInCplt       : Option Word
  cbOutCplt      : Option Word
  cbError        : Option Word
  cbSuspend      : Option Word
  susp           : Vector Word 8
  iv             : Vector Word 4
  direction      : Direction
  keySched       : KeySched
  keySrc         : KeyOrigin
  deriving DecidableEq, Repr

/-! ### Positions in a running command (10_state.md R37) -/

/-- The bound of a WaitFlag (43_block_pump.md R251). -/
inductive Bound
  /-- `ms(timeout_ms)` of the command -/
  | ms (t : Word)
  /-- `ms(KEY_TIMEOUT_MS)` -/
  | keyTimeout
  /-- `cycles(KEYDERIV_BUDGET_<instance>)` -/
  | keyDerivBudget
  /-- `cycles(CCF_BUDGET)` -/
  | ccfBudget
  deriving DecidableEq, Repr

/-- The two tag commands (44_phase_machine.md R300, R301). -/
inductive TagKind | gcm | ccm
  deriving DecidableEq, Repr

/-- The four wrap and share commands (47_key_wrap_share.md). -/
inductive KeyOp | wrap | unwrap | encryptShared | decryptShared
  deriving DecidableEq, Repr

/-- A command or entry that can wait at a WaitFlag, with the operands it needs after the wait. -/
inductive Proc
  | setNormalKey (pKey : Word) (s : KeySize)
  | setHwKey (s : KeySize)
  | setSharedKey (s : KeySize)
  | poll (dir : Direction) (t : Word)
  | startIt (dir : Direction)
  | startDma (dir : Direction)
  | tag (k : TagKind) (pTag : Word) (t : Word)
  | keyOp (k : KeyOp) (t : Word)
  | restore (ctx : Word)
  /-- `DMA_Finish(from_in)`, the one interrupt-context entry that waits (45_transport.md R349) -/
  | dmaFinish (fromIn : Bool)
  deriving DecidableEq, Repr

/-- Which WaitFlag of the command is next (R37). -/
inductive WaitPoint
  /-- `BUSY = 0` after a key load -/
  | keyLoad
  /-- `CCF = 1` of a key derivation -/
  | keyDeriv
  /-- `CCF = 1` of the INIT phase -/
  | phaseInit
  /-- `CCF = 1` of a header block outside the polling loop -/
  | headerBlock
  /-- `CCF = 1` of a block -/
  | block
  /-- `CCF = 1` of the tag -/
  | tagWords
  deriving DecidableEq, Repr

/-- A position: the instance, the command and its next WaitFlag with its bound (R37). -/
structure Pos where
  u     : Inst
  proc  : Proc
  wp    : WaitPoint
  bound : Bound
  deriving DecidableEq, Repr

/-! ### Commands from outside, returns and callbacks -/

/-- Who issues a word in the mainline's turn (30_encoding.md R110, R115): the host a command, the engine a
micro-operation. Events are delivered in the agents' own turns. -/
inductive Issuer | host | engine
  deriving DecidableEq, Repr

/-- A word issued to the machine with its operand record (30_encoding.md R110). -/
structure Request where
  issuer : Issuer
  word   : Word
  record : Record
  deriving DecidableEq, Repr

/-- The return codes (30_encoding.md R113). -/
inductive RetCode | ok | error | busy | invalidParam | timeout
  deriving DecidableEq, Repr

/-- What a command or a bus read returns (00_scope.md R15). -/
inductive Return
  | code (c : RetCode)
  | datatype (t : DataType)
  | life (l : Life)
  | word (w : Word)
  | cr (c : CR)
  | flag (b : Bool)
  deriving DecidableEq, Repr

/-- The callback kinds in encoding order (30_encoding.md R112 `kind`). -/
inductive CbKind | inCplt | outCplt | error | suspend
  deriving DecidableEq, Repr

/-- A callback invocation recorded in the history (20_memory.md R90, 41_lifecycle_config.md R195). -/
structure CallbackEvent where
  kind   : CbKind
  inst   : Option Inst
  /-- the callback id run; `none` is `NOOP` -/
  cb     : Option Word
  /-- the handle at that moment -/
  handle : Handle
  deriving DecidableEq, Repr

/-- A region of caller memory the caller allocated (20_memory.md R84). -/
structure Region where
  base : Nat
  size : Nat
  deriving DecidableEq, Repr

/-! ### The machine -/

/-- The whole state. `inbox`, `turn` and `draws` are the model's own (log 2, log 4). -/
structure State where
  aes         : Periph
  saes        : Periph
  /-- the shared-key bus (10_state.md R64): share ids rising, an unlisted slot is NONE -/
  shareSlots  : List (Nat × KeyMat)
  /-- caller memory (20_memory.md R82): addresses rising, an unlisted byte reads as 0 (log 7) -/
  mem         : List Host.Cell
  /-- what the caller allocated (20_memory.md R84, log 8) -/
  alloc       : List Region
  /-- the context store (10_state.md R61): ids rising, an unlisted record is unwritten -/
  contexts    : List (Nat × Context)
  /-- the mainline's running command and its next WaitFlag (10_state.md R37) -/
  mainPos     : Option Pos
  /-- the interrupt-context entry waiting at a WaitFlag (20_memory.md R88) -/
  isrPos      : Option Pos
  /-- the mainline is stuck in its command (20_memory.md R84, log 9) -/
  mainStuck   : Bool
  /-- an interrupt-context entry is stuck (20_memory.md R84, log 9) -/
  isrStuck    : Bool
  /-- the value last returned to a caller (00_scope.md R15) -/
  returned    : Option Return
  /-- the callback history (20_memory.md R90) -/
  callbackLog : List CallbackEvent
  /-- commands issued and not yet begun (log 2) -/
  inbox       : List Request
  /-- which agent moves next, with its draws (log 4) -/
  turn        : Turn
  /-- the counter the free values are read at (log 4, log 11) -/
  draws       : Nat
  deriving DecidableEq, Repr

/-- The initial state of a run (70_reset_and_hazards.md R601). DESIGN CHOICE: `alloc`, `turn`, `draws`
and `returned`, which the spec does not give (log 4, log 8, log 29). -/
def State.reset : State where
  aes := Periph.reset .aes
  saes := Periph.reset .saes
  shareSlots := []
  mem := []
  alloc := [⟨0, 2 ^ 32⟩]
  contexts := []
  mainPos := none
  isrPos := none
  mainStuck := false
  isrStuck := false
  returned := none
  callbackLog := []
  inbox := []
  turn := .mainline false
  draws := 0

/-! ### Why a run stops -/

/-- Engine invariants that broke (00_scope.md R16, 93_implementation_defined.md section 2). All are safe:
the model stops where the spec gives no next step. A stuck agent is no fault (`Stop.stuck`). -/
inductive Fault
  /-- A bus write of a reserved `CR` value (40_register_access.md R141). Safe. -/
  | reservedCrValue
  /-- A `CR` configuration field written with `EN = 1` (R141, R610). Safe. -/
  | crWrittenWhileEnabled
  /-- `GCMPH` or `NPBLB` written during a job (R141, R610). Safe. -/
  | phaseWrittenDuringJob
  /-- A clear of a flag other than CCF, KEIF, RNGEIF, RWEIF (R143). Safe. -/
  | flagNotClearable
  /-- A write of the input FIFO with `EN = 0` (R145). Safe. -/
  | dinWhileDisabled
  /-- A read of the output FIFO with `EN = 0` (R146). Safe. -/
  | doutWhileDisabled
  /-- A key register written with `EN = 1` (R149). Safe. -/
  | keyrWhileEnabled
  /-- A key register beyond the key size (R149). Safe. -/
  | keyrBeyondSize
  /-- An IV register written with `EN = 1` (R150). Safe. -/
  | ivWhileEnabled
  /-- A suspend register written with `EN = 1` (R160). Safe. -/
  | susprWhileEnabled
  /-- `EN` set with no valid key and no key load in progress (R151). Safe. -/
  | enabledWithoutKey
  /-- A restore of a software-key decrypt context with no key pointer (46_suspend_resume.md R376). Safe. -/
  | noKeyPointer
  /-- The block pump was run while 43_block_pump.md R252 gives no current phase. Safe (log 27). -/
  | noCurrentPhase
  deriving DecidableEq, Repr

/-- Sequences the spec gives no meaning (00_scope.md R16, 93_implementation_defined.md section 4). All
are safe: a refused run proves nothing. -/
inductive Refusal
  /-- Raised by `exec` alone, for an instruction that has no meaning yet. Safe. -/
  | notModelled (mnemonic : String)
  /-- The word spells no command (30_encoding.md R114). Safe. -/
  | unknownOpcode
  /-- The operand record does not fit the opcode (R111). Safe (log 1). -/
  | badRecord
  /-- The host issued an EVT or BUS word (R115). Safe. -/
  | hostIssuedEvtBus
  /-- A word of another format stands where the engine issues a micro-operation (R110, R115). Safe
  (log 2). -/
  | wrongIssuer
  /-- A buffer address that is no multiple of 4 (20_memory.md R83). Safe. -/
  | misalignedBuffer
  /-- An output buffer starting inside the input above its start (45_transport.md R323). Safe. -/
  | outputOverlap
  /-- A DMA call while a channel of the instance is still active (R323). Safe. -/
  | staleDma
  /-- A DMA call in output-skip mode (43_block_pump.md R253). Safe. -/
  | dmaOutputSkip
  /-- A call on a message that has ended (44_phase_machine.md R299). Safe. -/
  | endedMessage
  /-- A call in the other direction (R299). Safe. -/
  | directionChange
  /-- A derived schedule used as an encryption key (42_key_iv.md R232). Safe. -/
  | derivedKey
  /-- A valid key whose schedule the engine no longer knows (R299). Safe. -/
  | unknownSchedule
  /-- A message of 2^32 bytes or more (R299). Safe. -/
  | lengthOverflow
  /-- A call or tag with a wrap or share key mode (R299, R300). Safe. -/
  | keyModeProcessing
  /-- A tag command on a message that has ended (R300). Safe. -/
  | tagEnded
  /-- A GCM header or payload of 2^29 bytes or more (R300). Safe. -/
  | bitLengthOverflow
  /-- A wrap or share command inside a message (47_key_wrap_share.md R405). Safe. -/
  | keyOpInsideMessage
  /-- A restore of a record no save has written (10_state.md R62). Safe. -/
  | unwrittenContext
  /-- A restore of a key the engine cannot reload (46_suspend_resume.md R376). Safe. -/
  | keyNotReloadable
  deriving DecidableEq, Repr

/-- Why a rule's pseudocode has no state after it, the three kept distinct (00_scope.md R16). -/
inductive Stop
  | fault (f : Fault)
  | refuse (r : Refusal)
  /-- a memory access that caller memory does not admit: the agent has no step (20_memory.md R84) -/
  | stuck
  deriving DecidableEq, Repr

/-- What a rule's pseudocode gives: the state after it, or a stop. -/
abbrev Res := Except Stop State

/-- What an instruction's meaning answers. -/
abbrev Outcome := Host.Outcome State Fault Refusal

/-- Who runs a rule: the mainline, an interrupt-context entry or a DMA channel (00_scope.md R18). -/
inductive Runner | mainline | entry | channel
  deriving DecidableEq, Repr

end Sys2Proof.Machine
end

