-- ==== Sys2Proof/Machine/Memory.lean ====
section
/-! DEFINITION. Tables in one canonical form (keys strictly rising), caller memory (20_memory.md R80 to R85) over them, and the word accesses of the engine. -/

namespace Sys2Proof.Machine

/-! ### Tables with rising keys -/

/-- The value at a key, if the table lists it. -/
def assocGet {α : Type} (k : Nat) : List (Nat × α) → Option α
  | [] => none
  | (k', v) :: l => if k' = k then some v else assocGet k l

/-- The table with the value at `k` set, keys still rising. -/
def assocPut {α : Type} (k : Nat) (v : α) : List (Nat × α) → List (Nat × α)
  | [] => [(k, v)]
  | (k', v') :: l =>
    if k < k' then (k, v) :: (k', v') :: l
    else if k = k' then (k, v) :: l
    else (k', v') :: assocPut k v l

/-- The table without the key `k`. -/
def assocDel {α : Type} (k : Nat) : List (Nat × α) → List (Nat × α)
  | [] => []
  | (k', v') :: l => if k' = k then l else (k', v') :: assocDel k l

/-- The keys of the table rise strictly. -/
abbrev assocRising {α : Type} (l : List (Nat × α)) : Prop := l.Pairwise fun x y => x.1 < y.1

/-! ### Bytes and words of caller memory -/

/-- The number of byte addresses of caller memory (R80). -/
def Memory.size : Nat := 2 ^ 32

/-- What an unlisted byte reads as. DESIGN CHOICE (log 7): the contents at launch are the caller's. -/
def Memory.unlisted : Byte := 0

/-- The canonical form of caller memory. -/
abbrev Memory.wf (m : List Host.Cell) : Prop :=
  assocRising m ∧ ∀ c ∈ m, c.1 < Memory.size ∧ c.2 ≠ Memory.unlisted

/-- One byte of caller memory. -/
def Memory.readByte (m : List Host.Cell) (a : Nat) : Byte := (assocGet a m).getD Memory.unlisted

/-- Caller memory with one byte written, in canonical form. -/
def Memory.writeByte (m : List Host.Cell) (a : Nat) (b : Byte) : List Host.Cell :=
  if b = Memory.unlisted then assocDel a m else assocPut a b m

/-- The little-endian word at a byte address (R82; PRESUMED by the spec, log 20). -/
def Memory.readWord (m : List Host.Cell) (a : Nat) : Word :=
  Memory.readByte m (a + 3) ++ Memory.readByte m (a + 2) ++ Memory.readByte m (a + 1) ++
    Memory.readByte m a

/-- Caller memory with the little-endian word at a byte address written (R82). -/
def Memory.writeWord (m : List Host.Cell) (a : Nat) (w : Word) : List Host.Cell :=
  Memory.writeByte
    (Memory.writeByte
      (Memory.writeByte (Memory.writeByte m a (w.extractLsb' 0 8)) (a + 1) (w.extractLsb' 8 8))
      (a + 2) (w.extractLsb' 16 8))
    (a + 3) (w.extractLsb' 24 8)

/-! ### The engine's accesses (R82, R84) -/

/-- Caller memory admits a word access at `a`: the word lies in one allocated region of the 32-bit
address space (R80, R84). -/
def State.admits (s : State) (a : Nat) : Bool :=
  decide (a + 4 ≤ Memory.size) &&
    s.alloc.any fun r => decide (r.base ≤ a) && decide (a + 4 ≤ r.base + r.size)

/-- `MemRead(a, 4)`. An access memory does not admit is stuck (R84, log 9). -/
def memRead (a : Nat) (s : State) : Except Stop Word :=
  if s.admits a then .ok (Memory.readWord s.mem a) else .error .stuck

/-- `MemWrite(a, 4, w)`. An access memory does not admit is stuck (R84, log 9). -/
def memWrite (a : Nat) (w : Word) (s : State) : Res :=
  if s.admits a then .ok { s with mem := Memory.writeWord s.mem a w }
  else .error .stuck

end Sys2Proof.Machine
end

