-- ==== Sys2Proof/Machine/Operands.lean ====
section
/-! DEFINITION. Operand forms: the enumerated operands (30_encoding.md R112), return-code values (R113), the data-swap function and the padding mask (R121, R122), and buffer addresses (20_memory.md R81, R83). -/

namespace Sys2Proof.Machine

/-! ### Enumerated operands (R112); `none` is a value outside the list -/

def instOfWord (w : Word) : Option Inst :=
  match w.toNat with
  | 0 => some .aes
  | 1 => some .saes
  | _ => none

def keySizeOfWord (w : Word) : Option KeySize :=
  match w.toNat with
  | 0 => some .k128
  | 1 => some .k256
  | _ => none

def dataTypeOfWord (w : Word) : Option DataType :=
  match w.toNat with
  | 0 => some .none
  | 1 => some .halfword
  | 2 => some .byte
  | 3 => some .bit
  | _ => none

def keySelOfWord (w : Word) : Option KeySel :=
  match w.toNat with
  | 0 => some .software
  | 1 => some .dhuk
  | 2 => some .bhk
  | 3 => some .dhukXorBhk
  | _ => none

def kModOfWord (w : Word) : Option KMod :=
  match w.toNat with
  | 0 => some .normal
  | 1 => some .wrapped
  | 2 => some .shared
  | _ => none

def cbKindOfWord (w : Word) : Option CbKind :=
  match w.toNat with
  | 0 => some .inCplt
  | 1 => some .outCplt
  | 2 => some .error
  | 3 => some .suspend
  | _ => none

def fifoOfWord (w : Word) : Option Fifo :=
  match w.toNat with
  | 0 => some .input
  | 1 => some .output
  | _ => none

/-- `share_id` lies in `0 .. KSHAREID_VALUES - 1` (R112). -/
def shareIdValid (k : Word) : Bool := decide (k.toNat < Config.kshareidValues)

def modeOfNat (n : Nat) : Option Mode :=
  match n with
  | 0 => some .encrypt
  | 1 => some .keyDeriv
  | 2 => some .decrypt
  | _ => none

def algOfNat (n : Nat) : Option Alg :=
  match n with
  | 0 => some .ecb
  | 1 => some .cbc
  | 2 => some .ctr
  | 3 => some .gcmGmac
  | 4 => some .ccm
  | _ => none

def phaseOfNat (n : Nat) : Option Phase :=
  match n with
  | 0 => some .init
  | 1 => some .header
  | 2 => some .payload
  | 3 => some .final
  | _ => none

def boolOfNat (n : Nat) : Option Bool :=
  match n with
  | 0 => some false
  | 1 => some true
  | _ => none

/-- The symbolic value a bus write gives a `CR` field, the values numbered in the encoding order of
10_state.md R41; `none` is a reserved value (40_register_access.md R141). A `KSHAREID` value is
reserved from `KSHAREID_VALUES` on (log 18). -/
def crWriteOf (f : CrField) (v : Word) : Option CrWrite :=
  match f with
  | .en => (boolOfNat v.toNat).map .en
  | .datatype => (dataTypeOfWord v).map .datatype
  | .mode => (modeOfNat v.toNat).map .mode
  | .chmod => (algOfNat v.toNat).map .chmod
  | .gcmph => (phaseOfNat v.toNat).map .gcmph
  | .dmainen => (boolOfNat v.toNat).map .dmainen
  | .dmaouten => (boolOfNat v.toNat).map .dmaouten
  | .keysize => (keySizeOfWord v).map .keysize
  | .npblb => if v.toNat < 16 then some (.npblb (BitVec.ofNat 4 v.toNat)) else none
  | .kmod => (kModOfWord v).map .kmod
  | .kshareid =>
    if v.toNat < 4 && shareIdValid v then some (.kshareid (BitVec.ofNat 2 v.toNat)) else none
  | .keysel => (keySelOfWord v).map .keysel
  | .keyprot => (boolOfNat v.toNat).map .keyprot

/-- The `CR` field a write names (R141). -/
def crFieldOf : CrWrite → CrField
  | .en _ => .en
  | .datatype _ => .datatype
  | .mode _ => .mode
  | .chmod _ => .chmod
  | .gcmph _ => .gcmph
  | .dmainen _ => .dmainen
  | .dmaouten _ => .dmaouten
  | .keysize _ => .keysize
  | .npblb _ => .npblb
  | .kmod _ => .kmod
  | .kshareid _ => .kshareid
  | .keysel _ => .keysel
  | .keyprot _ => .keyprot

/-- `CR.field <- value` on the register itself (R141). -/
def crApply (w : CrWrite) (c : CR) : CR :=
  match w with
  | .en v => { c with en := v }
  | .datatype v => { c with datatype := v }
  | .mode v => { c with mode := v }
  | .chmod v => { c with chmod := v }
  | .gcmph v => { c with gcmph := v }
  | .dmainen v => { c with dmainen := v }
  | .dmaouten v => { c with dmaouten := v }
  | .keysize v => { c with keysize := v }
  | .npblb v => { c with npblb := v }
  | .kmod v => { c with kmod := v }
  | .kshareid v => { c with kshareid := v }
  | .keysel v => { c with keysel := v }
  | .keyprot v => { c with keyprot := v }

/-- The `CR` fields that exist on the SAES only (10_state.md R41, R141). -/
def crSaesOnly : CrField → Bool
  | .keysel | .keyprot | .kshareid => true
  | .en | .datatype | .mode | .chmod | .gcmph | .dmainen | .dmaouten | .keysize | .npblb
  | .kmod => false

/-- The `CR` fields that may be written with `EN = 1` (R141, 70_reset_and_hazards.md R610). -/
def crWritableEnabled : CrField → Bool
  | .en | .gcmph | .npblb | .dmainen | .dmaouten => true
  | .datatype | .mode | .chmod | .keysize | .kmod | .kshareid | .keysel | .keyprot => false

/-- The `CR` fields that may be written only with no job in progress (R141, R610). -/
def crNeedsNoJob : CrField → Bool
  | .gcmph | .npblb => true
  | .en | .datatype | .mode | .chmod | .dmainen | .dmaouten | .keysize | .kmod | .kshareid
  | .keysel | .keyprot => false

/-! ### Returned values (R112, R113) -/

/-- The encoding of a return code (R113). -/
def retCodeWord : RetCode → Word
  | .ok => 0
  | .error => 1
  | .busy => 2
  | .invalidParam => 3
  | .timeout => 4

/-- The encoding of a returned `state` (R112). -/
def lifeWord : Life → Word
  | .reset => 0
  | .init => 1
  | .idle => 2
  | .active => 3
  | .suspended => 4

/-- The encoding of a returned `datatype` (R112). -/
def dataTypeWord : DataType → Word
  | .none => 0
  | .halfword => 1
  | .byte => 2
  | .bit => 3

/-! ### Data swap and padding (R121, R122; PRESUMED by the spec, log 21) -/

/-- `swap_T(w)` (R121). -/
def swap (t : DataType) (w : Word) : Word :=
  match t with
  | .none => w
  | .halfword => w.extractLsb' 0 16 ++ w.extractLsb' 16 16
  | .byte => w.extractLsb' 0 8 ++ w.extractLsb' 8 8 ++ w.extractLsb' 16 8 ++ w.extractLsb' 24 8
  | .bit => w.reverse

/-- `PadMask(T, k)`: the bits of `w` that `swap_T` moves into `c[31 : 32 - 8k]` (R122). -/
def padMask (t : DataType) (k : Nat) : Word := swap t (BitVec.allOnes 32 <<< (32 - 8 * k))

/-! ### Buffers (20_memory.md R81, R83) -/

/-- An address is a multiple of 4 (R83). -/
def aligned (a : Word) : Bool := a.toNat % 4 == 0

/-- The byte address of word `i` of the buffer at `p` (R81), without wrapping (log 20). -/
def wordAddr (p : Word) (i : Nat) : Nat := p.toNat + 4 * i

end Sys2Proof.Machine
end

