-- ==== Sys2Proof/Machine/Access.lean ====
section
/-! DEFINITION. Access to the parts of the state: one instance, its handle, its registers, its core; and the positions of the mainline and the interrupt-context entry. -/

namespace Sys2Proof.Machine

/-- The instance `u`. -/
def State.periph (s : State) (u : Inst) : Periph :=
  match u with
  | .aes => s.aes
  | .saes => s.saes

/-- The state with instance `u` replaced. -/
def State.setPeriph (s : State) (u : Inst) (p : Periph) : State :=
  match u with
  | .aes => { s with aes := p }
  | .saes => { s with saes := p }

/-- The state with instance `u` changed by `f`. -/
def State.modify (s : State) (u : Inst) (f : Periph → Periph) : State :=
  s.setPeriph u (f (s.periph u))

/-- The handle of `u`, `H` of 00_scope.md R13. -/
abbrev State.h (s : State) (u : Inst) : Handle := (s.periph u).h

/-- The control register of `u`. -/
abbrev State.cr (s : State) (u : Inst) : CR := (s.periph u).cr

/-- The status flags of `u`. -/
abbrev State.fl (s : State) (u : Inst) : Flags := (s.periph u).fl

/-- The core of `u`. -/
abbrev State.core (s : State) (u : Inst) : Core := (s.periph u).core

/-- The state with the handle of `u` changed. -/
def State.modH (s : State) (u : Inst) (f : Handle → Handle) : State :=
  s.modify u fun p => { p with h := f p.h }

/-- The state with the control register of `u` changed. -/
def State.modCr (s : State) (u : Inst) (f : CR → CR) : State :=
  s.modify u fun p => { p with cr := f p.cr }

/-- The state with the flags of `u` changed. -/
def State.modFl (s : State) (u : Inst) (f : Flags → Flags) : State :=
  s.modify u fun p => { p with fl := f p.fl }

/-- The state with the core of `u` changed. -/
def State.modCore (s : State) (u : Inst) (f : Core → Core) : State :=
  s.modify u fun p => { p with core := f p.core }

/-- `IER <- v` (40_register_access.md R162), with `RNGEIE` forced to 0 on the AES. -/
def ierWrite (u : Inst) (v : Ier) (s : State) : State :=
  s.modify u fun p => { p with ier := { v with rngeie := v.rngeie && u == .saes } }

/-- A procedure of an interrupt-context entry; the others belong to the mainline (20_memory.md R88). -/
def inHandler : Proc → Bool
  | .dmaFinish _ => true
  | .setNormalKey _ _ | .setHwKey _ | .setSharedKey _ | .poll _ _ | .startIt _ | .startDma _
  | .tag _ _ _ | .keyOp _ _ | .restore _ => false

/-- Stop at a WaitFlag: the position is stored, the next iteration is a later step (00_scope.md R14,
10_state.md R37). -/
def park (p : Pos) (s : State) : State :=
  if inHandler p.proc then { s with isrPos := some p } else { s with mainPos := some p }

/-- Leave the WaitFlag of the position. -/
def unpark (p : Pos) (s : State) : State :=
  if inHandler p.proc then { s with isrPos := none } else { s with mainPos := none }

/-- The state in which the runner is stuck: its step is not made (20_memory.md R84). A channel keeps its
transfer and just does not move (45_transport.md R348). -/
def stuckState (r : Runner) (s : State) : State :=
  match r with
  | .mainline => { s with mainStuck := true }
  | .entry => { s with isrStuck := true }
  | .channel => s

/-- What a step from `s` answers, from the result of its rule. DEDUCED (log 9): a step that would make an
access which memory does not admit is not made at all, and its agent is stuck from then on. -/
def Res.outcome (r : Runner) (s : State) : Res → Outcome
  | .ok t => .next t
  | .error (.fault f) => .fault f
  | .error (.refuse e) => .refused e
  | .error .stuck => .next (stuckState r s)

/-- Who runs a procedure (20_memory.md R88). -/
def runnerOf (p : Proc) : Runner := if inHandler p then .entry else .mainline

/-- The command ends with a returned value (00_scope.md R15). -/
def retVal (v : Return) (s : State) : Res := .ok { s with returned := some v }

/-- `return c` (00_scope.md R13). -/
def ret (c : RetCode) (s : State) : Res := retVal (.code c) s

/-- `refuse(reason)` (00_scope.md R16). -/
def refuse (r : Refusal) : Res := .error (.refuse r)

/-- `if c: f`. -/
def doIf (c : Prop) [Decidable c] (f : State → Res) (s : State) : Res := if c then f s else .ok s

/-- Run `f` for the word indices 0 to 3, in order. -/
def four (f : Nat → State → Res) (s : State) : Res := do
  let s ← f 0 s
  let s ← f 1 s
  let s ← f 2 s
  f 3 s

/-- Run `f` for the word indices 0 to 7, in order. -/
def eight (f : Nat → State → Res) (s : State) : Res := do
  let s ← four f s
  four (fun j => f (j + 4)) s

end Sys2Proof.Machine
end

