-- ==== Sys2Proof/Machine/Flags.lean ====
section
/-! DEFINITION. Every flag computation: reading and clearing flags (40_register_access.md R142, R143), the error bits (60_exceptions.md R501), the interrupt line and masks (10_state.md R43, 60_exceptions.md R510, R512), and one check of a WaitFlag (43_block_pump.md R250). -/

namespace Sys2Proof.Machine

/-! ### Error bits (60_exceptions.md R501) -/

def errKey : Word := 0x01
def errRng : Word := 0x02
def errRead : Word := 0x04
def errWrite : Word := 0x08
def errDma : Word := 0x10
def errPhase : Word := 0x20
def errTimeout : Word := 0x40

/-- The error bits of a FIFO error (43_block_pump.md R250, 45_transport.md R330). -/
def rwErrBits (f : Flags) : Word :=
  (if f.rderr then errRead else 0) ||| (if f.wrerr then errWrite else 0)

/-! ### Reading and clearing -/

/-- `FLAG(F)` (R142). -/
def flagGet (n : FlagName) (f : Flags) : Bool :=
  match n with
  | .ccf => f.ccf
  | .busy => f.busy
  | .keyvalid => f.keyvalid
  | .keif => f.keif
  | .rngeif => f.rngeif
  | .rweif => f.rweif
  | .rderr => f.rderr
  | .wrerr => f.wrerr

/-- `CLEAR(CCF)` (R143). -/
def clearCcf (u : Inst) (s : State) : State := s.modFl u fun f => { f with ccf := false }

/-- `CLEAR(KEIF)` (R143). -/
def clearKeif (u : Inst) (s : State) : State := s.modFl u fun f => { f with keif := false }

/-- `CLEAR(RNGEIF)` (R143). -/
def clearRngeif (u : Inst) (s : State) : State := s.modFl u fun f => { f with rngeif := false }

/-- `CLEAR(RWEIF)`, which also clears `RDERR` and `WRERR` (R143). -/
def clearRweif (u : Inst) (s : State) : State :=
  s.modFl u fun f => { f with rweif := false, rderr := false, wrerr := false }

/-- `if H.instance = SAES: CLEAR(RNGEIF)` (60_exceptions.md R503). -/
def clearRngeifOnSaes (u : Inst) (s : State) : State :=
  if (s.h u).inst = some .saes then clearRngeif u s else s

/-- What a spurious interrupt clears: the error flags it finds set, else `CCF` (45_transport.md R335,
92_eei_decisions.md D34). That error flags come first is DEDUCED from R330 (log 38). -/
def clearFound (u : Inst) (s : State) : State :=
  let f := s.fl u
  if f.keif || f.rweif || f.rngeif then clearRngeif u (clearRweif u (clearKeif u s)) else clearCcf u s

/-- `CLEAR(F)`; a flag that cannot be cleared faults (R143). -/
def clearFlag (u : Inst) (n : FlagName) (s : State) : Res :=
  match n with
  | .ccf => .ok (clearCcf u s)
  | .keif => .ok (clearKeif u s)
  | .rngeif => .ok (clearRngeif u s)
  | .rweif => .ok (clearRweif u s)
  | .busy | .keyvalid | .rderr | .wrerr => .error (.fault .flagNotClearable)

/-! ### Interrupts -/

/-- The interrupt line (10_state.md R43). -/
def irqLine (f : Flags) (e : Ier) : Bool :=
  (f.ccf && e.ccfie) || (f.rweif && e.rweie) || (f.keif && e.keie) || (f.rngeif && e.rngeie)

/-- `IER = {}`. -/
def ierNone : Ier := ⟨false, false, false, false⟩

/-- `IT_MASK` (45_transport.md R327). -/
def itMask (i : Option Inst) : Ier := ⟨true, true, true, i == some .saes⟩

/-- `DMA_MASK` (45_transport.md R342). -/
def dmaMask (i : Option Inst) : Ier := ⟨false, true, true, i == some .saes⟩

/-- The interrupt enables a mask operand names, `CCFIE` in bit 0 (30_encoding.md R111, log 1). -/
def ierOfMask (m : BitVec 4) : Ier :=
  ⟨m.getLsbD 0, m.getLsbD 1, m.getLsbD 2, m.getLsbD 3⟩

/-- The error bits `IRQ` collects (45_transport.md R330). -/
def irqErrors (i : Option Inst) (f : Flags) (e : Ier) : Word :=
  (if e.keie && f.keif then errKey else 0) |||
  (if i == some .saes && e.rngeie && f.rngeif then errRng else 0) |||
  (if e.rweie && f.rweif then rwErrBits f else 0)

/-! ### One iteration of a WaitFlag (43_block_pump.md R250) -/

/-- The failed results of a wait. -/
inductive WaitFail
  | timeout
  | hwErr (e : Word)
  deriving DecidableEq, Repr

/-- The results of one iteration of a wait. -/
inductive WaitResult
  | ok
  | failed (r : WaitFail)
  | again
  deriving DecidableEq, Repr

/-- The condition a wait point waits for: `BUSY = 0` or `CCF = 1`. -/
def waitCond (w : WaitPoint) (f : Flags) : Bool :=
  match w with
  | .keyLoad => !f.busy
  | .keyDeriv | .phaseInit | .headerBlock | .block | .tagWords => f.ccf

/-- One iteration: errors first, then the condition, then the bound (43_block_pump.md R250). -/
def waitCheck (i : Option Inst) (w : WaitPoint) (elapsed : Bool) (f : Flags) : WaitResult :=
  if f.keif then .failed (.hwErr errKey)
  else if i == some .saes && f.rngeif then .failed (.hwErr errRng)
  else if f.rweif then .failed (.hwErr (rwErrBits f))
  else if waitCond w f then .ok
  else if elapsed then .failed .timeout
  else .again

end Sys2Proof.Machine
end

