-- ==== Sys2Proof/Machine/AesCore.lean ====
section
/-! DEFINITION. The AES core's side of the register protocol (40_register_access.md R151 to R158, R163, R164; 70_reset_and_hazards.md R602). -/

namespace Sys2Proof.Machine

/-- `core_disable()` (R163). -/
def coreDisable (u : Inst) (s : State) : State :=
  s.modCore u fun c => { c with job := none, inFifo := [], outFifo := [] }

/-- `CR.EN <- 0` (R141, R163, R164). -/
def disable (u : Inst) (s : State) : State :=
  if (s.cr u).en then coreDisable u (s.modCr u (crApply (.en false))) else s

/-- `core_enable()` (R151), run with `CR.EN` already 1. The collected key words start empty (log 16). -/
def coreEnable (u : Inst) (s : State) : Res :=
  let p := s.periph u
  if !p.fl.keyvalid && !p.fl.busy then .error (.fault .enabledWithoutKey)
  else
    let job : Option Job :=
      if p.cr.mode = .keyDeriv then some .keyDeriv
      else if (p.cr.chmod = .gcmGmac ∨ p.cr.chmod = .ccm) ∧ p.cr.gcmph = .init then some .init
      else p.core.job
    .ok (s.modCore u fun c =>
      { c with
        chain := Config.chainFrom p.cr p.ivr p.suspr c.keymat
        job := job
        keyWords := [] })

/-- `CR.EN <- 1` (R141, R151). -/
def enable (u : Inst) (s : State) : Res :=
  if (s.cr u).en then .ok s else coreEnable u (s.modCr u (crApply (.en true)))

/-- `core_key_load(src)` (R154). The marks of R149 count from here. DESIGN CHOICE (log 37): a load started
while another is active takes its place, and only the new one completes. -/
def coreKeyLoad (u : Inst) (src : KeySource) (s : State) : State :=
  (s.modFl u fun f => { f with busy := true, keyvalid := false }).modCore u fun c =>
    { c with keyLoad := some src, keyMarks := Vector.replicate 8 false }

/-- The shared-key receive that `SET_SHARED_KEY` starts by `CR.KMOD <- SHARED` (R156). -/
def sharedReceive (u : Inst) (k : Word) (s : State) : State :=
  match assocGet k.toNat s.shareSlots with
  | none => s.modFl u fun f => { f with keif := true }
  | some _ => coreKeyLoad u (.shared k.toNat) s

/-- Output-skip mode (43_block_pump.md R253): SAES, `MODE = DECRYPT`, `KMOD` in {WRAPPED, SHARED}. -/
def outputSkip (u : Inst) (c : CR) : Bool :=
  u == .saes && c.mode == .decrypt && (c.kmod == .wrapped || c.kmod == .shared)

/-- `produces_output(job)` (R153). -/
def producesOutput (u : Inst) (c : CR) (j : Job) : Bool :=
  match j with
  | .block _ _ _ _ =>
    (c.chmod == .ecb || c.chmod == .cbc || c.chmod == .ctr || c.gcmph == .payload ||
      c.gcmph == .final) && !outputSkip u c
  | .finalCcm => true
  | .init | .keyDeriv => false

/-- `key_result(job)` (R156). -/
def keyResult (u : Inst) (c : CR) (j : Job) : Bool :=
  match j with
  | .block _ _ _ _ => outputSkip u c
  | .finalCcm | .init | .keyDeriv => false

/-- Finish a key result (R156): collect the decrypted words; with the last of them the key is loaded
and, for SHARED, placed in the share slot. -/
def collectKey (u : Inst) (out : Block) (s : State) : State :=
  let c := s.cr u
  let ws := (s.core u).keyWords ++ out.toList
  if c.keysize.words ≤ ws.length then
    let m := Config.keyOfWords c.keysize ws
    let s := (s.modCore u fun k => { k with keymat := m, keyWords := [] }).modFl u
      fun f => { f with keyvalid := true }
    if c.kmod = .shared then
      { s with shareSlots := assocPut c.kshareid.toNat m s.shareSlots }
    else s
  else s.modCore u fun k => { k with keyWords := ws }

/-- The end of a job that transforms data: INIT, BLOCK or FINAL_CCM (R152). -/
def finishData (u : Inst) (j : Job) (s : State) : State :=
  let p := s.periph u
  let r := Config.aesCore p.cr.coreCfg p.core.keymat p.core.chain j
  let s := s.modify u fun p =>
    { p with
      ivr := Config.ivOf r.2
      suspr := Config.suspOf r.2
      core :=
        { p.core with
          chain := r.2
          outFifo := if producesOutput u p.cr j then r.1.toList else p.core.outFifo } }
  if keyResult u p.cr j then collectKey u r.1 s else s

/-- The core's step that completes the job in progress (R152, R164). -/
def finishJob (u : Inst) (enAfter : Bool) (s : State) : State :=
  match (s.core u).job with
  | none => s
  | some j =>
    let s := if j = .keyDeriv then
        s.modCore u fun c => { c with keymat := Config.derivedSchedule c.keymat }
      else finishData u j s
    let s := (s.modFl u fun f => { f with ccf := true }).modCore u fun c => { c with job := none }
    if j = .init ∨ j = .keyDeriv then s.modCr u (crApply (.en enAfter)) else s

/-- The key words a load reads: for a software key those of its size (10_state.md R46), else none, since
the key is resident in the hardware or in a slot (R155, R156). DEDUCED (log 40). -/
def keyWordsOf (src : KeySource) (k : KeySize) (v : Vector Word 8) : List Word :=
  match src with
  | .software => v.toList.take k.words
  | .hw _ | .shared _ => []

/-- `key_from(src, KEYR, CR.KEYSIZE, CR.KMOD)` (R155). -/
def keyFrom (src : KeySource) (p : Periph) : KeyMat :=
  Config.keyFrom src (keyWordsOf src p.cr.keysize p.keyr) p.cr.keysize p.cr.kmod

/-- The key material a finished load yields (R155): for a shared load the slot's key (R156, log 33). -/
def loadedKey (u : Inst) (src : KeySource) (s : State) : KeyMat :=
  match src with
  | .shared id => (assocGet id s.shareSlots).getD (keyFrom src (s.periph u))
  | .software | .hw _ => keyFrom src (s.periph u)

/-- The core's step that completes the key load in progress (R155). -/
def finishKeyLoad (u : Inst) (ok : Bool) (s : State) : State :=
  match (s.core u).keyLoad with
  | none => s
  | some src =>
    let m := loadedKey u src s
    if ok then
      (s.modFl u fun f => { f with keyvalid := true, busy := false }).modCore u
        fun c => { c with keymat := m, keyLoad := none }
    else
      (s.modFl u fun f => { f with keif := true, keyvalid := false, busy := false }).modCore u
        fun c => { c with keyLoad := none }

/-- A key error mid-flight, possible while `CR.EN = 1` (R158, log 14). -/
def keyErrorStep (u : Inst) (keyLost : Bool) (s : State) : State :=
  if (s.cr u).en then
    s.modFl u fun f => { f with keif := true, keyvalid := f.keyvalid && !keyLost }
  else s

/-- An RNG error, possible on the SAES while `CR.EN = 1` or `BUSY = 1` (R157, log 13). -/
def rngErrorStep (u : Inst) (jobLost : Bool) (s : State) : State :=
  if u == .saes && ((s.cr u).en || (s.fl u).busy) then
    let s := s.modFl u fun f => { f with rngeif := true }
    if jobLost then s.modCore u fun c => { c with job := none } else s
  else s

/-- The end of the SAES start-up (70_reset_and_hazards.md R602, log 34). -/
def endStartup (u : Inst) (rngErr : Bool) (s : State) : State :=
  if (s.core u).startup then
    let s := s.modCore u fun c => { c with startup := false }
    s.modFl u fun f =>
      { f with
        busy := f.busy && (s.core u).keyLoad.isSome
        rngeif := f.rngeif || rngErr }
  else s

/-- One step of the AES core of `u`; a step that is not enabled leaves the state (log 4). -/
def coreStep (u : Inst) (a : CoreAct) (s : State) : State :=
  match a with
  | .finishJob enAfter => finishJob u enAfter s
  | .finishKeyLoad ok => finishKeyLoad u ok s
  | .keyError keyLost => keyErrorStep u keyLost s
  | .rngError jobLost => rngErrorStep u jobLost s
  | .endStartup rngErr => endStartup u rngErr s

end Sys2Proof.Machine
end

