-- ==== Sys2Proof/Machine/Ops.lean ====
section
/-! DEFINITION. The named operations over the register file (40_register_access.md R141 to R162), callbacks (41_lifecycle_config.md R195), and the engine's exception: the failure epilogue (60_exceptions.md R503) with the two ways a rule ends after it. -/

namespace Sys2Proof.Machine

/-! ### The control register -/

/-- `CR.GCMPH <- v`, which starts `FINAL_CCM` for `v = FINAL` with `CHMOD = CCM` and `EN = 1` (R141). -/
def writePhase (u : Inst) (v : Phase) (s : State) : State :=
  let s := s.modCr u (crApply (.gcmph v))
  if v = .final ∧ (s.cr u).chmod = .ccm ∧ (s.cr u).en = true then
    s.modCore u fun c => { c with job := some .finalCcm }
  else s

/-- `CR.KEYSEL <- v`, which starts a hardware key load unless `v = SOFTWARE` (R141, R154). -/
def writeKeySel (u : Inst) (v : KeySel) (s : State) : State :=
  let s := s.modCr u (crApply (.keysel v))
  if v = .software then s else coreKeyLoad u (.hw v) s

/-- The effect of an admitted write of a `CR` field (R141). -/
def crEffect (u : Inst) (w : CrWrite) (s : State) : Res :=
  match w with
  | .en true => enable u s
  | .en false => .ok (disable u s)
  | .gcmph v => .ok (writePhase u v s)
  | .keysel v => .ok (writeKeySel u v s)
  | .datatype _ | .mode _ | .chmod _ | .dmainen _ | .dmaouten _ | .keysize _ | .npblb _ | .kmod _
  | .kshareid _ | .keyprot _ => .ok (s.modCr u (crApply w))

/-- `CR.field <- value`, `BUS_CR_WRITE` (R141, 70_reset_and_hazards.md R610). -/
def crWrite (u : Inst) (w : CrWrite) (s : State) : Res :=
  let f := crFieldOf w
  if crSaesOnly f && u == .aes then .ok s
  else if !crWritableEnabled f && (s.cr u).en then .error (.fault .crWrittenWhileEnabled)
  else if crNeedsNoJob f && (s.core u).job.isSome then .error (.fault .phaseWrittenDuringJob)
  else crEffect u w s

/-! ### The FIFOs -/

/-- The input FIFO with a word appended; the fourth word starts the block (R145). -/
def pushInput (w : Word) (c : Core) : Core :=
  match c.inFifo ++ [w] with
  | [w0, w1, w2, w3] => { c with inFifo := [], job := some (.block w0 w1 w2 w3) }
  | q => { c with inFifo := q }

/-- `DIN <- w` (R145; the write error is R147). -/
def dinWrite (u : Inst) (w : Word) (s : State) : Res :=
  let p := s.periph u
  if !p.cr.en then .error (.fault .dinWhileDisabled)
  else if p.core.job.isSome || !p.core.outFifo.isEmpty || decide (4 ≤ p.core.inFifo.length) then
    .ok (s.modFl u fun f => { f with wrerr := true, rweif := true })
  else .ok (s.modCore u (pushInput (swap p.cr.datatype w)))

/-- `w <- DOUT` (R146; the read error is R148, its word a free value, log 11). -/
def doutRead (u : Inst) (s : State) : Except Stop (Word × State) :=
  let p := s.periph u
  if !p.cr.en then .error (.fault .doutWhileDisabled)
  else
    match p.core.outFifo with
    | [] =>
      .ok (Config.readErrorWord s.draws,
        { s.modFl u fun f => { f with rderr := true, rweif := true } with draws := s.draws + 1 })
    | c :: q => .ok (swap p.cr.datatype c, s.modCore u fun k => { k with outFifo := q })

/-! ### Key, IV and suspend registers -/

/-- Every key register of a key of `n` words is marked written (R149). -/
def keyComplete (n : Nat) (m : Vector Bool 8) : Bool :=
  (List.finRange 8).all fun i => decide (n ≤ i.val) || m[i]

/-- `KEYR[i] <- w` (R149). -/
def keyrWrite (u : Inst) (i : Fin 8) (w : Word) (s : State) : Res :=
  let p := s.periph u
  if p.cr.en then .error (.fault .keyrWhileEnabled)
  else if p.cr.keysize.words ≤ i.val then .error (.fault .keyrBeyondSize)
  else
    let first := !(p.core.keyMarks.toList.any id)
    let m := p.core.keyMarks.set i true
    let s := s.modify u fun p =>
      { p with
        keyr := p.keyr.set i w
        fl := { p.fl with keyvalid := p.fl.keyvalid && !first }
        core := { p.core with keyMarks := m } }
    .ok (if keyComplete p.cr.keysize.words m then coreKeyLoad u .software s else s)

/-- `IVR[i] <- w` (R150). -/
def ivrWrite (u : Inst) (i : Fin 4) (w : Word) (s : State) : Res :=
  if (s.cr u).en then .error (.fault .ivWhileEnabled)
  else .ok (s.modify u fun p => { p with ivr := p.ivr.set i w })

/-- `SUSPR[i] <- w` (R160). -/
def susprWrite (u : Inst) (i : Fin 8) (w : Word) (s : State) : Res :=
  if (s.cr u).en then .error (.fault .susprWhileEnabled)
  else .ok (s.modify u fun p => { p with suspr := p.suspr.set i w })

/-! ### Callbacks -/

/-- The callback id in the field of a kind (41_lifecycle_config.md R195). -/
def callbackOf (k : CbKind) (h : Handle) : Option Word :=
  match k with
  | .inCplt => h.cbInCplt
  | .outCplt => h.cbOutCplt
  | .error => h.cbError
  | .suspend => h.cbSuspend

/-- `Callback(kind)` (41_lifecycle_config.md R195, 20_memory.md R90): the event joins the history. -/
def callback (u : Inst) (k : CbKind) (s : State) : State :=
  { s with callbackLog := s.callbackLog ++ [⟨k, (s.h u).inst, callbackOf k (s.h u), s.h u⟩] }

/-! ### Taking the engine's exception (60_exceptions.md R503) -/

/-- `H.last_error_codes |= e`. -/
def addErrors (u : Inst) (e : Word) (s : State) : State :=
  s.modH u fun h => { h with lastErrorCodes := h.lastErrorCodes ||| e }

/-- The handle part of the end of a failed call (R503). -/
def failHandle (h : Handle) : Handle :=
  { h with msgStatus := .closed, transport := .none, suspendRequest := false, state := .idle }

/-- The DMA service of an instance whose call has ended: its transfers stay active and its events pending,
and all of them are stale (R504, 45_transport.md R348, log 39). -/
def dmaAbandoned (p : Periph) : Periph :=
  { p with
    dmaIn := p.dmaIn.map fun t => { t with stale := true }
    dmaOut := p.dmaOut.map fun t => { t with stale := true }
    dmaEvents := p.dmaEvents.map fun e => { e with stale := true } }

/-- The call in progress ends without its DMA transfers and events. -/
def abandonDma (u : Inst) (s : State) : State := s.modify u dmaAbandoned

/-- The failure epilogue up to its return (R503): error bits, flags, interrupts, DMA requests, the
disabled peripheral, the closed message and IDLE; later events of the call are stale (R504). -/
def failEpilogue (u : Inst) (e : Word) (s : State) : State :=
  let s := addErrors u e s
  let s := clearRngeifOnSaes u (clearRweif u (clearKeif u (clearCcf u s)))
  let s := ierWrite u ierNone s
  let s := s.modCr u (crApply (.dmainen false))
  let s := s.modCr u (crApply (.dmaouten false))
  abandonDma u ((disable u s).modH u failHandle)

/-- `Fail(c, e)` in a mainline command: the command ends with `c` (R503). -/
def failMain (u : Inst) (c : RetCode) (e : Word) (s : State) : Res := ret c (failEpilogue u e s)

/-- `Fail(ERROR, e)` in an interrupt-context entry: the error callback, then the entry returns (R503,
60_exceptions.md R515). -/
def failIsr (u : Inst) (e : Word) (s : State) : Res :=
  .ok (callback u .error (failEpilogue u e s))

/-- The return of an interrupt-context entry that reached its end: nothing is restored, the mainline goes
on at its kept position (60_exceptions.md R515). -/
def isrReturn (s : State) : Res := .ok s

/-- The return code and error bits of `Fail(r)`, by the bound of the failed wait (R503). -/
def failCode (b : Bound) (r : WaitFail) : RetCode × Word :=
  match r, b with
  | .hwErr e, _ => (.error, e)
  | .timeout, .ms _ => (.timeout, errTimeout)
  | .timeout, .keyTimeout => (.timeout, errTimeout)
  | .timeout, .keyDerivBudget => (.error, errTimeout)
  | .timeout, .ccfBudget => (.error, errTimeout)

/-- The error bits of a failed wait outside `Fail` (42_key_iv.md R222, 46_suspend_resume.md R378);
`none` is a wait that ended with `KEYVALID = 0`. -/
def waitErrBits : Option WaitFail → Word
  | none => errKey
  | some .timeout => errTimeout
  | some (.hwErr e) => e

end Sys2Proof.Machine
end

