-- ==== Sys2Proof/Machine/Keys.lean ====
section
/-! DEFINITION. Key and IV management (42_key_iv.md): loading keys, key protection, the IV, key derivation. -/

namespace Sys2Proof.Machine

/-- The states a configuration or key command is admitted from (41_lifecycle_config.md R180). -/
def configurable (l : Life) : Bool := l == .init || l == .idle

/-! ### Register loads from caller memory -/

/-- One key word: `KEYR[i] <- MemRead(a + 4*j, 4)` (R221). -/
def loadKeyWord (u : Inst) (a : Word) (s : State) (p : Fin 8 × Nat) : Res := do
  let w ← memRead (wordAddr a p.2) s
  keyrWrite u p.1 w s

/-- Which key register takes which key word, in the order of the writes (R221; PRESUMED by the spec,
log 22). -/
def keyOrder : KeySize → List (Fin 8 × Nat)
  | .k128 => [(3, 0), (2, 1), (1, 2), (0, 3)]
  | .k256 => [(7, 0), (6, 1), (5, 2), (4, 3), (3, 4), (2, 5), (1, 6), (0, 7)]

/-- `WriteKey(a, k)` (R221). -/
def writeKey (u : Inst) (a : Word) (k : KeySize) (s : State) : Res :=
  (keyOrder k).foldlM (loadKeyWord u a) s

/-- One IV word: `IVR[i] <- MemRead(a + 4*j, 4)` (R230). -/
def loadIvWord (u : Inst) (a : Word) (s : State) (p : Fin 4 × Nat) : Res := do
  let w ← memRead (wordAddr a p.2) s
  ivrWrite u p.1 w s

/-- `WriteIV(a)` (R230; the mapping is PRESUMED by the spec, log 22). -/
def writeIv (u : Inst) (a : Word) (s : State) : Res :=
  [((3 : Fin 4), 0), (2, 1), (1, 2), (0, 3)].foldlM (loadIvWord u a) s

/-! ### The common parts of the key commands -/

/-- `if H.data_size_sum_byte != 0: H.msg_status <- CLOSED` (R223). -/
def closeCommitted (u : Inst) (s : State) : State :=
  s.modH u fun h => if h.dataSizeSum ≠ 0 then { h with msgStatus := .closed } else h

/-- The start of every key-load command after its checks (R222, R223). -/
def keyPrologue (u : Inst) (s : State) : State := clearKeif u (closeCommitted u (disable u s))

/-- `KeyFail(r)` (R222): `none` is a wait that ended with `KEYVALID = 0`. -/
def keyFail (u : Inst) (r : Option WaitFail) (s : State) : Res :=
  let s := match r with
    | some (.hwErr _) => clearKeif u s
    | some .timeout | none => s
  ret .error
    ((addErrors u (waitErrBits r) s).modH u fun h => { h with keySched := .none, keySrc := .none })

/-- The end of a successful key load (R220, R224, R225). -/
def keyLoaded (u : Inst) (p : Word) (k : KeySize) (o : KeyOrigin) (s : State) : State :=
  s.modH u fun h => { h with pKey := p, keySize := k, keySched := .enc, keySrc := o }

/-- The key load's wait ended OK: `KEYVALID` decides (R222). -/
def keyLoadEnd (u : Inst) (p : Word) (k : KeySize) (o : KeyOrigin) (s : State) : Res :=
  if (s.fl u).keyvalid then ret .ok (keyLoaded u p k o s) else keyFail u none s

/-! ### The commands -/

/-- `SET_NORMAL_KEY` up to its wait (R220). -/
def runSetNormalKey (u : Inst) (pKey keySize : Word) (s : State) : Res :=
  match keySizeOfWord keySize with
  | none => ret .invalidParam s
  | some k =>
    if pKey = null then ret .invalidParam s
    else if !aligned pKey then refuse .misalignedBuffer
    else if !configurable (s.h u).state then ret .busy s
    else do
      let s := keyPrologue u s
      let s ← doIf ((s.h u).inst = some .saes) (crWrite u (.keysel .software)) s
      let s ← crWrite u (.kmod .normal) s
      let s ← crWrite u (.keysize k) s
      let s ← writeKey u pKey k s
      .ok (park ⟨u, .setNormalKey pKey k, .keyLoad, .keyTimeout⟩ s)

/-- `SET_HW_KEY` up to its wait (R225, R226). -/
def runSetHwKey (u : Inst) (keysel kmod keySize : Word) (s : State) : Res :=
  match keySelOfWord keysel, kModOfWord kmod, keySizeOfWord keySize with
  | some ks, some km, some k =>
    if ks = .software then ret .invalidParam s
    else if (s.h u).inst ≠ some .saes then ret .invalidParam s
    else if !configurable (s.h u).state then ret .busy s
    else do
      let s := keyPrologue u s
      let s ← crWrite u (.keysize k) s
      let s ← crWrite u (.kmod km) s
      let s ← crWrite u (.keysel ks) s
      .ok (park ⟨u, .setHwKey k, .keyLoad, .keyTimeout⟩ s)
  | _, _, _ => ret .invalidParam s

/-- `SET_SHARED_KEY` up to its wait (R224). -/
def runSetSharedKey (u : Inst) (keySize shareId : Word) (s : State) : Res :=
  match keySizeOfWord keySize with
  | none => ret .invalidParam s
  | some k =>
    if !shareIdValid shareId then ret .invalidParam s
    else if (s.h u).inst ≠ some .aes then ret .invalidParam s
    else if !configurable (s.h u).state then ret .busy s
    else do
      let s := keyPrologue u s
      let s ← crWrite u (.keysize k) s
      let s ← crWrite u (.kmod .shared) s
      let s := sharedReceive u shareId s
      if (s.fl u).keif then do
        let s ← crWrite u (.kmod .normal) (clearKeif u s)
        ret .error
          ((addErrors u errKey s).modH u fun h => { h with keySched := .none, keySrc := .none })
      else .ok (park ⟨u, .setSharedKey k, .keyLoad, .keyTimeout⟩ s)

/-- The two key-protection commands after their checks (R227, R229). -/
def writeKeyProtection (u : Inst) (v : Bool) (s : State) : Res :=
  if (s.h u).inst ≠ some .saes then ret .invalidParam s
  else if !configurable (s.h u).state then ret .busy s
  else do
    let s ← crWrite u (.keyprot v) (closeCommitted u (disable u s))
    ret .ok s

/-! ### The meanings -/

/-- `SET_NORMAL_KEY` (R220). -/
def execSetNormalKey (u : Inst) (pKey keySize : Word) (s : State) : Outcome :=
  Res.outcome .mainline s (runSetNormalKey u pKey keySize s)

/-- `SET_HW_KEY` (R225). -/
def execSetHwKey (u : Inst) (keysel kmod keySize : Word) (s : State) : Outcome :=
  Res.outcome .mainline s (runSetHwKey u keysel kmod keySize s)

/-- `SET_SHARED_KEY` (R224). -/
def execSetSharedKey (u : Inst) (keySize shareId : Word) (s : State) : Outcome :=
  Res.outcome .mainline s (runSetSharedKey u keySize shareId s)

/-- `ENABLE_KEY_PROTECTION` (R227, R228). -/
def execEnableKeyProtection (u : Inst) (s : State) : Outcome :=
  Res.outcome .mainline s (writeKeyProtection u true s)

/-- `DISABLE_KEY_PROTECTION` (R229, R228). -/
def execDisableKeyProtection (u : Inst) (s : State) : Outcome :=
  Res.outcome .mainline s (writeKeyProtection u false s)

/-! ### Key derivation (R231) -/

/-- `KeyDerivation()` up to its wait. -/
def keyDerivStart (u : Inst) (s : State) : Res := do
  let s ← crWrite u (.mode .keyDeriv) (disable u s)
  crWrite u (.en true) s

/-- `KeyDerivation()` after its wait ended OK. -/
def keyDerivEnd (u : Inst) (s : State) : Res := do
  let s ← crWrite u (.mode .decrypt) (disable u (clearCcf u s))
  .ok (s.modH u fun h => { h with keySched := .dec })

end Sys2Proof.Machine
end

