-- ==== Sys2Proof/Machine/Lifecycle.lean ====
section
/-! DEFINITION. Lifecycle, configuration, data swap, queries, user data, callbacks and DMA linkage (41_lifecycle_config.md). -/

namespace Sys2Proof.Machine

/-! ### INIT and DEINIT -/

/-- `INIT` (R182). An operand naming the other instance is INVALID_PARAM (log 17). -/
def runInit (u : Inst) (inst : Word) (s : State) : Res :=
  if instOfWord inst ≠ some u then ret .invalidParam s
  else if (s.h u).state ≠ .reset then ret .busy s
  else ret .ok (s.modH u fun _ => { Handle.reset with inst := some u, state := .init })

/-- `DEINIT` (R183). The DMA channels are not stopped, and what they deliver later is stale
(45_transport.md R348, log 39). -/
def runDeinit (u : Inst) (s : State) : Res :=
  if (s.h u).state = .reset then ret .ok s
  else
    let s := disable u (ierWrite u ierNone s)
    let s := s.modCr u (crApply (.dmainen false))
    let s := s.modCr u (crApply (.dmaouten false))
    let s := clearRngeifOnSaes u (clearRweif u (clearKeif u (clearCcf u s)))
    ret .ok (abandonDma u (s.modH u fun _ => Handle.reset))

/-! ### Chaining-mode configuration -/

/-- The handle fields of `ConfigCommon` (R184). -/
def configHandle (alg : Alg) (hdr h : Word) (k : Handle) : Handle :=
  { k with
    algorithm := some alg, pHeader := hdr, headerSize := h, dataSizeSum := 0, blockIndex := 0,
    direction := .none, msgStatus := .open, state := .idle }

/-- `ConfigCommon(alg, hdr, h)` after its state check (R184). -/
def configCommon (u : Inst) (alg : Alg) (hdr h : Word) (s : State) : Res := do
  let s ← crWrite u (.chmod alg) (disable u s)
  let s ← crWrite u (.mode .encrypt) s
  let s ← crWrite u (.gcmph .init) s
  let s ← crWrite u (.npblb 0) s
  .ok (s.modH u (configHandle alg hdr h))

/-- `SET_CONFIG_ECB` (R185). -/
def runSetConfigEcb (u : Inst) (s : State) : Res :=
  if !configurable (s.h u).state then ret .busy s
  else do
    let s ← configCommon u .ecb null 0 s
    ret .ok s

/-- `SET_CONFIG_CBC` and `SET_CONFIG_CTR` (R186, R187). -/
def setConfigIv (u : Inst) (alg : Alg) (a : Word) (s : State) : Res :=
  if a = null then ret .invalidParam s
  else if !aligned a then refuse .misalignedBuffer
  else if !configurable (s.h u).state then ret .busy s
  else do
    let s ← configCommon u alg null 0 s
    let s ← writeIv u a s
    ret .ok s

/-- `SET_CONFIG_GCM_GMAC` and `SET_CONFIG_CCM` (R188, R189). -/
def setConfigAuth (u : Inst) (alg : Alg) (a p h : Word) (s : State) : Res :=
  if a = null then ret .invalidParam s
  else if h ≠ 0 ∧ p = null then ret .invalidParam s
  else if !aligned a || (h != 0 && !aligned p) then refuse .misalignedBuffer
  else if !configurable (s.h u).state then ret .busy s
  else do
    let s ← configCommon u alg (if h = 0 then null else p) h s
    let s ← writeIv u a s
    ret .ok s

/-! ### Data swap -/

/-- `SET_DATA_SWAP` (R190). -/
def runSetDataSwap (u : Inst) (datatype : Word) (s : State) : Res :=
  match dataTypeOfWord datatype with
  | none => ret .invalidParam s
  | some t =>
    if !configurable (s.h u).state then ret .busy s
    else do
      let s ← crWrite u (.datatype t) (disable u s)
      ret .ok (closeCommitted u s)

/-- What `GET_DATA_SWAP` returns (R191). -/
def dataSwapOf (u : Inst) (s : State) : DataType :=
  if (s.h u).state = .reset then .none else (s.cr u).datatype

/-! ### User data, callbacks, DMA linkage -/

/-- `SET_USER_DATA` (R194). -/
def runSetUserData (u : Inst) (p : Word) (s : State) : Res :=
  if (s.h u).state = .reset then ret .busy s
  else ret .ok (s.modH u fun h => { h with pUserData := p })

/-- `H.cb_<k> <- f` (R196). -/
def setCallback (k : CbKind) (f : Word) (h : Handle) : Handle :=
  match k with
  | .inCplt => { h with cbInCplt := some f }
  | .outCplt => { h with cbOutCplt := some f }
  | .error => { h with cbError := some f }
  | .suspend => { h with cbSuspend := some f }

/-- `REGISTER_CALLBACK` (R196). -/
def runRegisterCallback (u : Inst) (kind cb : Word) (s : State) : Res :=
  match cbKindOfWord kind with
  | none => ret .invalidParam s
  | some k =>
    if cb = null then ret .invalidParam s
    else if !configurable (s.h u).state then ret .busy s
    else ret .ok (s.modH u (setCallback k cb))

/-- `H.hdma_in <- c` or `H.hdma_out <- c` (R197). -/
def setChannel (q : Fifo) (c : Word) (h : Handle) : Handle :=
  match q with
  | .input => { h with hdmaIn := c }
  | .output => { h with hdmaOut := c }

/-- `LINK_DMA` (R197). -/
def runLinkDma (u : Inst) (fifo channel : Word) (s : State) : Res :=
  match fifoOfWord fifo with
  | none => ret .invalidParam s
  | some q =>
    if channel = null then ret .invalidParam s
    else if !configurable (s.h u).state then ret .busy s
    else ret .ok (s.modH u (setChannel q channel))

/-! ### The meanings -/

/-- `INIT` (R182). -/
def execInit (u : Inst) (inst : Word) (s : State) : Outcome := Res.outcome .mainline s (runInit u inst s)

/-- `DEINIT` (R183). -/
def execDeinit (u : Inst) (s : State) : Outcome := Res.outcome .mainline s (runDeinit u s)

/-- `SET_CONFIG_ECB` (R185). -/
def execSetConfigEcb (u : Inst) (s : State) : Outcome := Res.outcome .mainline s (runSetConfigEcb u s)

/-- `SET_CONFIG_CBC` (R186). -/
def execSetConfigCbc (u : Inst) (pIv : Word) (s : State) : Outcome :=
  Res.outcome .mainline s (setConfigIv u .cbc pIv s)

/-- `SET_CONFIG_CTR` (R187). -/
def execSetConfigCtr (u : Inst) (pIv : Word) (s : State) : Outcome :=
  Res.outcome .mainline s (setConfigIv u .ctr pIv s)

/-- `SET_CONFIG_GCM_GMAC` (R188). -/
def execSetConfigGcmGmac (u : Inst) (pIv pHeader headerSize : Word) (s : State) : Outcome :=
  Res.outcome .mainline s (setConfigAuth u .gcmGmac pIv pHeader headerSize s)

/-- `SET_CONFIG_CCM` (R189). -/
def execSetConfigCcm (u : Inst) (pB0 pHeader headerSize : Word) (s : State) : Outcome :=
  Res.outcome .mainline s (setConfigAuth u .ccm pB0 pHeader headerSize s)

/-- `SET_DATA_SWAP` (R190). -/
def execSetDataSwap (u : Inst) (datatype : Word) (s : State) : Outcome :=
  Res.outcome .mainline s (runSetDataSwap u datatype s)

/-- `GET_DATA_SWAP` (R191). -/
def execGetDataSwap (u : Inst) (s : State) : Outcome :=
  Res.outcome .mainline s (retVal (.datatype (dataSwapOf u s)) s)

/-- `GET_STATE` (R192). -/
def execGetState (u : Inst) (s : State) : Outcome :=
  Res.outcome .mainline s (retVal (.life (s.h u).state) s)

/-- `GET_LAST_ERROR_CODES` (R193). -/
def execGetLastErrorCodes (u : Inst) (s : State) : Outcome :=
  Res.outcome .mainline s (retVal (.word (s.h u).lastErrorCodes) s)

/-- `SET_USER_DATA` (R194). -/
def execSetUserData (u : Inst) (pUserData : Word) (s : State) : Outcome :=
  Res.outcome .mainline s (runSetUserData u pUserData s)

/-- `GET_USER_DATA` (R198). -/
def execGetUserData (u : Inst) (s : State) : Outcome :=
  Res.outcome .mainline s (retVal (.word (s.h u).pUserData) s)

/-- `REGISTER_CALLBACK` (R196). -/
def execRegisterCallback (u : Inst) (kind cb : Word) (s : State) : Outcome :=
  Res.outcome .mainline s (runRegisterCallback u kind cb s)

/-- `LINK_DMA` (R197). -/
def execLinkDma (u : Inst) (fifo channel : Word) (s : State) : Outcome :=
  Res.outcome .mainline s (runLinkDma u fifo channel s)

end Sys2Proof.Machine
end

