-- ==== Sys2Proof/Machine/Pump.lean ====
section
/-! DEFINITION. The block pump (43_block_pump.md): the current phase, padding, writing and reading one block; and the pad-byte count (44_phase_machine.md R286). -/

namespace Sys2Proof.Machine

/-- The current phase `Ph` (R252). -/
inductive PumpPhase | flat | header | payload
  deriving DecidableEq, Repr

/-- The current phase, from the algorithm and `CR.GCMPH` (R252); elsewhere there is none (log 27). -/
def phaseOf (alg : Option Alg) (g : Phase) : Option PumpPhase :=
  match alg, g with
  | some .ecb, _ | some .cbc, _ | some .ctr, _ => some .flat
  | some .gcmGmac, .header | some .ccm, .header => some .header
  | some .gcmGmac, .payload | some .ccm, .payload => some .payload
  | some .gcmGmac, .init | some .ccm, .init | some .gcmGmac, .final | some .ccm, .final => none
  | none, _ => none

/-- The current phase of `u`, or the fault of log 27. -/
def currentPhase (u : Inst) (s : State) : Except Stop PumpPhase :=
  match phaseOf (s.h u).algorithm (s.cr u).gcmph with
  | some ph => .ok ph
  | none => .error (.fault .noCurrentPhase)

/-- The source buffer's address in a phase (R252). -/
def phaseBuf (ph : PumpPhase) (h : Handle) : Word :=
  match ph with
  | .header => h.pHeader
  | .flat | .payload => h.pIn

/-- The source buffer's byte count in a phase (R252). -/
def phaseLen (ph : PumpPhase) (h : Handle) : Nat :=
  match ph with
  | .header => h.headerSize.toNat
  | .flat | .payload => h.dataSizeByte.toNat

/-- `NB(Ph)` (R252). -/
def phaseBlocks (ph : PumpPhase) (h : Handle) : Nat := ceilDiv (phaseLen ph h) 16

/-- `BlockWord(p, i, j, len)` (R252, R256): a whole word, a masked word, or zero. -/
def blockWord (t : DataType) (p : Word) (i j len : Nat) (s : State) : Except Stop Word :=
  let b := 16 * i + 4 * j
  if b + 4 ≤ len then memRead (p.toNat + b) s
  else if b < len then do
    let w ← memRead (p.toNat + b) s
    .ok (w &&& padMask t (len - b))
  else .ok 0

/-- The condition under which `SetNPBLB(i)` writes (44_phase_machine.md R286). -/
def npblbDue (ph : PumpPhase) (i : Nat) (h : Handle) (c : CR) : Bool :=
  ph == .payload && i + 1 == phaseBlocks .payload h && h.dataSizeByte.toNat % 16 != 0 &&
    ((h.algorithm == some .gcmGmac && c.mode == .encrypt) ||
      (h.algorithm == some .ccm && c.mode == .decrypt))

/-- `SetNPBLB(i)` (44_phase_machine.md R286). -/
def setNpblb (u : Inst) (ph : PumpPhase) (i : Nat) (s : State) : Res :=
  if npblbDue ph i (s.h u) (s.cr u) then
    crWrite u (.npblb (BitVec.ofNat 4 (16 - (s.h u).dataSizeByte.toNat % 16))) s
  else .ok s

/-- `DIN <- BlockWord(p, i, j, len)` (R255). -/
def writeBlockWord (u : Inst) (ph : PumpPhase) (i j : Nat) (s : State) : Res := do
  let w ← blockWord (s.cr u).datatype (phaseBuf ph (s.h u)) i j (phaseLen ph (s.h u)) s
  dinWrite u w s

/-- `WriteNext()` (R255). -/
def writeNext (u : Inst) (s : State) : Res := do
  let ph ← currentPhase u s
  let i := (s.h u).blockIndex.toNat
  let s ← setNpblb u ph i s
  let s ← four (writeBlockWord u ph i) s
  .ok (s.modH u fun h => { h with blockIndex := h.blockIndex + 1 })

/-- One output word of block `i`, stored if its first byte lies within the byte count (R254). -/
def readBlockWord (u : Inst) (i j : Nat) (s : State) : Res := do
  let (w, s) ← doutRead u s
  let b := 16 * i + 4 * j
  if b < (s.h u).dataSizeByte.toNat then memWrite ((s.h u).pOut.toNat + b) w s else .ok s

/-- `ReadOut(i)` (R254, R253). -/
def readOut (u : Inst) (i : Nat) (s : State) : Res := do
  let ph ← currentPhase u s
  if ph = .header ∨ outputSkip u (s.cr u) = true then .ok s else four (readBlockWord u i) s

/-- The part of `ProcessOneBlock` after its wait ended OK (R260). -/
def blockEnd (u : Inst) (s : State) : Res :=
  readOut u ((s.h u).blockIndex - 1).toNat (clearCcf u s)

end Sys2Proof.Machine
end

