-- ==== Sys2Proof/Machine/Phases.lean ====
section
/-! DEFINITION. The chaining-mode phase machine (44_phase_machine.md): INIT, the move to PAYLOAD, message checks, commit, and the parts of the tag. -/

namespace Sys2Proof.Machine

/-! ### Phases -/

/-- `PhaseInit(M, b)` up to its wait (R283). -/
def phaseInitStart (u : Inst) (m : Mode) (s : State) : Res := do
  let s ← crWrite u (.mode m) (disable u s)
  let s ← crWrite u (.gcmph .init) s
  let s ← crWrite u (.npblb 0) s
  crWrite u (.en true) s

/-- `H.block_index <- 0`. -/
def restartBlocks (u : Inst) (s : State) : State := s.modH u fun h => { h with blockIndex := 0 }

/-- The phase after INIT (R283). -/
def phaseAfterInit (h : Handle) : Phase := if h.headerSize = 0 then .payload else .header

/-- `PhaseInit(M, b)` after its wait ended OK (R283). -/
def phaseInitEnd (u : Inst) (s : State) : Res := do
  let s := disable u (clearCcf u s)
  let s ← crWrite u (.gcmph (phaseAfterInit (s.h u))) s
  let s ← crWrite u (.en true) s
  .ok (restartBlocks u s)

/-- `HeaderToPayload()` (R284). -/
def headerToPayload (u : Inst) (s : State) : Res := do
  let s ← crWrite u (.gcmph .payload) s
  .ok (restartBlocks u s)

/-! ### Messages -/

/-- The mode of a direction (R282). -/
def modeOfDirection : Direction → Mode
  | .enc | .none => .encrypt
  | .dec => .decrypt

/-- `H.algorithm in {ECB, CBC}`. -/
def ecbOrCbc (a : Option Alg) : Bool := a == some .ecb || a == some .cbc

/-- `H.algorithm in {ECB, CBC, CTR}`. -/
def flatAlg (a : Option Alg) : Bool := ecbOrCbc a || a == some .ctr

/-- `MsgCheck(dir, n)` (R299): the refusal, if the message cannot take the call. -/
def msgCheck (u : Inst) (dir : Direction) (n : Word) (s : State) : Option Refusal :=
  let h := s.h u
  if h.msgStatus ≠ .open then some .endedMessage
  else if h.direction ≠ .none ∧ h.direction ≠ dir then some .directionChange
  else if h.keySched = .dec ∧ ¬(ecbOrCbc h.algorithm = true ∧ dir = .dec ∧ h.dataSizeSum ≠ 0) then
    some .derivedKey
  else if h.keySched = .none ∧ (s.fl u).keyvalid = true then some .unknownSchedule
  else if 2 ^ 32 ≤ h.dataSizeSum.toNat + n.toNat then some .lengthOverflow
  else if (s.cr u).kmod ≠ .normal then some .keyModeProcessing
  else none

/-- The handle part of `CallCommit()` (R296). -/
def commitHandle (h : Handle) : Handle :=
  { h with
    dataSizeSum := h.dataSizeSum + h.dataSizeByte
    msgStatus := if h.dataSizeByte.toNat % 16 = 0 then h.msgStatus else .tagOnly
    transport := .none
    suspendRequest := false
    state := .idle }

/-- `CallCommit()` (R296). -/
def callCommit (u : Inst) (s : State) : State := s.modH u commitHandle

/-! ### FINAL -/

/-- A length word, pre-swapped (30_encoding.md R123). -/
def dinSwapped (u : Inst) (v : Word) (s : State) : Res :=
  dinWrite u (swap (s.cr u).datatype v) s

/-- `WriteLengthBlock()` (R302; PRESUMED by the spec, log 23). -/
def writeLengthBlock (u : Inst) (s : State) : Res := do
  let s ← dinSwapped u 0 s
  let s ← dinSwapped u ((s.h u).headerSize * 8) s
  let s ← dinSwapped u 0 s
  dinSwapped u ((s.h u).dataSizeSum * 8) s

/-- One tag word (R303). -/
def readTagWord (u : Inst) (a : Word) (j : Nat) (s : State) : Res := do
  let (w, s) ← doutRead u s
  memWrite (wordAddr a j) w s

/-- `ReadTag(a)` (R303). -/
def readTag (u : Inst) (a : Word) (s : State) : Res := four (readTagWord u a) s

/-- The handle at the end of a tag, wrap or share command (R300, 47_key_wrap_share.md R405). -/
def closeHandle (h : Handle) : Handle :=
  { h with msgStatus := .closed, transport := .none, state := .idle }

/-- `CR.EN <- 0` and the closed message (R300, 47_key_wrap_share.md `KeyOpEnd`). -/
def closeMessage (u : Inst) (s : State) : State := (disable u s).modH u closeHandle

/-- The algorithm a tag command needs (R300, R301). -/
def tagAlg : TagKind → Alg
  | .gcm => .gcmGmac
  | .ccm => .ccm

/-- The parameter check, the alignment, the state check and the refusals of a tag command (R300, R301). -/
def tagCheck (u : Inst) (k : TagKind) (pTag : Word) (s : State) (go : State → Res) : Res :=
  let h := s.h u
  if pTag = null then ret .invalidParam s
  else if h.algorithm ≠ some (tagAlg k) then ret .invalidParam s
  else if !aligned pTag then refuse .misalignedBuffer
  else if h.state ≠ .idle then ret .busy s
  else if h.msgStatus = .closed then refuse .tagEnded
  else if h.dataSizeSum = 0 ∧ h.keySched = .dec then refuse .derivedKey
  else if h.keySched = .none ∧ (s.fl u).keyvalid = true then refuse .unknownSchedule
  else if (s.cr u).kmod ≠ .normal then refuse .keyModeProcessing
  else if k = .gcm ∧ (2 ^ 29 ≤ h.headerSize.toNat ∨ 2 ^ 29 ≤ h.dataSizeSum.toNat) then
    refuse .bitLengthOverflow
  else go s

/-- `H.last_error_codes <- 0; H.state <- ACTIVE; H.transport <- POLL` (R300). -/
def activatePoll (h : Handle) : Handle :=
  { h with lastErrorCodes := 0, state := .active, transport := .poll }

/-- FINAL up to its wait (R300, R301). -/
def tagFinal (u : Inst) (k : TagKind) (pTag t : Word) (s : State) : Res := do
  let s ← crWrite u (.gcmph .final) s
  let s ← doIf (k = .gcm) (writeLengthBlock u) s
  .ok (park ⟨u, .tag k pTag t, .tagWords, .ms t⟩ s)

/-- The header blocks of a tag command with no payload, then FINAL (R300). -/
def tagLoop (u : Inst) (k : TagKind) (pTag t : Word) (s : State) : Res := do
  let ph ← currentPhase u s
  if ph = .header ∧ (s.h u).blockIndex.toNat < phaseBlocks .header (s.h u) then do
    let s ← writeNext u s
    .ok (park ⟨u, .tag k pTag t, .headerBlock, .ms t⟩ s)
  else tagFinal u k pTag t s

/-- The end of a tag command (R300). -/
def tagEnd (u : Inst) (pTag : Word) (s : State) : Res := do
  let s ← readTag u pTag (clearCcf u s)
  ret .ok (closeMessage u s)

/-- A tag command up to its first wait (R300, R301). -/
def runTag (u : Inst) (k : TagKind) (pTag t : Word) (s : State) : Res :=
  tagCheck u k pTag s fun s => do
    let s := s.modH u activatePoll
    if !(s.fl u).keyvalid then failMain u .error errKey s
    else if (s.h u).dataSizeSum = 0 then do
      let s ← phaseInitStart u .encrypt s
      .ok (park ⟨u, .tag k pTag t, .phaseInit, .ms t⟩ s)
    else tagFinal u k pTag t s

/-- `GCM_GENERATE_TAG` (R300). -/
def execGcmGenerateTag (u : Inst) (pTag timeoutMs : Word) (s : State) : Outcome :=
  Res.outcome .mainline s (runTag u .gcm pTag timeoutMs s)

/-- `CCM_GENERATE_TAG` (R301). -/
def execCcmGenerateTag (u : Inst) (pTag timeoutMs : Word) (s : State) : Outcome :=
  Res.outcome .mainline s (runTag u .ccm pTag timeoutMs s)

end Sys2Proof.Machine
end

