-- ==== Sys2Proof/Machine/Transport.lean ====
section
/-! DEFINITION. The transport dispatcher (45_transport.md): entry checks, the polling, interrupt and DMA transports, and the four events. -/

namespace Sys2Proof.Machine

/-! ### Entry -/

/-- An output buffer starting inside the input above its start (R323, 70_reset_and_hazards.md R614). -/
def overlaps (a n o : Word) : Bool :=
  decide (a.toNat < o.toNat) && decide (o.toNat < a.toNat + 4 * ceilDiv n.toNat 4)

/-- The handle fields `EntryCheck` writes (R323). -/
def enterHandle (dir : Direction) (t : Transport) (a n o : Word) (h : Handle) : Handle :=
  { h with
    lastErrorCodes := 0, state := .active, transport := t, pIn := a, pOut := o, dataSizeByte := n,
    direction := dir, suspendRequest := false, blockIndex := 0, dmaInDone := false,
    dmaOutDone := false }

/-- `EntryCheck(dir, a, n, o, T)` (R323), then the rest `go` of the command. The DMA output-skip refusal
of 43_block_pump.md R253 stands before the message checks (log 26). -/
def entryCheck (u : Inst) (dir : Direction) (t : Transport) (a n o : Word) (s : State)
    (go : State → Res) : Res :=
  let h := s.h u
  if a = null ∨ o = null ∨ n = 0 then ret .invalidParam s
  else if flatAlg h.algorithm = true ∧ n.toNat % 16 ≠ 0 then ret .invalidParam s
  else if t = .dma ∧ (h.hdmaIn = null ∨ h.hdmaOut = null) then ret .invalidParam s
  else if !aligned a || !aligned o then refuse .misalignedBuffer
  else if overlaps a n o then refuse .outputOverlap
  else if h.state ≠ .idle then ret .busy s
  else if t = .dma ∧ outputSkip u (s.cr u) = true then refuse .dmaOutputSkip
  else
    match msgCheck u dir n s with
    | some r => refuse r
    | none =>
      if t = .dma ∧ ((s.periph u).dmaIn.isSome ∨ (s.periph u).dmaOut.isSome) then refuse .staleDma
      else
        let s := s.modH u (enterHandle dir t a n o)
        if !(s.fl u).keyvalid then failMain u .error errKey s else go s

/-! ### After the setup of a call -/

/-- The loop of `ProcessPoll` up to its next wait or its end (R322). -/
def pollLoop (u : Inst) (dir : Direction) (t : Word) (s : State) : Res := do
  let ph ← currentPhase u s
  let s ← doIf (ph = .header ∧ (s.h u).blockIndex.toNat = phaseBlocks .header (s.h u))
    (headerToPayload u) s
  let ph ← currentPhase u s
  if ph ≠ .header ∧ (s.h u).blockIndex.toNat = phaseBlocks ph (s.h u) then ret .ok (callCommit u s)
  else do
    let s ← writeNext u s
    .ok (park ⟨u, .poll dir t, .block, .ms t⟩ s)

/-- `if Ph != HEADER and H.block_index = NB(Ph): Callback(IN_CPLT)` (R327, R331). -/
def lastInputCallback (u : Inst) (s : State) : Res := do
  let ph ← currentPhase u s
  .ok (if ph ≠ .header ∧ (s.h u).blockIndex.toNat = phaseBlocks ph (s.h u) then
    callback u .inCplt s else s)

/-- `StartIT` after the setup (R327). -/
def itStart (u : Inst) (s : State) : Res := do
  let s ← writeNext u s
  let s ← lastInputCallback u (ierWrite u (itMask (s.h u).inst) s)
  ret .ok s

/-- `DMA_Start` of both channels with `m` whole blocks (20_memory.md R92, R342). -/
def dmaStartBoth (u : Inst) (m : Nat) (s : State) : State :=
  s.modify u fun p =>
    { p with
      dmaOut := some ⟨p.h.pOut, 4 * m, 0, false⟩
      dmaIn := some ⟨p.h.pIn, 4 * m, 0, false⟩ }

/-- `StartDMA` after the setup, up to its next wait or its end (R342). -/
def dmaLoop (u : Inst) (dir : Direction) (s : State) : Res := do
  let ph ← currentPhase u s
  if ph = .header ∧ (s.h u).blockIndex.toNat < phaseBlocks .header (s.h u) then do
    let s ← writeNext u s
    .ok (park ⟨u, .startDma dir, .headerBlock, .ccfBudget⟩ s)
  else do
    let s ← doIf (ph = .header) (headerToPayload u) s
    let m := (s.h u).dataSizeByte.toNat / 16
    if m = 0 then do
      let s ← writeNext u s
      .ok (park ⟨u, .startDma dir, .block, .ccfBudget⟩ s)
    else do
      let s := dmaStartBoth u m (ierWrite u (dmaMask (s.h u).inst) s)
      let s ← crWrite u (.dmaouten true) s
      let s ← crWrite u (.dmainen true) s
      ret .ok s

/-- The end of a DMA call with no whole block (R343). -/
def dmaSmallEnd (u : Inst) (s : State) : Res :=
  ret .ok (callback u .outCplt (callback u .inCplt (callCommit u s)))

/-- The command's part after `CallSetup`. -/
def afterSetup (u : Inst) (p : Proc) (s : State) : Res :=
  match p with
  | .poll dir t => pollLoop u dir t s
  | .startIt _ => itStart u s
  | .startDma dir => dmaLoop u dir s
  | .setNormalKey _ _ | .setHwKey _ | .setSharedKey _ | .tag _ _ _ | .keyOp _ _ | .restore _
  | .dmaFinish _ => .ok s

/-! ### `CallSetup` (44_phase_machine.md R282) -/

/-- The end of the setup of ECB, CBC and CTR: `CR.MODE <- M; CR.EN <- 1`. -/
def flatSetupEnd (u : Inst) (p : Proc) (dir : Direction) (s : State) : Res := do
  let s ← crWrite u (.mode (modeOfDirection dir)) s
  let s ← crWrite u (.en true) s
  afterSetup u p (restartBlocks u s)

/-- `CallSetup(dir, b)` up to its wait, or through it if it has none. -/
def callSetup (u : Inst) (p : Proc) (dir : Direction) (b : Bound) (s : State) : Res :=
  let h := s.h u
  if h.dataSizeSum ≠ 0 then afterSetup u p (restartBlocks u s)
  else if flatAlg h.algorithm then
    if dir = .dec ∧ ecbOrCbc h.algorithm = true then do
      let s ← keyDerivStart u (disable u s)
      .ok (park ⟨u, p, .keyDeriv, .keyDerivBudget⟩ s)
    else flatSetupEnd u p dir (disable u s)
  else do
    let s ← phaseInitStart u (modeOfDirection dir) s
    .ok (park ⟨u, p, .phaseInit, b⟩ s)

/-- `CallSetup` after the wait of `KeyDerivation` ended OK. -/
def setupDerived (u : Inst) (p : Proc) (dir : Direction) (s : State) : Res := do
  let s ← keyDerivEnd u s
  flatSetupEnd u p dir s

/-- `CallSetup` after the wait of `PhaseInit` ended OK. -/
def setupPhaseInit (u : Inst) (p : Proc) (s : State) : Res := do
  let s ← phaseInitEnd u s
  afterSetup u p (restartBlocks u s)

/-! ### The six commands -/

/-- `ProcessPoll` (R322) up to its first wait. -/
def processPoll (u : Inst) (dir : Direction) (a n o t : Word) (s : State) : Res :=
  entryCheck u dir .poll a n o s fun s => callSetup u (.poll dir t) dir (.ms t) s

/-- `StartIT` (R327) up to its first wait. -/
def startIt (u : Inst) (dir : Direction) (a n o : Word) (s : State) : Res :=
  entryCheck u dir .it a n o s fun s => callSetup u (.startIt dir) dir .ccfBudget s

/-- `StartDMA` (R342) up to its first wait. -/
def startDma (u : Inst) (dir : Direction) (a n o : Word) (s : State) : Res :=
  entryCheck u dir .dma a n o s fun s => callSetup u (.startDma dir) dir .ccfBudget s

/-- `ENCRYPT` (R320). -/
def execEncrypt (u : Inst) (pIn sizeByte pOut timeoutMs : Word) (s : State) : Outcome :=
  Res.outcome .mainline s (processPoll u .enc pIn sizeByte pOut timeoutMs s)

/-- `DECRYPT` (R321). -/
def execDecrypt (u : Inst) (pIn sizeByte pOut timeoutMs : Word) (s : State) : Outcome :=
  Res.outcome .mainline s (processPoll u .dec pIn sizeByte pOut timeoutMs s)

/-- `ENCRYPT_IT` (R325). -/
def execEncryptIt (u : Inst) (pIn sizeByte pOut : Word) (s : State) : Outcome :=
  Res.outcome .mainline s (startIt u .enc pIn sizeByte pOut s)

/-- `DECRYPT_IT` (R326). -/
def execDecryptIt (u : Inst) (pIn sizeByte pOut : Word) (s : State) : Outcome :=
  Res.outcome .mainline s (startIt u .dec pIn sizeByte pOut s)

/-- `ENCRYPT_DMA` (R340). -/
def execEncryptDma (u : Inst) (pIn sizeByte pOut : Word) (s : State) : Outcome :=
  Res.outcome .mainline s (startDma u .enc pIn sizeByte pOut s)

/-- `DECRYPT_DMA` (R341). -/
def execDecryptDma (u : Inst) (pIn sizeByte pOut : Word) (s : State) : Outcome :=
  Res.outcome .mainline s (startDma u .dec pIn sizeByte pOut s)

/-! ### The interrupt handler -/

/-- `IT_Complete()` (R332). -/
def itComplete (u : Inst) (s : State) : State :=
  callback u .outCplt (callCommit u (ierWrite u ierNone s))

/-- `IT_Suspend()` (R333). -/
def itSuspend (u : Inst) (s : State) : State :=
  callback u .suspend
    ((ierWrite u ierNone s).modH u fun h => { h with suspendRequest := false, state := .suspended })

/-- `IT_Boundary(check)` (R331, R337). -/
def itBoundary (u : Inst) (check : Bool) (s : State) : Res := do
  let ph ← currentPhase u s
  let h := s.h u
  if ¬(ph = .header ∨ h.blockIndex.toNat < phaseBlocks ph h) then .ok (itComplete u s)
  else if check && h.suspendRequest then .ok (itSuspend u s)
  else do
    let s ← doIf (ph = .header ∧ h.blockIndex.toNat = phaseBlocks .header h) (headerToPayload u) s
    let s ← writeNext u s
    lastInputCallback u s

/-- The phase error of `IT_Advance` (R331, R336). -/
def phaseError (h : Handle) (c : CR) : Bool :=
  (h.algorithm == some .gcmGmac || h.algorithm == some .ccm) &&
    !(c.gcmph == .header || c.gcmph == .payload)

/-- `IT_Advance()` (R331). -/
def itAdvance (u : Inst) (s : State) : Res :=
  if phaseError (s.h u) (s.cr u) then failIsr u errPhase s
  else do
    let s ← readOut u ((s.h u).blockIndex - 1).toNat s
    let s ← itBoundary u true s
    isrReturn s

/-- `IRQ` (R330, R334, R335). Where R330's tests find no enabled flag, it acknowledges the flags that are
set, as R335 and D34 say (log 38). -/
def runIrq (u : Inst) (s : State) : Res :=
  let p := s.periph u
  let e := irqErrors p.h.inst p.fl p.ier
  if e ≠ 0 then
    if p.h.state = .active ∧ (p.h.transport = .it ∨ p.h.transport = .dma) then failIsr u e s
    else isrReturn (clearRngeifOnSaes u (clearRweif u (clearKeif u s)))
  else if p.ier.ccfie && p.fl.ccf then
    let s := clearCcf u s
    if p.h.state = .active ∧ p.h.transport = .it then itAdvance u s else isrReturn s
  else isrReturn (clearFound u s)

/-- `IRQ` (R330). -/
def execIrq (u : Inst) (s : State) : Outcome := Res.outcome .entry s (runIrq u s)

/-! ### The DMA events -/

/-- The end of `DMA_Finish(from_in)` (R349). -/
def dmaFinishEnd (u : Inst) (fromIn : Bool) (s : State) : Res :=
  let partialBlock := (s.h u).dataSizeByte.toNat % 16 != 0
  let s := callCommit u (ierWrite u ierNone s)
  let s := if partialBlock || fromIn then callback u .inCplt s else s
  isrReturn (callback u .outCplt s)

/-- `DMA_Finish(from_in)` up to its wait, or to its end if it has none (R349). -/
def dmaFinish (u : Inst) (fromIn : Bool) (s : State) : Res :=
  let s := (clearCcf u s).modH u fun h =>
    { h with blockIndex := BitVec.ofNat 32 (h.dataSizeByte.toNat / 16) }
  if (s.h u).dataSizeByte.toNat % 16 ≠ 0 then do
    let s ← writeNext u s
    .ok (park ⟨u, .dmaFinish fromIn, .block, .ccfBudget⟩ s)
  else dmaFinishEnd u fromIn s

/-- `DMA_IN_CPLT` (R345, R348). -/
def runDmaInCplt (u : Inst) (s : State) : Res :=
  let h := s.h u
  if h.state ≠ .active ∨ h.transport ≠ .dma ∨ h.dmaInDone = true then isrReturn s
  else do
    let s ← crWrite u (.dmainen false) s
    let s := s.modH u fun h => { h with dmaInDone := true }
    if h.dmaOutDone then dmaFinish u true s
    else if h.dataSizeByte.toNat % 16 = 0 then isrReturn (callback u .inCplt s)
    else isrReturn s

/-- `DMA_OUT_CPLT` (R346, R348). -/
def runDmaOutCplt (u : Inst) (s : State) : Res :=
  let h := s.h u
  if h.state ≠ .active ∨ h.transport ≠ .dma ∨ h.dmaOutDone = true then isrReturn s
  else do
    let s ← crWrite u (.dmaouten false) s
    let s := s.modH u fun h => { h with dmaOutDone := true }
    if h.dmaInDone then dmaFinish u false s else isrReturn s

/-- `DMA_ERROR` (R347, R348). Both enables are cleared whichever channel failed. -/
def runDmaError (u : Inst) (s : State) : Res :=
  let h := s.h u
  if h.state ≠ .active ∨ h.transport ≠ .dma then isrReturn s
  else do
    let s ← crWrite u (.dmainen false) s
    let s ← crWrite u (.dmaouten false) s
    failIsr u errDma (clearCcf u s)

/-- `DMA_IN_CPLT` (R345). -/
def execDmaInCplt (u : Inst) (s : State) : Outcome := Res.outcome .entry s (runDmaInCplt u s)

/-- `DMA_OUT_CPLT` (R346). -/
def execDmaOutCplt (u : Inst) (s : State) : Outcome := Res.outcome .entry s (runDmaOutCplt u s)

/-- `DMA_ERROR` (R347). The channel operand changes nothing: both enables are cleared. -/
def execDmaError (u : Inst) (_fifo : Fifo) (s : State) : Outcome := Res.outcome .entry s (runDmaError u s)

end Sys2Proof.Machine
end

