-- ==== Sys2Proof/Machine/Suspend.lean ====
section
/-! DEFINITION. Suspend and resume, context save and restore (46_suspend_resume.md). -/

namespace Sys2Proof.Machine

/-- `H.algorithm in {GCM_GMAC, CCM}`. -/
def authAlg (a : Option Alg) : Bool := a == some .gcmGmac || a == some .ccm

/-! ### REQUEST_SUSPEND -/

/-- `REQUEST_SUSPEND` (R370). -/
def runRequestSuspend (u : Inst) (s : State) : Res :=
  if (s.h u).state ≠ .active ∨ (s.h u).transport ≠ .it then ret .error s
  else ret .ok (s.modH u fun h => { h with suspendRequest := true })

/-! ### SAVE_CONTEXT -/

/-- The fields an unwritten record holds where the first save does not write them (R60, log 32). -/
def freshSusp : Vector Word 8 := Vector.replicate 8 0

/-- The record `SAVE_CONTEXT` leaves, over what the record held before (R373, 10_state.md R60). -/
def savedContext (p : Periph) (old : Option Context) : Context where
  cr := p.cr
  inst := p.h.inst
  algorithm := p.h.algorithm
  dataSizeByte := p.h.dataSizeByte
  dataSizeSum := p.h.dataSizeSum
  pIn := p.h.pIn
  pOut := p.h.pOut
  blockIndex := p.h.blockIndex
  pHeader := if authAlg p.h.algorithm then p.h.pHeader else (old.map (·.pHeader)).getD null
  headerSize := if authAlg p.h.algorithm then p.h.headerSize else (old.map (·.headerSize)).getD 0
  suspendRequest := p.h.suspendRequest
  pKey := p.h.pKey
  keySize := p.h.keySize
  cbInCplt := p.h.cbInCplt
  cbOutCplt := p.h.cbOutCplt
  cbError := p.h.cbError
  cbSuspend := p.h.cbSuspend
  susp := if authAlg p.h.algorithm then p.suspr else (old.map (·.susp)).getD freshSusp
  iv := if p.h.algorithm = some .ecb then (old.map (·.iv)).getD (Vector.replicate 4 0) else p.ivr
  direction := p.h.direction
  keySched := p.h.keySched
  keySrc := p.h.keySrc

/-- `SAVE_CONTEXT` (R373). -/
def runSaveContext (u : Inst) (ctx : Word) (s : State) : Res :=
  if ctx = null then ret .invalidParam s
  else if (s.h u).state ≠ .suspended then ret .busy s
  else
    let c := savedContext (s.periph u) (assocGet ctx.toNat s.contexts)
    ret .ok (closeMessage u { s with contexts := assocPut ctx.toNat c s.contexts })

/-! ### RESTORE_CONTEXT -/

/-- The handle fields restore writes before its key reload (R376). DESIGN CHOICE (log 41): after a restore
for ECB, CBC or CTR the header pointer and size keep what the handle held, as R376 writes them only for GCM
and CCM, while 10_state.md R27 says they are NULL and 0 for these algorithms. -/
def restoreHandle (c : Context) (h : Handle) : Handle :=
  { h with
    algorithm := c.algorithm, dataSizeByte := c.dataSizeByte, dataSizeSum := c.dataSizeSum,
    pIn := c.pIn, pOut := c.pOut, blockIndex := c.blockIndex, suspendRequest := c.suspendRequest,
    pKey := c.pKey, keySize := c.keySize, cbInCplt := c.cbInCplt, cbOutCplt := c.cbOutCplt,
    cbError := c.cbError, cbSuspend := c.cbSuspend, direction := c.direction,
    pHeader := if authAlg c.algorithm then c.pHeader else h.pHeader,
    headerSize := if authAlg c.algorithm then c.headerSize else h.headerSize }

/-- The writes of `CR <- c.cr with EN = 0, DMAINEN = 0, DMAOUTEN = 0`, field by field in the order of
10_state.md R41 (R376); `EN` was written 0 before. -/
def crWritesOf (c : CR) : List CrWrite :=
  [.datatype c.datatype, .mode c.mode, .chmod c.chmod, .gcmph c.gcmph, .dmainen false,
    .dmaouten false, .keysize c.keysize, .npblb c.npblb, .kmod c.kmod, .kshareid c.kshareid,
    .keysel c.keysel, .keyprot c.keyprot]

/-- The `CR` writes of a restore. -/
def restoreCr (u : Inst) (c : CR) (s : State) : Res :=
  (crWritesOf c).foldlM (fun s w => crWrite u w s) s

/-- `for i in 0 .. 3: IVR[i] <- c.iv[i]` (R376). -/
def restoreIv (u : Inst) (v : Vector Word 4) (s : State) : Res :=
  (List.finRange 4).foldlM (fun s i => ivrWrite u i v[i] s) s

/-- `for i in 0 .. 7: SUSPR[i] <- c.susp[i]` (R376). -/
def restoreSusp (u : Inst) (v : Vector Word 8) (s : State) : Res :=
  (List.finRange 8).foldlM (fun s i => susprWrite u i v[i] s) s

/-- `key_src in {UNWRAPPED, SHARED, NONE}` (R376, R377). -/
def notReloadable : KeyOrigin → Bool
  | .unwrapped | .shared | .none => true
  | .software | .hw => false

/-- `RESTORE_CONTEXT` up to its wait (R376, 10_state.md R62). -/
def runRestoreContext (u : Inst) (ctx : Word) (s : State) : Res :=
  if ctx = null then ret .invalidParam s
  else
    match assocGet ctx.toNat s.contexts with
    | none => refuse .unwrittenContext
    | some c =>
      if c.inst ≠ (s.h u).inst then ret .invalidParam s
      else if (s.h u).state ≠ .idle then ret .busy s
      else if notReloadable c.keySrc then refuse .keyNotReloadable
      else if c.keySched = .dec ∧ c.keySrc = .software ∧ c.pKey = null then
        .error (.fault .noKeyPointer)
      else do
        let s ← restoreCr u c.cr (disable u s)
        let s := s.modH u (restoreHandle c)
        let s ← doIf (c.algorithm ≠ some .ecb) (restoreIv u c.iv) s
        let s ← doIf ((s.cr u).keysel = .software) (writeKey u c.pKey c.keySize) s
        .ok (park ⟨u, .restore ctx, .keyLoad, .keyTimeout⟩ s)

/-- The handle part of `RestoreFail` (R378). -/
def restoreFailHandle (h : Handle) : Handle :=
  { h with
    msgStatus := .closed, keySched := .none, keySrc := .none, transport := .none, state := .idle }

/-- `RestoreFail(r)` and the return of ERROR (R378); `none` is `KEYVALID = 0`. -/
def restoreFail (u : Inst) (r : Option WaitFail) (s : State) : Res :=
  let s := clearRweif u (clearRngeifOnSaes u (clearKeif u (addErrors u (waitErrBits r) s)))
  ret .error ((disable u s).modH u restoreFailHandle)

/-- The end of a restore (R376). -/
def restoreEnd (u : Inst) (c : Context) (s : State) : Res := do
  let s ← doIf (authAlg c.algorithm = true) (restoreSusp u c.susp) s
  ret .ok (s.modH u fun h => { h with msgStatus := .open, transport := .it, state := .suspended })

/-- The record of a restore in progress. -/
def contextOf (ctx : Word) (s : State) : Except Stop Context :=
  match assocGet ctx.toNat s.contexts with
  | some c => .ok c
  | none => .error (.refuse .unwrittenContext)

/-- A restore after its key-load wait ended OK (R376). -/
def restoreKeyLoaded (u : Inst) (ctx : Word) (s : State) : Res := do
  let c ← contextOf ctx s
  if !(s.fl u).keyvalid then restoreFail u none s
  else do
    let s := s.modH u fun h => { h with keySched := .enc, keySrc := c.keySrc }
    if ecbOrCbc c.algorithm = true ∧ c.direction = .dec then do
      let s ← keyDerivStart u s
      .ok (park ⟨u, .restore ctx, .keyDeriv, .keyDerivBudget⟩ s)
    else restoreEnd u c s

/-- A restore after its key-derivation wait ended OK (R376). -/
def restoreDerived (u : Inst) (ctx : Word) (s : State) : Res := do
  let c ← contextOf ctx s
  let s ← keyDerivEnd u s
  let s ← crWrite u (.mode c.cr.mode) s
  restoreEnd u c s

/-! ### RESUME -/

/-- `H.state <- ACTIVE`. -/
def setActive (u : Inst) (s : State) : State := s.modH u fun h => { h with state := .active }

/-- `RESUME` (R379, R380). -/
def runResume (u : Inst) (s : State) : Res :=
  if (s.h u).state ≠ .suspended then ret .busy s
  else if !(s.fl u).keyvalid then failMain u .error errKey (setActive u s)
  else do
    let s ← doIf ((s.cr u).en = false) (crWrite u (.en true)) s
    let s := setActive u s
    let s ← itBoundary u false (ierWrite u (itMask (s.h u).inst) s)
    ret .ok s

/-! ### The meanings -/

/-- `REQUEST_SUSPEND` (R370). -/
def execRequestSuspend (u : Inst) (s : State) : Outcome := Res.outcome .mainline s (runRequestSuspend u s)

/-- `SAVE_CONTEXT` (R373). -/
def execSaveContext (u : Inst) (ctx : Word) (s : State) : Outcome :=
  Res.outcome .mainline s (runSaveContext u ctx s)

/-- `RESTORE_CONTEXT` (R376). -/
def execRestoreContext (u : Inst) (ctx : Word) (s : State) : Outcome :=
  Res.outcome .mainline s (runRestoreContext u ctx s)

/-- `RESUME` (R379). -/
def execResume (u : Inst) (s : State) : Outcome := Res.outcome .mainline s (runResume u s)

end Sys2Proof.Machine
end

