-- ==== Sys2Proof/Machine/KeyOps.lean ====
section
/-! DEFINITION. Key wrap, unwrap and key sharing (47_key_wrap_share.md). -/

namespace Sys2Proof.Machine

/-- The handle fields `KeyOpCheck` writes (R405). -/
def keyOpHandle (a o n : Word) (h : Handle) : Handle :=
  { activatePoll h with pIn := a, pOut := o, dataSizeByte := n, blockIndex := 0 }

/-- `KeyOpCheck(km, a, o, k)` (R405), then the rest `go`. `o = none` is the output buffer of the
decrypting commands; `k = none` is no share id. -/
def keyOpCheck (u : Inst) (km : KMod) (a : Word) (o k : Option Word) (s : State)
    (go : State → Res) : Res :=
  let h := s.h u
  if a = null ∨ o = some null then ret .invalidParam s
  else if !(k.all shareIdValid) then ret .invalidParam s
  else if h.inst ≠ some .saes then ret .invalidParam s
  else if !ecbOrCbc h.algorithm then ret .invalidParam s
  else if (s.cr u).kmod ≠ km then ret .invalidParam s
  else if !aligned a || !(o.all aligned) then refuse .misalignedBuffer
  else if h.state ≠ .idle then ret .busy s
  else if h.msgStatus ≠ .open ∨ h.dataSizeSum ≠ 0 then refuse .keyOpInsideMessage
  else if h.keySched = .dec then refuse .derivedKey
  else if h.keySched = .none ∧ (s.fl u).keyvalid = true then refuse .unknownSchedule
  else
    let n := BitVec.ofNat 32 (4 * (s.cr u).keysize.words)
    let s := s.modH u (keyOpHandle a (o.getD null) n)
    if !(s.fl u).keyvalid then failMain u .error errKey s else go s

/-- Where the key of a decrypting command comes from afterwards (R401, R404). -/
def keyOpOrigin : KeyOp → KeyOrigin
  | .decryptShared => .shared
  | .unwrap | .wrap | .encryptShared => .unwrapped

/-- The end of an unwrap or a shared-key decryption (R401, R404). -/
def keyOpReceived (u : Inst) (k : KeyOp) (s : State) : Res :=
  if !(s.fl u).keyvalid then failMain u .error errKey s
  else do
    let s ← crWrite u (.kmod .normal) (disable u s)
    ret .ok (closeMessage u (keyLoaded u null (s.cr u).keysize (keyOpOrigin k) s))

/-- The end of a wrap or share command, after its last block (R400 to R404). -/
def keyOpEnd (u : Inst) (k : KeyOp) (s : State) : Res :=
  match k with
  | .wrap | .encryptShared => ret .ok (closeMessage u s)
  | .unwrap | .decryptShared => keyOpReceived u k s

/-- The block loop of a wrap or share command, up to its next wait or its end (R400). -/
def keyOpLoop (u : Inst) (k : KeyOp) (t : Word) (s : State) : Res :=
  if (s.h u).blockIndex.toNat < (s.cr u).keysize.words / 4 then do
    let s ← writeNext u s
    .ok (park ⟨u, .keyOp k t, .block, .ms t⟩ s)
  else keyOpEnd u k s

/-- `CR.MODE <- m; CR.EN <- 1`, then the block loop (R400 to R404). -/
def keyOpBlocks (u : Inst) (k : KeyOp) (m : Mode) (t : Word) (s : State) : Res := do
  let s ← crWrite u (.mode m) s
  let s ← crWrite u (.en true) s
  keyOpLoop u k t s

/-- An encrypting key command after its checks (R400, R402). -/
def keyOpEncrypt (u : Inst) (k : KeyOp) (t : Word) (s : State) : Res :=
  keyOpBlocks u k .encrypt t s

/-- A decrypting key command after its checks, up to its key-derivation wait (R401, R404). -/
def keyOpDecrypt (u : Inst) (k : KeyOp) (t : Word) (s : State) : Res := do
  let s ← keyDerivStart u s
  .ok (park ⟨u, .keyOp k t, .keyDeriv, .keyDerivBudget⟩ s)

/-- A decrypting key command after its key-derivation wait ended OK (R401, R404). -/
def keyOpDerived (u : Inst) (k : KeyOp) (t : Word) (s : State) : Res := do
  let s ← keyDerivEnd u s
  keyOpBlocks u k .decrypt t s

/-- `CR.KSHAREID <- k` (R402, R404). -/
def writeShareId (u : Inst) (k : Word) (s : State) : Res :=
  crWrite u (.kshareid (BitVec.ofNat 2 k.toNat)) s

/-- `WRAP_KEY` (R400). -/
def runWrapKey (u : Inst) (pKeyIn pOut t : Word) (s : State) : Res :=
  keyOpCheck u .wrapped pKeyIn (some pOut) none s fun s => keyOpEncrypt u .wrap t (disable u s)

/-- `UNWRAP_KEY` (R401). -/
def runUnwrapKey (u : Inst) (pWrapped t : Word) (s : State) : Res :=
  keyOpCheck u .wrapped pWrapped none none s fun s => keyOpDecrypt u .unwrap t (disable u s)

/-- `ENCRYPT_SHARED_KEY` (R402). -/
def runEncryptSharedKey (u : Inst) (pKeyIn pOut shareId t : Word) (s : State) : Res :=
  keyOpCheck u .shared pKeyIn (some pOut) (some shareId) s fun s => do
    let s ← writeShareId u shareId (disable u s)
    keyOpEncrypt u .encryptShared t s

/-- `DECRYPT_SHARED_KEY` (R404). -/
def runDecryptSharedKey (u : Inst) (pEncKey shareId t : Word) (s : State) : Res :=
  keyOpCheck u .shared pEncKey none (some shareId) s fun s => do
    let s ← writeShareId u shareId (disable u s)
    keyOpDecrypt u .decryptShared t s

/-- `WRAP_KEY` (R400). -/
def execWrapKey (u : Inst) (pKeyIn pOut timeoutMs : Word) (s : State) : Outcome :=
  Res.outcome .mainline s (runWrapKey u pKeyIn pOut timeoutMs s)

/-- `UNWRAP_KEY` (R401). -/
def execUnwrapKey (u : Inst) (pWrapped timeoutMs : Word) (s : State) : Outcome :=
  Res.outcome .mainline s (runUnwrapKey u pWrapped timeoutMs s)

/-- `ENCRYPT_SHARED_KEY` (R402). -/
def execEncryptSharedKey (u : Inst) (pKeyIn pOut shareId timeoutMs : Word) (s : State) : Outcome :=
  Res.outcome .mainline s (runEncryptSharedKey u pKeyIn pOut shareId timeoutMs s)

/-- `DECRYPT_SHARED_KEY` (R404). -/
def execDecryptSharedKey (u : Inst) (pEncKey shareId timeoutMs : Word) (s : State) : Outcome :=
  Res.outcome .mainline s (runDecryptSharedKey u pEncKey shareId timeoutMs s)

end Sys2Proof.Machine
end

