-- ==== Sys2Proof/Machine/Waits.lean ====
section
/-! DEFINITION. What follows a WaitFlag (43_block_pump.md R250): the rest of the command after an OK, its epilogue after a failure, and one iteration of the wait. A wait point that a command does not have is treated as its last one. -/

namespace Sys2Proof.Machine

/-- The end of `SET_SHARED_KEY` (42_key_iv.md R224). -/
def sharedKeyEnd (u : Inst) (k : KeySize) (s : State) : Res := do
  let s ← crWrite u (.kmod .normal) s
  keyLoadEnd u null k .shared s

/-- A block of a polling call completed (45_transport.md R322). -/
def pollBlockDone (u : Inst) (dir : Direction) (t : Word) (s : State) : Res := do
  let s ← blockEnd u s
  pollLoop u dir t s

/-- A header block of a DMA call completed (45_transport.md R342). -/
def dmaHeaderDone (u : Inst) (dir : Direction) (s : State) : Res := do
  let s ← blockEnd u s
  dmaLoop u dir s

/-- The only block of a DMA call with no whole block completed (45_transport.md R343). -/
def dmaBlockDone (u : Inst) (s : State) : Res := do
  let s ← blockEnd u s
  dmaSmallEnd u s

/-- The INIT phase of a tag command completed (44_phase_machine.md R300). -/
def tagInitDone (u : Inst) (k : TagKind) (pTag t : Word) (s : State) : Res := do
  let s ← phaseInitEnd u s
  tagLoop u k pTag t s

/-- A header block of a tag command completed (44_phase_machine.md R300). -/
def tagHeaderDone (u : Inst) (k : TagKind) (pTag t : Word) (s : State) : Res := do
  let s ← blockEnd u s
  tagLoop u k pTag t s

/-- A block of a wrap or share command completed (47_key_wrap_share.md). -/
def keyOpBlockDone (u : Inst) (k : KeyOp) (t : Word) (s : State) : Res := do
  let s ← blockEnd u s
  keyOpLoop u k t s

/-- The partial block of a DMA call completed (45_transport.md R349). -/
def dmaPartialDone (u : Inst) (fromIn : Bool) (s : State) : Res := do
  let s ← blockEnd u s
  dmaFinishEnd u fromIn s

/-- The rest of the command after its WaitFlag returned OK, to the next WaitFlag or the end. -/
def waitDone (p : Pos) (s : State) : Res :=
  let u := p.u
  match p.proc with
  | .setNormalKey a k => keyLoadEnd u a k .software s
  | .setHwKey k => keyLoadEnd u null k .hw s
  | .setSharedKey k => sharedKeyEnd u k s
  | .poll dir t =>
    match p.wp with
    | .keyDeriv => setupDerived u p.proc dir s
    | .phaseInit => setupPhaseInit u p.proc s
    | .keyLoad | .headerBlock | .block | .tagWords => pollBlockDone u dir t s
  | .startIt dir =>
    match p.wp with
    | .keyDeriv => setupDerived u p.proc dir s
    | .keyLoad | .phaseInit | .headerBlock | .block | .tagWords => setupPhaseInit u p.proc s
  | .startDma dir =>
    match p.wp with
    | .keyDeriv => setupDerived u p.proc dir s
    | .phaseInit => setupPhaseInit u p.proc s
    | .headerBlock => dmaHeaderDone u dir s
    | .keyLoad | .block | .tagWords => dmaBlockDone u s
  | .tag k a t =>
    match p.wp with
    | .phaseInit => tagInitDone u k a t s
    | .headerBlock => tagHeaderDone u k a t s
    | .keyLoad | .keyDeriv | .block | .tagWords => tagEnd u a s
  | .keyOp k t =>
    match p.wp with
    | .keyDeriv => keyOpDerived u k t s
    | .keyLoad | .phaseInit | .headerBlock | .block | .tagWords => keyOpBlockDone u k t s
  | .restore c =>
    match p.wp with
    | .keyLoad => restoreKeyLoaded u c s
    | .keyDeriv | .phaseInit | .headerBlock | .block | .tagWords => restoreDerived u c s
  | .dmaFinish b => dmaPartialDone u b s

/-- What the command does when its WaitFlag failed: the key loads (42_key_iv.md R222, R224) and restore
(46_suspend_resume.md R378) have their own epilogues, every other rule runs `Fail` (60_exceptions.md
R503). -/
def waitFailed (p : Pos) (r : WaitFail) (s : State) : Res :=
  let u := p.u
  match p.proc with
  | .setNormalKey _ _ | .setHwKey _ => keyFail u (some r) s
  | .setSharedKey _ => do
    let s ← crWrite u (.kmod .normal) s
    keyFail u (some r) s
  | .poll _ _ | .startIt _ | .startDma _ | .tag _ _ _ | .keyOp _ _ =>
    failMain u (failCode p.bound r).1 (failCode p.bound r).2 s
  | .restore _ => restoreFail u (some r) s
  | .dmaFinish _ => failIsr u (failCode p.bound r).2 s

/-- One iteration of a WaitFlag (43_block_pump.md R250); `elapsed` is the draw of its bound. -/
def waitStep (p : Pos) (elapsed : Bool) (s : State) : Res :=
  match waitCheck (s.h p.u).inst p.wp elapsed (s.fl p.u) with
  | .ok => waitDone p (unpark p s)
  | .failed r => waitFailed p r (unpark p s)
  | .again => .ok s

/-- What a step that makes this iteration answers. -/
def waitOutcome (p : Pos) (elapsed : Bool) (s : State) : Outcome :=
  Res.outcome (runnerOf p.proc) s (waitStep p elapsed s)

end Sys2Proof.Machine
end

