-- ==== Sys2Proof/Machine/Bus.lean ====
section
/-! DEFINITION. The bus micro-operations as instructions (40_register_access.md R140 to R162). A read leaves its value in `returned` (log 29). -/

namespace Sys2Proof.Machine

/-- `BUS_CR_WRITE` with its operands as words (R141). -/
def runBusCrWrite (u : Inst) (f : CrField) (v : Word) (s : State) : Res :=
  match crWriteOf f v with
  | some w => crWrite u w s
  | none => .error (.fault .reservedCrValue)

/-- `BUS_DOUT_READ` (R146). -/
def runBusDoutRead (u : Inst) (s : State) : Res := do
  let (w, s) ← doutRead u s
  retVal (.word w) s

/-- `BUS_CR_WRITE` (R141). -/
def execBusCrWrite (u : Inst) (field : CrField) (value : Word) (s : State) : Outcome :=
  Res.outcome .mainline s (runBusCrWrite u field value s)

/-- `BUS_CR_READ` (R144). -/
def execBusCrRead (u : Inst) (s : State) : Outcome :=
  Res.outcome .mainline s (retVal (.cr (s.cr u)) s)

/-- `BUS_FLAG_READ` (R142). -/
def execBusFlagRead (u : Inst) (flag : FlagName) (s : State) : Outcome :=
  Res.outcome .mainline s (retVal (.flag (flagGet flag (s.fl u))) s)

/-- `BUS_FLAG_CLEAR` (R143). -/
def execBusFlagClear (u : Inst) (flag : FlagName) (s : State) : Outcome :=
  Res.outcome .mainline s (clearFlag u flag s)

/-- `BUS_DIN_WRITE` (R145). -/
def execBusDinWrite (u : Inst) (w : Word) (s : State) : Outcome := Res.outcome .mainline s (dinWrite u w s)

/-- `BUS_DOUT_READ` (R146). -/
def execBusDoutRead (u : Inst) (s : State) : Outcome := Res.outcome .mainline s (runBusDoutRead u s)

/-- `BUS_KEYR_WRITE` (R149). -/
def execBusKeyrWrite (u : Inst) (i : Fin 8) (w : Word) (s : State) : Outcome :=
  Res.outcome .mainline s (keyrWrite u i w s)

/-- `BUS_IVR_WRITE` (R150). -/
def execBusIvrWrite (u : Inst) (i : Fin 4) (w : Word) (s : State) : Outcome :=
  Res.outcome .mainline s (ivrWrite u i w s)

/-- `BUS_IVR_READ` (R159). -/
def execBusIvrRead (u : Inst) (i : Fin 4) (s : State) : Outcome :=
  Res.outcome .mainline s (retVal (.word (s.periph u).ivr[i]) s)

/-- `BUS_SUSPR_WRITE` (R160). -/
def execBusSusprWrite (u : Inst) (i : Fin 8) (w : Word) (s : State) : Outcome :=
  Res.outcome .mainline s (susprWrite u i w s)

/-- `BUS_SUSPR_READ` (R161). -/
def execBusSusprRead (u : Inst) (i : Fin 8) (s : State) : Outcome :=
  Res.outcome .mainline s (retVal (.word (s.periph u).suspr[i]) s)

/-- `BUS_IER_WRITE` (R162). -/
def execBusIerWrite (u : Inst) (mask : BitVec 4) (s : State) : Outcome :=
  Res.outcome .mainline s (.ok (ierWrite u (ierOfMask mask) s))

end Sys2Proof.Machine
end

