-- ==== Sys2Proof/Machine/Dispatch.lean ====
section
/-! DEFINITION. The meaning of every instruction: one arm per constructor of `Instr`. -/

namespace Sys2Proof.Machine

def exec (i : Instr) (s : State) : Host.Outcome State Fault Refusal :=
  match i with
  | .init u inst => Sys2Proof.Machine.execInit u inst s
  | .deinit u => Sys2Proof.Machine.execDeinit u s
  | .setConfigEcb u => Sys2Proof.Machine.execSetConfigEcb u s
  | .setConfigCbc u pIv => Sys2Proof.Machine.execSetConfigCbc u pIv s
  | .setConfigCtr u pIv => Sys2Proof.Machine.execSetConfigCtr u pIv s
  | .setConfigGcmGmac u pIv pHeader headerSize => Sys2Proof.Machine.execSetConfigGcmGmac u pIv pHeader headerSize s
  | .setConfigCcm u pB0 pHeader headerSize => Sys2Proof.Machine.execSetConfigCcm u pB0 pHeader headerSize s
  | .setDataSwap u datatype => Sys2Proof.Machine.execSetDataSwap u datatype s
  | .getDataSwap u => Sys2Proof.Machine.execGetDataSwap u s
  | .getState u => Sys2Proof.Machine.execGetState u s
  | .getLastErrorCodes u => Sys2Proof.Machine.execGetLastErrorCodes u s
  | .setUserData u pUserData => Sys2Proof.Machine.execSetUserData u pUserData s
  | .getUserData u => Sys2Proof.Machine.execGetUserData u s
  | .registerCallback u kind cb => Sys2Proof.Machine.execRegisterCallback u kind cb s
  | .linkDma u fifo channel => Sys2Proof.Machine.execLinkDma u fifo channel s
  | .setNormalKey u pKey keySize => Sys2Proof.Machine.execSetNormalKey u pKey keySize s
  | .setHwKey u keysel kmod keySize => Sys2Proof.Machine.execSetHwKey u keysel kmod keySize s
  | .setSharedKey u keySize shareId => Sys2Proof.Machine.execSetSharedKey u keySize shareId s
  | .enableKeyProtection u => Sys2Proof.Machine.execEnableKeyProtection u s
  | .disableKeyProtection u => Sys2Proof.Machine.execDisableKeyProtection u s
  | .encrypt u pIn sizeByte pOut timeoutMs => Sys2Proof.Machine.execEncrypt u pIn sizeByte pOut timeoutMs s
  | .decrypt u pIn sizeByte pOut timeoutMs => Sys2Proof.Machine.execDecrypt u pIn sizeByte pOut timeoutMs s
  | .encryptIt u pIn sizeByte pOut => Sys2Proof.Machine.execEncryptIt u pIn sizeByte pOut s
  | .decryptIt u pIn sizeByte pOut => Sys2Proof.Machine.execDecryptIt u pIn sizeByte pOut s
  | .encryptDma u pIn sizeByte pOut => Sys2Proof.Machine.execEncryptDma u pIn sizeByte pOut s
  | .decryptDma u pIn sizeByte pOut => Sys2Proof.Machine.execDecryptDma u pIn sizeByte pOut s
  | .gcmGenerateTag u pTag timeoutMs => Sys2Proof.Machine.execGcmGenerateTag u pTag timeoutMs s
  | .ccmGenerateTag u pTag timeoutMs => Sys2Proof.Machine.execCcmGenerateTag u pTag timeoutMs s
  | .requestSuspend u => Sys2Proof.Machine.execRequestSuspend u s
  | .resume u => Sys2Proof.Machine.execResume u s
  | .saveContext u ctx => Sys2Proof.Machine.execSaveContext u ctx s
  | .restoreContext u ctx => Sys2Proof.Machine.execRestoreContext u ctx s
  | .wrapKey u pKeyIn pOut timeoutMs => Sys2Proof.Machine.execWrapKey u pKeyIn pOut timeoutMs s
  | .unwrapKey u pWrapped timeoutMs => Sys2Proof.Machine.execUnwrapKey u pWrapped timeoutMs s
  | .encryptSharedKey u pKeyIn pOut shareId timeoutMs => Sys2Proof.Machine.execEncryptSharedKey u pKeyIn pOut shareId timeoutMs s
  | .decryptSharedKey u pEncKey shareId timeoutMs => Sys2Proof.Machine.execDecryptSharedKey u pEncKey shareId timeoutMs s
  | .irq u => Sys2Proof.Machine.execIrq u s
  | .dmaInCplt u => Sys2Proof.Machine.execDmaInCplt u s
  | .dmaOutCplt u => Sys2Proof.Machine.execDmaOutCplt u s
  | .dmaError u fifo => Sys2Proof.Machine.execDmaError u fifo s
  | .busCrWrite u field value => Sys2Proof.Machine.execBusCrWrite u field value s
  | .busCrRead u => Sys2Proof.Machine.execBusCrRead u s
  | .busFlagRead u flag => Sys2Proof.Machine.execBusFlagRead u flag s
  | .busFlagClear u flag => Sys2Proof.Machine.execBusFlagClear u flag s
  | .busDinWrite u w => Sys2Proof.Machine.execBusDinWrite u w s
  | .busDoutRead u => Sys2Proof.Machine.execBusDoutRead u s
  | .busKeyrWrite u n w => Sys2Proof.Machine.execBusKeyrWrite u n w s
  | .busIvrWrite u n w => Sys2Proof.Machine.execBusIvrWrite u n w s
  | .busIvrRead u n => Sys2Proof.Machine.execBusIvrRead u n s
  | .busSusprWrite u n w => Sys2Proof.Machine.execBusSusprWrite u n w s
  | .busSusprRead u n => Sys2Proof.Machine.execBusSusprRead u n s
  | .busIerWrite u mask => Sys2Proof.Machine.execBusIerWrite u mask s

end Sys2Proof.Machine
end

