-- ==== Sys2Proof/Machine/Agents.lean ====
section
/-! DEFINITION. The agents of 00_scope.md R18 and what each does in its turn: the mainline, the interrupt handler, the DMA channels, the AES cores. A turn that is not enabled leaves the state (log 4). -/

namespace Sys2Proof.Machine

/-! ### DMA channels (20_memory.md R92, 40_register_access.md R166) -/

/-- The input request (R166). -/
def dmaInRequest (p : Periph) : Bool :=
  p.cr.dmainen && p.cr.en && p.core.job.isNone && p.core.outFifo.isEmpty &&
    decide (p.core.inFifo.length < 4)

/-- The output request (R166). -/
def dmaOutRequest (p : Periph) : Bool := p.cr.dmaouten && !p.core.outFifo.isEmpty

/-- The active transfer of a channel. -/
def transferOf (q : Fifo) (p : Periph) : Option Transfer :=
  match q with
  | .input => p.dmaIn
  | .output => p.dmaOut

/-- The channel with another transfer. -/
def setTransfer (q : Fifo) (t : Option Transfer) (p : Periph) : Periph :=
  match q with
  | .input => { p with dmaIn := t }
  | .output => { p with dmaOut := t }

/-- The completion event of a channel. -/
def completion : Fifo → DmaEvent
  | .input => .inCplt
  | .output => .outCplt

/-- The channel after a word was moved: with the last word it stops and delivers its completion (R92). -/
def advanceTransfer (q : Fifo) (t : Transfer) (p : Periph) : Periph :=
  if t.words ≤ t.moved + 1 then
    { setTransfer q none p with dmaEvents := p.dmaEvents ++ [⟨completion q, t.stale⟩] }
  else setTransfer q (some { t with moved := t.moved + 1 }) p

/-- The input channel moves a word from memory to `DINR` (R92). -/
def dmaMoveIn (u : Inst) (t : Transfer) (s : State) : Res := do
  let w ← memRead (wordAddr t.addr t.moved) s
  let s ← dinWrite u w s
  .ok (s.modify u (advanceTransfer .input t))

/-- The output channel moves a word from `DOUTR` to memory (R92). -/
def dmaMoveOut (u : Inst) (t : Transfer) (s : State) : Res := do
  let (w, s) ← doutRead u s
  let s ← memWrite (wordAddr t.addr t.moved) w s
  .ok (s.modify u (advanceTransfer .output t))

/-- The channel with the transfer `t` stops and delivers its error (R92). -/
def dmaFail (u : Inst) (q : Fifo) (t : Transfer) (s : State) : State :=
  s.modify u fun p => { setTransfer q none p with dmaEvents := p.dmaEvents ++ [⟨.error q, t.stale⟩] }

/-- One step of a DMA channel, on its request (R92, R166); an error may come at any step of an active
channel. Where memory does not admit its access, it is stuck (R84). -/
def dmaStep (u : Inst) (q : Fifo) (err : Bool) (s : State) : Res :=
  match transferOf q (s.periph u) with
  | none => .ok s
  | some t =>
    if err then .ok (dmaFail u q t s)
    else
      match q with
      | .input => if dmaInRequest (s.periph u) then dmaMoveIn u t s else .ok s
      | .output => if dmaOutRequest (s.periph u) then dmaMoveOut u t s else .ok s

/-! ### Interrupt-context entries (60_exceptions.md R510, R511, R514) -/

/-- The entry of a DMA event (45_transport.md R345 to R347); a stale one has no effect (R348,
60_exceptions.md R504, log 39). -/
def runDmaEvent (u : Inst) (e : PendingEvent) (s : State) : Res :=
  if e.stale then isrReturn s
  else
    match e.event with
    | .inCplt => runDmaInCplt u s
    | .outCplt => runDmaOutCplt u s
    | .error _ => runDmaError u s

/-- An interrupt-context entry is in progress, or stuck: the mainline and the other entries have no step
(20_memory.md R88, R89). -/
def entryRuns (s : State) : Bool := s.isrPos.isSome || s.isrStuck

/-- The interrupt handler may start: the line is high (R510). -/
def irqDue (u : Inst) (s : State) : Bool := irqLine (s.fl u) (s.periph u).ier

/-- The interrupt handler's turn: it starts while the line is high and no entry runs (R510, R89). -/
def irqTurn (u : Inst) (s : State) : Outcome :=
  if !entryRuns s && irqDue u s then Res.outcome .entry s (runIrq u s) else .next s

/-- The delivered event taken off. -/
def takeEvent (u : Inst) (e : PendingEvent) (s : State) : State :=
  s.modify u fun p => { p with dmaEvents := p.dmaEvents.erase e }

/-- A pending DMA event is handled, once (R511). -/
def dmaEntryTurn (u : Inst) (e : PendingEvent) (s : State) : Outcome :=
  if !entryRuns s && (s.periph u).dmaEvents.contains e then
    Res.outcome .entry (takeEvent u e s) (runDmaEvent u e (takeEvent u e s))
  else .next s

/-- The turn of an interrupt-context entry waiting at a WaitFlag (20_memory.md R88). -/
def handlerTurn (elapsed : Bool) (s : State) : Outcome :=
  match s.isrStuck, s.isrPos with
  | false, some p => waitOutcome p elapsed s
  | _, _ => .next s

/-! ### The mainline -/

/-- Who issues the words of a format in the mainline's turn; nobody issues an event there, the agents'
turns deliver it (30_encoding.md R110, R115). -/
def issuerOf : Format → Option Issuer
  | .cmd => some .host
  | .evt => none
  | .bus => some .engine

/-- The format of an opcode, by its range alone (30_encoding.md R110). -/
def formatOfOpcode (op : Nat) : Format :=
  if op < 0x80 then .cmd else if op < 0xc0 then .evt else .bus

/-- The refusal of a word whose issuer may not issue it (30_encoding.md R115). -/
def issueRefusal (i : Issuer) : Refusal :=
  match i with
  | .host => .hostIssuedEvtBus
  | .engine => .wrongIssuer

/-- The refusal of a request that decodes to nothing (30_encoding.md R114; log 1). -/
def decodeRefusal : DecodeError → Refusal
  | .unknownOpcode => .unknownOpcode
  | .badTarget | .surplusOperand | .badOperand => .badRecord

/-- The word is an opcode of the map, and its issuer may not issue it, whatever the record (R115). -/
def misissued (q : Request) : Bool :=
  (decodeOp q.word.toNat q.record).isSome &&
    issuerOf (formatOfOpcode q.word.toNat) != some q.issuer

/-- The next request is decoded and run from its start (00_scope.md R14). -/
def issue (q : Request) (s : State) : Outcome :=
  if misissued q then .refused (issueRefusal q.issuer)
  else
    match decode q.word q.record with
    | .error e => .refused (decodeRefusal e)
    | .ok i => exec i s

/-- The mainline's turn: nothing while an entry runs (20_memory.md R88) or once it is stuck, one iteration
of the running command's WaitFlag, or the next request. -/
def mainlineTurn (elapsed : Bool) (s : State) : Outcome :=
  if entryRuns s || s.mainStuck then .next s
  else
    match s.mainPos, s.inbox with
    | some p, _ => waitOutcome p elapsed s
    | none, [] => .next s
    | none, q :: rest => issue q { s with inbox := rest }

/-- What the agent of the turn does. -/
def agentTurn (s : State) : Outcome :=
  match s.turn with
  | .mainline t => mainlineTurn t s
  | .irq u => irqTurn u s
  | .dmaEntry u e => dmaEntryTurn u e s
  | .handlerWait t => handlerTurn t s
  | .dma u q e => Res.outcome .channel s (dmaStep u q e s)
  | .core u a => .next (coreStep u a s)

/-- The next agent and its draws are free values (00_scope.md R18, log 4). -/
def nextTurn (s : State) : State :=
  { s with turn := Config.schedule s.draws, draws := s.draws + 1 }

/-- The turn passes on after a next state. -/
def passTurn : Outcome → Outcome
  | .next s => .next (nextTurn s)
  | .fault f => .fault f
  | .refused r => .refused r

/-! ### Placing an instruction (log 2) -/

/-- No command and no entry is in progress or stuck. -/
def atBoundary (s : State) : State :=
  { s with mainPos := none, isrPos := none, mainStuck := false, isrStuck := false }

/-- The request of a word: from the engine where it spells a micro-operation, else from the host. -/
def requestOf (w : Word) (r : Record) : Request :=
  ⟨if formatOfOpcode w.toNat = .bus then .engine else .host, w, r⟩

/-- The turn that delivers an event; `none` is no event. -/
def turnOfEvent (i : Instr) : Option Turn :=
  match i with
  | .irq u => some (.irq u)
  | .dmaInCplt u => some (.dmaEntry u ⟨.inCplt, false⟩)
  | .dmaOutCplt u => some (.dmaEntry u ⟨.outCplt, false⟩)
  | .dmaError u q => some (.dmaEntry u ⟨.error q, false⟩)
  | _ => none

/-- The interrupt line of `u` high (60_exceptions.md R510): if it is not, by a completion and its enable. -/
def lineRaised (u : Inst) (s : State) : State :=
  if irqDue u s then s
  else
    s.modify u fun p => { p with fl := { p.fl with ccf := true }, ier := { p.ier with ccfie := true } }

/-- A DMA event delivered and not yet handled (60_exceptions.md R511). -/
def eventPending (u : Inst) (e : PendingEvent) (s : State) : State :=
  s.modify u fun p => { p with dmaEvents := e :: p.dmaEvents }

/-- The state in which the hardware delivers the event of the turn. -/
def delivered (t : Turn) (s : State) : State :=
  match t with
  | .irq u => { lineRaised u s with turn := t }
  | .dmaEntry u e => { eventPending u e s with turn := t }
  | .mainline _ | .handlerWait _ | .dma _ _ _ | .core _ _ => { s with turn := t }

/-- The word of an instruction placed so that the next step begins it: an event by its delivery, any other
word as the first request. -/
def placed (w : Word) (r : Record) (s : State) : State :=
  match (decode w r).toOption.bind turnOfEvent with
  | some t => delivered t (atBoundary s)
  | none => { atBoundary s with inbox := requestOf w r :: s.inbox, turn := .mainline false }

end Sys2Proof.Machine
end

