-- ==== Sys2Proof/Machine/Step.lean ====
section
/-! DEFINITION. One step of the machine: the agent of the turn moves, and the turn passes on (00_scope.md R18, log 4). -/

namespace Sys2Proof.Machine

/-- One step. -/
def step (s : State) : Host.Outcome State Fault Refusal := passTurn (agentTurn s)

/-- The state in which the next step begins the instruction whose bits are `w`, the bits above `nbits` 0
(log 2): no command or entry in progress, and the word the mainline's first request or, for an event, its
delivery due. -/
def State.withFetchWord (s : State) (nbits w : Nat) : State :=
  placed (tableWord (w % 2 ^ nbits) 0) (tableRecord (w % 2 ^ nbits)) s

end Sys2Proof.Machine
end

