-- ==== Sys2Proof/Safety.lean ====
section
/-! DEFINITION. What a run's end and a good state are: enabled agents and finished runs (00_scope.md R19), the premises about runs and the core, and the invariants the rules keep (10_state.md R36, R41, R43). -/

namespace Sys2Proof.Machine

/-! ### The end of a run (R19) -/

/-- The core of the instance has an enabled step that is not an error draw. -/
def coreEnabled (p : Periph) : Bool := p.core.job.isSome || p.core.keyLoad.isSome || p.core.startup

/-- A DMA channel has an enabled step that is not an error draw: its request is active and memory admits
its next word (20_memory.md R84, R92, 40_register_access.md R166). -/
def channelEnabled (u : Inst) (q : Fifo) (s : State) : Bool :=
  match transferOf q (s.periph u) with
  | none => false
  | some t =>
    s.admits (wordAddr t.addr t.moved) &&
      match q with
      | .input => dmaInRequest (s.periph u)
      | .output => dmaOutRequest (s.periph u)

/-- A DMA channel of the instance has an enabled step that is not an error draw. -/
def dmaEnabled (u : Inst) (s : State) : Bool := channelEnabled u .input s || channelEnabled u .output s

/-- An interrupt-context entry of the instance may start (60_exceptions.md R510, R511, 20_memory.md R89). -/
def entryEnabled (u : Inst) (s : State) : Bool :=
  !entryRuns s && (irqDue u s || !(s.periph u).dmaEvents.isEmpty)

/-- The interrupt-context entry in progress has a step (20_memory.md R88). -/
def handlerEnabled (s : State) : Bool := s.isrPos.isSome && !s.isrStuck

/-- The mainline has a step: a command to begin or to go on with (R18, 20_memory.md R84, R88). -/
def mainlineEnabled (s : State) : Bool :=
  !entryRuns s && !s.mainStuck && (s.mainPos.isSome || !s.inbox.isEmpty)

/-- An agent of the instance has an enabled step. -/
def instEnabled (u : Inst) (s : State) : Bool :=
  coreEnabled (s.periph u) || dmaEnabled u s || entryEnabled u s

/-- No agent has a step: the run ends (R19, 92_eei_decisions.md D27). A stuck agent has none, and a
command or an entry that is in progress and not stuck has one. -/
def runEnded (s : State) : Bool :=
  !(mainlineEnabled s || handlerEnabled s || instEnabled .aes s || instEnabled .saes s)

/-- No command and no entry is stuck (R16, 20_memory.md R84). -/
def noneStuck (s : State) : Bool := !s.mainStuck && !s.isrStuck

/-- The instance rests: not ACTIVE, no DMA transfer in flight, no computation in progress (R19). -/
def atRest (p : Periph) : Bool :=
  p.h.state != .active && p.dmaIn.isNone && p.dmaOut.isNone && p.core.job.isNone

/-- A finished run (R19); SUSPENDED is a resting state. A run that ends with a stuck agent is not finished:
its command has not run to its end (DEDUCED, log 9). -/
def runFinished (s : State) : Bool := runEnded s && noneStuck s && atRest s.aes && atRest s.saes

/-! ### Runs and their premises (70_reset_and_hazards.md R621, 10_state.md R50) -/

/-- A run: each state is the step of the one before. -/
def isRun (r : Nat → State) : Prop := ∀ n, step (r n) = .next (r (n + 1))

/-- What stays enabled is eventually taken. -/
def weaklyFair (enabled taken : State → Prop) (r : Nat → State) : Prop :=
  ∀ n, (∀ m, n ≤ m → enabled (r m)) → ∃ m, n ≤ m ∧ taken (r m)

/-- Weak fairness (R621), a premise that a claim about progress names: every core activity, DMA channel,
pending entry, waiting entry and the mainline eventually takes a step that stays enabled. Nothing is asked of
the draws in the turn. -/
structure Fair (r : Nat → State) : Prop where
  job : ∀ u, weaklyFair (fun s => (s.core u).job ≠ none)
    (fun s => ∃ b, s.turn = .core u (.finishJob b)) r
  keyLoad : ∀ u, weaklyFair (fun s => (s.core u).keyLoad ≠ none)
    (fun s => ∃ b, s.turn = .core u (.finishKeyLoad b)) r
  startup : ∀ u, weaklyFair (fun s => (s.core u).startup = true)
    (fun s => ∃ b, s.turn = .core u (.endStartup b)) r
  dma : ∀ u q, weaklyFair (fun s => channelEnabled u q s = true) (fun s => ∃ b, s.turn = .dma u q b) r
  irq : ∀ u, weaklyFair (fun s => entryRuns s = false ∧ irqDue u s = true) (fun s => s.turn = .irq u) r
  dmaEntry : ∀ u e, weaklyFair (fun s => entryRuns s = false ∧ e ∈ (s.periph u).dmaEvents)
    (fun s => s.turn = .dmaEntry u e) r
  handler : weaklyFair (fun s => handlerEnabled s = true)
    (fun s => ∃ b, s.turn = .handlerWait b) r
  mainline : weaklyFair (fun s => mainlineEnabled s = true) (fun s => ∃ b, s.turn = .mainline b) r

/-- The context law assumed of the core (R50), a premise that a claim about suspension names. A chaining
state that a job has left is the one that an enable gives from the same `CR`, its projections and the same
key; `chain_from` reads only the IV registers for CBC and CTR; ECB has no chaining state. That a reload yields
the same key is no premise: `keyWordsOf` says which words a load reads (40_register_access.md R155, log 40). -/
structure ContextLaw : Prop where
  resumes : ∀ (c : CR) (k : KeyMat) (ch : Chain) (j : Job), c.chmod ≠ .ecb →
    let x := (Config.aesCore c.coreCfg k ch j).2
    Config.chainFrom c (Config.ivOf x) (Config.suspOf x) k = x
  ivAlone : ∀ (c : CR) (k : KeyMat) (v : Vector Word 4) (a b : Vector Word 8),
    c.chmod = .cbc ∨ c.chmod = .ctr → Config.chainFrom c v a k = Config.chainFrom c v b k
  ecbNone : ∀ (c : CoreCfg) (k : KeyMat) (a b : Chain) (j : Job), c.chmod = .ecb →
    (Config.aesCore c k a j).1 = (Config.aesCore c k b j).1

/-- Every request in the inbox is the host's: no micro-operation runs outside a rule of the engine
(30_encoding.md R115). -/
def hostOnly (s : State) : Prop := ∀ q ∈ s.inbox, q.issuer = .host

/-! ### Invariants -/

/-- The core of a disabled instance is idle with empty FIFOs, as it is during INIT and key derivation;
no FIFO holds more than its block (40_register_access.md R145, R151, R163, 10_state.md R45). -/
def coreQuiet (p : Periph) : Prop :=
  (p.cr.en = false → p.core.job = none ∧ p.core.inFifo = [] ∧ p.core.outFifo = []) ∧
    (p.core.job = some .init ∨ p.core.job = some .keyDeriv →
      p.core.inFifo = [] ∧ p.core.outFifo = []) ∧
    p.core.inFifo.length ≤ 3 ∧ p.core.outFifo.length ≤ 4

/-- What reads as its reset value on the AES (10_state.md R41, R43, 70_reset_and_hazards.md R602). -/
def aesPlain (p : Periph) : Prop :=
  p.cr.keysel = .software ∧ p.cr.keyprot = false ∧ p.cr.kshareid = 0 ∧ p.ier.rngeie = false ∧
    p.fl.rngeif = false ∧ p.core.startup = false

/-- `RDERR` and `WRERR` qualify `RWEIF` (10_state.md R42). -/
def errorsQualified (f : Flags) : Prop := f.rweif = (f.rderr || f.wrerr)

/-- The handle of `u` names no other instance (41_lifecycle_config.md R182, 10_state.md R20). -/
def handleOwned (u : Inst) (p : Periph) : Prop := p.h.inst = none ∨ p.h.inst = some u

/-- The canonical forms of caller memory, the context store and the shared-key slots. -/
def canonicalForms (s : State) : Prop :=
  Memory.wf s.mem ∧ assocRising s.contexts ∧ assocRising s.shareSlots

/-- The mainline begins the request `q` in this step (00_scope.md R14). -/
def beginsRequest (s : State) (q : Request) (rest : List Request) : Prop :=
  (∃ t, s.turn = .mainline t) ∧ entryRuns s = false ∧ s.mainStuck = false ∧ s.mainPos = none ∧
    s.inbox = q :: rest

/-! ### What the claims say of an instance and of caller memory -/

/-- Every byte of caller memory reads as before. -/
def sameBytes (s t : State) : Prop :=
  ∀ a, Memory.readByte t.mem a = Memory.readByte s.mem a

/-- The first `n` words of the buffer at `a` are admitted by caller memory (20_memory.md R84). -/
def wordsAdmitted (s : State) (a : Word) (n : Nat) : Prop :=
  ∀ j, j < n → s.admits (wordAddr a j) = true

/-- The instance disabled: `CR.EN = 0`, no job, empty FIFOs (40_register_access.md R163). -/
def idled (p : Periph) : Periph :=
  { p with
    cr := { p.cr with en := false }
    core := { p.core with job := none, inFifo := [], outFifo := [] } }

/-- The message with committed data is closed (42_key_iv.md R223). -/
def committedClosed (h : Handle) : Handle :=
  { h with msgStatus := if h.dataSizeSum = 0 then h.msgStatus else .closed }

/-- `CCF`, `KEIF`, `RWEIF`, `RDERR`, `WRERR` and, on a SAES handle, `RNGEIF` cleared. -/
def flagsCleared (i : Option Inst) (f : Flags) : Flags :=
  { f with
    ccf := false, keif := false, rweif := false, rderr := false, wrerr := false,
    rngeif := f.rngeif && i != some .saes }

/-- What the failure epilogue leaves of the instance (60_exceptions.md R503, R504). -/
def failed (e : Word) (p : Periph) : Periph := dmaAbandoned
  { idled p with
    h := { p.h with
      lastErrorCodes := p.h.lastErrorCodes ||| e, msgStatus := .closed, transport := .none,
      suspendRequest := false, state := .idle }
    cr := { p.cr with en := false, dmainen := false, dmaouten := false }
    fl := flagsCleared p.h.inst p.fl
    ier := ⟨false, false, false, false⟩ }

/-- The IV registers after `WriteIV(a)` (42_key_iv.md R230). -/
def ivOfMemory (m : List Host.Cell) (a : Word) : Vector Word 4 :=
  Vector.ofFn fun i => Memory.readWord m (wordAddr a (3 - i.val))

/-- The key registers after `WriteKey(a, k)` (42_key_iv.md R221). -/
def keyOfMemory (m : List Host.Cell) (a : Word) (k : KeySize) (v : Vector Word 8) : Vector Word 8 :=
  Vector.ofFn fun i =>
    if i.val < k.words then Memory.readWord m (wordAddr a (k.words - 1 - i.val)) else v[i]

/-- The instance right after a key load was started (40_register_access.md R154). -/
def loadStarted (src : KeySource) (p : Periph) : Periph :=
  { p with
    fl := { p.fl with busy := true, keyvalid := false }
    core := { p.core with keyLoad := some src, keyMarks := Vector.replicate 8 false } }

/-- The instance at the start of a key-load command (42_key_iv.md R222, R223). -/
def keyCleared (p : Periph) : Periph :=
  { idled p with h := committedClosed p.h, fl := { p.fl with keif := false } }

/-- The instance after `ConfigCommon(alg, hdr, n)` (41_lifecycle_config.md R184). -/
def configured (alg : Alg) (hdr n : Word) (p : Periph) : Periph :=
  { idled p with
    h := configHandle alg hdr n p.h
    cr := { p.cr with en := false, chmod := alg, mode := .encrypt, gcmph := .init, npblb := 0 } }

/-- The instance in a key-load command, its control-register fields written (42_key_iv.md R220 to R225). -/
def keyConfigured (k : KeySize) (m : KMod) (p : Periph) : Periph :=
  { keyCleared p with cr := { p.cr with en := false, keysize := k, kmod := m } }

/-- The key load of the handle failed with the error bits `e` (42_key_iv.md R222). -/
def keyLoadFailed (e : Word) (h : Handle) : Handle :=
  { h with lastErrorCodes := h.lastErrorCodes ||| e, keySched := .none, keySrc := .none }

/-- The key load of the handle ended well (42_key_iv.md R220, R224, R225). -/
def keyLoadEnded (a : Word) (k : KeySize) (o : KeyOrigin) (h : Handle) : Handle :=
  { h with pKey := a, keySize := k, keySched := .enc, keySrc := o }

/-- The job an enable starts (40_register_access.md R151). -/
def jobOnEnable (p : Periph) : Option Job :=
  if p.cr.mode = .keyDeriv then some .keyDeriv
  else if (p.cr.chmod = .gcmGmac ∨ p.cr.chmod = .ccm) ∧ p.cr.gcmph = .init then some .init
  else p.core.job

/-- The instance enabled with a job or none (40_register_access.md R151). -/
def enabledWith (j : Option Job) (p : Periph) : Periph :=
  { p with
    cr := { p.cr with en := true }
    core := { p.core with
      chain := Config.chainFrom { p.cr with en := true } p.ivr p.suspr p.core.keymat
      job := j
      keyWords := [] } }

/-- The instance after its core completed a key derivation (40_register_access.md R152, R164). -/
def derivationFinished (enAfter : Bool) (p : Periph) : Periph :=
  { p with
    cr := { p.cr with en := enAfter }
    fl := { p.fl with ccf := true }
    core := { p.core with keymat := Config.derivedSchedule p.core.keymat, job := none } }

/-- What the AES transform gives for the job `j` (10_state.md R44). -/
def transformOf (j : Job) (p : Periph) : Block × Chain :=
  Config.aesCore p.cr.coreCfg p.core.keymat p.core.chain j

/-- The last key word of an unwrap or shared-key decryption comes with the job `j`
(40_register_access.md R156). -/
def keyArrives (u : Inst) (j : Job) (p : Periph) : Bool :=
  keyResult u p.cr j && decide (p.cr.keysize.words ≤ p.core.keyWords.length + 4)

/-- The instance after its core completed the job `j`, no key derivation
(40_register_access.md R152, R153, R156, R164). -/
def dataFinished (u : Inst) (enAfter : Bool) (j : Job) (p : Periph) : Periph :=
  let r := transformOf j p
  let ws := p.core.keyWords ++ r.1.toList
  { p with
    cr := { p.cr with en := if j = .init then enAfter else p.cr.en }
    fl := { p.fl with ccf := true, keyvalid := p.fl.keyvalid || keyArrives u j p }
    ivr := Config.ivOf r.2
    suspr := Config.suspOf r.2
    core := { p.core with
      chain := r.2
      job := none
      outFifo := if producesOutput u p.cr j then r.1.toList else p.core.outFifo
      keymat := if keyArrives u j p then Config.keyOfWords p.cr.keysize ws else p.core.keymat
      keyWords :=
        if keyArrives u j p then [] else if keyResult u p.cr j then ws else p.core.keyWords } }

/-- Word `j` of block `i` of a buffer of `len` bytes, zero padded (43_block_pump.md R252, R256). -/
def paddedWord (t : DataType) (m : List Host.Cell) (p : Word) (i len j : Nat) : Word :=
  if 16 * i + 4 * j + 4 ≤ len then Memory.readWord m (p.toNat + (16 * i + 4 * j))
  else if 16 * i + 4 * j < len then
    Memory.readWord m (p.toNat + (16 * i + 4 * j)) &&& padMask t (len - (16 * i + 4 * j))
  else 0

/-- The words of block `i` that hold message bytes are admitted by caller memory (20_memory.md R85). -/
def blockAdmitted (s : State) (p : Word) (i len : Nat) : Prop :=
  ∀ j, j < 4 → 16 * i + 4 * j < len → s.admits (p.toNat + (16 * i + 4 * j)) = true

/-- The job that block `i` of a buffer starts, as the core sees its words (43_block_pump.md R255,
30_encoding.md R121). -/
def blockJob (t : DataType) (m : List Host.Cell) (p : Word) (i len : Nat) : Job :=
  .block (swap t (paddedWord t m p i len 0)) (swap t (paddedWord t m p i len 1))
    (swap t (paddedWord t m p i len 2)) (swap t (paddedWord t m p i len 3))

/-- The instance with a job started and its block counted. -/
def blockWritten (j : Job) (p : Periph) : Periph :=
  { p with
    h := { p.h with blockIndex := p.h.blockIndex + 1 }
    core := { p.core with job := some j } }

/-- Caller memory after output word `j` of block `i` was read (43_block_pump.md R254). -/
def outStored (m : List Host.Cell) (p : Word) (i len j : Nat) (w : Word) : List Host.Cell :=
  if 16 * i + 4 * j < len then Memory.writeWord m (p.toNat + (16 * i + 4 * j)) w else m

/-- Caller memory after the four output words of block `i` were read (43_block_pump.md R254). -/
def blockStored (m : List Host.Cell) (p : Word) (i len : Nat) (w0 w1 w2 w3 : Word) :
    List Host.Cell :=
  outStored (outStored (outStored (outStored m p i len 0 w0) p i len 1 w1) p i len 2 w2) p i len 3 w3

/-- The control register after `SetNPBLB(i)` (44_phase_machine.md R286). -/
def npblbSet (ph : PumpPhase) (i : Nat) (h : Handle) (c : CR) : CR :=
  if npblbDue ph i h c then { c with npblb := BitVec.ofNat 4 (16 - h.dataSizeByte.toNat % 16) } else c

/-- The instance after `WriteNext()` in phase `ph`, with caller memory `m` (43_block_pump.md R255). -/
def nextBlock (ph : PumpPhase) (m : List Host.Cell) (p : Periph) : Periph :=
  blockWritten
    (blockJob p.cr.datatype m (phaseBuf ph p.h) p.h.blockIndex.toNat (phaseLen ph p.h))
    { p with cr := npblbSet ph p.h.blockIndex.toNat p.h p.cr }

/-- The words of the next block that `WriteNext()` reads are admitted (20_memory.md R85). -/
def nextAdmitted (s : State) (ph : PumpPhase) (p : Periph) : Prop :=
  blockAdmitted s (phaseBuf ph p.h) p.h.blockIndex.toNat (phaseLen ph p.h)

/-- The core takes a block: enabled, no job, empty FIFOs (70_reset_and_hazards.md R610). -/
def coreReady (p : Periph) : Prop :=
  p.cr.en = true ∧ p.core.job = none ∧ p.core.inFifo = [] ∧ p.core.outFifo = []

/-- The instance with `CR.EN = 0` and another mode. -/
def idledMode (m : Mode) (p : Periph) : Periph :=
  { idled p with cr := { p.cr with en := false, mode := m } }

/-- The instance with the key derivation started (42_key_iv.md R231). -/
def derivStarted (p : Periph) : Periph := enabledWith (some .keyDeriv) (idledMode .keyDeriv p)

/-- The instance with the INIT phase started (44_phase_machine.md R283). -/
def initStarted (m : Mode) (p : Periph) : Periph :=
  enabledWith (some .init)
    { idled p with cr := { p.cr with en := false, mode := m, gcmph := .init, npblb := 0 } }

/-- The instance after the checks of a process call (45_transport.md R323). -/
def entered (dir : Direction) (t : Transport) (a n o : Word) (p : Periph) : Periph :=
  { p with h := enterHandle dir t a n o p.h }

/-- The handle's algorithm is mirrored in `CR.CHMOD` (10_state.md R23). -/
def algMirrored (p : Periph) : Prop := p.h.algorithm = some p.cr.chmod

/-- The instance `q` and its phase when a call whose setup waits for nothing is set up
(44_phase_machine.md R282): the first call of an ECB, CBC or CTR message, but for ECB and CBC
decryption, or a later call of any message. -/
def setUp (u : Inst) (dir : Direction) (t : Transport) (a n o : Word) (s : State) (ph : PumpPhase)
    (q : Periph) : Prop :=
  let p := s.periph u
  (p.h.dataSizeSum = 0 ∧ flatAlg p.h.algorithm = true ∧
      ¬(dir = .dec ∧ ecbOrCbc p.h.algorithm = true) ∧ algMirrored p ∧ coreQuiet p ∧ ph = .flat ∧
      q = enabledWith none (idledMode (modeOfDirection dir) (entered dir t a n o p))) ∨
    (p.h.dataSizeSum ≠ 0 ∧ phaseOf p.h.algorithm p.cr.gcmph = some ph ∧ ph ≠ .header ∧
      coreReady p ∧ q = entered dir t a n o p)

/-- The phase of the next block at a boundary (45_transport.md R331). -/
def boundaryPhase (ph : PumpPhase) (h : Handle) : PumpPhase :=
  if ph = .header ∧ h.blockIndex.toNat = phaseBlocks .header h then .payload else ph

/-- The instance that writes the next block at a boundary: after the last header block it has moved to
PAYLOAD (44_phase_machine.md R284). -/
def boundaryMoved (ph : PumpPhase) (p : Periph) : Periph :=
  if ph = .header ∧ p.h.blockIndex.toNat = phaseBlocks .header p.h then
    { p with cr := { p.cr with gcmph := .payload }, h := { p.h with blockIndex := 0 } }
  else p

/-- The instance after the next block of a boundary was written. -/
def boundaryWritten (ph : PumpPhase) (m : List Host.Cell) (p : Periph) : Periph :=
  nextBlock (boundaryPhase ph p.h) m (boundaryMoved ph p)

/-- The callback event due when the last input block of the call was written (45_transport.md R331). -/
def lastInputEvents (ph : PumpPhase) (p : Periph) : List CallbackEvent :=
  if ph ≠ .header ∧ p.h.blockIndex.toNat = phaseBlocks ph p.h then [⟨.inCplt, p.h.inst, p.h.cbInCplt, p.h⟩]
  else []

/-- A process call with the parts that differ by direction and transport (45_transport.md R320 to R342,
43_block_pump.md R251). -/
structure ProcessCall where
  instr     : Instr
  dir       : Direction
  transport : Transport
  proc      : Proc
  /-- the bound of its INIT wait -/
  bound     : Bound

/-- The six process commands with one set of operands (45_transport.md). -/
def processCalls (u : Inst) (a n o t : Word) : List ProcessCall :=
  [⟨.encrypt u a n o t, .enc, .poll, .poll .enc t, .ms t⟩,
    ⟨.decrypt u a n o t, .dec, .poll, .poll .dec t, .ms t⟩,
    ⟨.encryptIt u a n o, .enc, .it, .startIt .enc, .ccfBudget⟩,
    ⟨.decryptIt u a n o, .dec, .it, .startIt .dec, .ccfBudget⟩,
    ⟨.encryptDma u a n o, .enc, .dma, .startDma .enc, .ccfBudget⟩,
    ⟨.decryptDma u a n o, .dec, .dma, .startDma .dec, .ccfBudget⟩]

/-- The checks of a process call before the key check all pass (45_transport.md R323,
44_phase_machine.md R299). -/
def callChecked (u : Inst) (dir : Direction) (t : Transport) (a n o : Word) (s : State) : Prop :=
  let h := s.h u
  a ≠ null ∧ o ≠ null ∧ n ≠ 0 ∧
    (flatAlg h.algorithm = true → n.toNat % 16 = 0) ∧
    (t = .dma → h.hdmaIn ≠ null ∧ h.hdmaOut ≠ null ∧ (s.periph u).dmaIn = none ∧
      (s.periph u).dmaOut = none) ∧
    aligned a = true ∧ aligned o = true ∧ overlaps a n o = false ∧
    h.state = .idle ∧ h.msgStatus = .open ∧ (h.direction = .none ∨ h.direction = dir) ∧
    (h.keySched = .dec → ecbOrCbc h.algorithm = true ∧ dir = .dec ∧ h.dataSizeSum ≠ 0) ∧
    (h.keySched = .none → (s.fl u).keyvalid = false) ∧
    h.dataSizeSum.toNat + n.toNat < 2 ^ 32 ∧ (s.cr u).kmod = .normal

/-- The checks of a process call all pass. -/
def callAdmitted (u : Inst) (dir : Direction) (t : Transport) (a n o : Word) (s : State) : Prop :=
  callChecked u dir t a n o s ∧ (s.fl u).keyvalid = true

/-- The tag commands (44_phase_machine.md R300, R301). -/
def tagInstr (u : Inst) (k : TagKind) (a t : Word) : Instr :=
  match k with
  | .gcm => .gcmGenerateTag u a t
  | .ccm => .ccmGenerateTag u a t

/-- The checks of a tag command before the key check all pass (44_phase_machine.md R300, R301). -/
def tagChecked (u : Inst) (k : TagKind) (a : Word) (s : State) : Prop :=
  let h := s.h u
  a ≠ null ∧ h.algorithm = some (tagAlg k) ∧ aligned a = true ∧ h.state = .idle ∧
    h.msgStatus ≠ .closed ∧ (h.dataSizeSum = 0 → h.keySched ≠ .dec) ∧
    (h.keySched = .none → (s.fl u).keyvalid = false) ∧ (s.cr u).kmod = .normal ∧
    (k = .gcm → h.headerSize.toNat < 2 ^ 29 ∧ h.dataSizeSum.toNat < 2 ^ 29)

/-- The checks of a tag command all pass. -/
def tagAdmitted (u : Inst) (k : TagKind) (a : Word) (s : State) : Prop :=
  tagChecked u k a s ∧ (s.fl u).keyvalid = true

/-- The checks of a wrap or share command on the SAES before the key check all pass
(47_key_wrap_share.md R405); `o = none` for the decrypting commands, `k = none` for no share id. -/
def keyOpChecked (m : KMod) (a : Word) (o k : Option Word) (s : State) : Prop :=
  let h := s.h .saes
  a ≠ null ∧ o ≠ some null ∧ k.all shareIdValid = true ∧ h.inst = some .saes ∧
    ecbOrCbc h.algorithm = true ∧ (s.cr .saes).kmod = m ∧ aligned a = true ∧
    o.all aligned = true ∧ h.state = .idle ∧ h.msgStatus = .open ∧ h.dataSizeSum = 0 ∧
    h.keySched ≠ .dec ∧ (h.keySched = .none → (s.fl .saes).keyvalid = false)

/-- The checks of a wrap or share command all pass. -/
def keyOpAdmitted (m : KMod) (a : Word) (o k : Option Word) (s : State) : Prop :=
  keyOpChecked m a o k s ∧ (s.fl .saes).keyvalid = true

/-- The byte count of a wrap or share command (47_key_wrap_share.md R405). -/
def keyBytes (c : CR) : Word := BitVec.ofNat 32 (4 * c.keysize.words)

/-- The SAES after the checks of a wrap or share command. -/
def keyOpEntered (a o : Word) (p : Periph) : Periph :=
  { p with h := keyOpHandle a o (keyBytes p.cr) p.h }

/-- The SAES with its share id, where the command names one (47_key_wrap_share.md R402, R404). -/
def shareIdSet (k : Option Word) (p : Periph) : Periph :=
  { p with cr := { p.cr with kshareid := (k.map fun w => BitVec.ofNat 2 w.toNat).getD p.cr.kshareid } }

/-- The interrupt enables of an IT call (`ccf = true`) or a DMA call of a handle of `i`
(45_transport.md R327, R342), as the register of `u` holds them (40_register_access.md R162). -/
def callEnables (ccf : Bool) (u : Inst) (i : Option Inst) : Ier :=
  ⟨ccf, true, true, i == some .saes && u == .saes⟩

/-- The handle at the end of a message (44_phase_machine.md R300, 46_suspend_resume.md R373,
47_key_wrap_share.md R405). -/
def messageClosed (h : Handle) : Handle :=
  { h with msgStatus := .closed, transport := .none, state := .idle }

/-- A wrap or share command with the parts in which the four differ (47_key_wrap_share.md). -/
structure KeyCall where
  instr   : Instr
  op      : KeyOp
  kmod    : KMod
  out     : Option Word
  shareId : Option Word

/-- The four wrap and share commands with one set of operands. -/
def keyCalls (u : Inst) (a o k t : Word) : List KeyCall :=
  [⟨.wrapKey u a o t, .wrap, .wrapped, some o, none⟩,
    ⟨.unwrapKey u a t, .unwrap, .wrapped, none, none⟩,
    ⟨.encryptSharedKey u a o k t, .encryptShared, .shared, some o, some k⟩,
    ⟨.decryptSharedKey u a k t, .decryptShared, .shared, none, some k⟩]

/-- The instance with the output block of the completed job read and `CCF` cleared. -/
def outputRead (p : Periph) : Periph :=
  { p with fl := { p.fl with ccf := false }, core := { p.core with outFifo := [] } }

/-- The four words that the caller reads of the output FIFO (40_register_access.md R146). -/
def outputWords (p : Periph) (c0 c1 c2 c3 : Word) : Prop :=
  p.cr.en = true ∧ p.core.outFifo = [c0, c1, c2, c3] ∧ p.core.job = none ∧ p.core.inFifo = []

/-- Caller memory after the output block was stored (43_block_pump.md R254). -/
def outputMemory (p : Periph) (m : List Host.Cell) (c0 c1 c2 c3 : Word) : List Host.Cell :=
  blockStored m p.h.pOut (p.h.blockIndex - 1).toNat p.h.dataSizeByte.toNat (swap p.cr.datatype c0)
    (swap p.cr.datatype c1) (swap p.cr.datatype c2) (swap p.cr.datatype c3)

/-- The words that reading the output block stores are admitted (20_memory.md R85). -/
def outputAdmitted (s : State) (p : Periph) : Prop :=
  blockAdmitted s p.h.pOut (p.h.blockIndex - 1).toNat p.h.dataSizeByte.toNat

/-- `return c`. -/
def returning (c : RetCode) (s : State) : State := { s with returned := some (.code c) }

/-- The state with callback events added to the history. -/
def logging (l : List CallbackEvent) (s : State) : State :=
  { s with callbackLog := s.callbackLog ++ l }

/-- The event a callback of kind `k` records for a handle (41_lifecycle_config.md R195). -/
def eventOf (k : CbKind) (h : Handle) : CallbackEvent := ⟨k, h.inst, callbackOf k h, h⟩

/-- The mainline waits at a WaitFlag. -/
def waiting (p : Pos) (s : State) : State := { s with mainPos := some p }

/-! ### After the waits -/

/-- The instance with `CCF` cleared (40_register_access.md R143). -/
def ccfCleared (p : Periph) : Periph := { p with fl := { p.fl with ccf := false } }

/-- The instance after its key derivation ended (42_key_iv.md R231). -/
def derivEnded (p : Periph) : Periph :=
  { ccfCleared (idledMode .decrypt p) with h := { p.h with keySched := .dec } }

/-- The phase that the INIT phase leads to (44_phase_machine.md R283). -/
def phaseOfHeader (h : Handle) : PumpPhase := if h.headerSize = 0 then .payload else .header

/-- The instance after its INIT phase ended (44_phase_machine.md R283). -/
def initEnded (p : Periph) : Periph :=
  enabledWith none
    { ccfCleared (idled p) with
      cr := { p.cr with en := false, gcmph := if p.h.headerSize = 0 then .payload else .header }
      h := { p.h with blockIndex := 0 } }

/-- The instance with both DMA channels started for the whole blocks of the call (45_transport.md R342). -/
def dmaStarted (u : Inst) (p : Periph) : Periph :=
  { p with
    ier := callEnables false u p.h.inst
    dmaIn := some ⟨p.h.pIn, 4 * (p.h.dataSizeByte.toNat / 16), 0, false⟩
    dmaOut := some ⟨p.h.pOut, 4 * (p.h.dataSizeByte.toNat / 16), 0, false⟩
    cr := { p.cr with dmainen := true, dmaouten := true } }

/-- After its setup a call writes a block itself: all but a DMA call past the header with a whole block
(45_transport.md R322, R327, R342). -/
def startsWithBlock (pr : Proc) (ph : PumpPhase) (h : Handle) : Prop :=
  (∀ d, pr ≠ .startDma d) ∨ ph = .header ∨ h.dataSizeByte.toNat < 16

/-- The state after the first step that follows the setup of a process call, its instance `p` in phase
`ph` (45_transport.md R322, R327, R342). -/
def callStarted (u : Inst) (pr : Proc) (ph : PumpPhase) (p : Periph) (s : State) : State :=
  let q := nextBlock ph s.mem p
  let written := s.modify u fun _ => q
  match pr with
  | .poll _ t => waiting ⟨u, pr, .block, .ms t⟩ written
  | .startIt _ =>
    let q := { q with ier := callEnables true u p.h.inst }
    returning .ok (logging (lastInputEvents ph q) (s.modify u fun _ => q))
  | .startDma _ =>
    if ph = .header then waiting ⟨u, pr, .headerBlock, .ccfBudget⟩ written
    else if p.h.dataSizeByte.toNat < 16 then waiting ⟨u, pr, .block, .ccfBudget⟩ written
    else returning .ok (s.modify u fun _ => dmaStarted u p)
  | .setNormalKey _ _ | .setHwKey _ | .setSharedKey _ | .tag _ _ _ | .keyOp _ _ | .restore _
  | .dmaFinish _ => s

/-- The instance with FINAL started (44_phase_machine.md R300 to R302): GCM writes the length block, whose
layout is log 23, CCM writes no word. -/
def finalStarted (k : TagKind) (p : Periph) : Periph :=
  { p with
    cr := { p.cr with gcmph := .final }
    core := { p.core with
      job := some (if k = .gcm then .block 0 (p.h.headerSize * 8) 0 (p.h.dataSizeSum * 8)
        else .finalCcm) } }

/-- A tag command of a message without payload goes on: the next header block, or FINAL after the last
(44_phase_machine.md R300). -/
def tagContinued (u : Inst) (k : TagKind) (a t : Word) (p : Periph) (s : State) : State :=
  if p.cr.gcmph = .header ∧ p.h.blockIndex.toNat < phaseBlocks .header p.h then
    waiting ⟨u, .tag k a t, .headerBlock, .ms t⟩ (s.modify u fun _ => nextBlock .header s.mem p)
  else waiting ⟨u, .tag k a t, .tagWords, .ms t⟩ (s.modify u fun _ => finalStarted k p)

/-- What `RestoreFail` leaves of the instance (46_suspend_resume.md R378). -/
def restoreFailed (e : Word) (p : Periph) : Periph :=
  { idled p with
    h := { p.h with
      lastErrorCodes := p.h.lastErrorCodes ||| e, msgStatus := .closed, keySched := .none,
      keySrc := .none, transport := .none, state := .idle }
    fl := { flagsCleared p.h.inst p.fl with ccf := p.fl.ccf } }

/-- What the end of a restore leaves of the instance (46_suspend_resume.md R376). -/
def restoreEnded (c : Context) (p : Periph) : Periph :=
  { p with
    suspr := if authAlg c.algorithm = true then c.susp else p.suspr
    h := { p.h with msgStatus := .open, transport := .it, state := .suspended } }

/-- The instance after its DMA channel `q` moved the next word of `t` (20_memory.md R92). -/
def wordMoved (q : Fifo) (t : Transfer) (p : Periph) : Periph :=
  let rest := if t.moved + 1 < t.words then some { t with moved := t.moved + 1 } else none
  { p with
    dmaIn := if q = .input then rest else p.dmaIn
    dmaOut := if q = .output then rest else p.dmaOut
    dmaEvents := p.dmaEvents ++
      if t.moved + 1 < t.words then [] else [⟨if q = .input then .inCplt else .outCplt, t.stale⟩] }

end Sys2Proof.Machine
end

