-- ==== Sys2Proof/Certificates/Slice0/Obligations.lean ====
section
/-! DEFINITION. The statements for the provers, each with the rule of spec/ it formalises. -/

section

open Sys2Proof Sys2Proof.Machine

/-! ### Encoding (30_encoding.md) -/

/-- Words written out from the opcode map (R110 to R112); the numbering of the record's slots is the
model's choice (log 1). -/
def Obligations.SampleWordsDecode : Prop :=
  decode 0x00000001 ⟨1, 1, 0, 0, 0⟩ = .ok (.init .saes 1) ∧
    decode 0x00000004 ⟨0, 0x20000000, 0, 0, 0⟩ = .ok (.setConfigCbc .aes 0x20000000) ∧
    decode 0x00000010 ⟨0, 0x20000100, 1, 0, 0⟩ = .ok (.setNormalKey .aes 0x20000100 1) ∧
    decode 0x00000020 ⟨0, 0x20000000, 32, 0x20000100, 10⟩ =
      .ok (.encrypt .aes 0x20000000 32 0x20000100 10) ∧
    decode 0x00000032 ⟨1, 7, 0, 0, 0⟩ = .ok (.saveContext .saes 7) ∧
    decode 0x00000043 ⟨1, 0x20000200, 0, 10, 0⟩ = .ok (.decryptSharedKey .saes 0x20000200 0 10) ∧
    decode 0x00000083 ⟨1, 1, 0, 0, 0⟩ = .ok (.dmaError .saes .output) ∧
    decode 0x000000c0 ⟨0, 2, 2, 0, 0⟩ = .ok (.busCrWrite .aes .mode 2) ∧
    decode 0x000000cb ⟨1, 0xf, 0, 0, 0⟩ = .ok (.busIerWrite .saes 0xf)

/-- Decoding an encoded well-formed instruction gives it back, every operand at every value. The record's
slots are the model's choice (log 1). -/
def Obligations.DecodeOfEncode : Prop :=
  ∀ i : Instr, i.wellFormed = true → decode (encode i).1 (encode i).2 = .ok i

/-- What decodes is well formed, and no two words with their records decode to one instruction (log 1). -/
def Obligations.DecodedIsWellFormedAndEncodesBack : Prop :=
  ∀ (w : Word) (r : Record) (i : Instr),
    decode w r = .ok i → i.wellFormed = true ∧ encode i = (w, r)

/-- R114: a word with a bit of [31:8] set, or whose opcode is no instruction's, spells no command, whoever
issues it and whatever its record. -/
def Obligations.UnknownWordRefused : Prop :=
  ∀ (s : State) (q : Request) (rest : List Request), beginsRequest s q rest →
    (q.word.extractLsb' 8 24 ≠ 0 ∨ ∀ i : Instr, (encode i).1 ≠ q.word) →
      step s = .refused .unknownOpcode

/-! ### Steps -/

/-- A step runs the decoded instruction; around `exec` it takes the request off the inbox and, after a
next state, passes the turn (log 2, log 4). R115: a host word whose opcode is an event's or a
micro-operation's is refused by name, whatever its record; the engine issues micro-operations alone, and
no step makes a request of its own. A placed instruction runs with caller memory, the context store and,
but for the line or the event that delivers it, the instances as they were (log 2). -/
def Obligations.StepRunsDecodedInstruction : Prop :=
  (∀ (s : State) (q : Request) (rest : List Request) (i : Instr), beginsRequest s q rest →
      (decode q.word q.record = .ok i →
        (q.issuer = .host ∧ i.format = .cmd ∨ q.issuer = .engine ∧ i.format = .bus →
          step s = passTurn (exec i { s with inbox := rest })) ∧
        (q.issuer = .engine → i.format ≠ .bus → step s = .refused .wrongIssuer)) ∧
      ((encode i).1 = q.word → q.issuer = .host → i.format ≠ .cmd →
        step s = .refused .hostIssuedEvtBus)) ∧
    (∀ (s : State) (n w : Nat) (i : Instr), decodeTableWord n w = some i →
      ∃ t : State, step (s.withFetchWord n w) = passTurn (exec i t) ∧ t.mem = s.mem ∧
        t.contexts = s.contexts ∧ t.shareSlots = s.shareSlots ∧ t.alloc = s.alloc ∧
        (∀ v, t.periph v = { s.periph v with fl := t.fl v, ier := (t.periph v).ier }) ∧
        ((∀ u, i ≠ .irq u) → t.aes = s.aes ∧ t.saes = s.saes)) ∧
    (∀ s t : State, hostOnly s → step s = .next t → hostOnly t) ∧
    (∀ t : State,
      passTurn (.next t) = .next { t with turn := Config.schedule t.draws, draws := t.draws + 1 }) ∧
    (∀ f, passTurn (.fault f) = .fault f) ∧ ∀ r, passTurn (.refused r) = .refused r

/-! ### Reset -/

/-- R65: the handle in state RESET, right after reset and after a `DEINIT` that found another state. The
values are those that log 6 marks PRESUMED. -/
def Obligations.HandleResetValues : Prop :=
  ∀ u : Inst, ∀ h : Handle,
    (h = State.reset.h u ∨
      ∃ s t : State, (s.h u).state ≠ .reset ∧ exec (.deinit u) s = .next t ∧ h = t.h u) →
    h.inst = none ∧ h.state = .reset ∧ h.algorithm = none ∧
      h.pIn = null ∧ h.pOut = null ∧ h.pHeader = null ∧ h.pUserData = null ∧ h.pKey = null ∧
      h.hdmaIn = null ∧ h.hdmaOut = null ∧
      h.dataSizeByte = 0 ∧ h.dataSizeSum = 0 ∧ h.headerSize = 0 ∧ h.blockIndex = 0 ∧
      h.suspendRequest = false ∧ h.lastErrorCodes = 0 ∧
      h.cbInCplt = none ∧ h.cbOutCplt = none ∧ h.cbError = none ∧ h.cbSuspend = none ∧
      h.transport = .none ∧ h.direction = .none ∧ h.msgStatus = .closed ∧ h.keySched = .none ∧
      h.keySrc = .none ∧ h.dmaInDone = false ∧ h.dmaOutDone = false

/-- The register files at reset (10_state.md R66, R600 to R602). R66 marks these values as the spec's own
and the busy SAES as general knowledge (log 6). -/
def Obligations.RegisterResetValues : Prop :=
  (∀ u : Inst, State.reset.cr u = CR.reset ∧ State.reset.fl u =
      ⟨false, decide (u = .saes), false, false, false, false, false, false⟩ ∧
    (State.reset.periph u).ier = ierNone ∧ (∀ i : Fin 4, (State.reset.periph u).ivr[i] = 0) ∧
    (∀ i : Fin 8, (State.reset.periph u).suspr[i] = 0) ∧ (State.reset.core u).inFifo = [] ∧
    (State.reset.core u).outFifo = [] ∧ (State.reset.core u).job = none ∧
    (State.reset.core u).keyLoad = none ∧ (State.reset.core u).startup = decide (u = .saes) ∧
    (State.reset.periph u).dmaIn = none ∧ (State.reset.periph u).dmaOut = none ∧
    (State.reset.periph u).dmaEvents = []) ∧
    State.reset.shareSlots = [] ∧ State.reset.contexts = [] ∧ State.reset.mainPos = none ∧
    State.reset.isrPos = none ∧ State.reset.callbackLog = []

/-- The invariants hold right after reset. -/
def Obligations.ResetMeetsInvariants : Prop :=
  canonicalForms State.reset ∧ coreQuiet State.reset.aes ∧ coreQuiet State.reset.saes ∧
    aesPlain State.reset.aes ∧ errorsQualified State.reset.aes.fl ∧
    errorsQualified State.reset.saes.fl ∧ handleOwned .aes State.reset.aes ∧
    handleOwned .saes State.reset.saes

/-! ### Invariants that every step keeps -/

/-- Caller memory, the context store and the shared-key slots keep their canonical forms (log 7: the form
is the model's). -/
def Obligations.StepKeepsCanonicalForms : Prop :=
  ∀ s t : State, canonicalForms s → step s = .next t → canonicalForms t

/-- A disabled core is idle with empty FIFOs, a core that runs INIT or a key derivation has empty FIFOs,
and no FIFO holds more than a block (R45, R145, R151, R163). -/
def Obligations.StepKeepsCoreQuiet : Prop :=
  ∀ s t : State, coreQuiet s.aes → coreQuiet s.saes → step s = .next t →
    coreQuiet t.aes ∧ coreQuiet t.saes

/-- On the AES, `KEYSEL`, `KEYPROT`, `KSHAREID`, `RNGEIE`, `RNGEIF` and the start-up keep their reset
values (R41, R43, R602). -/
def Obligations.StepKeepsAesPlain : Prop :=
  ∀ s t : State, aesPlain s.aes → step s = .next t → aesPlain t.aes

/-- `RWEIF` is set exactly while `RDERR` or `WRERR` is (R42, R143, R147, R148). -/
def Obligations.StepKeepsErrorsQualified : Prop :=
  ∀ s t : State, errorsQualified s.aes.fl → errorsQualified s.saes.fl → step s = .next t →
    errorsQualified t.aes.fl ∧ errorsQualified t.saes.fl

/-- A handle names its own instance or none (R20). That `INIT` never names the other instance is the model's
choice (log 17). -/
def Obligations.StepKeepsHandleInstance : Prop :=
  ∀ s t : State, handleOwned .aes s.aes → handleOwned .saes s.saes → step s = .next t →
    handleOwned .aes t.aes ∧ handleOwned .saes t.saes

/-! ### Frames -/

/-- Up to its first wait no instruction but `IRQ` stores to caller memory (R85, R254, R303). -/
def Obligations.OnlyIrqStoresBeforeItsFirstWait : Prop :=
  ∀ (i : Instr) (s t : State), (∀ u, i ≠ .irq u) → exec i s = .next t → sameBytes s t

/-- `IRQ` stores only to the output words of the block just completed that lie within the byte count
(R254, R331): outside them every byte reads as before. -/
def Obligations.IrqStoresOnlyTheCompletedBlock : Prop :=
  ∀ (u : Inst) (s t : State), exec (.irq u) s = .next t →
    ∀ a : Nat,
      ¬((s.h u).pOut.toNat + 16 * ((s.h u).blockIndex - 1).toNat ≤ a ∧
        a < (s.h u).pOut.toNat + 16 * ((s.h u).blockIndex - 1).toNat + 16 ∧
        a < (s.h u).pOut.toNat + 4 * ceilDiv (s.h u).dataSizeByte.toNat 4) →
      Memory.readByte t.mem a = Memory.readByte s.mem a

/-- An instruction changes nothing of the other instance, of the shared-key slots and of what the caller
allocated; only `SAVE_CONTEXT` writes the context store, and only its own record (R20, R61, R64). -/
def Obligations.FrameOfOtherInstanceAndStores : Prop :=
  ∀ (i : Instr) (s t : State), exec i s = .next t →
    (∀ v, v ≠ i.target → t.periph v = s.periph v) ∧ t.shareSlots = s.shareSlots ∧
      t.alloc = s.alloc ∧ t.inbox = s.inbox ∧ t.turn = s.turn ∧
      ∀ k : Nat, (∀ u c, i = .saveContext u c → k ≠ c.toNat) →
        assocGet k t.contexts = assocGet k s.contexts

/-- No instruction changes the core's key material, makes a key valid, or raises `CCF` or `RNGEIF`: only
steps of the core do (R42, R46, R155). -/
def Obligations.OnlyTheCoreMakesKeysAndCompletions : Prop :=
  ∀ (i : Instr) (s t : State), exec i s = .next t → ∀ v : Inst,
    (t.core v).keymat = (s.core v).keymat ∧
      ((t.fl v).keyvalid = true → (s.fl v).keyvalid = true) ∧
      ((t.fl v).ccf = true → (s.fl v).ccf = true) ∧
      ((t.fl v).rngeif = true → (s.fl v).rngeif = true)


/-! ### Lifecycle, configuration and queries (41_lifecycle_config.md) -/

/-- R182: `INIT` associates the handle. An operand that names the other instance is answered as an operand
outside the list, the model's choice (log 17). -/
def Obligations.InitSetsUpTheHandle : Prop :=
  ∀ (u : Inst) (w : Word) (s : State),
    (w ≠ instWord u → exec (.init u w) s = .next (returning .invalidParam s)) ∧
      (w = instWord u → (s.h u).state ≠ .reset →
        exec (.init u w) s = .next (returning .busy s)) ∧
      (w = instWord u → (s.h u).state = .reset →
        exec (.init u w) s = .next (returning .ok
          (s.modify u fun p =>
            { p with h := { Handle.reset with inst := some u, state := .init } })))

/-- R183: `DEINIT` from any state disables the instance, clears its flags and interrupts and resets the
handle; the key stays as it is, and the DMA channels are not stopped: what they deliver later is stale
(R348, log 39). -/
def Obligations.DeinitResetsTheHandle : Prop :=
  ∀ (u : Inst) (s : State), coreQuiet (s.periph u) →
    exec (.deinit u) s = .next (returning .ok
      (if (s.h u).state = .reset then s
      else s.modify u fun p => dmaAbandoned
        { idled p with
          h := Handle.reset
          cr := { p.cr with en := false, dmainen := false, dmaouten := false }
          fl := flagsCleared p.h.inst p.fl
          ier := ierNone }))

/-- R184, R185: `SET_CONFIG_ECB`. -/
def Obligations.SetConfigEcbConfigures : Prop :=
  ∀ (u : Inst) (s : State), coreQuiet (s.periph u) →
    exec (.setConfigEcb u) s =
      .next (if (s.h u).state = .init ∨ (s.h u).state = .idle then
        returning .ok (s.modify u (configured .ecb null 0))
      else returning .busy s)

/-- R184, R186, R187, R230: `SET_CONFIG_CBC` and `SET_CONFIG_CTR` load the IV, first word in memory to
`IVR[3]` (log 22). Where a word of the IV is not allocated the command is stuck: its step is not made, and
the mainline has no further one (R84, log 9). -/
def Obligations.SetConfigIvLoadsTheIv : Prop :=
  ∀ (u : Inst) (a : Word) (s : State) (i : Instr) (g : Alg),
    (i = .setConfigCbc u a ∧ g = .cbc ∨ i = .setConfigCtr u a ∧ g = .ctr) →
    (a = null → exec i s = .next (returning .invalidParam s)) ∧
      (a ≠ null → a.toNat % 4 ≠ 0 → exec i s = .refused .misalignedBuffer) ∧
      (a ≠ null → a.toNat % 4 = 0 → (s.h u).state ≠ .init → (s.h u).state ≠ .idle →
        exec i s = .next (returning .busy s)) ∧
      (a ≠ null → a.toNat % 4 = 0 → (s.h u).state = .init ∨ (s.h u).state = .idle →
        coreQuiet (s.periph u) → wordsAdmitted s a 4 →
        exec i s = .next (returning .ok
          (s.modify u fun p => { configured g null 0 p with ivr := ivOfMemory s.mem a }))) ∧
      (a ≠ null → a.toNat % 4 = 0 → (s.h u).state = .init ∨ (s.h u).state = .idle →
        coreQuiet (s.periph u) → ¬wordsAdmitted s a 4 →
        exec i s = .next { s with mainStuck := true })

/-- R184, R188, R189, R230: `SET_CONFIG_GCM_GMAC` and `SET_CONFIG_CCM`; with no header byte the header
pointer becomes NULL (the IV mapping is log 22). -/
def Obligations.SetConfigAuthLoadsIvAndHeader : Prop :=
  ∀ (u : Inst) (a p n : Word) (s : State) (i : Instr) (g : Alg),
    (i = .setConfigGcmGmac u a p n ∧ g = .gcmGmac ∨ i = .setConfigCcm u a p n ∧ g = .ccm) →
    (a = null ∨ n ≠ 0 ∧ p = null → exec i s = .next (returning .invalidParam s)) ∧
      (a ≠ null → ¬(n ≠ 0 ∧ p = null) → a.toNat % 4 ≠ 0 ∨ n ≠ 0 ∧ p.toNat % 4 ≠ 0 →
        exec i s = .refused .misalignedBuffer) ∧
      (a ≠ null → a.toNat % 4 = 0 → (n = 0 ∨ p ≠ null ∧ p.toNat % 4 = 0) →
        (s.h u).state ≠ .init → (s.h u).state ≠ .idle → exec i s = .next (returning .busy s)) ∧
      (a ≠ null → a.toNat % 4 = 0 → (n = 0 ∨ p ≠ null ∧ p.toNat % 4 = 0) →
        (s.h u).state = .init ∨ (s.h u).state = .idle →
        coreQuiet (s.periph u) → wordsAdmitted s a 4 →
        exec i s = .next (returning .ok
          (s.modify u fun q =>
            { configured g (if n = 0 then null else p) n q with ivr := ivOfMemory s.mem a })))

/-- R190: `SET_DATA_SWAP` writes `CR.DATATYPE` and ends a message with committed data. -/
def Obligations.SetDataSwapWritesDatatype : Prop :=
  ∀ (u : Inst) (w : Word) (s : State),
    (4 ≤ w.toNat → exec (.setDataSwap u w) s = .next (returning .invalidParam s)) ∧
      (w.toNat < 4 → (s.h u).state ≠ .init → (s.h u).state ≠ .idle →
        exec (.setDataSwap u w) s = .next (returning .busy s)) ∧
      ∀ t : DataType, w = dataTypeWord t → (s.h u).state = .init ∨ (s.h u).state = .idle →
        coreQuiet (s.periph u) →
        exec (.setDataSwap u w) s = .next (returning .ok
          (s.modify u fun p =>
            { idled p with
              h := committedClosed p.h, cr := { p.cr with en := false, datatype := t } }))

/-- R191, R192, R193, R194, R198: the queries answer in every state and change nothing;
`SET_USER_DATA` writes the pointer in every state but RESET. -/
def Obligations.QueriesAndUserData : Prop :=
  ∀ (u : Inst) (a : Word) (s : State),
    exec (.getDataSwap u) s =
        .next { s with
          returned := some (.datatype
            (if (s.h u).state = .reset then .none else (s.cr u).datatype)) } ∧
      exec (.getState u) s = .next { s with returned := some (.life (s.h u).state) } ∧
      exec (.getLastErrorCodes u) s =
        .next { s with returned := some (.word (s.h u).lastErrorCodes) } ∧
      exec (.getUserData u) s = .next { s with returned := some (.word (s.h u).pUserData) } ∧
      exec (.setUserData u a) s =
        .next (if (s.h u).state = .reset then returning .busy s
        else returning .ok (s.modify u fun p => { p with h := { p.h with pUserData := a } }))

/-- R196, R197: `REGISTER_CALLBACK` writes the callback of its kind, `LINK_DMA` the channel of its
FIFO, and no other field. -/
def Obligations.CallbacksAndDmaLinksAreWritten : Prop :=
  ∀ (u : Inst) (k q f : Word) (s : State),
    let x := exec (.registerCallback u k f) s
    let y := exec (.linkDma u q f) s
    let configurable := (s.h u).state = .init ∨ (s.h u).state = .idle
    (4 ≤ k.toNat ∨ f = null → x = .next (returning .invalidParam s)) ∧
      (k.toNat < 4 → f ≠ null → ¬configurable → x = .next (returning .busy s)) ∧
      (k.toNat < 4 → f ≠ null → configurable →
        x = .next (returning .ok (s.modify u fun p =>
          { p with
            h := { p.h with
              cbInCplt := if k = 0 then some f else p.h.cbInCplt
              cbOutCplt := if k = 1 then some f else p.h.cbOutCplt
              cbError := if k = 2 then some f else p.h.cbError
              cbSuspend := if k = 3 then some f else p.h.cbSuspend } }))) ∧
      (2 ≤ q.toNat ∨ f = null → y = .next (returning .invalidParam s)) ∧
      (q.toNat < 2 → f ≠ null → ¬configurable → y = .next (returning .busy s)) ∧
      (q.toNat < 2 → f ≠ null → configurable →
        y = .next (returning .ok (s.modify u fun p =>
          { p with
            h := { p.h with
              hdmaIn := if q = 0 then f else p.h.hdmaIn
              hdmaOut := if q = 1 then f else p.h.hdmaOut } })))

/-! ### Keys (42_key_iv.md) -/

/-- R220, R221, R223: `SET_NORMAL_KEY` writes the key registers, first word in memory to the highest
register (log 22), which starts the software key load, and waits for it. The last clause takes no key
register as marked written since the last load. -/
def Obligations.SetNormalKeyStartsTheLoad : Prop :=
  ∀ (u : Inst) (a w : Word) (s : State),
    (2 ≤ w.toNat ∨ a = null →
        exec (.setNormalKey u a w) s = .next (returning .invalidParam s)) ∧
      (w.toNat < 2 → a ≠ null → a.toNat % 4 ≠ 0 →
        exec (.setNormalKey u a w) s = .refused .misalignedBuffer) ∧
      (w.toNat < 2 → a ≠ null → a.toNat % 4 = 0 → (s.h u).state ≠ .init → (s.h u).state ≠ .idle →
        exec (.setNormalKey u a w) s = .next (returning .busy s)) ∧
      ∀ k : KeySize, keySizeOfWord w = some k → a ≠ null → a.toNat % 4 = 0 →
        (s.h u).state = .init ∨ (s.h u).state = .idle → coreQuiet (s.periph u) →
        (s.core u).keyMarks = Vector.replicate 8 false → wordsAdmitted s a k.words →
        exec (.setNormalKey u a w) s = .next
          (waiting ⟨u, .setNormalKey a k, .keyLoad, .keyTimeout⟩
            (s.modify u fun p => loadStarted .software
              { keyCleared p with
                cr := { p.cr with
                  en := false, keysize := k, kmod := .normal
                  keysel := if u = .saes ∧ p.h.inst = some .saes then .software else p.cr.keysel }
                keyr := keyOfMemory s.mem a k p.keyr }))

/-- R225: `SET_HW_KEY` selects the hardware key, which starts its load, and waits for it. -/
def Obligations.SetHwKeyStartsTheLoad : Prop :=
  ∀ (ks : KeySel) (km : KMod) (k : KeySize) (a b c : Word) (s : State), ks ≠ .software →
    keySelOfWord a = some ks → kModOfWord b = some km → keySizeOfWord c = some k →
    (s.h .saes).inst = some .saes →
    ((s.h .saes).state ≠ .init → (s.h .saes).state ≠ .idle →
        exec (.setHwKey .saes a b c) s = .next (returning .busy s)) ∧
      ((s.h .saes).state = .init ∨ (s.h .saes).state = .idle → coreQuiet (s.periph .saes) →
        exec (.setHwKey .saes a b c) s = .next
          (waiting ⟨.saes, .setHwKey k, .keyLoad, .keyTimeout⟩
            (s.modify .saes fun p => loadStarted (.hw ks)
              { keyConfigured k km p with
                cr := { p.cr with en := false, keysize := k, kmod := km, keysel := ks } })))

/-- R225, R226: on a handle whose instance is not the SAES, and with any operand outside its list,
`SET_HW_KEY` returns INVALID_PARAM, before the state check, and writes no register and no handle field. -/
def Obligations.SetHwKeyElsewhereWritesNothing : Prop :=
  ∀ (u : Inst) (a b c : Word) (s : State),
    ((s.h u).inst ≠ some .saes ∨ a.toNat = 0 ∨ 4 ≤ a.toNat ∨ 3 ≤ b.toNat ∨ 2 ≤ c.toNat) →
      exec (.setHwKey u a b c) s = .next (returning .invalidParam s)

/-- R224, R156: `SET_SHARED_KEY` on the AES: with an empty slot it fails at once, else the AES receives
the slot's key; with an operand outside its list, or on another handle, it returns INVALID_PARAM. Share
ids from `KSHAREID_VALUES` on are outside the list (log 18); an empty slot sets `KEIF` and starts nothing
(log 15). -/
def Obligations.SetSharedKeyReceivesOrFails : Prop :=
  ∀ (u : Inst) (w x : Word) (s : State),
    (2 ≤ w.toNat ∨ Config.kshareidValues ≤ x.toNat ∨ (s.h u).inst ≠ some .aes →
        exec (.setSharedKey u w x) s = .next (returning .invalidParam s)) ∧
      ∀ k : KeySize, keySizeOfWord w = some k → x.toNat < Config.kshareidValues →
        (s.h .aes).inst = some .aes →
        ((s.h .aes).state ≠ .init → (s.h .aes).state ≠ .idle →
          exec (.setSharedKey .aes w x) s = .next (returning .busy s)) ∧
        ((s.h .aes).state = .init ∨ (s.h .aes).state = .idle → coreQuiet (s.periph .aes) →
          (assocGet x.toNat s.shareSlots = none →
            exec (.setSharedKey .aes w x) s = .next (returning .error
              (s.modify .aes fun p =>
                { keyConfigured k .normal p with
                  h := keyLoadFailed errKey (committedClosed p.h) }))) ∧
          (assocGet x.toNat s.shareSlots ≠ none →
            exec (.setSharedKey .aes w x) s = .next
              (waiting ⟨.aes, .setSharedKey k, .keyLoad, .keyTimeout⟩
                (s.modify .aes fun p => loadStarted (.shared x.toNat) (keyConfigured k .shared p)))))

/-- R227, R228, R229: key protection is written on the SAES only; elsewhere the commands return
INVALID_PARAM and write nothing. -/
def Obligations.KeyProtectionWritesKeyprot : Prop :=
  ∀ (u : Inst) (s : State) (i : Instr) (b : Bool),
    (i = .enableKeyProtection u ∧ b = true ∨ i = .disableKeyProtection u ∧ b = false) →
    ((s.h u).inst ≠ some .saes → exec i s = .next (returning .invalidParam s)) ∧
      (u = .saes → (s.h u).inst = some .saes → (s.h u).state ≠ .init → (s.h u).state ≠ .idle →
        exec i s = .next (returning .busy s)) ∧
      (u = .saes → (s.h u).inst = some .saes → (s.h u).state = .init ∨ (s.h u).state = .idle →
        coreQuiet (s.periph u) →
        exec i s = .next (returning .ok
          (s.modify u fun p =>
            { idled p with
              h := committedClosed p.h, cr := { p.cr with en := false, keyprot := b } })))

/-- R220, R222, R224, R225: how the wait of a key load ends: a timeout or a hardware error of the wait and
a load without a usable key return ERROR with their bit, a good load makes the handle's key the loaded
one. `SET_SHARED_KEY` sets `CR.KMOD` back to NORMAL either way. -/
def Obligations.KeyLoadWaitEnds : Prop :=
  ∀ (u : Inst) (pr : Proc) (a : Word) (k : KeySize) (o : KeyOrigin) (el : Bool) (s : State),
    (pr = .setNormalKey a k ∧ o = .software ∨ pr = .setHwKey k ∧ a = null ∧ o = .hw ∨
      pr = .setSharedKey k ∧ a = null ∧ o = .shared) →
    coreQuiet (s.periph u) → (s.cr u).en = false →
    let back : CR → CR := fun c => if o = .shared then { c with kmod := .normal } else c
    let out := waitOutcome ⟨u, pr, .keyLoad, .keyTimeout⟩ el s
    let done (c : RetCode) (f : Periph → Periph) : Outcome :=
      .next (returning c { s.modify u fun p => { f p with cr := back p.cr } with mainPos := none })
    let r := waitCheck (s.h u).inst .keyLoad el (s.fl u)
    (∀ e, r = .failed (.hwErr e) → out = done .error fun p =>
        { p with h := keyLoadFailed e p.h, fl := { p.fl with keif := false } }) ∧
      (r = .failed .timeout → out = done .error fun p =>
        { p with h := keyLoadFailed errTimeout p.h }) ∧
      (r = .ok → (s.fl u).keyvalid = false → out = done .error fun p =>
        { p with h := keyLoadFailed errKey p.h }) ∧
      (r = .ok → (s.fl u).keyvalid = true → out = done .ok fun p =>
        { p with h := keyLoadEnded a k o p.h }) ∧
      (r = .again → out = .next s)

/-! ### Process calls (44_phase_machine.md, 45_transport.md) -/

/-- R323 and R299, with R181's order: what each failing check of the six process commands answers. None of
them changes a register or the handle. The refusal of a DMA call in output-skip mode stands before the
message checks, the model's choice (log 26). -/
def Obligations.ProcessCallChecks : Prop :=
  ∀ (u : Inst) (a n o t : Word) (s : State) (c : ProcessCall), c ∈ processCalls u a n o t →
    let h := s.h u
    let x := exec c.instr s
    if a = null ∨ o = null ∨ n = 0 ∨ flatAlg h.algorithm = true ∧ n.toNat % 16 ≠ 0 ∨
        c.transport = .dma ∧ (h.hdmaIn = null ∨ h.hdmaOut = null) then
      x = .next (returning .invalidParam s)
    else if a.toNat % 4 ≠ 0 ∨ o.toNat % 4 ≠ 0 then x = .refused .misalignedBuffer
    else if a.toNat < o.toNat ∧ o.toNat < a.toNat + 4 * ceilDiv n.toNat 4 then
      x = .refused .outputOverlap
    else if h.state ≠ .idle then x = .next (returning .busy s)
    else if c.transport = .dma ∧ outputSkip u (s.cr u) = true then x = .refused .dmaOutputSkip
    else if h.msgStatus ≠ .open then x = .refused .endedMessage
    else if h.direction ≠ .none ∧ h.direction ≠ c.dir then x = .refused .directionChange
    else if h.keySched = .dec ∧
        ¬(ecbOrCbc h.algorithm = true ∧ c.dir = .dec ∧ h.dataSizeSum ≠ 0) then
      x = .refused .derivedKey
    else if h.keySched = .none ∧ (s.fl u).keyvalid = true then x = .refused .unknownSchedule
    else if 2 ^ 32 ≤ h.dataSizeSum.toNat + n.toNat then x = .refused .lengthOverflow
    else if (s.cr u).kmod ≠ .normal then x = .refused .keyModeProcessing
    else c.transport = .dma ∧ ((s.periph u).dmaIn ≠ none ∨ (s.periph u).dmaOut ≠ none) →
      x = .refused .staleDma

/-- R320 to R322, R255: a polling call whose setup waits for nothing writes its first block and waits for
it. -/
def Obligations.PollWritesFirstBlock : Prop :=
  ∀ (u : Inst) (a n o t : Word) (s : State) (c : ProcessCall) (ph : PumpPhase) (q : Periph),
    c ∈ processCalls u a n o t → c.transport = .poll → callAdmitted u c.dir .poll a n o s →
    setUp u c.dir .poll a n o s ph q → nextAdmitted s ph q →
      exec c.instr s = .next (waiting ⟨u, c.proc, .block, .ms t⟩
        (s.modify u fun _ => nextBlock ph s.mem q))

/-- R325 to R327: an interrupt call whose setup waits for nothing writes its first block, enables its
interrupts and returns OK; if the first block is the last, the input-complete callback runs. -/
def Obligations.ItWritesFirstBlock : Prop :=
  ∀ (u : Inst) (a n o t : Word) (s : State) (c : ProcessCall) (ph : PumpPhase) (q : Periph),
    c ∈ processCalls u a n o t → c.transport = .it → callAdmitted u c.dir .it a n o s →
    setUp u c.dir .it a n o s ph q → nextAdmitted s ph q →
      let p := { nextBlock ph s.mem q with ier := callEnables true u q.h.inst }
      exec c.instr s =
        .next (returning .ok (logging (lastInputEvents ph p) (s.modify u fun _ => p)))

/-- R340 to R343: a DMA call whose setup waits for nothing starts both channels with the whole blocks and
returns OK; with no whole block it writes the partial block and waits for it. -/
def Obligations.DmaStartsItsTransfers : Prop :=
  ∀ (u : Inst) (a n o t : Word) (s : State) (c : ProcessCall) (ph : PumpPhase) (q : Periph),
    c ∈ processCalls u a n o t → c.transport = .dma → callAdmitted u c.dir .dma a n o s →
    setUp u c.dir .dma a n o s ph q →
    (16 ≤ n.toNat →
      exec c.instr s = .next (returning .ok (s.modify u fun _ =>
        { q with
          ier := callEnables false u q.h.inst
          dmaIn := some ⟨a, 4 * (n.toNat / 16), 0, false⟩
          dmaOut := some ⟨o, 4 * (n.toNat / 16), 0, false⟩
          cr := { q.cr with dmainen := true, dmaouten := true } }))) ∧
      (n.toNat < 16 → nextAdmitted s ph q →
        exec c.instr s = .next (waiting ⟨u, c.proc, .block, .ccfBudget⟩
          (s.modify u fun _ => nextBlock ph s.mem q)))

/-- R282, R283: the first call of a GCM, GMAC or CCM message starts the INIT phase and waits for it with
the bound of its transport (R251). When the wait ends well the call moves to HEADER, or to PAYLOAD with no
header byte, and starts: it writes its first block, or its DMA transfers. -/
def Obligations.AuthCallStartsInit : Prop :=
  ∀ (u : Inst) (a n o t : Word) (s : State) (c : ProcessCall), c ∈ processCalls u a n o t →
    (callAdmitted u c.dir c.transport a n o s →
      authAlg (s.h u).algorithm = true → (s.h u).dataSizeSum = 0 → algMirrored (s.periph u) →
      coreQuiet (s.periph u) →
        exec c.instr s = .next (waiting ⟨u, c.proc, .phaseInit, c.bound⟩
          (s.modify u fun p =>
            initStarted (modeOfDirection c.dir) (entered c.dir c.transport a n o p)))) ∧
      ∀ el : Bool, waitCheck (s.h u).inst .phaseInit el (s.fl u) = .ok →
        authAlg (s.h u).algorithm = true → coreQuiet (s.periph u) →
        (s.fl u).keyvalid = true ∨ (s.fl u).busy = true → (s.cr u).mode ≠ .keyDeriv →
        (s.h u).dataSizeByte ≠ 0 →
        let ph := phaseOfHeader (s.h u)
        let q := initEnded (s.periph u)
        (startsWithBlock c.proc ph q.h → nextAdmitted s ph q) →
          waitOutcome ⟨u, c.proc, .phaseInit, c.bound⟩ el s =
            .next (callStarted u c.proc ph q { s with mainPos := none })

/-- R231, R234, R282: the first call of an ECB or CBC decryption starts the key derivation and waits for
it. When the wait ends well the handle holds the derived schedule, the instance is enabled in mode DECRYPT
and the call starts: it writes its first block, or its DMA transfers. -/
def Obligations.DecryptStartsKeyDerivation : Prop :=
  ∀ (u : Inst) (a n o t : Word) (s : State) (c : ProcessCall), c ∈ processCalls u a n o t →
    c.dir = .dec → ecbOrCbc (s.h u).algorithm = true → coreQuiet (s.periph u) →
    (callAdmitted u .dec c.transport a n o s → (s.h u).dataSizeSum = 0 →
      exec c.instr s = .next (waiting ⟨u, c.proc, .keyDeriv, .keyDerivBudget⟩
        (s.modify u fun p => derivStarted (entered .dec c.transport a n o p)))) ∧
      ∀ el : Bool, waitCheck (s.h u).inst .keyDeriv el (s.fl u) = .ok → algMirrored (s.periph u) →
        (s.fl u).keyvalid = true ∨ (s.fl u).busy = true → (s.h u).dataSizeByte ≠ 0 →
        let d := derivEnded (s.periph u)
        let q := enabledWith none { d with h := { d.h with blockIndex := 0 } }
        (startsWithBlock c.proc .flat q.h → nextAdmitted s .flat q) →
          waitOutcome ⟨u, c.proc, .keyDeriv, .keyDerivBudget⟩ el s =
            .next (callStarted u c.proc .flat q { s with mainPos := none })

/-- R503 with R323, R300, R405 and R379: with no valid key a process, tag, wrap or share command and
`RESUME` run the failure epilogue with ERR_KEY and return ERROR. -/
def Obligations.NoKeyFailsTheCommand : Prop :=
  (∀ (u : Inst) (a n o t : Word) (s : State) (c : ProcessCall), c ∈ processCalls u a n o t →
      callChecked u c.dir c.transport a n o s → (s.fl u).keyvalid = false → coreQuiet (s.periph u) →
        exec c.instr s = .next (returning .error
          (s.modify u fun p => failed errKey (entered c.dir c.transport a n o p)))) ∧
    (∀ (u : Inst) (k : TagKind) (a t : Word) (s : State), tagChecked u k a s →
      (s.fl u).keyvalid = false → coreQuiet (s.periph u) →
        exec (tagInstr u k a t) s = .next (returning .error
          (s.modify u fun p => failed errKey { p with h := activatePoll p.h }))) ∧
    (∀ (a o k t : Word) (s : State) (c : KeyCall), c ∈ keyCalls .saes a o k t →
      keyOpChecked c.kmod a c.out c.shareId s → (s.fl .saes).keyvalid = false →
      coreQuiet (s.periph .saes) →
        exec c.instr s = .next (returning .error
          (s.modify .saes fun p => failed errKey (keyOpEntered a (c.out.getD null) p)))) ∧
    ∀ (u : Inst) (s : State), (s.h u).state = .suspended → (s.fl u).keyvalid = false →
      coreQuiet (s.periph u) →
        exec (.resume u) s = .next (returning .error
          (s.modify u fun p => failed errKey { p with h := { p.h with state := .active } }))

/-- R250, R513: what one iteration of a wait reports: key error, RNG error (SAES), FIFO error, the awaited
condition, the elapsed bound, in this order. -/
def Obligations.WaitReportsInOrder : Prop :=
  ∀ (i : Option Inst) (w : WaitPoint) (el : Bool) (f : Flags),
    (f.keif = true → waitCheck i w el f = .failed (.hwErr 0x01)) ∧
      (f.keif = false → i = some .saes → f.rngeif = true →
        waitCheck i w el f = .failed (.hwErr 0x02)) ∧
      (f.keif = false → (i = some .saes → f.rngeif = false) → f.rweif = true →
        waitCheck i w el f = .failed (.hwErr
          ((if f.rderr then 0x04 else 0) ||| (if f.wrerr then 0x08 else 0)))) ∧
      (f.keif = false → (i = some .saes → f.rngeif = false) → f.rweif = false →
        ((if w = .keyLoad then f.busy = false else f.ccf = true) → waitCheck i w el f = .ok) ∧
        (¬(if w = .keyLoad then f.busy = false else f.ccf = true) →
          waitCheck i w el f = if el then .failed .timeout else .again))

/-- R503, R251, R508: a failed wait of a process, tag, wrap or share command runs the failure epilogue: a
timeout in milliseconds returns TIMEOUT, an exhausted cycle budget and a hardware error return ERROR; in
the wait of the DMA partial block the epilogue ends with the error callback. Nothing of the output is
stored and no byte is committed (R258). -/
def Obligations.FailedWaitRunsTheEpilogue : Prop :=
  ∀ (u : Inst) (pr : Proc) (w : WaitPoint) (b : Bound) (el : Bool) (r : WaitFail) (s : State),
    coreQuiet (s.periph u) → waitCheck (s.h u).inst w el (s.fl u) = .failed r →
    let e : Word := match r with
      | .timeout => 0x40
      | .hwErr e => e
    let c : RetCode := match r, b with
      | .timeout, .ms _ => .timeout
      | .timeout, .keyTimeout => .timeout
      | _, _ => .error
    ((∃ dir t, pr = .poll dir t) ∨ (∃ dir, pr = .startIt dir) ∨ (∃ dir, pr = .startDma dir) ∨
        (∃ k a t, pr = .tag k a t) ∨ (∃ k t, pr = .keyOp k t) →
      waitOutcome ⟨u, pr, w, b⟩ el s =
        .next (returning c { s.modify u (failed e) with mainPos := none })) ∧
      ((∃ x, pr = .dmaFinish x) →
        waitOutcome ⟨u, pr, w, b⟩ el s =
          .next (logging [eventOf .error (failed e (s.periph u)).h]
            { s.modify u (failed e) with isrPos := none }))

/-- R322, R254, R260, R296, R284: a completed block of a polling call: its output is stored, then the next
block is written and awaited, or the call is committed and returns OK; after the last header block the
call moves to PAYLOAD. R400, R402, R405: a completed block of a wrap or encrypt-shared-key command the
same, with the message closed and the instance disabled after the last. -/
def Obligations.PollBlockEnds : Prop :=
  (∀ (u : Inst) (dir : Direction) (t : Word) (el : Bool) (s : State) (ph : PumpPhase),
    let p := s.periph u
    let pos : Pos := ⟨u, .poll dir t, .block, .ms t⟩
    let x := waitOutcome pos el s
    waitCheck p.h.inst .block el p.fl = .ok → phaseOf p.h.algorithm p.cr.gcmph = some ph →
    (ph = .header → coreReady p →
      let q := { p with fl := { p.fl with ccf := false } }
      nextAdmitted s (boundaryPhase ph q.h) (boundaryMoved ph q) → q.h.dataSizeByte ≠ 0 →
        x = .next (waiting pos (s.modify u fun _ => boundaryWritten ph s.mem q))) ∧
      ∀ c0 c1 c2 c3 : Word, ph ≠ .header → outputSkip u p.cr = false →
        outputWords p c0 c1 c2 c3 → outputAdmitted s p →
        let m := outputMemory p s.mem c0 c1 c2 c3
        (p.h.blockIndex.toNat = phaseBlocks ph p.h →
          x = .next (returning .ok
            { s.modify u fun p => { outputRead p with h := commitHandle p.h } with
              mem := m, mainPos := none })) ∧
        (p.h.blockIndex.toNat ≠ phaseBlocks ph p.h → nextAdmitted s ph (outputRead p) →
          x = .next (waiting pos
            { s.modify u fun p => nextBlock ph m (outputRead p) with mem := m }))) ∧
    ∀ (k : KeyOp) (t : Word) (el : Bool) (s : State) (c0 c1 c2 c3 : Word),
      k = .wrap ∨ k = .encryptShared →
      let p := s.periph .saes
      let pos : Pos := ⟨.saes, .keyOp k t, .block, .ms t⟩
      let x := waitOutcome pos el s
      let m := outputMemory p s.mem c0 c1 c2 c3
      waitCheck p.h.inst .block el p.fl = .ok → ecbOrCbc p.h.algorithm = true →
      outputSkip .saes p.cr = false → outputWords p c0 c1 c2 c3 → outputAdmitted s p →
      (p.h.blockIndex.toNat < p.cr.keysize.words / 4 → nextAdmitted s .flat (outputRead p) →
        x = .next (waiting pos
          { s.modify .saes fun p => nextBlock .flat m (outputRead p) with mem := m })) ∧
        (p.cr.keysize.words / 4 ≤ p.h.blockIndex.toNat →
          x = .next (returning .ok
            { s.modify .saes fun p => { idled (outputRead p) with h := messageClosed p.h } with
              mem := m, mainPos := none }))

/-! ### Tags and wrap commands: checks; tags (44_phase_machine.md R300 to R303) -/

/-- R300, R301 and R405, with R181's order: what each failing check of the tag commands and of the wrap
and share commands answers; none of them changes a register or the handle. -/
def Obligations.TagAndKeyCommandChecks : Prop :=
  (∀ (u : Inst) (k : TagKind) (a t : Word) (s : State),
    let h := s.h u
    let x := exec (tagInstr u k a t) s
    if a = null ∨ h.algorithm ≠ some (tagAlg k) then x = .next (returning .invalidParam s)
    else if a.toNat % 4 ≠ 0 then x = .refused .misalignedBuffer
    else if h.state ≠ .idle then x = .next (returning .busy s)
    else if h.msgStatus = .closed then x = .refused .tagEnded
    else if h.dataSizeSum = 0 ∧ h.keySched = .dec then x = .refused .derivedKey
    else if h.keySched = .none ∧ (s.fl u).keyvalid = true then x = .refused .unknownSchedule
    else if (s.cr u).kmod ≠ .normal then x = .refused .keyModeProcessing
    else k = .gcm ∧ (2 ^ 29 ≤ h.headerSize.toNat ∨ 2 ^ 29 ≤ h.dataSizeSum.toNat) →
      x = .refused .bitLengthOverflow) ∧
    ∀ (u : Inst) (a o k t : Word) (s : State) (c : KeyCall), c ∈ keyCalls u a o k t →
      let h := s.h u
      let x := exec c.instr s
      if a = null ∨ c.out = some null ∨ (c.shareId = some k ∧ Config.kshareidValues ≤ k.toNat) ∨
          h.inst ≠ some .saes ∨ ecbOrCbc h.algorithm = false ∨ (s.cr u).kmod ≠ c.kmod then
        x = .next (returning .invalidParam s)
      else if a.toNat % 4 ≠ 0 ∨ (c.out = some o ∧ o.toNat % 4 ≠ 0) then
        x = .refused .misalignedBuffer
      else if h.state ≠ .idle then x = .next (returning .busy s)
      else if h.msgStatus ≠ .open ∨ h.dataSizeSum ≠ 0 then x = .refused .keyOpInsideMessage
      else if h.keySched = .dec then x = .refused .derivedKey
      else h.keySched = .none ∧ (s.fl u).keyvalid = true → x = .refused .unknownSchedule

/-- R300 to R302: a tag command of a message with payload starts FINAL: GCM writes the length block (its
layout is log 23), CCM writes no word. R283: with no payload the INIT phase runs first; when its wait ends
well, and after each header block, the command writes the next header block, or starts FINAL after the
last. -/
def Obligations.TagCommandStarts : Prop :=
  ∀ (u : Inst) (k : TagKind) (a t : Word) (s : State), algMirrored (s.periph u) →
    let p := s.periph u
    (tagAdmitted u k a s → p.h.dataSizeSum ≠ 0 → coreReady p →
      exec (tagInstr u k a t) s = .next (waiting ⟨u, .tag k a t, .tagWords, .ms t⟩
        (s.modify u fun p => finalStarted k { p with h := activatePoll p.h }))) ∧
      (tagAdmitted u k a s → p.h.dataSizeSum = 0 → coreQuiet p →
        exec (tagInstr u k a t) s = .next (waiting ⟨u, .tag k a t, .phaseInit, .ms t⟩
          (s.modify u fun p => initStarted .encrypt { p with h := activatePoll p.h }))) ∧
      (p.h.algorithm = some (tagAlg k) → ∀ el : Bool,
        (waitCheck p.h.inst .phaseInit el p.fl = .ok → coreQuiet p →
          p.fl.keyvalid = true ∨ p.fl.busy = true → p.cr.mode ≠ .keyDeriv →
          let q := initEnded p
          (q.cr.gcmph = .header → nextAdmitted s .header q) →
            waitOutcome ⟨u, .tag k a t, .phaseInit, .ms t⟩ el s =
              .next (tagContinued u k a t q { s with mainPos := none })) ∧
        (waitCheck p.h.inst .headerBlock el p.fl = .ok → coreReady p → p.cr.gcmph = .header →
          let q := ccfCleared p
          (q.h.blockIndex.toNat < phaseBlocks .header q.h → nextAdmitted s .header q) →
            waitOutcome ⟨u, .tag k a t, .headerBlock, .ms t⟩ el s =
              .next (tagContinued u k a t q { s with mainPos := none })))

/-- R300, R303: the completed tag is stored as four words, the instance is disabled and the message ends. -/
def Obligations.TagWordsStored : Prop :=
  ∀ (u : Inst) (k : TagKind) (a t : Word) (el : Bool) (s : State) (c0 c1 c2 c3 : Word),
    let p := s.periph u
    let d := p.cr.datatype
    waitCheck p.h.inst .tagWords el p.fl = .ok → outputWords p c0 c1 c2 c3 → wordsAdmitted s a 4 →
      waitOutcome ⟨u, .tag k a t, .tagWords, .ms t⟩ el s =
        .next (returning .ok
          { s.modify u fun p =>
              { idled p with h := messageClosed p.h, fl := { p.fl with ccf := false } } with
            mainPos := none
            mem := Memory.writeWord (Memory.writeWord (Memory.writeWord (Memory.writeWord s.mem
              a.toNat (swap d c0)) (a.toNat + 4) (swap d c1)) (a.toNat + 8) (swap d c2))
              (a.toNat + 12) (swap d c3) })

/-! ### Suspend, save, restore, resume (46_suspend_resume.md) -/

/-- R370: `REQUEST_SUSPEND` sets the flag in an ACTIVE interrupt call, and elsewhere returns ERROR and sets
nothing. -/
def Obligations.RequestSuspendSetsTheFlag : Prop :=
  ∀ (u : Inst) (s : State),
    exec (.requestSuspend u) s =
      .next (if (s.h u).state = .active ∧ (s.h u).transport = .it then
        returning .ok (s.modify u fun p => { p with h := { p.h with suspendRequest := true } })
      else returning .error s)

/-- R373, R374: `SAVE_CONTEXT` writes every field of the record, the header and suspend registers for GCM
and CCM, the IV for every algorithm but ECB, then disables the instance, closes the message and goes
IDLE. R60: fields outside their condition keep what the record held. -/
def Obligations.SaveContextWritesTheRecord : Prop :=
  ∀ (u : Inst) (c : Word) (s : State),
    (c = null → exec (.saveContext u c) s = .next (returning .invalidParam s)) ∧
      (c ≠ null → (s.h u).state ≠ .suspended →
        exec (.saveContext u c) s = .next (returning .busy s)) ∧
      (c ≠ null → (s.h u).state = .suspended → coreQuiet (s.periph u) →
        let h := s.h u
        let auth := h.algorithm = some .gcmGmac ∨ h.algorithm = some .ccm
        ∃ r : Context,
          exec (.saveContext u c) s = .next (returning .ok
            { s.modify u fun p => { idled p with h := messageClosed p.h } with
              contexts := assocPut c.toNat r s.contexts }) ∧
          r.cr = s.cr u ∧ r.inst = h.inst ∧ r.algorithm = h.algorithm ∧
          r.dataSizeByte = h.dataSizeByte ∧ r.dataSizeSum = h.dataSizeSum ∧ r.pIn = h.pIn ∧
          r.pOut = h.pOut ∧ r.blockIndex = h.blockIndex ∧ r.suspendRequest = h.suspendRequest ∧
          r.pKey = h.pKey ∧ r.keySize = h.keySize ∧ r.cbInCplt = h.cbInCplt ∧
          r.cbOutCplt = h.cbOutCplt ∧ r.cbError = h.cbError ∧ r.cbSuspend = h.cbSuspend ∧
          r.direction = h.direction ∧ r.keySched = h.keySched ∧ r.keySrc = h.keySrc ∧
          (auth → r.pHeader = h.pHeader ∧ r.headerSize = h.headerSize ∧ r.susp = (s.periph u).suspr) ∧
          (h.algorithm ≠ some .ecb → r.iv = (s.periph u).ivr) ∧
          ∀ old : Context, assocGet c.toNat s.contexts = some old →
            (¬auth → r.pHeader = old.pHeader ∧ r.headerSize = old.headerSize ∧ r.susp = old.susp) ∧
            (h.algorithm = some .ecb → r.iv = old.iv))

/-- R376, R377, R62: `RESTORE_CONTEXT` checks its record, writes `CR` (but for the fields the AES does not
have), the handle and the IV back and starts the key reload: a software key from its pointer, a hardware
key by `CR.KEYSEL`. The software clause takes no key register as marked written since the last load. When
the reload ends well an ECB or CBC decryption derives its key again, and then, as any other at once, ends
SUSPENDED with the suspend registers of GCM and CCM back; a failed wait or a load without a valid key
ends it with ERROR (R378). -/
def Obligations.RestoreContextStartsTheReload : Prop :=
  (∀ (u : Inst) (x : Word) (s : State),
    (x = null → exec (.restoreContext u x) s = .next (returning .invalidParam s)) ∧
      (x ≠ null → assocGet x.toNat s.contexts = none →
        exec (.restoreContext u x) s = .refused .unwrittenContext) ∧
      ∀ c : Context, x ≠ null → assocGet x.toNat s.contexts = some c →
        (c.inst ≠ (s.h u).inst →
          exec (.restoreContext u x) s = .next (returning .invalidParam s)) ∧
        (c.inst = (s.h u).inst → (s.h u).state ≠ .idle →
          exec (.restoreContext u x) s = .next (returning .busy s)) ∧
        (c.inst = (s.h u).inst → (s.h u).state = .idle →
          (c.keySrc = .unwrapped ∨ c.keySrc = .shared ∨ c.keySrc = .none →
            exec (.restoreContext u x) s = .refused .keyNotReloadable) ∧
          (c.keySched = .dec → c.keySrc = .software → c.pKey = null →
            exec (.restoreContext u x) s = .fault .noKeyPointer) ∧
          (c.keySrc = .software ∨ c.keySrc = .hw →
            ¬(c.keySched = .dec ∧ c.keySrc = .software ∧ c.pKey = null) → coreQuiet (s.periph u) →
            let p := s.periph u
            let q : Periph :=
              { idled p with
                h := restoreHandle c p.h
                cr := { c.cr with
                  en := false, dmainen := false, dmaouten := false
                  kshareid := if u = .saes then c.cr.kshareid else p.cr.kshareid
                  keysel := if u = .saes then c.cr.keysel else p.cr.keysel
                  keyprot := if u = .saes then c.cr.keyprot else p.cr.keyprot }
                ivr := if c.algorithm = some .ecb then p.ivr else c.iv }
            (q.cr.keysel = .software → p.core.keyMarks = Vector.replicate 8 false →
              c.keySize = c.cr.keysize → wordsAdmitted s c.pKey c.keySize.words →
              exec (.restoreContext u x) s = .next
                (waiting ⟨u, .restore x, .keyLoad, .keyTimeout⟩ (s.modify u fun _ =>
                  loadStarted .software
                    { q with keyr := keyOfMemory s.mem c.pKey c.keySize p.keyr }))) ∧
            (q.cr.keysel ≠ .software → u = .saes →
              exec (.restoreContext u x) s = .next
                (waiting ⟨u, .restore x, .keyLoad, .keyTimeout⟩ (s.modify u fun _ =>
                  loadStarted (.hw c.cr.keysel) q)))))) ∧
    ∀ (u : Inst) (x : Word) (el : Bool) (s : State) (c : Context),
      assocGet x.toNat s.contexts = some c → coreQuiet (s.periph u) →
      let p := s.periph u
      let wait (w : WaitPoint) (b : Bound) := waitOutcome ⟨u, .restore x, w, b⟩ el s
      let check (w : WaitPoint) := waitCheck p.h.inst w el p.fl
      let fails (e : Word) : Outcome :=
        .next (returning .error { s.modify u (restoreFailed e) with mainPos := none })
      let ends (q : Periph) : Outcome :=
        .next (returning .ok { s.modify u fun _ => restoreEnded c q with mainPos := none })
      let loaded := { p with h := { p.h with keySched := .enc, keySrc := c.keySrc } }
      let derives := (c.algorithm = some .ecb ∨ c.algorithm = some .cbc) ∧ c.direction = .dec
      (∀ w b e, check w = .failed (.hwErr e) → wait w b = fails e) ∧
        (∀ w b, check w = .failed .timeout → wait w b = fails 0x40) ∧
        (check .keyLoad = .ok → p.fl.keyvalid = false → wait .keyLoad .keyTimeout = fails 0x01) ∧
        (check .keyLoad = .ok → p.fl.keyvalid = true → ¬derives → p.cr.en = false →
          wait .keyLoad .keyTimeout = ends loaded) ∧
        (check .keyLoad = .ok → p.fl.keyvalid = true → derives →
          wait .keyLoad .keyTimeout =
            .next (waiting ⟨u, .restore x, .keyDeriv, .keyDerivBudget⟩
              (s.modify u fun _ => derivStarted loaded))) ∧
        (check .keyDeriv = .ok →
          wait .keyDeriv .keyDerivBudget =
            ends { derivEnded p with cr := { p.cr with en := false, mode := c.cr.mode } })

/-- R379, R380, R337: `RESUME` enables the instance if a restore left it disabled, enables its interrupts
and writes the next block, of the payload if the header is done; an input-complete callback is due if it
was the last. -/
def Obligations.ResumeWritesTheNextBlock : Prop :=
  ∀ (u : Inst) (s : State) (ph : PumpPhase),
    ((s.h u).state ≠ .suspended → exec (.resume u) s = .next (returning .busy s)) ∧
      ((s.h u).state = .suspended → (s.fl u).keyvalid = true →
        let p := s.periph u
        let q : Periph :=
          { (if p.cr.en = true then p else enabledWith none p) with
            h := { p.h with state := .active }, ier := callEnables true u p.h.inst }
        phaseOf p.h.algorithm p.cr.gcmph = some ph →
        ph = .header ∨ p.h.blockIndex.toNat < phaseBlocks ph p.h → p.core.job = none →
        p.core.inFifo = [] → p.core.outFifo = [] → (p.cr.en = false → jobOnEnable p = none) →
        nextAdmitted s (boundaryPhase ph q.h) (boundaryMoved ph q) →
          let t := boundaryWritten ph s.mem q
          exec (.resume u) s = .next (returning .ok
            (logging (lastInputEvents (boundaryPhase ph q.h) t) (s.modify u fun _ => t))))

/-! ### Key wrap and sharing (47_key_wrap_share.md) -/

/-- R400, R402, R405: wrap and encrypt-shared-key write the first block of the plaintext key; unwrap and
decrypt-shared-key start the key derivation (R401, R404), and write their first block in mode DECRYPT
when its wait ends well (R231). -/
def Obligations.KeyCommandsStart : Prop :=
  ∀ (a o k t : Word) (s : State) (c : KeyCall), c ∈ keyCalls .saes a o k t →
    coreQuiet (s.periph .saes) → algMirrored (s.periph .saes) →
    (keyOpAdmitted c.kmod a c.out c.shareId s →
      let p := shareIdSet c.shareId (keyOpEntered a (c.out.getD null) (s.periph .saes))
      (c.out ≠ none →
        let q := enabledWith none (idledMode .encrypt p)
        nextAdmitted s .flat q →
          exec c.instr s = .next (waiting ⟨.saes, .keyOp c.op t, .block, .ms t⟩
            (s.modify .saes fun _ => nextBlock .flat s.mem q))) ∧
        (c.out = none →
          exec c.instr s = .next (waiting ⟨.saes, .keyOp c.op t, .keyDeriv, .keyDerivBudget⟩
            (s.modify .saes fun _ => derivStarted p)))) ∧
      ∀ el : Bool, waitCheck (s.h .saes).inst .keyDeriv el (s.fl .saes) = .ok →
        ecbOrCbc (s.h .saes).algorithm = true →
        (s.fl .saes).keyvalid = true ∨ (s.fl .saes).busy = true →
        (s.h .saes).blockIndex.toNat < (s.cr .saes).keysize.words / 4 →
        let q := enabledWith none (derivEnded (s.periph .saes))
        nextAdmitted s .flat q →
          waitOutcome ⟨.saes, .keyOp c.op t, .keyDeriv, .keyDerivBudget⟩ el s =
            .next (waiting ⟨.saes, .keyOp c.op t, .block, .ms t⟩
              (s.modify .saes fun _ => nextBlock .flat s.mem q))

/-- R401, R403, R404: when a block of an unwrap or a shared-key decryption completes, no output word is
read and caller memory is unchanged, whichever block it is and however the command goes on: the next block
is written; or after the last, with a valid key, the key mode goes back to NORMAL and the handle holds a
key without pointer; or, with `KEYVALID = 0`, the command fails with ERR_KEY. -/
def Obligations.ReceivedKeyIsNeverStored : Prop :=
  ∀ (k : KeyOp) (t : Word) (el : Bool) (s : State), k = .unwrap ∨ k = .decryptShared →
    let p := s.periph .saes
    let pos : Pos := ⟨.saes, .keyOp k t, .block, .ms t⟩
    waitCheck p.h.inst .block el p.fl = .ok → outputSkip .saes p.cr = true →
    ecbOrCbc p.h.algorithm = true →
      (p.h.blockIndex.toNat < p.cr.keysize.words / 4 → coreReady p →
        nextAdmitted s .flat (ccfCleared p) →
        waitOutcome pos el s = .next (waiting pos
          (s.modify .saes fun _ => nextBlock .flat s.mem (ccfCleared p)))) ∧
      (p.cr.keysize.words / 4 ≤ p.h.blockIndex.toNat → coreQuiet p →
        (p.fl.keyvalid = false →
          waitOutcome pos el s =
            .next (returning .error { s.modify .saes (failed 0x01) with mainPos := none })) ∧
        (p.fl.keyvalid = true →
          waitOutcome pos el s =
            .next (returning .ok
              { s.modify .saes fun p =>
                  { idled p with
                    h := messageClosed (keyLoadEnded null p.cr.keysize
                      (if k = .unwrap then .unwrapped else .shared) p.h)
                    cr := { p.cr with en := false, kmod := .normal }
                    fl := { p.fl with ccf := false } } with
                mainPos := none })))

/-! ### Events (45_transport.md, 60_exceptions.md) -/

/-- R330, R334, R335: `IRQ` with an enabled error flag runs the failure epilogue with the error callback in
an ACTIVE interrupt or DMA call, else clears the error flags; with no error and a completion no call
waits for it clears `CCF`; with no enabled flag set it clears the error flags that are set, else `CCF` (the
order is log 38). -/
def Obligations.IrqHandlesErrors : Prop :=
  ∀ (u : Inst) (s : State),
    let p := s.periph u
    let e : Word :=
      (if p.ier.keie ∧ p.fl.keif then 0x01 else 0) |||
        (if p.h.inst = some .saes ∧ p.ier.rngeie ∧ p.fl.rngeif then 0x02 else 0) |||
        (if p.ier.rweie ∧ p.fl.rweif then
          (if p.fl.rderr then 0x04 else 0) ||| (if p.fl.wrerr then 0x08 else 0) else 0)
    let call := p.h.state = .active ∧ (p.h.transport = .it ∨ p.h.transport = .dma)
    (e ≠ 0 → call → coreQuiet p →
        exec (.irq u) s =
          .next (logging [eventOf .error (failed e p).h] (s.modify u (failed e)))) ∧
      (e ≠ 0 → ¬call →
        exec (.irq u) s = .next (s.modify u fun p =>
          { p with
            fl := { p.fl with
              keif := false, rweif := false, rderr := false, wrerr := false
              rngeif := p.fl.rngeif && p.h.inst != some .saes } })) ∧
      (e = 0 → p.ier.ccfie = true → p.fl.ccf = true →
        ¬(p.h.state = .active ∧ p.h.transport = .it) →
        exec (.irq u) s =
          .next (s.modify u fun p => { p with fl := { p.fl with ccf := false } })) ∧
      (e = 0 → ¬(p.ier.ccfie = true ∧ p.fl.ccf = true) →
        exec (.irq u) s = .next (s.modify u fun p =>
          { p with
            fl := if p.fl.keif = true ∨ p.fl.rweif = true ∨ p.fl.rngeif = true then
                { p.fl with keif := false, rweif := false, rderr := false, wrerr := false, rngeif := false }
              else { p.fl with ccf := false } }))

/-- R331 to R333, R336, R337: `IRQ` at a completed block of an ACTIVE interrupt call: outside HEADER the
output is stored; after the last block the call is committed with the output-complete callback, a pending
suspend request is honoured where a block remains, and else the next block is written. A phase outside
HEADER and PAYLOAD fails with ERR_PHASE. -/
def Obligations.IrqAdvancesTheCall : Prop :=
  ∀ (u : Inst) (s : State),
    let p := s.periph u
    irqErrors p.h.inst p.fl p.ier = 0 → p.ier.ccfie = true → p.fl.ccf = true →
    p.h.state = .active → p.h.transport = .it →
    let x := exec (.irq u) s
    let e := { p with fl := { p.fl with ccf := false } }
    (authAlg p.h.algorithm = true → p.cr.gcmph ≠ .header → p.cr.gcmph ≠ .payload → coreQuiet p →
      x = .next (logging [eventOf .error (failed errPhase e).h]
        (s.modify u fun _ => failed errPhase e))) ∧
      ∀ (ph : PumpPhase) (q : Periph) (m : List Host.Cell),
        phaseOf p.h.algorithm p.cr.gcmph = some ph →
        (ph = .header ∧ coreReady p ∧ q = e ∧ m = s.mem ∨
          ph ≠ .header ∧ outputSkip u p.cr = false ∧ outputAdmitted s p ∧ q = outputRead p ∧
            ∃ c0 c1 c2 c3, outputWords p c0 c1 c2 c3 ∧ m = outputMemory p s.mem c0 c1 c2 c3) →
        (ph ≠ .header → phaseBlocks ph p.h ≤ p.h.blockIndex.toNat →
          let t := { q with h := commitHandle p.h, ier := ierNone }
          x = .next (logging [eventOf .outCplt t.h] { s.modify u fun _ => t with mem := m })) ∧
        (ph = .header ∨ p.h.blockIndex.toNat < phaseBlocks ph p.h → p.h.suspendRequest = true →
          let t := { q with
            h := { p.h with suspendRequest := false, state := .suspended }, ier := ierNone }
          x = .next (logging [eventOf .suspend t.h] { s.modify u fun _ => t with mem := m })) ∧
        (ph = .header ∨ p.h.blockIndex.toNat < phaseBlocks ph p.h → p.h.suspendRequest = false →
          nextAdmitted s (boundaryPhase ph p.h) (boundaryMoved ph q) →
          let t := boundaryWritten ph m q
          x = .next (logging (lastInputEvents (boundaryPhase ph p.h) t)
            { s.modify u fun _ => t with mem := m }))

/-- R345 to R349: the DMA events: stale ones do nothing; each completion clears its enable, and the second
of them finishes the call, writing the partial block first if there is one; an error fails the call with
ERR_DMA through the error callback. The blocks a DMA call writes itself: after a header block the next or
the start of the payload (R342); after the only block of a short call (R343), and after the partial block
(R349), its output stored and the call committed with both completion callbacks. -/
def Obligations.DmaEventsFinishTheCall : Prop :=
  ∀ (u : Inst) (s : State),
    let p := s.periph u
    let live := p.h.state = .active ∧ p.h.transport = .dma
    let whole := p.h.dataSizeByte.toNat % 16 = 0
    let xi := exec (.dmaInCplt u) s
    let xo := exec (.dmaOutCplt u) s
    let i : Periph := { p with cr := { p.cr with dmainen := false }, h := { p.h with dmaInDone := true } }
    let o : Periph := { p with cr := { p.cr with dmaouten := false }, h := { p.h with dmaOutDone := true } }
    let last (q : Periph) : Periph :=
      { q with
        fl := { q.fl with ccf := false }
        h := { q.h with blockIndex := BitVec.ofNat 32 (q.h.dataSizeByte.toNat / 16) } }
    let committed (q : Periph) : Periph := { last q with h := commitHandle (last q).h, ier := ierNone }
    (¬live ∨ p.h.dmaInDone = true → xi = .next s) ∧
      (¬live ∨ p.h.dmaOutDone = true → xo = .next s) ∧
      (live → p.h.dmaInDone = false → p.h.dmaOutDone = false →
        xi = .next (logging (if whole then [eventOf .inCplt i.h] else []) (s.modify u fun _ => i)) ∧
        xo = .next (s.modify u fun _ => o)) ∧
      (live → p.h.dmaInDone = false → p.h.dmaOutDone = true →
        (whole → xi = .next (logging
          [eventOf .inCplt (committed i).h, eventOf .outCplt (committed i).h]
          (s.modify u fun _ => committed i))) ∧
        (¬whole → ∀ ph, phaseOf p.h.algorithm p.cr.gcmph = some ph → coreReady p →
          nextAdmitted s ph (last i) →
          xi = .next { s.modify u fun _ => nextBlock ph s.mem (last i) with
            isrPos := some ⟨u, .dmaFinish true, .block, .ccfBudget⟩ })) ∧
      (live → p.h.dmaInDone = true → p.h.dmaOutDone = false →
        (whole → xo = .next (logging [eventOf .outCplt (committed o).h]
          (s.modify u fun _ => committed o))) ∧
        (¬whole → ∀ ph, phaseOf p.h.algorithm p.cr.gcmph = some ph → coreReady p →
          nextAdmitted s ph (last o) →
          xo = .next { s.modify u fun _ => nextBlock ph s.mem (last o) with
            isrPos := some ⟨u, .dmaFinish false, .block, .ccfBudget⟩ })) ∧
      (∀ q : Fifo,
        (¬live → exec (.dmaError u q) s = .next s) ∧
        (live → coreQuiet p →
          exec (.dmaError u q) s =
            .next (logging [eventOf .error (failed errDma p).h] (s.modify u (failed errDma))))) ∧
      ∀ (el : Bool) (ph : PumpPhase), phaseOf p.h.algorithm p.cr.gcmph = some ph →
        (∀ dir, waitCheck p.h.inst .headerBlock el p.fl = .ok → ph = .header → coreReady p →
          p.h.blockIndex.toNat ≤ phaseBlocks ph p.h →
          let r := boundaryMoved ph (ccfCleared p)
          let pr : Proc := .startDma dir
          (startsWithBlock pr (boundaryPhase ph p.h) p.h → nextAdmitted s (boundaryPhase ph p.h) r) →
            waitOutcome ⟨u, pr, .headerBlock, .ccfBudget⟩ el s =
              .next (callStarted u pr (boundaryPhase ph p.h) r { s with mainPos := none })) ∧
        (waitCheck p.h.inst .block el p.fl = .ok → ph ≠ .header → outputSkip u p.cr = false →
          ∀ c0 c1 c2 c3 : Word, outputWords p c0 c1 c2 c3 → outputAdmitted s p →
          let r := { outputRead p with h := commitHandle p.h }
          let m := outputMemory p s.mem c0 c1 c2 c3
          let both := [eventOf .inCplt r.h, eventOf .outCplt r.h]
          (∀ dir, waitOutcome ⟨u, .startDma dir, .block, .ccfBudget⟩ el s =
            .next (returning .ok
              (logging both { s.modify u fun _ => r with mem := m, mainPos := none }))) ∧
          ∀ b, ¬whole → waitOutcome ⟨u, .dmaFinish b, .block, .ccfBudget⟩ el s =
            .next (logging both
              { s.modify u fun _ => { r with ier := ierNone } with mem := m, isrPos := none }))

/-! ### Bus operations (40_register_access.md) -/

/-- R141, R610: a bus write of a `CR` field: a reserved value, a configuration field with `EN = 1` and a
phase or `NPBLB` during a job stop by name, the SAES fields have no effect on the AES, and every other
write writes its field; `EN`, a FINAL phase of CCM and a hardware `KEYSEL` start what R151, R163 and R154
say. The numbering of the values and the reserved share ids are the model's (log 1, log 18). -/
def Obligations.BusCrWriteWritesItsField : Prop :=
  ∀ (u : Inst) (f : CrField) (v : Word) (s : State),
    let x := exec (.busCrWrite u f v) s
    let p := s.periph u
    (crWriteOf f v = none → x = .fault .reservedCrValue) ∧
      ∀ w, crWriteOf f v = some w →
        if u = .aes ∧ (f = .keysel ∨ f = .keyprot ∨ f = .kshareid) then x = .next s
        else if p.cr.en = true ∧
            ¬(f = .en ∨ f = .gcmph ∨ f = .npblb ∨ f = .dmainen ∨ f = .dmaouten) then
          x = .fault .crWrittenWhileEnabled
        else if p.core.job ≠ none ∧ (f = .gcmph ∨ f = .npblb) then x = .fault .phaseWrittenDuringJob
        else if w = .en true then
          (p.cr.en = true → x = .next s) ∧
          (p.cr.en = false → p.fl.keyvalid = false → p.fl.busy = false →
            x = .fault .enabledWithoutKey) ∧
          (p.cr.en = false → p.fl.keyvalid = true ∨ p.fl.busy = true →
            x = .next (s.modify u fun p => enabledWith (jobOnEnable p) p))
        else if w = .en false then coreQuiet p → x = .next (s.modify u idled)
        else if w = .gcmph .final ∧ p.cr.chmod = .ccm ∧ p.cr.en = true then
          x = .next (s.modify u fun p =>
            { p with
              cr := { p.cr with gcmph := .final }
              core := { p.core with job := some .finalCcm } })
        else if f = .keysel ∧ w ≠ .keysel .software then
          ∃ k, w = .keysel k ∧ x = .next (s.modify u fun p =>
            loadStarted (.hw k) { p with cr := { p.cr with keysel := k } })
        else x = .next (s.modify u fun p => { p with cr := crApply w p.cr })

/-- R142, R143, R144, R159, R161: the bus reads give the control register, a flag, an IV word, a suspend
word, and change nothing but the value returned (log 29); a clear sets its flag to 0, `RWEIF` with `RDERR`
and `WRERR`, and nothing else, and the other flags cannot be cleared. -/
def Obligations.BusReadsAndFlagClears : Prop :=
  ∀ (u : Inst) (n : FlagName) (s : State),
    let p := s.periph u
    let reads (i : Instr) (v : Return) := exec i s = .next { s with returned := some v }
    let x := exec (.busFlagClear u n) s
    let becomes (f : Flags → Flags) : Outcome := .next (s.modify u fun p => { p with fl := f p.fl })
    reads (.busCrRead u) (.cr p.cr) ∧ reads (.busFlagRead u .ccf) (.flag p.fl.ccf) ∧
      reads (.busFlagRead u .busy) (.flag p.fl.busy) ∧
      reads (.busFlagRead u .keyvalid) (.flag p.fl.keyvalid) ∧
      reads (.busFlagRead u .keif) (.flag p.fl.keif) ∧
      reads (.busFlagRead u .rngeif) (.flag p.fl.rngeif) ∧
      reads (.busFlagRead u .rweif) (.flag p.fl.rweif) ∧
      reads (.busFlagRead u .rderr) (.flag p.fl.rderr) ∧
      reads (.busFlagRead u .wrerr) (.flag p.fl.wrerr) ∧
      (∀ i : Fin 4, reads (.busIvrRead u i) (.word p.ivr[i])) ∧
      (∀ i : Fin 8, reads (.busSusprRead u i) (.word p.suspr[i])) ∧
      (n = .ccf → x = becomes fun f => { f with ccf := false }) ∧
      (n = .keif → x = becomes fun f => { f with keif := false }) ∧
      (n = .rngeif → x = becomes fun f => { f with rngeif := false }) ∧
      (n = .rweif → x = becomes fun f => { f with rweif := false, rderr := false, wrerr := false }) ∧
      (n = .busy ∨ n = .keyvalid ∨ n = .rderr ∨ n = .wrerr → x = .fault .flagNotClearable)

/-- R145, R147, as the model reads them (the fourth word starts the block: log 24; the core sees the
swapped word: log 21): a word written to the input FIFO stops the run with `EN = 0`; it is discarded with a write
error while the core computes, while output is unread or with the FIFO full; else it joins the FIFO as
the core sees it, and the fourth word starts the block. -/
def Obligations.BusDinWriteFeedsTheCore : Prop :=
  ∀ (u : Inst) (w : Word) (s : State),
    let p := s.periph u
    let x := exec (.busDinWrite u w) s
    let taken := p.core.job = none ∧ p.core.outFifo = [] ∧ p.core.inFifo.length < 4
    (p.cr.en = false → x = .fault .dinWhileDisabled) ∧
      (p.cr.en = true → ¬taken →
        x = .next (s.modify u fun p => { p with fl := { p.fl with wrerr := true, rweif := true } })) ∧
      (p.cr.en = true → taken → p.core.inFifo.length < 3 →
        x = .next (s.modify u fun p =>
          { p with core := { p.core with inFifo := p.core.inFifo ++ [swap p.cr.datatype w] } })) ∧
      ∀ a b c : Word, p.cr.en = true → taken → p.core.inFifo = [a, b, c] →
        x = .next (s.modify u fun p =>
          { p with
            core := { p.core with
              inFifo := [], job := some (.block a b c (swap p.cr.datatype w)) } })

/-- R146, R148: a read of the output FIFO stops the run with `EN = 0`, returns the first word swapped and
takes it off, and on an empty FIFO sets the read error and returns any value (log 11). -/
def Obligations.BusDoutReadTakesAWord : Prop :=
  ∀ (u : Inst) (s : State),
    let p := s.periph u
    let x := exec (.busDoutRead u) s
    (p.cr.en = false → x = .fault .doutWhileDisabled) ∧
      (p.cr.en = true → p.core.outFifo = [] → ∃ w : Word,
        x = .next { s.modify u fun p => { p with fl := { p.fl with rderr := true, rweif := true } } with
          draws := s.draws + 1, returned := some (.word w) }) ∧
      ∀ (c : Word) (q : List Word), p.cr.en = true → p.core.outFifo = c :: q →
        x = .next { s.modify u fun p => { p with core := { p.core with outFifo := q } } with
          returned := some (.word (swap p.cr.datatype c)) }

/-- R149, R150, R160, R162: the key, IV and suspend registers are written only with `EN = 0`; the first key
word makes the key invalid and the last starts the software key load; `IER` takes the mask, bit 0 first
(log 1), with `RNGEIE` 0 on the AES. -/
def Obligations.BusRegisterWrites : Prop :=
  ∀ (u : Inst) (w : Word) (s : State),
    let p := s.periph u
    (∀ i : Fin 4,
      (p.cr.en = true → exec (.busIvrWrite u i w) s = .fault .ivWhileEnabled) ∧
        (p.cr.en = false → exec (.busIvrWrite u i w) s =
          .next (s.modify u fun p => { p with ivr := p.ivr.set i w }))) ∧
      (∀ i : Fin 8,
        (p.cr.en = true → exec (.busSusprWrite u i w) s = .fault .susprWhileEnabled ∧
          exec (.busKeyrWrite u i w) s = .fault .keyrWhileEnabled) ∧
        (p.cr.en = false → exec (.busSusprWrite u i w) s =
          .next (s.modify u fun p => { p with suspr := p.suspr.set i w })) ∧
        (p.cr.en = false → p.cr.keysize.words ≤ i.val →
          exec (.busKeyrWrite u i w) s = .fault .keyrBeyondSize) ∧
        (p.cr.en = false → i.val < p.cr.keysize.words →
          let m := p.core.keyMarks.set i true
          let q : Periph :=
            { p with
              keyr := p.keyr.set i w
              fl := { p.fl with
                keyvalid := p.fl.keyvalid && decide (∃ j : Fin 8, p.core.keyMarks[j] = true) }
              core := { p.core with keyMarks := m } }
          exec (.busKeyrWrite u i w) s = .next (s.modify u fun _ =>
            if ∀ j : Fin 8, j.val < p.cr.keysize.words → m[j] = true then loadStarted .software q
            else q))) ∧
      ∀ a b c d : Bool,
        exec (.busIerWrite u (BitVec.ofBool d ++ BitVec.ofBool c ++ BitVec.ofBool b ++ BitVec.ofBool a)) s =
          .next (s.modify u fun p => { p with ier := ⟨a, b, c, d && decide (u = .saes)⟩ })

/-! ### The core and the agents -/

/-- R152, R153, R155, R156, R164: what the core's step does: it completes a key derivation, which changes
only the key material, or any other job, whose transform gives chain, registers and output; after INIT and
a key derivation `EN` is a draw; it completes a key load with a valid key or a key error; with nothing in
progress it does nothing. A key error needs `EN = 1` (R158, log 14), an RNG error a SAES that is enabled
or busy (R157; a lost job: log 13); the end of the SAES start-up leaves `BUSY` to a key load in progress
(R602, log 34). The key of a load does not depend on key registers outside its size, nor a hardware key on
any (R46, R155, log 40), so that a reload yields it again (R381). -/
def Obligations.CoreCompletesJobsAndLoads : Prop :=
  ∀ (u : Inst) (b : Bool) (s : State),
    let p := s.periph u
    let finished := step { s with turn := .core u (.finishJob b) }
    let loaded := step { s with turn := .core u (.finishKeyLoad b) }
    let becomes (f : Periph → Periph) : Outcome := .next (nextTurn (s.modify u f))
    let keyErr := step { s with turn := .core u (.keyError b) }
    let rngErr := step { s with turn := .core u (.rngError b) }
    let started := step { s with turn := .core u (.endStartup b) }
    (p.cr.en = false → keyErr = .next (nextTurn s)) ∧
      (p.cr.en = true → keyErr = becomes fun p =>
        { p with fl := { p.fl with keif := true, keyvalid := p.fl.keyvalid && !b } }) ∧
      (u = .aes ∨ p.cr.en = false ∧ p.fl.busy = false → rngErr = .next (nextTurn s)) ∧
      (u = .saes → p.cr.en = true ∨ p.fl.busy = true → rngErr = becomes fun p =>
        { p with
          fl := { p.fl with rngeif := true }
          core := { p.core with job := if b then none else p.core.job } }) ∧
      (p.core.startup = false → started = .next (nextTurn s)) ∧
      (p.core.startup = true → started = becomes fun p =>
        { p with
          fl := { p.fl with
            busy := p.fl.busy && p.core.keyLoad.isSome, rngeif := p.fl.rngeif || b }
          core := { p.core with startup := false } }) ∧
    (p.core.job = none → finished = .next (nextTurn s)) ∧
      (p.core.job = some .keyDeriv → finished = becomes (derivationFinished b)) ∧
      (∀ j, p.core.job = some j → j ≠ .keyDeriv → ¬(keyArrives u j p = true ∧ p.cr.kmod = .shared) →
        finished = becomes (dataFinished u b j)) ∧
      (∀ j, p.core.job = some j → j ≠ .keyDeriv → keyArrives u j p = true → p.cr.kmod = .shared →
        ∃ m, (dataFinished u b j p).core.keymat = m ∧
          finished = .next (nextTurn { s.modify u (dataFinished u b j) with
            shareSlots := assocPut p.cr.kshareid.toNat m s.shareSlots })) ∧
      (p.core.keyLoad = none → loaded = .next (nextTurn s)) ∧
      (p.core.keyLoad ≠ none → b = false → loaded = becomes fun p =>
        { p with
          fl := { p.fl with keif := true, keyvalid := false, busy := false }
          core := { p.core with keyLoad := none } }) ∧
      (∀ src, p.core.keyLoad = some src → b = true → loaded = becomes fun p =>
        { p with
          fl := { p.fl with keyvalid := true, busy := false }
          core := { p.core with keymat := loadedKey u src s, keyLoad := none } }) ∧
      ∀ v : Vector Word 8,
        let t := s.modify u fun p => { p with keyr := v }
        (∀ k, loadedKey u (.hw k) t = loadedKey u (.hw k) s) ∧
          ((∀ i : Fin 8, i.val < p.cr.keysize.words → v[i] = p.keyr[i]) →
            loadedKey u .software t = loadedKey u .software s)

/-- R18, R88, R89, R510, R511, R515: what a step is in each agent's turn: a waiting mainline command makes
one iteration of its wait; the interrupt handler starts only while its line is high, a DMA entry only on
a delivered event, and neither, nor the mainline, while an entry runs; a stuck agent has no step (R84). A
DMA channel with a transfer moves one word on its request (R92, R166) and with the last stops and delivers
its completion; an error stops it and delivers the error. A step of the core leaves the handle, the DMA
channels, caller memory and the other instance. That the turn of an agent that has no step passes without
effect is the model's (log 4), as are the mark of a stuck agent (log 9) and the mark of a stale transfer or
event (log 39), whose entry has no effect (R348, R504). -/
def Obligations.TurnsFollowTheAgents : Prop :=
  ∀ (u : Inst) (el : Bool) (e : PendingEvent) (s : State),
    let p := s.periph u
    let turn (t : Turn) : Outcome := step { s with turn := t }
    let idle : Outcome := .next (nextTurn s)
    let free := s.isrPos = none ∧ s.isrStuck = false
    let high := p.fl.ccf && p.ier.ccfie || p.fl.rweif && p.ier.rweie || p.fl.keif && p.ier.keie ||
      p.fl.rngeif && p.ier.rngeie
    let word (t : Transfer) := t.addr.toNat + 4 * t.moved
    let asks := p.cr.dmainen = true ∧ p.cr.en = true ∧ p.core.job = none ∧ p.core.outFifo = [] ∧
      p.core.inFifo.length < 4
    (¬free → turn (.mainline el) = idle ∧ turn (.irq u) = idle ∧ turn (.dmaEntry u e) = idle) ∧
      (s.mainStuck = true → turn (.mainline el) = idle) ∧
      (s.isrPos = none ∨ s.isrStuck = true → turn (.handlerWait el) = idle) ∧
      (free → high = false → turn (.irq u) = idle) ∧
      (free → high = true → turn (.irq u) = passTurn (exec (.irq u) { s with turn := .irq u })) ∧
      (free → e ∉ p.dmaEvents → turn (.dmaEntry u e) = idle) ∧
      (free → e ∈ p.dmaEvents →
        let taken := { s.modify u fun p => { p with dmaEvents := p.dmaEvents.erase e } with
          turn := .dmaEntry u e }
        turn (.dmaEntry u e) =
          if e.stale = true then .next (nextTurn taken)
          else passTurn (exec
            (match e.event with
              | .inCplt => .dmaInCplt u
              | .outCplt => .dmaOutCplt u
              | .error q => .dmaError u q) taken)) ∧
      (∀ w, free → s.mainStuck = false → s.mainPos = some w →
        turn (.mainline el) = passTurn (waitOutcome w el { s with turn := .mainline el })) ∧
      (∀ w, s.isrStuck = false → s.isrPos = some w →
        turn (.handlerWait el) = passTurn (waitOutcome w el { s with turn := .handlerWait el })) ∧
      (free → s.mainPos = none → s.inbox = [] → turn (.mainline el) = idle) ∧
      (p.dmaIn = none → turn (.dma u .input el) = idle) ∧
      (p.dmaOut = none → turn (.dma u .output el) = idle) ∧
      (∀ t, p.dmaIn = some t → turn (.dma u .input true) = .next (nextTurn (s.modify u fun p =>
        { p with dmaIn := none, dmaEvents := p.dmaEvents ++ [⟨.error .input, t.stale⟩] }))) ∧
      (∀ t, p.dmaOut = some t → turn (.dma u .output true) = .next (nextTurn (s.modify u fun p =>
        { p with dmaOut := none, dmaEvents := p.dmaEvents ++ [⟨.error .output, t.stale⟩] }))) ∧
      (∀ t, p.dmaIn = some t →
        (¬(asks ∧ s.admits (word t) = true) → turn (.dma u .input false) = idle) ∧
        (asks → s.admits (word t) = true →
          turn (.dma u .input false) = .next (nextTurn (s.modify u fun p => wordMoved .input t
            { p with
              core := pushInput (swap p.cr.datatype (Memory.readWord s.mem (word t))) p.core })))) ∧
      (∀ t, p.dmaOut = some t →
        (p.cr.dmaouten = false ∨ p.core.outFifo = [] ∨ p.cr.en = true ∧ s.admits (word t) = false →
          turn (.dma u .output false) = idle) ∧
        ∀ c rest, p.cr.dmaouten = true → p.cr.en = true → p.core.outFifo = c :: rest →
          s.admits (word t) = true →
          turn (.dma u .output false) = .next (nextTurn
            { s.modify u fun p => wordMoved .output t
                { p with core := { p.core with outFifo := rest } } with
              mem := Memory.writeWord s.mem (word t) (swap p.cr.datatype c) })) ∧
      ∀ a : CoreAct, ∃ t : State, turn (.core u a) = .next (nextTurn t) ∧ t.mem = s.mem ∧
        (∀ v, v ≠ u → t.periph v = s.periph v) ∧ t.mainPos = s.mainPos ∧ t.isrPos = s.isrPos ∧
        let q := t.periph u
        q.h = p.h ∧ q.ier = p.ier ∧ q.keyr = p.keyr ∧ q.dmaIn = p.dmaIn ∧ q.dmaOut = p.dmaOut ∧
          q.dmaEvents = p.dmaEvents

end
end

