-- ==== Sys2Proof/Laws/State.lean ====
section
/-! SUPPORT. One lemma per field per update of the state, so that no later proof unfolds a record update. -/

namespace Sys2Proof.Machine

/-! ### One instance -/

@[simp] theorem State.h_eq (s : State) (u : Inst) : s.h u = (s.periph u).h := rfl

@[simp] theorem State.cr_eq (s : State) (u : Inst) : s.cr u = (s.periph u).cr := rfl

@[simp] theorem State.fl_eq (s : State) (u : Inst) : s.fl u = (s.periph u).fl := rfl

@[simp] theorem State.core_eq (s : State) (u : Inst) : s.core u = (s.periph u).core := rfl

@[simp] theorem State.setPeriph_periph (s : State) (u : Inst) (p : Periph) :
    (s.setPeriph u p).periph u = p := by cases u <;> rfl

theorem State.setPeriph_other (s : State) {u v : Inst} (p : Periph) (h : v ≠ u) :
    (s.setPeriph u p).periph v = s.periph v := by cases u <;> cases v <;> first | rfl | exact absurd rfl h

@[simp] theorem State.modify_periph (s : State) (u : Inst) (f : Periph → Periph) :
    (s.modify u f).periph u = f (s.periph u) := by cases u <;> rfl

theorem State.modify_other (s : State) {u v : Inst} (f : Periph → Periph) (h : v ≠ u) :
    (s.modify u f).periph v = s.periph v := State.setPeriph_other s _ h

theorem State.modify_modify (s : State) (u : Inst) (f g : Periph → Periph) :
    (s.modify u f).modify u g = s.modify u fun p => g (f p) := by cases u <;> rfl

@[simp] theorem State.modH_periph (s : State) (u : Inst) (f : Handle → Handle) :
    (s.modH u f).periph u = { s.periph u with h := f (s.periph u).h } := by cases u <;> rfl

@[simp] theorem State.modCr_periph (s : State) (u : Inst) (f : CR → CR) :
    (s.modCr u f).periph u = { s.periph u with cr := f (s.periph u).cr } := by cases u <;> rfl

@[simp] theorem State.modFl_periph (s : State) (u : Inst) (f : Flags → Flags) :
    (s.modFl u f).periph u = { s.periph u with fl := f (s.periph u).fl } := by cases u <;> rfl

@[simp] theorem State.modCore_periph (s : State) (u : Inst) (f : Core → Core) :
    (s.modCore u f).periph u = { s.periph u with core := f (s.periph u).core } := by cases u <;> rfl

@[simp] theorem ierWrite_periph (s : State) (u : Inst) (v : Ier) :
    (ierWrite u v s).periph u =
      { s.periph u with ier := { v with rngeie := v.rngeie && u == .saes } } := by cases u <;> rfl

theorem ierWrite_other (s : State) {u v : Inst} (e : Ier) (h : v ≠ u) :
    (ierWrite u e s).periph v = s.periph v := State.modify_other s _ h

@[simp] theorem park_periph (s : State) (p : Pos) (u : Inst) :
    (park p s).periph u = s.periph u := by unfold park; split <;> cases u <;> rfl

@[simp] theorem unpark_periph (s : State) (p : Pos) (u : Inst) :
    (unpark p s).periph u = s.periph u := by unfold unpark; split <;> cases u <;> rfl

@[simp] theorem State.with_shareSlots_periph (s : State) (u : Inst) (v) :
    (State.periph { s with shareSlots := v } u) = s.periph u := by cases u <;> rfl

@[simp] theorem State.with_mem_periph (s : State) (u : Inst) (v) :
    (State.periph { s with mem := v } u) = s.periph u := by cases u <;> rfl

@[simp] theorem State.with_alloc_periph (s : State) (u : Inst) (v) :
    (State.periph { s with alloc := v } u) = s.periph u := by cases u <;> rfl

@[simp] theorem State.with_contexts_periph (s : State) (u : Inst) (v) :
    (State.periph { s with contexts := v } u) = s.periph u := by cases u <;> rfl

@[simp] theorem State.with_mainPos_periph (s : State) (u : Inst) (v) :
    (State.periph { s with mainPos := v } u) = s.periph u := by cases u <;> rfl

@[simp] theorem State.with_isrPos_periph (s : State) (u : Inst) (v) :
    (State.periph { s with isrPos := v } u) = s.periph u := by cases u <;> rfl

@[simp] theorem State.with_mainStuck_periph (s : State) (u : Inst) (v) :
    (State.periph { s with mainStuck := v } u) = s.periph u := by cases u <;> rfl

@[simp] theorem State.with_isrStuck_periph (s : State) (u : Inst) (v) :
    (State.periph { s with isrStuck := v } u) = s.periph u := by cases u <;> rfl

@[simp] theorem State.with_returned_periph (s : State) (u : Inst) (v) :
    (State.periph { s with returned := v } u) = s.periph u := by cases u <;> rfl

@[simp] theorem State.with_callbackLog_periph (s : State) (u : Inst) (v) :
    (State.periph { s with callbackLog := v } u) = s.periph u := by cases u <;> rfl

@[simp] theorem State.with_inbox_periph (s : State) (u : Inst) (v) :
    (State.periph { s with inbox := v } u) = s.periph u := by cases u <;> rfl

@[simp] theorem State.with_turn_periph (s : State) (u : Inst) (v) :
    (State.periph { s with turn := v } u) = s.periph u := by cases u <;> rfl

@[simp] theorem State.with_draws_periph (s : State) (u : Inst) (v) :
    (State.periph { s with draws := v } u) = s.periph u := by cases u <;> rfl

/-! ### The fields beside the instances -/

@[simp] theorem State.setPeriph_shareSlots (s : State) (u : Inst) (p : Periph) : (s.setPeriph u p).shareSlots = s.shareSlots := by
  cases u <;> rfl

@[simp] theorem State.setPeriph_mem (s : State) (u : Inst) (p : Periph) : (s.setPeriph u p).mem = s.mem := by
  cases u <;> rfl

@[simp] theorem State.setPeriph_alloc (s : State) (u : Inst) (p : Periph) : (s.setPeriph u p).alloc = s.alloc := by
  cases u <;> rfl

@[simp] theorem State.setPeriph_contexts (s : State) (u : Inst) (p : Periph) : (s.setPeriph u p).contexts = s.contexts := by
  cases u <;> rfl

@[simp] theorem State.setPeriph_mainPos (s : State) (u : Inst) (p : Periph) : (s.setPeriph u p).mainPos = s.mainPos := by
  cases u <;> rfl

@[simp] theorem State.setPeriph_isrPos (s : State) (u : Inst) (p : Periph) : (s.setPeriph u p).isrPos = s.isrPos := by
  cases u <;> rfl

@[simp] theorem State.setPeriph_mainStuck (s : State) (u : Inst) (p : Periph) : (s.setPeriph u p).mainStuck = s.mainStuck := by
  cases u <;> rfl

@[simp] theorem State.setPeriph_isrStuck (s : State) (u : Inst) (p : Periph) : (s.setPeriph u p).isrStuck = s.isrStuck := by
  cases u <;> rfl

@[simp] theorem State.setPeriph_returned (s : State) (u : Inst) (p : Periph) : (s.setPeriph u p).returned = s.returned := by
  cases u <;> rfl

@[simp] theorem State.setPeriph_callbackLog (s : State) (u : Inst) (p : Periph) : (s.setPeriph u p).callbackLog = s.callbackLog := by
  cases u <;> rfl

@[simp] theorem State.setPeriph_inbox (s : State) (u : Inst) (p : Periph) : (s.setPeriph u p).inbox = s.inbox := by
  cases u <;> rfl

@[simp] theorem State.setPeriph_turn (s : State) (u : Inst) (p : Periph) : (s.setPeriph u p).turn = s.turn := by
  cases u <;> rfl

@[simp] theorem State.setPeriph_draws (s : State) (u : Inst) (p : Periph) : (s.setPeriph u p).draws = s.draws := by
  cases u <;> rfl

@[simp] theorem State.modify_shareSlots (s : State) (u : Inst) (f : Periph → Periph) : (s.modify u f).shareSlots = s.shareSlots := by
  cases u <;> rfl

@[simp] theorem State.modify_mem (s : State) (u : Inst) (f : Periph → Periph) : (s.modify u f).mem = s.mem := by
  cases u <;> rfl

@[simp] theorem State.modify_alloc (s : State) (u : Inst) (f : Periph → Periph) : (s.modify u f).alloc = s.alloc := by
  cases u <;> rfl

@[simp] theorem State.modify_contexts (s : State) (u : Inst) (f : Periph → Periph) : (s.modify u f).contexts = s.contexts := by
  cases u <;> rfl

@[simp] theorem State.modify_mainPos (s : State) (u : Inst) (f : Periph → Periph) : (s.modify u f).mainPos = s.mainPos := by
  cases u <;> rfl

@[simp] theorem State.modify_isrPos (s : State) (u : Inst) (f : Periph → Periph) : (s.modify u f).isrPos = s.isrPos := by
  cases u <;> rfl

@[simp] theorem State.modify_mainStuck (s : State) (u : Inst) (f : Periph → Periph) : (s.modify u f).mainStuck = s.mainStuck := by
  cases u <;> rfl

@[simp] theorem State.modify_isrStuck (s : State) (u : Inst) (f : Periph → Periph) : (s.modify u f).isrStuck = s.isrStuck := by
  cases u <;> rfl

@[simp] theorem State.modify_returned (s : State) (u : Inst) (f : Periph → Periph) : (s.modify u f).returned = s.returned := by
  cases u <;> rfl

@[simp] theorem State.modify_callbackLog (s : State) (u : Inst) (f : Periph → Periph) : (s.modify u f).callbackLog = s.callbackLog := by
  cases u <;> rfl

@[simp] theorem State.modify_inbox (s : State) (u : Inst) (f : Periph → Periph) : (s.modify u f).inbox = s.inbox := by
  cases u <;> rfl

@[simp] theorem State.modify_turn (s : State) (u : Inst) (f : Periph → Periph) : (s.modify u f).turn = s.turn := by
  cases u <;> rfl

@[simp] theorem State.modify_draws (s : State) (u : Inst) (f : Periph → Periph) : (s.modify u f).draws = s.draws := by
  cases u <;> rfl

@[simp] theorem State.modH_shareSlots (s : State) (u : Inst) (f : Handle → Handle) : (s.modH u f).shareSlots = s.shareSlots := by
  cases u <;> rfl

@[simp] theorem State.modH_mem (s : State) (u : Inst) (f : Handle → Handle) : (s.modH u f).mem = s.mem := by
  cases u <;> rfl

@[simp] theorem State.modH_alloc (s : State) (u : Inst) (f : Handle → Handle) : (s.modH u f).alloc = s.alloc := by
  cases u <;> rfl

@[simp] theorem State.modH_contexts (s : State) (u : Inst) (f : Handle → Handle) : (s.modH u f).contexts = s.contexts := by
  cases u <;> rfl

@[simp] theorem State.modH_mainPos (s : State) (u : Inst) (f : Handle → Handle) : (s.modH u f).mainPos = s.mainPos := by
  cases u <;> rfl

@[simp] theorem State.modH_isrPos (s : State) (u : Inst) (f : Handle → Handle) : (s.modH u f).isrPos = s.isrPos := by
  cases u <;> rfl

@[simp] theorem State.modH_mainStuck (s : State) (u : Inst) (f : Handle → Handle) : (s.modH u f).mainStuck = s.mainStuck := by
  cases u <;> rfl

@[simp] theorem State.modH_isrStuck (s : State) (u : Inst) (f : Handle → Handle) : (s.modH u f).isrStuck = s.isrStuck := by
  cases u <;> rfl

@[simp] theorem State.modH_returned (s : State) (u : Inst) (f : Handle → Handle) : (s.modH u f).returned = s.returned := by
  cases u <;> rfl

@[simp] theorem State.modH_callbackLog (s : State) (u : Inst) (f : Handle → Handle) : (s.modH u f).callbackLog = s.callbackLog := by
  cases u <;> rfl

@[simp] theorem State.modH_inbox (s : State) (u : Inst) (f : Handle → Handle) : (s.modH u f).inbox = s.inbox := by
  cases u <;> rfl

@[simp] theorem State.modH_turn (s : State) (u : Inst) (f : Handle → Handle) : (s.modH u f).turn = s.turn := by
  cases u <;> rfl

@[simp] theorem State.modH_draws (s : State) (u : Inst) (f : Handle → Handle) : (s.modH u f).draws = s.draws := by
  cases u <;> rfl

@[simp] theorem State.modCr_shareSlots (s : State) (u : Inst) (f : CR → CR) : (s.modCr u f).shareSlots = s.shareSlots := by
  cases u <;> rfl

@[simp] theorem State.modCr_mem (s : State) (u : Inst) (f : CR → CR) : (s.modCr u f).mem = s.mem := by
  cases u <;> rfl

@[simp] theorem State.modCr_alloc (s : State) (u : Inst) (f : CR → CR) : (s.modCr u f).alloc = s.alloc := by
  cases u <;> rfl

@[simp] theorem State.modCr_contexts (s : State) (u : Inst) (f : CR → CR) : (s.modCr u f).contexts = s.contexts := by
  cases u <;> rfl

@[simp] theorem State.modCr_mainPos (s : State) (u : Inst) (f : CR → CR) : (s.modCr u f).mainPos = s.mainPos := by
  cases u <;> rfl

@[simp] theorem State.modCr_isrPos (s : State) (u : Inst) (f : CR → CR) : (s.modCr u f).isrPos = s.isrPos := by
  cases u <;> rfl

@[simp] theorem State.modCr_mainStuck (s : State) (u : Inst) (f : CR → CR) : (s.modCr u f).mainStuck = s.mainStuck := by
  cases u <;> rfl

@[simp] theorem State.modCr_isrStuck (s : State) (u : Inst) (f : CR → CR) : (s.modCr u f).isrStuck = s.isrStuck := by
  cases u <;> rfl

@[simp] theorem State.modCr_returned (s : State) (u : Inst) (f : CR → CR) : (s.modCr u f).returned = s.returned := by
  cases u <;> rfl

@[simp] theorem State.modCr_callbackLog (s : State) (u : Inst) (f : CR → CR) : (s.modCr u f).callbackLog = s.callbackLog := by
  cases u <;> rfl

@[simp] theorem State.modCr_inbox (s : State) (u : Inst) (f : CR → CR) : (s.modCr u f).inbox = s.inbox := by
  cases u <;> rfl

@[simp] theorem State.modCr_turn (s : State) (u : Inst) (f : CR → CR) : (s.modCr u f).turn = s.turn := by
  cases u <;> rfl

@[simp] theorem State.modCr_draws (s : State) (u : Inst) (f : CR → CR) : (s.modCr u f).draws = s.draws := by
  cases u <;> rfl

@[simp] theorem State.modFl_shareSlots (s : State) (u : Inst) (f : Flags → Flags) : (s.modFl u f).shareSlots = s.shareSlots := by
  cases u <;> rfl

@[simp] theorem State.modFl_mem (s : State) (u : Inst) (f : Flags → Flags) : (s.modFl u f).mem = s.mem := by
  cases u <;> rfl

@[simp] theorem State.modFl_alloc (s : State) (u : Inst) (f : Flags → Flags) : (s.modFl u f).alloc = s.alloc := by
  cases u <;> rfl

@[simp] theorem State.modFl_contexts (s : State) (u : Inst) (f : Flags → Flags) : (s.modFl u f).contexts = s.contexts := by
  cases u <;> rfl

@[simp] theorem State.modFl_mainPos (s : State) (u : Inst) (f : Flags → Flags) : (s.modFl u f).mainPos = s.mainPos := by
  cases u <;> rfl

@[simp] theorem State.modFl_isrPos (s : State) (u : Inst) (f : Flags → Flags) : (s.modFl u f).isrPos = s.isrPos := by
  cases u <;> rfl

@[simp] theorem State.modFl_mainStuck (s : State) (u : Inst) (f : Flags → Flags) : (s.modFl u f).mainStuck = s.mainStuck := by
  cases u <;> rfl

@[simp] theorem State.modFl_isrStuck (s : State) (u : Inst) (f : Flags → Flags) : (s.modFl u f).isrStuck = s.isrStuck := by
  cases u <;> rfl

@[simp] theorem State.modFl_returned (s : State) (u : Inst) (f : Flags → Flags) : (s.modFl u f).returned = s.returned := by
  cases u <;> rfl

@[simp] theorem State.modFl_callbackLog (s : State) (u : Inst) (f : Flags → Flags) : (s.modFl u f).callbackLog = s.callbackLog := by
  cases u <;> rfl

@[simp] theorem State.modFl_inbox (s : State) (u : Inst) (f : Flags → Flags) : (s.modFl u f).inbox = s.inbox := by
  cases u <;> rfl

@[simp] theorem State.modFl_turn (s : State) (u : Inst) (f : Flags → Flags) : (s.modFl u f).turn = s.turn := by
  cases u <;> rfl

@[simp] theorem State.modFl_draws (s : State) (u : Inst) (f : Flags → Flags) : (s.modFl u f).draws = s.draws := by
  cases u <;> rfl

@[simp] theorem State.modCore_shareSlots (s : State) (u : Inst) (f : Core → Core) : (s.modCore u f).shareSlots = s.shareSlots := by
  cases u <;> rfl

@[simp] theorem State.modCore_mem (s : State) (u : Inst) (f : Core → Core) : (s.modCore u f).mem = s.mem := by
  cases u <;> rfl

@[simp] theorem State.modCore_alloc (s : State) (u : Inst) (f : Core → Core) : (s.modCore u f).alloc = s.alloc := by
  cases u <;> rfl

@[simp] theorem State.modCore_contexts (s : State) (u : Inst) (f : Core → Core) : (s.modCore u f).contexts = s.contexts := by
  cases u <;> rfl

@[simp] theorem State.modCore_mainPos (s : State) (u : Inst) (f : Core → Core) : (s.modCore u f).mainPos = s.mainPos := by
  cases u <;> rfl

@[simp] theorem State.modCore_isrPos (s : State) (u : Inst) (f : Core → Core) : (s.modCore u f).isrPos = s.isrPos := by
  cases u <;> rfl

@[simp] theorem State.modCore_mainStuck (s : State) (u : Inst) (f : Core → Core) : (s.modCore u f).mainStuck = s.mainStuck := by
  cases u <;> rfl

@[simp] theorem State.modCore_isrStuck (s : State) (u : Inst) (f : Core → Core) : (s.modCore u f).isrStuck = s.isrStuck := by
  cases u <;> rfl

@[simp] theorem State.modCore_returned (s : State) (u : Inst) (f : Core → Core) : (s.modCore u f).returned = s.returned := by
  cases u <;> rfl

@[simp] theorem State.modCore_callbackLog (s : State) (u : Inst) (f : Core → Core) : (s.modCore u f).callbackLog = s.callbackLog := by
  cases u <;> rfl

@[simp] theorem State.modCore_inbox (s : State) (u : Inst) (f : Core → Core) : (s.modCore u f).inbox = s.inbox := by
  cases u <;> rfl

@[simp] theorem State.modCore_turn (s : State) (u : Inst) (f : Core → Core) : (s.modCore u f).turn = s.turn := by
  cases u <;> rfl

@[simp] theorem State.modCore_draws (s : State) (u : Inst) (f : Core → Core) : (s.modCore u f).draws = s.draws := by
  cases u <;> rfl

@[simp] theorem ierWrite_shareSlots (s : State) (u : Inst) (v : Ier) : (ierWrite u v s).shareSlots = s.shareSlots := by
  cases u <;> rfl

@[simp] theorem ierWrite_mem (s : State) (u : Inst) (v : Ier) : (ierWrite u v s).mem = s.mem := by
  cases u <;> rfl

@[simp] theorem ierWrite_alloc (s : State) (u : Inst) (v : Ier) : (ierWrite u v s).alloc = s.alloc := by
  cases u <;> rfl

@[simp] theorem ierWrite_contexts (s : State) (u : Inst) (v : Ier) : (ierWrite u v s).contexts = s.contexts := by
  cases u <;> rfl

@[simp] theorem ierWrite_mainPos (s : State) (u : Inst) (v : Ier) : (ierWrite u v s).mainPos = s.mainPos := by
  cases u <;> rfl

@[simp] theorem ierWrite_isrPos (s : State) (u : Inst) (v : Ier) : (ierWrite u v s).isrPos = s.isrPos := by
  cases u <;> rfl

@[simp] theorem ierWrite_mainStuck (s : State) (u : Inst) (v : Ier) : (ierWrite u v s).mainStuck = s.mainStuck := by
  cases u <;> rfl

@[simp] theorem ierWrite_isrStuck (s : State) (u : Inst) (v : Ier) : (ierWrite u v s).isrStuck = s.isrStuck := by
  cases u <;> rfl

@[simp] theorem ierWrite_returned (s : State) (u : Inst) (v : Ier) : (ierWrite u v s).returned = s.returned := by
  cases u <;> rfl

@[simp] theorem ierWrite_callbackLog (s : State) (u : Inst) (v : Ier) : (ierWrite u v s).callbackLog = s.callbackLog := by
  cases u <;> rfl

@[simp] theorem ierWrite_inbox (s : State) (u : Inst) (v : Ier) : (ierWrite u v s).inbox = s.inbox := by
  cases u <;> rfl

@[simp] theorem ierWrite_turn (s : State) (u : Inst) (v : Ier) : (ierWrite u v s).turn = s.turn := by
  cases u <;> rfl

@[simp] theorem ierWrite_draws (s : State) (u : Inst) (v : Ier) : (ierWrite u v s).draws = s.draws := by
  cases u <;> rfl

@[simp] theorem park_shareSlots (p : Pos) (s : State) : (park p s).shareSlots = s.shareSlots := by
  unfold park; split <;> rfl

@[simp] theorem park_mem (p : Pos) (s : State) : (park p s).mem = s.mem := by
  unfold park; split <;> rfl

@[simp] theorem park_alloc (p : Pos) (s : State) : (park p s).alloc = s.alloc := by
  unfold park; split <;> rfl

@[simp] theorem park_contexts (p : Pos) (s : State) : (park p s).contexts = s.contexts := by
  unfold park; split <;> rfl

@[simp] theorem park_returned (p : Pos) (s : State) : (park p s).returned = s.returned := by
  unfold park; split <;> rfl

@[simp] theorem park_callbackLog (p : Pos) (s : State) : (park p s).callbackLog = s.callbackLog := by
  unfold park; split <;> rfl

@[simp] theorem park_inbox (p : Pos) (s : State) : (park p s).inbox = s.inbox := by
  unfold park; split <;> rfl

@[simp] theorem park_turn (p : Pos) (s : State) : (park p s).turn = s.turn := by
  unfold park; split <;> rfl

@[simp] theorem park_draws (p : Pos) (s : State) : (park p s).draws = s.draws := by
  unfold park; split <;> rfl

@[simp] theorem unpark_shareSlots (p : Pos) (s : State) : (unpark p s).shareSlots = s.shareSlots := by
  unfold unpark; split <;> rfl

@[simp] theorem unpark_mem (p : Pos) (s : State) : (unpark p s).mem = s.mem := by
  unfold unpark; split <;> rfl

@[simp] theorem unpark_alloc (p : Pos) (s : State) : (unpark p s).alloc = s.alloc := by
  unfold unpark; split <;> rfl

@[simp] theorem unpark_contexts (p : Pos) (s : State) : (unpark p s).contexts = s.contexts := by
  unfold unpark; split <;> rfl

@[simp] theorem unpark_returned (p : Pos) (s : State) : (unpark p s).returned = s.returned := by
  unfold unpark; split <;> rfl

@[simp] theorem unpark_callbackLog (p : Pos) (s : State) : (unpark p s).callbackLog = s.callbackLog := by
  unfold unpark; split <;> rfl

@[simp] theorem unpark_inbox (p : Pos) (s : State) : (unpark p s).inbox = s.inbox := by
  unfold unpark; split <;> rfl

@[simp] theorem unpark_turn (p : Pos) (s : State) : (unpark p s).turn = s.turn := by
  unfold unpark; split <;> rfl

@[simp] theorem unpark_draws (p : Pos) (s : State) : (unpark p s).draws = s.draws := by
  unfold unpark; split <;> rfl

@[simp] theorem park_mainStuck (p : Pos) (s : State) : (park p s).mainStuck = s.mainStuck := by
  unfold park; split <;> rfl

@[simp] theorem park_isrStuck (p : Pos) (s : State) : (park p s).isrStuck = s.isrStuck := by
  unfold park; split <;> rfl

@[simp] theorem unpark_mainStuck (p : Pos) (s : State) : (unpark p s).mainStuck = s.mainStuck := by
  unfold unpark; split <;> rfl

@[simp] theorem unpark_isrStuck (p : Pos) (s : State) : (unpark p s).isrStuck = s.isrStuck := by
  unfold unpark; split <;> rfl

@[simp] theorem stuckState_periph (r : Runner) (s : State) (u : Inst) :
    (stuckState r s).periph u = s.periph u := by cases r <;> cases u <;> rfl

@[simp] theorem stuckState_shareSlots (r : Runner) (s : State) : (stuckState r s).shareSlots = s.shareSlots := by
  cases r <;> rfl

@[simp] theorem stuckState_mem (r : Runner) (s : State) : (stuckState r s).mem = s.mem := by
  cases r <;> rfl

@[simp] theorem stuckState_alloc (r : Runner) (s : State) : (stuckState r s).alloc = s.alloc := by
  cases r <;> rfl

@[simp] theorem stuckState_contexts (r : Runner) (s : State) : (stuckState r s).contexts = s.contexts := by
  cases r <;> rfl

@[simp] theorem stuckState_returned (r : Runner) (s : State) : (stuckState r s).returned = s.returned := by
  cases r <;> rfl

@[simp] theorem stuckState_callbackLog (r : Runner) (s : State) : (stuckState r s).callbackLog = s.callbackLog := by
  cases r <;> rfl

@[simp] theorem stuckState_inbox (r : Runner) (s : State) : (stuckState r s).inbox = s.inbox := by
  cases r <;> rfl

@[simp] theorem stuckState_turn (r : Runner) (s : State) : (stuckState r s).turn = s.turn := by
  cases r <;> rfl

@[simp] theorem stuckState_draws (r : Runner) (s : State) : (stuckState r s).draws = s.draws := by
  cases r <;> rfl

@[simp] theorem stuckState_mainPos (r : Runner) (s : State) : (stuckState r s).mainPos = s.mainPos := by
  cases r <;> rfl

@[simp] theorem stuckState_isrPos (r : Runner) (s : State) : (stuckState r s).isrPos = s.isrPos := by
  cases r <;> rfl

end Sys2Proof.Machine
end

