-- ==== Sys2Proof/Laws/Memory.lean ====
section
/-! SUPPORT. Laws of the tables and of caller memory: read after write, and the canonical form. -/

namespace Sys2Proof.Machine

/-! ### Tables with rising keys -/

theorem assocGet_put_same {α : Type} (k : Nat) (v : α) (l : List (Nat × α)) :
    assocGet k (assocPut k v l) = some v := by
  induction l with
  | nil => simp [assocPut, assocGet]
  | cons x l ih =>
    obtain ⟨k', v'⟩ := x
    unfold assocPut
    split
    · simp [assocGet]
    · split
      · simp [assocGet]
      · rw [assocGet, if_neg (by omega), ih]

theorem assocGet_put_other {α : Type} {k j : Nat} (v : α) (l : List (Nat × α)) (h : j ≠ k) :
    assocGet j (assocPut k v l) = assocGet j l := by
  induction l with
  | nil => simp [assocPut, assocGet, h.symm]
  | cons x l ih =>
    obtain ⟨k', v'⟩ := x
    unfold assocPut
    split
    · simp [assocGet, h.symm]
    · split
      · rename_i e
        subst e
        simp [assocGet, h.symm]
      · simp [assocGet, ih]

theorem assocGet_del_other {α : Type} {k j : Nat} (l : List (Nat × α)) (h : j ≠ k) :
    assocGet j (assocDel k l) = assocGet j l := by
  induction l with
  | nil => rfl
  | cons x l ih =>
    obtain ⟨k', v'⟩ := x
    unfold assocDel
    split
    · simp [assocGet, *, h.symm]
    · simp [assocGet, ih]

theorem assocGet_none {α : Type} {k : Nat} {l : List (Nat × α)} (h : ∀ c ∈ l, c.1 ≠ k) :
    assocGet k l = none := by
  induction l with
  | nil => rfl
  | cons x l ih =>
    obtain ⟨k', v'⟩ := x
    rw [assocGet, if_neg (h (k', v') (by simp)), ih fun c hc => h c (by simp [hc])]

theorem assocGet_del_same {α : Type} (k : Nat) {l : List (Nat × α)} (h : assocRising l) :
    assocGet k (assocDel k l) = none := by
  induction l with
  | nil => rfl
  | cons x l ih =>
    obtain ⟨k', v'⟩ := x
    have h' := List.pairwise_cons.mp h
    unfold assocDel
    split
    · rename_i e
      exact assocGet_none fun c hc => by have := h'.1 c hc; simp at this; omega
    · rename_i e
      rw [assocGet, if_neg e, ih h'.2]

theorem mem_assocPut {α : Type} {k : Nat} {v : α} {l : List (Nat × α)} {c : Nat × α}
    (h : c ∈ assocPut k v l) : c = (k, v) ∨ c ∈ l := by
  induction l with
  | nil => simpa [assocPut] using h
  | cons x l ih =>
    obtain ⟨k', v'⟩ := x
    unfold assocPut at h
    split at h
    · simpa using h
    · split at h
      · simp only [List.mem_cons] at h ⊢; tauto
      · simp only [List.mem_cons] at h ⊢; rcases h with h | h
        · exact .inr (.inl h)
        · rcases ih h with h | h
          · exact .inl h
          · exact .inr (.inr h)

theorem mem_assocDel {α : Type} {k : Nat} {l : List (Nat × α)} {c : Nat × α}
    (h : c ∈ assocDel k l) : c ∈ l := by
  induction l with
  | nil => exact h
  | cons x l ih =>
    obtain ⟨k', v'⟩ := x
    unfold assocDel at h
    split at h
    · exact List.mem_cons_of_mem _ h
    · simp only [List.mem_cons] at h ⊢; rcases h with h | h
      · exact .inl h
      · exact .inr (ih h)

theorem assocRising_put {α : Type} (k : Nat) (v : α) {l : List (Nat × α)} (h : assocRising l) :
    assocRising (assocPut k v l) := by
  induction l with
  | nil => simp [assocPut, assocRising]
  | cons x l ih =>
    obtain ⟨k', v'⟩ := x
    have h' := List.pairwise_cons.mp h
    unfold assocPut
    split
    · rename_i lt
      refine List.pairwise_cons.mpr ⟨fun c hc => ?_, h⟩
      rcases List.mem_cons.mp hc with rfl | hc
      · exact lt
      · exact lt.trans (h'.1 c hc)
    · split
      · rename_i eq
        subst eq
        exact List.pairwise_cons.mpr ⟨h'.1, h'.2⟩
      · refine List.pairwise_cons.mpr ⟨fun c hc => ?_, ih h'.2⟩
        rcases mem_assocPut hc with rfl | hc
        · simp; omega
        · exact h'.1 c hc

theorem assocRising_del {α : Type} (k : Nat) {l : List (Nat × α)} (h : assocRising l) :
    assocRising (assocDel k l) := by
  induction l with
  | nil => exact h
  | cons x l ih =>
    obtain ⟨k', v'⟩ := x
    have h' := List.pairwise_cons.mp h
    unfold assocDel
    split
    · exact h'.2
    · exact List.pairwise_cons.mpr ⟨fun c hc => h'.1 c (mem_assocDel hc), ih h'.2⟩

/-! ### Bytes -/

/-- A write of an existing address keeps the canonical form. -/
theorem Memory.wf_writeByte {m : List Host.Cell} (h : Memory.wf m) {a : Nat} (ha : a < Memory.size)
    (b : Byte) : Memory.wf (Memory.writeByte m a b) := by
  unfold Memory.writeByte
  split
  · exact ⟨assocRising_del a h.1, fun c hc => h.2 c (mem_assocDel hc)⟩
  · rename_i hb
    refine ⟨assocRising_put a b h.1, fun c hc => ?_⟩
    rcases mem_assocPut hc with rfl | hc
    · exact ⟨ha, hb⟩
    · exact h.2 c hc

theorem Memory.readByte_writeByte_same {m : List Host.Cell} (h : Memory.wf m) (a : Nat) (b : Byte) :
    Memory.readByte (Memory.writeByte m a b) a = b := by
  unfold Memory.readByte Memory.writeByte
  split
  · rename_i hb; rw [assocGet_del_same a h.1, hb]; rfl
  · rw [assocGet_put_same]; rfl

theorem Memory.readByte_writeByte_other (m : List Host.Cell) {a c : Nat} (b : Byte) (h : c ≠ a) :
    Memory.readByte (Memory.writeByte m a b) c = Memory.readByte m c := by
  unfold Memory.readByte Memory.writeByte
  split
  · rw [assocGet_del_other m h]
  · rw [assocGet_put_other b m h]

/-! ### Words -/

/-- A word write inside the address space keeps the canonical form. -/
theorem Memory.wf_writeWord {m : List Host.Cell} (h : Memory.wf m) {a : Nat}
    (ha : a + 4 ≤ Memory.size) (w : Word) : Memory.wf (Memory.writeWord m a w) := by
  unfold Memory.writeWord
  exact Memory.wf_writeByte (Memory.wf_writeByte (Memory.wf_writeByte (Memory.wf_writeByte h
    (by omega) _) (by omega) _) (by omega) _) (by omega) _

/-- A word write leaves every byte outside its four alone. -/
theorem Memory.readByte_writeWord_other (m : List Host.Cell) {a c : Nat} (w : Word)
    (h : c < a ∨ a + 4 ≤ c) : Memory.readByte (Memory.writeWord m a w) c = Memory.readByte m c := by
  unfold Memory.writeWord
  rw [Memory.readByte_writeByte_other _ _ (by omega),
      Memory.readByte_writeByte_other _ _ (by omega),
    Memory.readByte_writeByte_other _ _ (by omega), Memory.readByte_writeByte_other _ _ (by omega)]

/-- A word read after a write of the same word gives the word written. -/
theorem Memory.readWord_writeWord {m : List Host.Cell} (h : Memory.wf m) {a : Nat}
    (ha : a + 4 ≤ Memory.size) (w : Word) : Memory.readWord (Memory.writeWord m a w) a = w := by
  have h1 := Memory.wf_writeByte h (a := a) (by omega) (w.extractLsb' 0 8)
  have h2 := Memory.wf_writeByte h1 (a := a + 1) (by omega) (w.extractLsb' 8 8)
  have h3 := Memory.wf_writeByte h2 (a := a + 2) (by omega) (w.extractLsb' 16 8)
  unfold Memory.readWord Memory.writeWord
  rw [Memory.readByte_writeByte_same h3, Memory.readByte_writeByte_other _ _ (by omega),
    Memory.readByte_writeByte_same h2, Memory.readByte_writeByte_other _ _ (by omega),
    Memory.readByte_writeByte_other _ _ (by omega), Memory.readByte_writeByte_same h1,
    Memory.readByte_writeByte_other _ _ (by omega), Memory.readByte_writeByte_other _ _ (by omega),
    Memory.readByte_writeByte_other _ _ (by omega), Memory.readByte_writeByte_same h]
  ext i hi
  simp only [BitVec.getElem_append, BitVec.getElem_extractLsb']
  rw [← BitVec.getLsbD_eq_getElem]
  split
  · congr 1; omega
  · split
    · congr 1; omega
    · split
      · congr 1; omega
      · congr 1; omega

/-! ### The engine's accesses -/

/-- What a word write can do (20_memory.md R82, R84). -/
theorem memWrite_ok {a : Nat} {w : Word} {s t : State} (h : memWrite a w s = .ok t) :
    s.admits a = true ∧ t = { s with mem := Memory.writeWord s.mem a w } := by
  unfold memWrite at h
  split at h
  · rename_i hs; exact ⟨hs, by cases h; rfl⟩
  · cases h

/-- What a word read can do (20_memory.md R82, R84). -/
theorem memRead_ok {a : Nat} {w : Word} {s : State} (h : memRead a s = .ok w) :
    s.admits a = true ∧ w = Memory.readWord s.mem a := by
  unfold memRead at h
  split at h
  · rename_i hs; exact ⟨hs, by cases h; rfl⟩
  · cases h

theorem admits_size {s : State} {a : Nat} (h : s.admits a = true) : a + 4 ≤ Memory.size := by
  unfold State.admits at h
  simp only [Bool.and_eq_true, decide_eq_true_eq] at h
  exact h.1

end Sys2Proof.Machine
end

