-- ==== Sys2Proof/Laws/Post.lean ====
section
/-! SUPPORT. Postconditions of the rules' pseudocode, and the operations through which every rule changes the state: what they all keep, every instruction and every step keeps. -/

namespace Sys2Proof.Machine

/-! ### Postconditions -/

/-- If the rule answers, its answer has `Q`. -/
def Post {α : Type} (Q : α → Prop) (r : Except Stop α) : Prop := ∀ a, r = .ok a → Q a

theorem Post.ok {α : Type} {Q : α → Prop} {a : α} (h : Q a) : Post Q (.ok a) := by
  intro b hb; cases hb; exact h

theorem Post.error {α : Type} {Q : α → Prop} (e : Stop) : Post Q (.error e) := by
  intro b hb; cases hb

theorem Post.bind {α β : Type} {Q : α → Prop} {R : β → Prop} {r : Except Stop α}
    {f : α → Except Stop β} (h : Post Q r) (hf : ∀ a, Q a → Post R (f a)) : Post R (r >>= f) := by
  cases r with
  | error e => exact Post.error e
  | ok a => exact hf a (h a rfl)

theorem Post.mono {α : Type} {Q R : α → Prop} {r : Except Stop α} (h : Post Q r)
    (hq : ∀ a, Q a → R a) : Post R r := fun a ha => hq a (h a ha)

theorem Post.trivially {α : Type} (r : Except Stop α) : Post (fun _ => True) r := fun _ _ => trivial

theorem Post.ite {α : Type} {Q : α → Prop} {c : Prop} [Decidable c] {a b : Except Stop α}
    (ha : c → Post Q a) (hb : ¬c → Post Q b) : Post Q (if c then a else b) := by
  split
  · exact ha ‹_›
  · exact hb ‹_›

theorem Post.four {Q : State → Prop} {f : Nat → State → Res} {s : State} (h : Q s)
    (hf : ∀ j s, Q s → Post Q (f j s)) : Post Q (four f s) :=
  Post.bind (hf 0 s h) fun s h => Post.bind (hf 1 s h) fun s h => Post.bind (hf 2 s h) fun s h =>
    hf 3 s h

theorem Post.doIf {Q : State → Prop} {c : Prop} [Decidable c] {f : State → Res} {s : State} (h : Q s)
    (hf : c → Post Q (f s)) : Post Q (doIf c f s) := by
  unfold Machine.doIf
  split
  · exact hf ‹_›
  · exact Post.ok h

theorem Post.foldlM {Q : State → Prop} {α : Type} {f : State → α → Res} (l : List α) {s : State}
    (h : Q s) (hf : ∀ s a, Q s → Post Q (f s a)) : Post Q (l.foldlM f s) := by
  induction l generalizing s with
  | nil => exact Post.ok h
  | cons a l ih => rw [List.foldlM_cons]; exact Post.bind (hf _ a h) fun t ht => ih ht

theorem Post.outcome {Q : State → Prop} {k : Runner} {s : State} {r : Res} (hs : Q (stuckState k s))
    (h : Post Q r) {t : State} (ht : Res.outcome k s r = .next t) : Q t := by
  cases r with
  | ok a => cases ht; exact h _ rfl
  | error e => cases e <;> cases ht; exact hs

@[simp] theorem ok_bind {α β : Type} (a : α) (f : α → Except Stop β) :
    ((Except.ok a : Except Stop α) >>= f) = f a := rfl

@[simp] theorem error_bind {α β : Type} (e : Stop) (f : α → Except Stop β) :
    ((Except.error e : Except Stop α) >>= f) = .error e := rfl

/-! ### The operations -/

/-- The handle change keeps the instance of the handle, takes it away, or makes it `u`. -/
def KeepsInst (u : Inst) (f : Handle → Handle) : Prop :=
  ∀ h, (f h).inst = h.inst ∨ (f h).inst = none ∨ (f h).inst = some u

/-- `I` survives every operation through which an instruction addressed to `u` changes the state, but
for stores to caller memory. -/
structure Closed (u : Inst) (I : State → Prop) : Prop where
  modH : ∀ f s, I s → (hf : KeepsInst u f := by
    intro h; first
      | exact .inl rfl
      | exact .inr (.inl rfl)
      | exact .inr (.inr rfl)
      | (simp only []; split <;> exact .inl rfl)
      | (unfold setCallback; split <;> exact .inl rfl)
      | (unfold setChannel; split <;> exact .inl rfl)) → I (s.modH u f)
  returned : ∀ v s, I s → I { s with returned := v }
  logged : ∀ v s, I s → I { s with callbackLog := v }
  stuck : ∀ k s, I s → I (stuckState k s)
  park : ∀ p s, I s → I (Machine.park p s)
  unpark : ∀ p s, I s → I (Machine.unpark p s)
  ier : ∀ v s, I s → I (ierWrite u v s)
  ccf : ∀ s, I s → I (clearCcf u s)
  keif : ∀ s, I s → I (clearKeif u s)
  rngeif : ∀ s, I s → I (clearRngeif u s)
  rweif : ∀ s, I s → I (clearRweif u s)
  receive : ∀ k s, I s → I (sharedReceive u k s)
  cr : ∀ w s, I s → Post I (crWrite u w s)
  disable : ∀ s, I s → I (disable u s)
  dmainen : ∀ s, I s → I (s.modCr u (crApply (.dmainen false)))
  dmaouten : ∀ s, I s → I (s.modCr u (crApply (.dmaouten false)))
  din : ∀ w s, I s → Post I (dinWrite u w s)
  dout : ∀ s, I s → Post (fun r => I r.2) (doutRead u s)
  keyr : ∀ i w s, I s → Post I (keyrWrite u i w s)
  ivr : ∀ i w s, I s → Post I (ivrWrite u i w s)
  suspr : ∀ i w s, I s → Post I (susprWrite u i w s)
  dma : ∀ m s, I s → I (dmaStartBoth u m s)
  abandon : ∀ s, I s → I (abandonDma u s)

/-- `I` survives a store to caller memory. -/
def StoreClosed (I : State → Prop) : Prop := ∀ a w s, I s → Post I (memWrite a w s)

/-- `I` survives a save of the context record `k`. -/
def SaveClosed (k : Nat) (I : State → Prop) : Prop :=
  ∀ c s, I s → I { s with contexts := assocPut k c s.contexts }

namespace Closed

variable {u : Inst} {I : State → Prop} (C : Closed u I)
include C

theorem ret (v : Return) {s : State} (h : I s) : Post I (retVal v s) := Post.ok (C.returned _ s h)

theorem clearRngeifOnSaes {s : State} (h : I s) : I (Machine.clearRngeifOnSaes u s) := by
  unfold Machine.clearRngeifOnSaes; split
  · exact C.rngeif s h
  · exact h

theorem clearFound {s : State} (h : I s) : I (Machine.clearFound u s) := by
  unfold Machine.clearFound
  dsimp only
  split
  · exact C.rngeif _ (C.rweif _ (C.keif _ h))
  · exact C.ccf _ h

theorem callback (k : CbKind) {s : State} (h : I s) : I (Machine.callback u k s) := C.logged _ s h

theorem addErrors (e : Word) {s : State} (h : I s) : I (Machine.addErrors u e s) := C.modH _ s h

theorem failEpilogue (e : Word) {s : State} (h : I s) : I (Machine.failEpilogue u e s) := by
  unfold Machine.failEpilogue
  exact C.abandon _ (C.modH _ _ (C.disable _ (C.dmaouten _ (C.dmainen _ (C.ier _ _
    (C.clearRngeifOnSaes (C.rweif _ (C.keif _ (C.ccf _ (C.addErrors e h))))))))))

theorem failMain (c : RetCode) (e : Word) {s : State} (h : I s) : Post I (Machine.failMain u c e s) :=
  C.ret _ (C.failEpilogue e h)

theorem failIsr (e : Word) {s : State} (h : I s) : Post I (Machine.failIsr u e s) :=
  Post.ok (C.callback _ (C.failEpilogue e h))

/-! #### Keys -/

theorem keyPrologue {s : State} (h : I s) : I (Machine.keyPrologue u s) :=
  C.keif _ (C.modH _ _ (C.disable _ h))

theorem keyFail (r : Option WaitFail) {s : State} (h : I s) : Post I (Machine.keyFail u r s) := by
  unfold Machine.keyFail
  refine C.ret _ (C.modH _ _ (C.addErrors _ ?_))
  split
  · exact C.keif _ h
  · exact h
  · exact h

theorem keyLoadEnd (p : Word) (k : KeySize) (o : KeyOrigin) {s : State} (h : I s) :
    Post I (Machine.keyLoadEnd u p k o s) := by
  unfold Machine.keyLoadEnd; split
  · exact C.ret _ (C.modH _ _ h)
  · exact C.keyFail _ h

theorem writeKey (a : Word) (k : KeySize) {s : State} (h : I s) : Post I (Machine.writeKey u a k s) :=
  Post.foldlM _ h fun s _ h => Post.bind (Post.trivially _) fun _ _ => C.keyr _ _ s h

theorem writeIv (a : Word) {s : State} (h : I s) : Post I (Machine.writeIv u a s) :=
  Post.foldlM _ h fun s _ h => Post.bind (Post.trivially _) fun _ _ => C.ivr _ _ s h

theorem runSetNormalKey (a k : Word) {s : State} (h : I s) :
    Post I (Machine.runSetNormalKey u a k s) := by
  unfold Machine.runSetNormalKey
  split
  · exact C.ret _ h
  split
  · exact C.ret _ h
  split
  · exact Post.error _
  split
  · exact C.ret _ h
  refine Post.bind (Post.doIf (C.keyPrologue h) fun _ => C.cr _ _ (C.keyPrologue h)) fun s h => ?_
  refine Post.bind (C.cr _ _ h) fun s h => Post.bind (C.cr _ _ h) fun s h => ?_
  exact Post.bind (C.writeKey _ _ h) fun s h => Post.ok (C.park _ _ h)

theorem runSetHwKey (a b c : Word) {s : State} (h : I s) :
    Post I (Machine.runSetHwKey u a b c s) := by
  unfold Machine.runSetHwKey
  split
  · split
    · exact C.ret _ h
    split
    · exact C.ret _ h
    split
    · exact C.ret _ h
    refine Post.bind (C.cr _ _ (C.keyPrologue h)) fun s h => Post.bind (C.cr _ _ h) fun s h => ?_
    exact Post.bind (C.cr _ _ h) fun s h => Post.ok (C.park _ _ h)
  · exact C.ret _ h

theorem runSetSharedKey (a b : Word) {s : State} (h : I s) :
    Post I (Machine.runSetSharedKey u a b s) := by
  unfold Machine.runSetSharedKey
  split
  · exact C.ret _ h
  split
  · exact C.ret _ h
  split
  · exact C.ret _ h
  split
  · exact C.ret _ h
  refine Post.bind (C.cr _ _ (C.keyPrologue h)) fun s h => Post.bind (C.cr _ _ h) fun s h => ?_
  have h := C.receive b s h
  dsimp only
  split
  · exact Post.bind (C.cr _ _ (C.keif _ h)) fun s h => C.ret _ (C.modH _ _ (C.addErrors _ h))
  · exact Post.ok (C.park _ _ h)

theorem writeKeyProtection (v : Bool) {s : State} (h : I s) :
    Post I (Machine.writeKeyProtection u v s) := by
  unfold Machine.writeKeyProtection
  split
  · exact C.ret _ h
  split
  · exact C.ret _ h
  exact Post.bind (C.cr _ _ (C.modH _ _ (C.disable _ h))) fun s h => C.ret _ h

theorem keyDerivStart {s : State} (h : I s) : Post I (Machine.keyDerivStart u s) :=
  Post.bind (C.cr _ _ (C.disable _ h)) fun _ h => C.cr _ _ h

theorem keyDerivEnd {s : State} (h : I s) : Post I (Machine.keyDerivEnd u s) :=
  Post.bind (C.cr _ _ (C.disable _ (C.ccf _ h))) fun _ h => Post.ok (C.modH _ _ h)

/-! #### Configuration -/

theorem runInit (a : Word) {s : State} (h : I s) : Post I (Machine.runInit u a s) := by
  unfold Machine.runInit
  split
  · exact C.ret _ h
  split
  · exact C.ret _ h
  · exact C.ret _ (C.modH _ _ h)

theorem runDeinit {s : State} (h : I s) : Post I (Machine.runDeinit u s) := by
  unfold Machine.runDeinit
  split
  · exact C.ret _ h
  · exact C.ret _ (C.abandon _ (C.modH _ _ (C.clearRngeifOnSaes (C.rweif _ (C.keif _ (C.ccf _
      (C.dmaouten _ (C.dmainen _ (C.disable _ (C.ier _ _ h))))))))))

theorem configCommon (g : Alg) (p n : Word) {s : State} (h : I s) :
    Post I (Machine.configCommon u g p n s) :=
  Post.bind (C.cr _ _ (C.disable _ h)) fun _ h => Post.bind (C.cr _ _ h) fun _ h =>
    Post.bind (C.cr _ _ h) fun _ h => Post.bind (C.cr _ _ h) fun _ h => Post.ok (C.modH _ _ h)

theorem runSetConfigEcb {s : State} (h : I s) : Post I (Machine.runSetConfigEcb u s) := by
  unfold Machine.runSetConfigEcb
  split
  · exact C.ret _ h
  · exact Post.bind (C.configCommon _ _ _ h) fun _ h => C.ret _ h

theorem setConfigIv (g : Alg) (a : Word) {s : State} (h : I s) :
    Post I (Machine.setConfigIv u g a s) := by
  unfold Machine.setConfigIv
  split
  · exact C.ret _ h
  split
  · exact Post.error _
  split
  · exact C.ret _ h
  · exact Post.bind (C.configCommon _ _ _ h) fun _ h => Post.bind (C.writeIv _ h) fun _ h => C.ret _ h

theorem setConfigAuth (g : Alg) (a p n : Word) {s : State} (h : I s) :
    Post I (Machine.setConfigAuth u g a p n s) := by
  unfold Machine.setConfigAuth
  split
  · exact C.ret _ h
  split
  · exact C.ret _ h
  split
  · exact Post.error _
  split
  · exact C.ret _ h
  · exact Post.bind (C.configCommon _ _ _ h) fun _ h => Post.bind (C.writeIv _ h) fun _ h => C.ret _ h

theorem runSetDataSwap (a : Word) {s : State} (h : I s) : Post I (Machine.runSetDataSwap u a s) := by
  unfold Machine.runSetDataSwap
  split
  · exact C.ret _ h
  split
  · exact C.ret _ h
  · exact Post.bind (C.cr _ _ (C.disable _ h)) fun _ h => C.ret _ (C.modH _ _ h)

theorem runSetUserData (a : Word) {s : State} (h : I s) : Post I (Machine.runSetUserData u a s) := by
  unfold Machine.runSetUserData
  split
  · exact C.ret _ h
  · exact C.ret _ (C.modH _ _ h)

theorem runRegisterCallback (a b : Word) {s : State} (h : I s) :
    Post I (Machine.runRegisterCallback u a b s) := by
  unfold Machine.runRegisterCallback
  repeat' split
  all_goals first | exact C.ret _ h | exact C.ret _ (C.modH _ _ h)

theorem runLinkDma (a b : Word) {s : State} (h : I s) : Post I (Machine.runLinkDma u a b s) := by
  unfold Machine.runLinkDma
  repeat' split
  all_goals first | exact C.ret _ h | exact C.ret _ (C.modH _ _ h)

/-! #### The pump -/

theorem writeNext {s : State} (h : I s) : Post I (Machine.writeNext u s) := by
  unfold Machine.writeNext
  refine Post.bind (Post.trivially _) fun ph _ => ?_
  refine Post.bind (Q := I) ?_ fun s h => ?_
  · unfold setNpblb; split
    · exact C.cr _ _ h
    · exact Post.ok h
  refine Post.bind (Post.four h fun j s h => ?_) fun s h => Post.ok (C.modH _ _ h)
  exact Post.bind (Post.trivially _) fun _ _ => C.din _ _ h

theorem readOut (M : StoreClosed I) (i : Nat) {s : State} (h : I s) : Post I (Machine.readOut u i s) := by
  unfold Machine.readOut
  refine Post.bind (Post.trivially _) fun ph _ => ?_
  split
  · exact Post.ok h
  refine Post.four h fun j s h => Post.bind (C.dout s h) fun r h => ?_
  obtain ⟨w, s⟩ := r
  dsimp only
  split
  · exact M _ _ _ h
  · exact Post.ok h

theorem blockEnd (M : StoreClosed I) {s : State} (h : I s) : Post I (Machine.blockEnd u s) :=
  C.readOut M _ (C.ccf _ h)

/-! #### Phases and tags -/

theorem phaseInitStart (m : Mode) {s : State} (h : I s) : Post I (Machine.phaseInitStart u m s) :=
  Post.bind (C.cr _ _ (C.disable _ h)) fun _ h => Post.bind (C.cr _ _ h) fun _ h =>
    Post.bind (C.cr _ _ h) fun _ h => C.cr _ _ h

theorem phaseInitEnd {s : State} (h : I s) : Post I (Machine.phaseInitEnd u s) :=
  Post.bind (C.cr _ _ (C.disable _ (C.ccf _ h))) fun _ h => Post.bind (C.cr _ _ h) fun _ h =>
    Post.ok (C.modH _ _ h)

theorem headerToPayload {s : State} (h : I s) : Post I (Machine.headerToPayload u s) :=
  Post.bind (C.cr _ _ h) fun _ h => Post.ok (C.modH _ _ h)

theorem writeLengthBlock {s : State} (h : I s) : Post I (Machine.writeLengthBlock u s) :=
  Post.bind (C.din _ _ h) fun _ h => Post.bind (C.din _ _ h) fun _ h =>
    Post.bind (C.din _ _ h) fun _ h => C.din _ _ h

theorem closeMessage {s : State} (h : I s) : I (Machine.closeMessage u s) := C.modH _ _ (C.disable _ h)

theorem tagFinal (k : TagKind) (a t : Word) {s : State} (h : I s) :
    Post I (Machine.tagFinal u k a t s) :=
  Post.bind (C.cr _ _ h) fun _ h => Post.bind (Post.doIf h fun _ => C.writeLengthBlock h) fun _ h =>
    Post.ok (C.park _ _ h)

theorem tagLoop (k : TagKind) (a t : Word) {s : State} (h : I s) :
    Post I (Machine.tagLoop u k a t s) := by
  unfold Machine.tagLoop
  refine Post.bind (Post.trivially _) fun ph _ => ?_
  split
  · exact Post.bind (C.writeNext h) fun _ h => Post.ok (C.park _ _ h)
  · exact C.tagFinal _ _ _ h

theorem tagEnd (M : StoreClosed I) (a : Word) {s : State} (h : I s) : Post I (Machine.tagEnd u a s) := by
  unfold Machine.tagEnd
  refine Post.bind (Post.four (C.ccf _ h) fun j s h => Post.bind (C.dout s h) fun r h => ?_) fun _ h =>
    C.ret _ (C.closeMessage h)
  exact M _ _ _ h

theorem runTag (k : TagKind) (a t : Word) {s : State} (h : I s) : Post I (Machine.runTag u k a t s) := by
  unfold Machine.runTag tagCheck
  refine Post.ite (fun _ => C.ret _ h) fun _ => Post.ite (fun _ => C.ret _ h) fun _ => ?_
  refine Post.ite (fun _ => Post.error _) fun _ => Post.ite (fun _ => C.ret _ h) fun _ => ?_
  refine Post.ite (fun _ => Post.error _) fun _ => Post.ite (fun _ => Post.error _) fun _ => ?_
  refine Post.ite (fun _ => Post.error _) fun _ => Post.ite (fun _ => Post.error _) fun _ => ?_
  refine Post.ite (fun _ => Post.error _) fun _ => ?_
  have h := C.modH activatePoll _ h
  refine Post.ite (fun _ => C.failMain _ _ h) fun _ => Post.ite (fun _ => ?_) fun _ => ?_
  · exact Post.bind (C.phaseInitStart _ h) fun _ h => Post.ok (C.park _ _ h)
  · exact C.tagFinal _ _ _ h

/-! #### Transports -/

theorem pollLoop (d : Direction) (t : Word) {s : State} (h : I s) : Post I (Machine.pollLoop u d t s) := by
  unfold Machine.pollLoop
  refine Post.bind (Post.trivially _) fun ph _ => ?_
  refine Post.bind (Post.doIf h fun _ => C.headerToPayload h) fun s h => ?_
  refine Post.bind (Post.trivially _) fun ph _ => ?_
  split
  · exact C.ret _ (C.modH _ _ h)
  · exact Post.bind (C.writeNext h) fun _ h => Post.ok (C.park _ _ h)

theorem lastInputCallback {s : State} (h : I s) : Post I (Machine.lastInputCallback u s) := by
  unfold Machine.lastInputCallback
  refine Post.bind (Post.trivially _) fun ph _ => Post.ok ?_
  split
  · exact C.callback _ h
  · exact h

theorem itStart {s : State} (h : I s) : Post I (Machine.itStart u s) :=
  Post.bind (C.writeNext h) fun _ h => Post.bind (C.lastInputCallback (C.ier _ _ h)) fun _ h => C.ret _ h

theorem dmaLoop (d : Direction) {s : State} (h : I s) : Post I (Machine.dmaLoop u d s) := by
  unfold Machine.dmaLoop
  refine Post.bind (Post.trivially _) fun ph _ => ?_
  split
  · exact Post.bind (C.writeNext h) fun _ h => Post.ok (C.park _ _ h)
  refine Post.bind (Post.doIf h fun _ => C.headerToPayload h) fun s h => ?_
  dsimp only
  split
  · exact Post.bind (C.writeNext h) fun _ h => Post.ok (C.park _ _ h)
  · exact Post.bind (C.cr _ _ (C.dma _ _ (C.ier _ _ h))) fun _ h => Post.bind (C.cr _ _ h) fun _ h =>
      C.ret _ h

theorem afterSetup (p : Proc) {s : State} (h : I s) : Post I (Machine.afterSetup u p s) := by
  unfold Machine.afterSetup
  split
  · exact C.pollLoop _ _ h
  · exact C.itStart h
  · exact C.dmaLoop _ h
  all_goals exact Post.ok h

theorem flatSetupEnd (p : Proc) (d : Direction) {s : State} (h : I s) :
    Post I (Machine.flatSetupEnd u p d s) :=
  Post.bind (C.cr _ _ h) fun _ h => Post.bind (C.cr _ _ h) fun _ h => C.afterSetup _ (C.modH _ _ h)

theorem callSetup (p : Proc) (d : Direction) (b : Bound) {s : State} (h : I s) :
    Post I (Machine.callSetup u p d b s) := by
  unfold Machine.callSetup
  dsimp only
  split
  · exact C.afterSetup _ (C.modH _ _ h)
  split
  · split
    · exact Post.bind (C.keyDerivStart (C.disable _ h)) fun _ h => Post.ok (C.park _ _ h)
    · exact C.flatSetupEnd _ _ (C.disable _ h)
  · exact Post.bind (C.phaseInitStart _ h) fun _ h => Post.ok (C.park _ _ h)

theorem entryCheck (d : Direction) (T : Transport) (a n o : Word) {s : State} {go : State → Res}
    (h : I s) (hg : ∀ s, I s → Post I (go s)) : Post I (Machine.entryCheck u d T a n o s go) := by
  unfold Machine.entryCheck
  dsimp only
  repeat' split
  all_goals first
    | exact C.ret _ h
    | exact Post.error _
    | exact C.failMain _ _ (C.modH _ _ h)
    | exact hg _ (C.modH _ _ h)

theorem processPoll (d : Direction) (a n o t : Word) {s : State} (h : I s) :
    Post I (Machine.processPoll u d a n o t s) := C.entryCheck _ _ _ _ _ h fun _ h => C.callSetup _ _ _ h

theorem startIt (d : Direction) (a n o : Word) {s : State} (h : I s) :
    Post I (Machine.startIt u d a n o s) := C.entryCheck _ _ _ _ _ h fun _ h => C.callSetup _ _ _ h

theorem startDma (d : Direction) (a n o : Word) {s : State} (h : I s) :
    Post I (Machine.startDma u d a n o s) := C.entryCheck _ _ _ _ _ h fun _ h => C.callSetup _ _ _ h

theorem itBoundary (b : Bool) {s : State} (h : I s) : Post I (Machine.itBoundary u b s) := by
  unfold Machine.itBoundary
  refine Post.bind (Post.trivially _) fun ph _ => ?_
  dsimp only
  split
  · exact Post.ok (C.callback _ (C.modH _ _ (C.ier _ _ h)))
  split
  · exact Post.ok (C.callback _ (C.modH _ _ (C.ier _ _ h)))
  refine Post.bind (Post.doIf h fun _ => C.headerToPayload h) fun s h => ?_
  exact Post.bind (C.writeNext h) fun _ h => C.lastInputCallback h

theorem itAdvance (M : StoreClosed I) {s : State} (h : I s) : Post I (Machine.itAdvance u s) := by
  unfold Machine.itAdvance
  split
  · exact C.failIsr _ h
  · exact Post.bind (C.readOut M _ h) fun _ h => Post.bind (C.itBoundary _ h) fun _ h => Post.ok h

theorem runIrq (M : StoreClosed I) {s : State} (h : I s) : Post I (Machine.runIrq u s) := by
  unfold Machine.runIrq
  dsimp only
  repeat' split
  all_goals first
    | exact C.failIsr _ h
    | exact Post.ok (C.clearRngeifOnSaes (C.rweif _ (C.keif _ h)))
    | exact C.itAdvance M (C.ccf _ h)
    | exact Post.ok (C.ccf _ h)
    | exact Post.ok (C.clearFound h)

theorem dmaFinishEnd (b : Bool) {s : State} (h : I s) : Post I (Machine.dmaFinishEnd u b s) := by
  unfold Machine.dmaFinishEnd
  refine Post.ok (C.callback _ ?_)
  have h := C.modH commitHandle _ (C.ier ierNone _ h)
  split
  · exact C.callback _ h
  · exact h

theorem dmaFinish (b : Bool) {s : State} (h : I s) : Post I (Machine.dmaFinish u b s) := by
  unfold Machine.dmaFinish
  dsimp only
  split
  · exact Post.bind (C.writeNext (C.modH _ _ (C.ccf _ h))) fun _ h => Post.ok (C.park _ _ h)
  · exact C.dmaFinishEnd _ (C.modH _ _ (C.ccf _ h))

theorem runDmaInCplt {s : State} (h : I s) : Post I (Machine.runDmaInCplt u s) := by
  unfold Machine.runDmaInCplt
  dsimp only
  split
  · exact Post.ok h
  refine Post.bind (C.cr _ _ h) fun s h => ?_
  split
  · exact C.dmaFinish _ (C.modH _ _ h)
  split
  · exact Post.ok (C.callback _ (C.modH _ _ h))
  · exact Post.ok (C.modH _ _ h)

theorem runDmaOutCplt {s : State} (h : I s) : Post I (Machine.runDmaOutCplt u s) := by
  unfold Machine.runDmaOutCplt
  dsimp only
  split
  · exact Post.ok h
  refine Post.bind (C.cr _ _ h) fun s h => ?_
  split
  · exact C.dmaFinish _ (C.modH _ _ h)
  · exact Post.ok (C.modH _ _ h)

theorem runDmaError {s : State} (h : I s) : Post I (Machine.runDmaError u s) := by
  unfold Machine.runDmaError
  dsimp only
  split
  · exact Post.ok h
  · exact Post.bind (C.cr _ _ h) fun s h => Post.bind (C.cr _ _ h) fun s h =>
      C.failIsr _ (C.ccf _ h)

/-! #### Suspension -/

theorem runRequestSuspend {s : State} (h : I s) : Post I (Machine.runRequestSuspend u s) := by
  unfold Machine.runRequestSuspend
  split
  · exact C.ret _ h
  · exact C.ret _ (C.modH _ _ h)

theorem runSaveContext (c : Word) (K : SaveClosed c.toNat I) {s : State} (h : I s) :
    Post I (Machine.runSaveContext u c s) := by
  unfold Machine.runSaveContext
  repeat' split
  · exact C.ret _ h
  · exact C.ret _ h
  · exact C.ret _ (C.closeMessage (K _ _ h))

theorem runRestoreContext (c : Word) {s : State} (h : I s) :
    Post I (Machine.runRestoreContext u c s) := by
  unfold Machine.runRestoreContext
  repeat' split
  all_goals first
    | exact C.ret _ h
    | exact Post.error _
    | skip
  refine Post.bind (Post.foldlM _ (C.disable _ h) fun s w h => C.cr _ _ h) fun s h => ?_
  refine Post.bind (Post.doIf (C.modH _ _ h) fun _ => Post.foldlM _ (C.modH _ _ h)
    fun s i h => C.ivr _ _ _ h) fun s h => ?_
  exact Post.bind (Post.doIf h fun _ => C.writeKey _ _ h) fun s h => Post.ok (C.park _ _ h)

theorem restoreFail (r : Option WaitFail) {s : State} (h : I s) : Post I (Machine.restoreFail u r s) :=
  C.ret _ (C.modH _ _ (C.disable _ (C.rweif _ (C.clearRngeifOnSaes (C.keif _ (C.addErrors _ h))))))

theorem restoreEnd (c : Context) {s : State} (h : I s) : Post I (Machine.restoreEnd u c s) :=
  Post.bind (Post.doIf h fun _ => Post.foldlM _ h fun _ _ h => C.suspr _ _ _ h) fun _ h =>
    C.ret _ (C.modH _ _ h)

theorem restoreKeyLoaded (c : Word) {s : State} (h : I s) :
    Post I (Machine.restoreKeyLoaded u c s) := by
  unfold Machine.restoreKeyLoaded
  refine Post.bind (Post.trivially _) fun c _ => ?_
  split
  · exact C.restoreFail _ h
  dsimp only
  split
  · exact Post.bind (C.keyDerivStart (C.modH _ _ h)) fun _ h => Post.ok (C.park _ _ h)
  · exact C.restoreEnd _ (C.modH _ _ h)

theorem restoreDerived (c : Word) {s : State} (h : I s) : Post I (Machine.restoreDerived u c s) := by
  unfold Machine.restoreDerived
  refine Post.bind (Post.trivially _) fun c _ => Post.bind (C.keyDerivEnd h) fun _ h => ?_
  exact Post.bind (C.cr _ _ h) fun _ h => C.restoreEnd _ h

theorem runResume {s : State} (h : I s) : Post I (Machine.runResume u s) := by
  unfold Machine.runResume
  split
  · exact C.ret _ h
  split
  · exact C.failMain _ _ (C.modH _ _ h)
  refine Post.bind (Post.doIf h fun _ => C.cr _ _ h) fun s h => ?_
  exact Post.bind (C.itBoundary _ (C.ier _ _ (C.modH _ _ h))) fun _ h => C.ret _ h

/-! #### Key operations -/

theorem keyOpCheck (m : KMod) (a : Word) (o k : Option Word) {s : State} {go : State → Res} (h : I s)
    (hg : ∀ s, I s → Post I (go s)) : Post I (Machine.keyOpCheck u m a o k s go) := by
  unfold Machine.keyOpCheck
  refine Post.ite (fun _ => C.ret _ h) fun _ => Post.ite (fun _ => C.ret _ h) fun _ => ?_
  refine Post.ite (fun _ => C.ret _ h) fun _ => Post.ite (fun _ => C.ret _ h) fun _ => ?_
  refine Post.ite (fun _ => C.ret _ h) fun _ => Post.ite (fun _ => Post.error _) fun _ => ?_
  refine Post.ite (fun _ => C.ret _ h) fun _ => Post.ite (fun _ => Post.error _) fun _ => ?_
  refine Post.ite (fun _ => Post.error _) fun _ => Post.ite (fun _ => Post.error _) fun _ => ?_
  exact Post.ite (fun _ => C.failMain _ _ (C.modH _ _ h)) fun _ => hg _ (C.modH _ _ h)

theorem keyOpLoop (k : KeyOp) (t : Word) {s : State} (h : I s) : Post I (Machine.keyOpLoop u k t s) := by
  unfold Machine.keyOpLoop
  split
  · exact Post.bind (C.writeNext h) fun _ h => Post.ok (C.park _ _ h)
  unfold Machine.keyOpEnd keyOpReceived
  repeat' split
  all_goals first
    | exact C.ret _ (C.closeMessage h)
    | exact C.failMain _ _ h
    | exact Post.bind (C.cr _ _ (C.disable _ h)) fun _ h => C.ret _ (C.closeMessage (C.modH _ _ h))

theorem keyOpBlocks (k : KeyOp) (m : Mode) (t : Word) {s : State} (h : I s) :
    Post I (Machine.keyOpBlocks u k m t s) :=
  Post.bind (C.cr _ _ h) fun _ h => Post.bind (C.cr _ _ h) fun _ h => C.keyOpLoop _ _ h

theorem keyOpDecrypt (k : KeyOp) (t : Word) {s : State} (h : I s) :
    Post I (Machine.keyOpDecrypt u k t s) :=
  Post.bind (C.keyDerivStart h) fun _ h => Post.ok (C.park _ _ h)

theorem runWrapKey (a o t : Word) {s : State} (h : I s) : Post I (Machine.runWrapKey u a o t s) :=
  C.keyOpCheck _ _ _ _ h fun _ h => C.keyOpBlocks _ _ _ (C.disable _ h)

theorem runUnwrapKey (a t : Word) {s : State} (h : I s) : Post I (Machine.runUnwrapKey u a t s) :=
  C.keyOpCheck _ _ _ _ h fun _ h => C.keyOpDecrypt _ _ (C.disable _ h)

theorem runEncryptSharedKey (a o k t : Word) {s : State} (h : I s) :
    Post I (Machine.runEncryptSharedKey u a o k t s) :=
  C.keyOpCheck _ _ _ _ h fun _ h => Post.bind (C.cr _ _ (C.disable _ h)) fun _ h =>
    C.keyOpBlocks _ _ _ h

theorem runDecryptSharedKey (a k t : Word) {s : State} (h : I s) :
    Post I (Machine.runDecryptSharedKey u a k t s) :=
  C.keyOpCheck _ _ _ _ h fun _ h => Post.bind (C.cr _ _ (C.disable _ h)) fun _ h =>
    C.keyOpDecrypt _ _ h

/-! #### Waits -/

theorem setupDerived (p : Proc) (d : Direction) {s : State} (h : I s) :
    Post I (Machine.setupDerived u p d s) :=
  Post.bind (C.keyDerivEnd h) fun _ h => C.flatSetupEnd _ _ h

theorem setupPhaseInit (p : Proc) {s : State} (h : I s) : Post I (Machine.setupPhaseInit u p s) :=
  Post.bind (C.phaseInitEnd h) fun _ h => C.afterSetup _ (C.modH _ _ h)

theorem dmaSmallEnd {s : State} (h : I s) : Post I (Machine.dmaSmallEnd u s) :=
  C.ret _ (C.callback _ (C.callback _ (C.modH _ _ h)))

end Closed

theorem Closed.waitDone {p : Pos} {I : State → Prop} (C : Closed p.u I) (M : StoreClosed I) {s : State}
    (h : I s) : Post I (Machine.waitDone p s) := by
  obtain ⟨u, proc, wp, b⟩ := p
  cases proc
  case setNormalKey => exact C.keyLoadEnd _ _ _ h
  case setHwKey => exact C.keyLoadEnd _ _ _ h
  case setSharedKey => exact Post.bind (C.cr _ _ h) fun _ h => C.keyLoadEnd _ _ _ h
  case poll =>
    cases wp
    case keyDeriv => exact C.setupDerived _ _ h
    case phaseInit => exact C.setupPhaseInit _ h
    all_goals exact Post.bind (C.blockEnd M h) fun _ h => C.pollLoop _ _ h
  case startIt =>
    cases wp
    case keyDeriv => exact C.setupDerived _ _ h
    all_goals exact C.setupPhaseInit _ h
  case startDma =>
    cases wp
    case keyDeriv => exact C.setupDerived _ _ h
    case phaseInit => exact C.setupPhaseInit _ h
    case headerBlock => exact Post.bind (C.blockEnd M h) fun _ h => C.dmaLoop _ h
    all_goals exact Post.bind (C.blockEnd M h) fun _ h => C.dmaSmallEnd h
  case tag =>
    cases wp
    case phaseInit => exact Post.bind (C.phaseInitEnd h) fun _ h => C.tagLoop _ _ _ h
    case headerBlock => exact Post.bind (C.blockEnd M h) fun _ h => C.tagLoop _ _ _ h
    all_goals exact C.tagEnd M _ h
  case keyOp =>
    cases wp
    case keyDeriv => exact Post.bind (C.keyDerivEnd h) fun _ h => C.keyOpBlocks _ _ _ h
    all_goals exact Post.bind (C.blockEnd M h) fun _ h => C.keyOpLoop _ _ h
  case restore =>
    cases wp
    case keyLoad => exact C.restoreKeyLoaded _ h
    all_goals exact C.restoreDerived _ h
  case dmaFinish => exact Post.bind (C.blockEnd M h) fun _ h => C.dmaFinishEnd _ h

theorem Closed.waitFailed {p : Pos} {I : State → Prop} (C : Closed p.u I) (r : WaitFail) {s : State}
    (h : I s) : Post I (Machine.waitFailed p r s) := by
  obtain ⟨u, proc, wp, b⟩ := p
  cases proc
  case setNormalKey => exact C.keyFail _ h
  case setHwKey => exact C.keyFail _ h
  case setSharedKey => exact Post.bind (C.cr _ _ h) fun _ h => C.keyFail _ h
  case restore => exact C.restoreFail _ h
  case dmaFinish => exact C.failIsr _ h
  all_goals exact C.failMain _ _ h

theorem Closed.waitStep {p : Pos} {I : State → Prop} (C : Closed p.u I) (M : StoreClosed I) (b : Bool)
    {s : State} (h : I s) : Post I (Machine.waitStep p b s) := by
  unfold Machine.waitStep
  split
  · exact C.waitDone M (C.unpark _ _ h)
  · exact C.waitFailed _ (C.unpark _ _ h)
  · exact Post.ok h

/-! ### Every instruction -/

/-- The one instruction whose execution stores to caller memory before its first WaitFlag. -/
def storesAtOnce : Instr → Prop
  | .irq _ => True
  | .init _ _ | .deinit _ | .setConfigEcb _ | .setConfigCbc _ _ | .setConfigCtr _ _
  | .setConfigGcmGmac _ _ _ _ | .setConfigCcm _ _ _ _ | .setDataSwap _ _ | .getDataSwap _
  | .getState _ | .getLastErrorCodes _ | .setUserData _ _ | .getUserData _ | .registerCallback _ _ _
  | .linkDma _ _ _ | .setNormalKey _ _ _ | .setHwKey _ _ _ _ | .setSharedKey _ _ _
  | .enableKeyProtection _ | .disableKeyProtection _ | .encrypt _ _ _ _ _ | .decrypt _ _ _ _ _
  | .encryptIt _ _ _ _ | .decryptIt _ _ _ _ | .encryptDma _ _ _ _ | .decryptDma _ _ _ _
  | .gcmGenerateTag _ _ _ | .ccmGenerateTag _ _ _ | .requestSuspend _ | .resume _ | .saveContext _ _
  | .restoreContext _ _ | .wrapKey _ _ _ _ | .unwrapKey _ _ _ | .encryptSharedKey _ _ _ _ _
  | .decryptSharedKey _ _ _ _ | .dmaInCplt _ | .dmaOutCplt _ | .dmaError _ _ | .busCrWrite _ _ _
  | .busCrRead _ | .busFlagRead _ _ | .busFlagClear _ _ | .busDinWrite _ _ | .busDoutRead _
  | .busKeyrWrite _ _ _ | .busIvrWrite _ _ _ | .busIvrRead _ _ | .busSusprWrite _ _ _
  | .busSusprRead _ _ | .busIerWrite _ _ => False

/-- What the operations keep, every instruction keeps. -/
theorem Closed.exec {I : State → Prop} (i : Instr) (C : Closed i.target I)
    (M : storesAtOnce i → StoreClosed I) (K : ∀ u c, i = .saveContext u c → SaveClosed c.toNat I)
    {s t : State} (h : I s) (ht : Machine.exec i s = .next t) : I t := by
  cases i
  case init => exact Post.outcome (C.stuck _ _ h) (C.runInit _ h) ht
  case deinit => exact Post.outcome (C.stuck _ _ h) (C.runDeinit h) ht
  case setConfigEcb => exact Post.outcome (C.stuck _ _ h) (C.runSetConfigEcb h) ht
  case setConfigCbc => exact Post.outcome (C.stuck _ _ h) (C.setConfigIv _ _ h) ht
  case setConfigCtr => exact Post.outcome (C.stuck _ _ h) (C.setConfigIv _ _ h) ht
  case setConfigGcmGmac => exact Post.outcome (C.stuck _ _ h) (C.setConfigAuth _ _ _ _ h) ht
  case setConfigCcm => exact Post.outcome (C.stuck _ _ h) (C.setConfigAuth _ _ _ _ h) ht
  case setDataSwap => exact Post.outcome (C.stuck _ _ h) (C.runSetDataSwap _ h) ht
  case getDataSwap => exact Post.outcome (k := .mainline) (C.stuck _ _ h) (C.ret _ h) ht
  case getState => exact Post.outcome (k := .mainline) (C.stuck _ _ h) (C.ret _ h) ht
  case getLastErrorCodes => exact Post.outcome (k := .mainline) (C.stuck _ _ h) (C.ret _ h) ht
  case setUserData => exact Post.outcome (C.stuck _ _ h) (C.runSetUserData _ h) ht
  case getUserData => exact Post.outcome (k := .mainline) (C.stuck _ _ h) (C.ret _ h) ht
  case registerCallback => exact Post.outcome (C.stuck _ _ h) (C.runRegisterCallback _ _ h) ht
  case linkDma => exact Post.outcome (C.stuck _ _ h) (C.runLinkDma _ _ h) ht
  case setNormalKey => exact Post.outcome (C.stuck _ _ h) (C.runSetNormalKey _ _ h) ht
  case setHwKey => exact Post.outcome (C.stuck _ _ h) (C.runSetHwKey _ _ _ h) ht
  case setSharedKey => exact Post.outcome (C.stuck _ _ h) (C.runSetSharedKey _ _ h) ht
  case enableKeyProtection => exact Post.outcome (C.stuck _ _ h) (C.writeKeyProtection _ h) ht
  case disableKeyProtection => exact Post.outcome (C.stuck _ _ h) (C.writeKeyProtection _ h) ht
  case encrypt => exact Post.outcome (C.stuck _ _ h) (C.processPoll _ _ _ _ _ h) ht
  case decrypt => exact Post.outcome (C.stuck _ _ h) (C.processPoll _ _ _ _ _ h) ht
  case encryptIt => exact Post.outcome (C.stuck _ _ h) (C.startIt _ _ _ _ h) ht
  case decryptIt => exact Post.outcome (C.stuck _ _ h) (C.startIt _ _ _ _ h) ht
  case encryptDma => exact Post.outcome (C.stuck _ _ h) (C.startDma _ _ _ _ h) ht
  case decryptDma => exact Post.outcome (C.stuck _ _ h) (C.startDma _ _ _ _ h) ht
  case gcmGenerateTag => exact Post.outcome (C.stuck _ _ h) (C.runTag _ _ _ h) ht
  case ccmGenerateTag => exact Post.outcome (C.stuck _ _ h) (C.runTag _ _ _ h) ht
  case requestSuspend => exact Post.outcome (C.stuck _ _ h) (C.runRequestSuspend h) ht
  case resume => exact Post.outcome (C.stuck _ _ h) (C.runResume h) ht
  case saveContext => exact Post.outcome (C.stuck _ _ h) (C.runSaveContext _ (K _ _ rfl) h) ht
  case restoreContext => exact Post.outcome (C.stuck _ _ h) (C.runRestoreContext _ h) ht
  case wrapKey => exact Post.outcome (C.stuck _ _ h) (C.runWrapKey _ _ _ h) ht
  case unwrapKey => exact Post.outcome (C.stuck _ _ h) (C.runUnwrapKey _ _ h) ht
  case encryptSharedKey => exact Post.outcome (C.stuck _ _ h) (C.runEncryptSharedKey _ _ _ _ h) ht
  case decryptSharedKey => exact Post.outcome (C.stuck _ _ h) (C.runDecryptSharedKey _ _ _ h) ht
  case irq => exact Post.outcome (C.stuck _ _ h) (C.runIrq (M trivial) h) ht
  case dmaInCplt => exact Post.outcome (C.stuck _ _ h) (C.runDmaInCplt h) ht
  case dmaOutCplt => exact Post.outcome (C.stuck _ _ h) (C.runDmaOutCplt h) ht
  case dmaError => exact Post.outcome (C.stuck _ _ h) (C.runDmaError h) ht
  case busCrWrite u f v =>
    refine Post.outcome (Q := I) (C.stuck _ _ h) (r := runBusCrWrite u f v s) ?_ ht
    unfold runBusCrWrite
    split
    · exact C.cr _ _ h
    · exact Post.error _
  case busCrRead => exact Post.outcome (k := .mainline) (C.stuck _ _ h) (C.ret _ h) ht
  case busFlagRead => exact Post.outcome (k := .mainline) (C.stuck _ _ h) (C.ret _ h) ht
  case busFlagClear u n =>
    refine Post.outcome (Q := I) (C.stuck _ _ h) (r := clearFlag u n s) ?_ ht
    unfold clearFlag
    split
    · exact Post.ok (C.ccf _ h)
    · exact Post.ok (C.keif _ h)
    · exact Post.ok (C.rngeif _ h)
    · exact Post.ok (C.rweif _ h)
    all_goals exact Post.error _
  case busDinWrite => exact Post.outcome (C.stuck _ _ h) (C.din _ _ h) ht
  case busDoutRead u =>
    exact Post.outcome (Q := I) (C.stuck _ _ h) (r := runBusDoutRead u s)
      (Post.bind (C.dout s h) fun r h => C.ret _ h) ht
  case busKeyrWrite => exact Post.outcome (C.stuck _ _ h) (C.keyr _ _ _ h) ht
  case busIvrWrite => exact Post.outcome (C.stuck _ _ h) (C.ivr _ _ _ h) ht
  case busIvrRead => exact Post.outcome (k := .mainline) (C.stuck _ _ h) (C.ret _ h) ht
  case busSusprWrite => exact Post.outcome (C.stuck _ _ h) (C.suspr _ _ _ h) ht
  case busSusprRead => exact Post.outcome (k := .mainline) (C.stuck _ _ h) (C.ret _ h) ht
  case busIerWrite => exact Post.outcome (Q := I) (k := .mainline) (C.stuck _ _ h) (Post.ok (C.ier _ _ h)) ht

/-! ### Every step -/

/-- `I` survives what the agents other than an instruction do. -/
structure AgentClosed (I : State → Prop) : Prop where
  target : ∀ u, Closed u I
  store : StoreClosed I
  saved : ∀ k, SaveClosed k I
  inbox : ∀ v s, I s → I { s with inbox := v }
  next : ∀ s, I s → I (nextTurn s)
  core : ∀ u a s, I s → I (coreStep u a s)
  events : ∀ u (v : Periph → List PendingEvent) s, I s →
    I (s.modify u fun p => { p with dmaEvents := v p })
  moved : ∀ u q t s, I s → I (s.modify u (advanceTransfer q t))
  failed : ∀ u q t s, I s → I (dmaFail u q t s)

theorem AgentClosed.issue {I : State → Prop} (A : AgentClosed I) {q : Request} {s t : State} (h : I s)
    (ht : Machine.issue q s = .next t) : I t := by
  unfold Machine.issue at ht
  split at ht
  · cases ht
  · split at ht
    · cases ht
    · exact Closed.exec _ (A.target _) (fun _ => A.store) (fun _ c _ => A.saved c.toNat) h ht

theorem AgentClosed.waitOutcome {I : State → Prop} (A : AgentClosed I) {p : Pos} {b : Bool} {s t : State}
    (h : I s) (ht : Machine.waitOutcome p b s = .next t) : I t :=
  Post.outcome ((A.target p.u).stuck _ _ h) ((A.target _).waitStep A.store _ h) ht

theorem AgentClosed.dmaStep {I : State → Prop} (A : AgentClosed I) (u : Inst) (q : Fifo) (b : Bool)
    {s : State} (h : I s) : Post I (Machine.dmaStep u q b s) := by
  unfold Machine.dmaStep
  split
  · exact Post.ok h
  split
  · exact Post.ok (A.failed _ _ _ _ h)
  split
  · split
    · exact Post.bind (Post.trivially _) fun _ _ => Post.bind ((A.target u).din _ _ h) fun _ h =>
        Post.ok (A.moved _ _ _ _ h)
    · exact Post.ok h
  · split
    · exact Post.bind ((A.target u).dout _ h) fun _ h => Post.bind (A.store _ _ _ h) fun _ h =>
        Post.ok (A.moved _ _ _ _ h)
    · exact Post.ok h

theorem AgentClosed.agentTurn {I : State → Prop} (A : AgentClosed I) {s t : State} (h : I s)
    (ht : Machine.agentTurn s = .next t) : I t := by
  unfold Machine.agentTurn at ht
  split at ht
  · unfold mainlineTurn at ht
    split at ht
    · cases ht; exact h
    split at ht
    · exact A.waitOutcome h ht
    · cases ht; exact h
    · exact A.issue (A.inbox _ _ h) ht
  · rename_i u _
    unfold irqTurn at ht; split at ht
    · exact Post.outcome ((A.target u).stuck _ _ h) ((A.target u).runIrq A.store h) ht
    · cases ht; exact h
  · rename_i u e _
    unfold dmaEntryTurn at ht; split at ht
    · have h' : I (takeEvent u e s) := A.events u (fun p => p.dmaEvents.erase e) s h
      refine Post.outcome (Q := I) ((A.target u).stuck _ _ h') ?_ ht
      unfold runDmaEvent; split
      · exact Post.ok h'
      split
      · exact (A.target _).runDmaInCplt h'
      · exact (A.target _).runDmaOutCplt h'
      · exact (A.target _).runDmaError h'
    · cases ht; exact h
  · unfold handlerTurn at ht; split at ht
    · exact A.waitOutcome h ht
    · cases ht; exact h
  · exact Post.outcome ((A.target .aes).stuck _ _ h) (A.dmaStep _ _ _ h) ht
  · cases ht; exact A.core _ _ _ h

/-- What the operations and the agents keep, every step keeps. -/
theorem AgentClosed.step {I : State → Prop} (A : AgentClosed I) {s t : State} (h : I s)
    (ht : Machine.step s = .next t) : I t := by
  unfold Machine.step passTurn at ht
  split at ht
  · rename_i s' hs
    cases ht
    exact A.next _ (A.agentTurn h hs)
  · cases ht
  · cases ht

end Sys2Proof.Machine
end

