-- ==== Sys2Proof/Laws/Ops.lean ====
section
/-! SUPPORT. One lemma per shared operation: what it does where its conditions hold, as one change of one instance; and what a successful bus operation says of its state. -/

namespace Sys2Proof.Machine

theorem State.modify_congr {s : State} {u : Inst} {f g : Periph → Periph}
    (h : f (s.periph u) = g (s.periph u)) : s.modify u f = s.modify u g := by
  unfold State.modify; rw [h]

theorem State.modify_id {s : State} {u : Inst} {f : Periph → Periph}
    (h : f (s.periph u) = s.periph u) : s.modify u f = s := by
  unfold State.modify; rw [h]; cases u <;> rfl

theorem State.modH_eq (s : State) (u : Inst) (f : Handle → Handle) :
    s.modH u f = s.modify u fun p => { p with h := f p.h } := rfl

theorem State.modCr_eq (s : State) (u : Inst) (f : CR → CR) :
    s.modCr u f = s.modify u fun p => { p with cr := f p.cr } := rfl

theorem State.modFl_eq (s : State) (u : Inst) (f : Flags → Flags) :
    s.modFl u f = s.modify u fun p => { p with fl := f p.fl } := rfl

theorem State.modCore_eq (s : State) (u : Inst) (f : Core → Core) :
    s.modCore u f = s.modify u fun p => { p with core := f p.core } := rfl

/-- `core_key_load(src)` (40_register_access.md R154). -/
theorem coreKeyLoad_eq (u : Inst) (src : KeySource) (s : State) :
    coreKeyLoad u src s = s.modify u (loadStarted src) := by
  rw [coreKeyLoad, State.modFl_eq, State.modCore_eq, State.modify_modify]; rfl

/-! ### Disabling and enabling -/

/-- `CR.EN <- 0` (40_register_access.md R163). -/
theorem disable_eq {u : Inst} {s : State}
    (q : (s.cr u).en = false →
      (s.core u).job = none ∧ (s.core u).inFifo = [] ∧ (s.core u).outFifo = []) :
    disable u s = s.modify u idled := by
  unfold disable
  split
  · rw [coreDisable, State.modCr_eq, State.modCore_eq, State.modify_modify]; rfl
  · rename_i h
    have h : (s.periph u).cr.en = false := by simpa using h
    obtain ⟨h1, h2, h3⟩ := q h
    simp only [State.core_eq] at h1 h2 h3
    refine (State.modify_id ?_).symm
    generalize s.periph u = p at *
    obtain ⟨ph, cr, fl, ier, k, i, sp, core, a, b, c⟩ := p
    obtain ⟨⟩ := cr; obtain ⟨⟩ := core
    simp_all [idled]

/-- `CR.EN <- 1` (40_register_access.md R151). -/
theorem crWrite_en {u : Inst} {s : State} (h : (s.cr u).en = false)
    (k : (s.fl u).keyvalid = true ∨ (s.fl u).busy = true) :
    crWrite u (.en true) s = .ok (s.modify u fun p => enabledWith (jobOnEnable p) p) := by
  have hk : ¬((!(s.periph u).fl.keyvalid && !(s.periph u).fl.busy) = true) := by
    rcases k with k | k <;> simp [k]
  have h' : ¬((s.periph u).cr.en = true) := by simp [h]
  unfold crWrite crEffect enable coreEnable
  simp only [crFieldOf, crSaesOnly, crWritableEnabled, crNeedsNoJob, Bool.false_and, Bool.not_true,
    Bool.false_eq_true, if_false, if_neg h', State.modCr_periph, if_neg hk]
  rw [State.modCr_eq, State.modCore_eq, State.modify_modify]
  rfl

/-- A configuration field written with `CR.EN = 0` (40_register_access.md R141). -/
theorem crWrite_config {u : Inst} {w : CrWrite} {s : State} (h : (s.cr u).en = false)
    (hw : crSaesOnly (crFieldOf w) = false ∨ u = .saes)
    (hf : crWritableEnabled (crFieldOf w) = false) (hk : ∀ v, w ≠ .keysel v) :
    crWrite u w s = .ok (s.modify u fun p => { p with cr := crApply w p.cr }) := by
  have h' : (s.periph u).cr.en = false := h
  have hw' : (crSaesOnly (crFieldOf w) && u == .aes) = false := by
    rcases hw with h | rfl
    · simp [h]
    · simp
  cases w <;> simp_all [crWrite, crEffect, crFieldOf, crWritableEnabled, crNeedsNoJob,
      State.modCr_eq]

/-- `CR.GCMPH <- v` for a phase before FINAL, with no job in progress. -/
theorem crWrite_phase {u : Inst} {v : Phase} {s : State} (h : (s.core u).job = none)
    (hv : v ≠ .final) :
    crWrite u (.gcmph v) s = .ok (s.modify u fun p => { p with cr := { p.cr with gcmph := v } }) := by
  have h' : (s.periph u).core.job = none := h
  simp [crWrite, crEffect, crFieldOf, crSaesOnly, crWritableEnabled, crNeedsNoJob, h', writePhase,
      hv,
    State.modCr_eq, crApply]

/-- `CR.NPBLB <- v` with no job in progress. -/
theorem crWrite_npblb {u : Inst} {v : BitVec 4} {s : State} (h : (s.core u).job = none) :
    crWrite u (.npblb v) s = .ok (s.modify u fun p => { p with cr := { p.cr with npblb := v } }) := by
  have h' : (s.periph u).core.job = none := h
  simp [crWrite, crEffect, crFieldOf, crSaesOnly, crWritableEnabled, crNeedsNoJob, h',
    State.modCr_eq, crApply]

theorem crWrite_dmainen (u : Inst) (v : Bool) (s : State) :
    crWrite u (.dmainen v) s =
      .ok (s.modify u fun p => { p with cr := { p.cr with dmainen := v } }) := by
  simp [crWrite, crEffect, crFieldOf, crSaesOnly, crWritableEnabled, crNeedsNoJob, State.modCr_eq,
    crApply]

theorem crWrite_dmaouten (u : Inst) (v : Bool) (s : State) :
    crWrite u (.dmaouten v) s =
      .ok (s.modify u fun p => { p with cr := { p.cr with dmaouten := v } }) := by
  simp [crWrite, crEffect, crFieldOf, crSaesOnly, crWritableEnabled, crNeedsNoJob, State.modCr_eq,
    crApply]

/-- `CR.KEYSEL <- v` on the SAES with `CR.EN = 0`. -/
theorem crWrite_keysel {v : KeySel} {s : State} (h : (s.cr .saes).en = false) :
    crWrite .saes (.keysel v) s = .ok (writeKeySel .saes v s) := by
  have h' : (s.periph .saes).cr.en = false := h
  simp [crWrite, crEffect, crFieldOf, crSaesOnly, crWritableEnabled, crNeedsNoJob, h']

/-- A write to a field the AES does not have (10_state.md R41). -/
theorem crWrite_saesOnly {w : CrWrite} (s : State) (h : crSaesOnly (crFieldOf w) = true) :
    crWrite .aes w s = .ok s := by
  simp [crWrite, h]

/-! ### The common parts of commands -/

theorem disable_quiet {u : Inst} {s : State} (q : coreQuiet (s.periph u)) :
    disable u s = s.modify u idled := disable_eq q.1

/-- `ConfigCommon(alg, hdr, n)` (41_lifecycle_config.md R184). -/
theorem configCommon_eq {u : Inst} {g : Alg} {a n : Word} {s : State} (q : coreQuiet (s.periph u)) :
    configCommon u g a n s = .ok (s.modify u (configured g a n)) := by
  unfold configCommon
  rw [disable_quiet q, crWrite_config (by simp [idled]) (.inl rfl) rfl (by simp), ok_bind,
    crWrite_config (by simp [idled, crApply]) (.inl rfl) rfl (by simp), ok_bind,
    crWrite_phase (by simp [idled]) (by simp), ok_bind, crWrite_npblb (by simp [idled]), ok_bind,
    State.modH_eq]
  simp only [State.modify_modify]
  rfl

/-- The end of a message with committed data (42_key_iv.md R223). -/
theorem closeCommitted_eq (u : Inst) (s : State) :
    closeCommitted u s = s.modify u fun p => { p with h := committedClosed p.h } := by
  have key : ∀ h : Handle, (if h.dataSizeSum ≠ 0 then { h with msgStatus := .closed } else h) =
      committedClosed h := by
    intro h
    unfold committedClosed
    by_cases e : h.dataSizeSum = 0
    · rw [if_neg (by simp [e]), if_pos e]
    · rw [if_pos e, if_neg e]
  unfold closeCommitted
  rw [State.modH_eq]
  simp only [key]

/-- The start of a key-load command (42_key_iv.md R222, R223). -/
theorem keyPrologue_eq {u : Inst} {s : State} (q : coreQuiet (s.periph u)) :
    keyPrologue u s = s.modify u keyCleared := by
  unfold keyPrologue clearKeif
  rw [disable_quiet q, closeCommitted_eq, State.modFl_eq, State.modify_modify, State.modify_modify]
  rfl

/-- The failure epilogue (60_exceptions.md R503). -/
theorem failEpilogue_eq {u : Inst} {e : Word} {s : State} (q : coreQuiet (s.periph u)) :
    failEpilogue u e s = s.modify u (failed e) := by
  unfold failEpilogue
  have hd : ∀ t : State, (t.periph u).core = (s.periph u).core → (t.periph u).cr.en = (s.periph u).cr.en →
      disable u t = t.modify u idled := by
    intro t hc he
    exact disable_eq (by simp only [State.cr_eq, State.core_eq, hc, he]; exact q.1)
  by_cases hi : (s.periph u).h.inst = some .saes
  · simp only [clearRngeifOnSaes, addErrors, clearRweif, clearKeif, clearCcf, State.h_eq,
      State.modH_periph, State.modFl_periph, hi, if_true]
    rw [hd _ (by simp [clearRngeif, crApply]) (by simp [clearRngeif, crApply])]
    simp only [clearRngeif, ierWrite, abandonDma, State.modH_eq, State.modFl_eq, State.modCr_eq,
        State.modify_modify]
    refine State.modify_congr ?_
    simp [failed, flagsCleared, idled, crApply, failHandle, ierNone, hi]
  · simp only [clearRngeifOnSaes, addErrors, clearRweif, clearKeif, clearCcf, State.h_eq,
      State.modH_periph, State.modFl_periph, hi, if_false]
    rw [hd _ (by simp [crApply]) (by simp [crApply])]
    simp only [ierWrite, abandonDma, State.modH_eq, State.modFl_eq, State.modCr_eq, State.modify_modify]
    refine State.modify_congr (congrArg dmaAbandoned ?_)
    simp [flagsCleared, idled, crApply, failHandle, ierNone, hi]

/-! ### Completing a job -/

/-- A key derivation completes (40_register_access.md R152). -/
theorem finishJob_derivation {u : Inst} {s : State} {b : Bool}
    (h : (s.periph u).core.job = some .keyDeriv) :
    finishJob u b s = s.modify u (derivationFinished b) := by
  unfold finishJob
  simp only [State.core_eq, h]
  rw [if_pos trivial, if_pos (.inr trivial), State.modCore_eq, State.modFl_eq, State.modCore_eq,
    State.modCr_eq, State.modify_modify, State.modify_modify, State.modify_modify]
  rfl

/-- Any other job completes (40_register_access.md R152, R156). -/
theorem finishJob_data {u : Inst} {s : State} {b : Bool} {j : Job}
    (h : (s.periph u).core.job = some j) (hj : j ≠ .keyDeriv) :
    finishJob u b s =
      { s.modify u (dataFinished u b j) with
        shareSlots :=
          if keyArrives u j (s.periph u) = true ∧ (s.periph u).cr.kmod = .shared then
            assocPut (s.periph u).cr.kshareid.toNat
              (Config.keyOfWords (s.periph u).cr.keysize
                ((s.periph u).core.keyWords ++ (transformOf j (s.periph u)).1.toList)) s.shareSlots
          else s.shareSlots } := by
  have hi : (j = .init ∨ j = .keyDeriv) ↔ j = .init := by simp [hj]
  unfold finishJob
  simp only [State.core_eq, h]
  rw [if_neg hj]
  unfold finishData collectKey
  simp only [hi]
  cases u <;> simp only [State.periph] at h <;> by_cases h1 : j = .init
  all_goals
    first
    | subst h1
      simp [keyResult, keyArrives, dataFinished, producesOutput, State.modify, State.setPeriph,
        State.modFl, State.modCore, State.modCr, State.periph, crApply, transformOf]
    | skip
  · by_cases h2 : keyResult .aes s.aes.cr j = true
    · simp [keyResult, outputSkip] at h2
      split at h2 <;> simp at h2
    · simp [h1, h2, keyArrives, dataFinished, State.modify, State.setPeriph, State.modFl,
        State.modCore, State.periph, transformOf]
  · by_cases h2 : keyResult .saes s.saes.cr j = true
    · by_cases h3 : s.saes.cr.keysize.words ≤ s.saes.core.keyWords.length + 4
      · by_cases h4 : s.saes.cr.kmod = .shared
        · simp [h1, h2, h3, h4, keyArrives, dataFinished, State.modify, State.setPeriph,
            State.modFl, State.modCore, State.periph, transformOf]
          rw [← h4]
        · simp [h1, h2, h3, h4, keyArrives, dataFinished, State.modify, State.setPeriph,
            State.modFl, State.modCore, State.periph, transformOf]
      · simp [h1, h2, h3, keyArrives, dataFinished, State.modify, State.setPeriph, State.modFl,
          State.modCore, State.periph, transformOf]
    · simp [h1, h2, keyArrives, dataFinished, State.modify, State.setPeriph, State.modFl,
        State.modCore, State.periph, transformOf]

/-! ### Waiting -/

theorem park_waiting {p : Pos} (s : State) (h : inHandler p.proc = false) : park p s = waiting p s := by
  simp [park, h, waiting]

/-! ### IV and key words -/

/-- `WriteIV(a)` (42_key_iv.md R230). -/
theorem writeIv_eq {u : Inst} {a : Word} {s : State} (h : (s.cr u).en = false)
    (ha : wordsAdmitted s a 4) :
    writeIv u a s = .ok (s.modify u fun p => { p with ivr := ivOfMemory s.mem a }) := by
  have step : ∀ (i : Fin 4) (j : Nat) (t : State), j < 4 → t.mem = s.mem → t.alloc = s.alloc →
      (t.cr u).en = false → loadIvWord u a t (i, j) =
        .ok (t.modify u fun p => { p with ivr := p.ivr.set i (Memory.readWord s.mem (wordAddr a j)) }) := by
    intro i j t hj hm hl he
    have hadm : t.admits (wordAddr a j) = true := by
      have := ha j hj; unfold State.admits at *; rwa [hl]
    have he' : (t.periph u).cr.en = false := he
    simp [loadIvWord, memRead, hadm, hm, ivrWrite, he']
  have h' : (s.periph u).cr.en = false := h
  unfold writeIv
  simp only [List.foldlM_cons, List.foldlM_nil]
  rw [step _ _ s (by omega) rfl rfl h, ok_bind,
      step _ _ _ (by omega) (by simp) (by simp) (by simpa using h)]
  rw [ok_bind, State.modify_modify, step _ _ _ (by omega) (by simp) (by simp) (by simpa using h)]
  rw [ok_bind, State.modify_modify, step _ _ _ (by omega) (by simp) (by simp) (by simpa using h)]
  rw [ok_bind, State.modify_modify]
  simp only [Pure.pure, Except.pure]
  congr 1
  refine State.modify_congr ?_
  generalize s.periph u = p at *
  congr 1
  ext i hi
  simp only [ivOfMemory, Vector.getElem_ofFn]
  have : i = 0 ∨ i = 1 ∨ i = 2 ∨ i = 3 := by omega
  rcases this with rfl | rfl | rfl | rfl <;> simp

/-- One key word stored while marks are missing (40_register_access.md R149). -/
theorem loadKeyWord_eq {u : Inst} {a : Word} {k : KeySize} {i : Fin 8} {j : Nat} {t : State}
    {m : Vector Bool 8} (h : (t.periph u).cr.en = false) (hk : (t.periph u).cr.keysize = k)
    (hm : (t.periph u).core.keyMarks = m) (hi : i.val < k.words)
    (ha : t.admits (wordAddr a j) = true) :
    loadKeyWord u a t (i, j) =
      .ok ((if keyComplete k.words (m.set i true) then coreKeyLoad u .software else id)
        (t.modify u fun p =>
          { p with
            keyr := p.keyr.set i (Memory.readWord t.mem (wordAddr a j))
            fl := { p.fl with keyvalid := p.fl.keyvalid && m.toList.any id }
            core := { p.core with keyMarks := m.set i true } })) := by
  subst hk hm
  simp only [loadKeyWord, memRead, ha, if_true, ok_bind, keyrWrite, h,
    Bool.false_eq_true, if_false, Nat.not_le.mpr hi, Bool.not_not]
  split <;> rfl

/-- `WriteKey(a, k)` starts the software key load (42_key_iv.md R221). -/
theorem writeKey_eq {u : Inst} {a : Word} {k : KeySize} {s : State} (h : (s.periph u).cr.en = false)
    (hk : (s.periph u).cr.keysize = k)
    (hm : (s.periph u).core.keyMarks = Vector.replicate 8 false) (ha : wordsAdmitted s a k.words) :
    writeKey u a k s =
      .ok (s.modify u fun p =>
        loadStarted .software { p with keyr := keyOfMemory s.mem a k p.keyr }) := by
  have adm : ∀ (t : State) (j : Nat), t.alloc = s.alloc → j < k.words →
      t.admits (wordAddr a j) = true := by
    intro t j hl hj
    have := ha j hj; unfold State.admits at *; rwa [hl]
  unfold writeKey
  cases k
  · simp only [keyOrder, List.foldlM_cons, List.foldlM_nil]
    rw [loadKeyWord_eq h hk hm (by decide) (adm s 0 rfl (by decide))]
    rw [ok_bind, if_neg (by decide), id,
      loadKeyWord_eq (by simpa using h) (by simpa using hk) (by simp; rfl) (by decide) (adm _ 1 (by simp) (by decide))]
    rw [ok_bind, if_neg (by decide), id,
      loadKeyWord_eq (by simpa using h) (by simpa using hk) (by simp; rfl) (by decide) (adm _ 2 (by simp) (by decide))]
    rw [ok_bind, if_neg (by decide), id,
      loadKeyWord_eq (by simpa using h) (by simpa using hk) (by simp; rfl) (by decide) (adm _ 3 (by simp) (by decide))]
    rw [ok_bind, if_pos (by decide)]
    simp only [coreKeyLoad, State.modFl_eq, State.modCore_eq, State.modify_modify, Pure.pure,
      Except.pure, State.modify_mem]
    congr 1
    refine State.modify_congr ?_
    generalize s.periph u = p at *
    simp only [loadStarted]
    congr 1
    ext i hi
    simp only [keyOfMemory, Vector.getElem_ofFn, KeySize.words]
    have : i = 0 ∨ i = 1 ∨ i = 2 ∨ i = 3 ∨ i = 4 ∨ i = 5 ∨ i = 6 ∨ i = 7 := by omega
    rcases this with rfl | rfl | rfl | rfl | rfl | rfl | rfl | rfl <;> simp
  · simp only [keyOrder, List.foldlM_cons, List.foldlM_nil]
    rw [loadKeyWord_eq h hk hm (by decide) (adm s 0 rfl (by decide))]
    rw [ok_bind, if_neg (by decide), id,
      loadKeyWord_eq (by simpa using h) (by simpa using hk) (by simp; rfl) (by decide) (adm _ 1 (by simp) (by decide))]
    rw [ok_bind, if_neg (by decide), id,
      loadKeyWord_eq (by simpa using h) (by simpa using hk) (by simp; rfl) (by decide) (adm _ 2 (by simp) (by decide))]
    rw [ok_bind, if_neg (by decide), id,
      loadKeyWord_eq (by simpa using h) (by simpa using hk) (by simp; rfl) (by decide) (adm _ 3 (by simp) (by decide))]
    rw [ok_bind, if_neg (by decide), id,
      loadKeyWord_eq (by simpa using h) (by simpa using hk) (by simp; rfl) (by decide) (adm _ 4 (by simp) (by decide))]
    rw [ok_bind, if_neg (by decide), id,
      loadKeyWord_eq (by simpa using h) (by simpa using hk) (by simp; rfl) (by decide) (adm _ 5 (by simp) (by decide))]
    rw [ok_bind, if_neg (by decide), id,
      loadKeyWord_eq (by simpa using h) (by simpa using hk) (by simp; rfl) (by decide) (adm _ 6 (by simp) (by decide))]
    rw [ok_bind, if_neg (by decide), id,
      loadKeyWord_eq (by simpa using h) (by simpa using hk) (by simp; rfl) (by decide) (adm _ 7 (by simp) (by decide))]
    rw [ok_bind, if_pos (by decide)]
    simp only [coreKeyLoad, State.modFl_eq, State.modCore_eq, State.modify_modify, Pure.pure,
      Except.pure, State.modify_mem]
    congr 1
    refine State.modify_congr ?_
    generalize s.periph u = p at *
    simp only [loadStarted]
    congr 1
    ext i hi
    simp only [keyOfMemory, Vector.getElem_ofFn, KeySize.words]
    have : i = 0 ∨ i = 1 ∨ i = 2 ∨ i = 3 ∨ i = 4 ∨ i = 5 ∨ i = 6 ∨ i = 7 := by omega
    rcases this with rfl | rfl | rfl | rfl | rfl | rfl | rfl | rfl <;> simp

/-! ### The FIFOs and the pump -/

/-- The core accepts a word (40_register_access.md R145). -/
theorem dinWrite_accept {u : Inst} {w : Word} {s : State} (he : (s.periph u).cr.en = true)
    (hj : (s.periph u).core.job = none) (ho : (s.periph u).core.outFifo = [])
    (hi : (s.periph u).core.inFifo.length ≤ 3) :
    dinWrite u w s =
      .ok (s.modCore u (pushInput (swap (s.periph u).cr.datatype w))) := by
  unfold dinWrite
  simp only [he, hj, ho]
  rw [if_neg (by simp), if_neg (by simp; omega)]

/-- Four accepted words start the block (40_register_access.md R145). -/
theorem dinWrite_block {u : Inst} {s : State} (w0 w1 w2 w3 : Word)
    (he : (s.periph u).cr.en = true) (hj : (s.periph u).core.job = none)
    (ho : (s.periph u).core.outFifo = []) (hi : (s.periph u).core.inFifo = []) :
    ((do
      let s ← dinWrite u w0 s
      let s ← dinWrite u w1 s
      let s ← dinWrite u w2 s
      dinWrite u w3 s) : Res) =
      .ok (s.modify u fun p =>
        { p with core := { p.core with job := some (.block (swap p.cr.datatype w0)
          (swap p.cr.datatype w1) (swap p.cr.datatype w2) (swap p.cr.datatype w3)) } }) := by
  rw [dinWrite_accept he hj ho (by simp [hi]), ok_bind,
    dinWrite_accept (by simp [he]) (by simp [pushInput, hi, hj]) (by simp [pushInput, hi, ho])
      (by simp [pushInput, hi]), ok_bind,
    dinWrite_accept (by simp [he]) (by simp [pushInput, hi, hj]) (by simp [pushInput, hi, ho])
      (by simp [pushInput, hi]), ok_bind,
    dinWrite_accept (by simp [he]) (by simp [pushInput, hi, hj]) (by simp [pushInput, hi, ho])
      (by simp [pushInput, hi])]
  simp only [State.modCore_eq, State.modify_modify, State.modify_periph]
  congr 1
  refine State.modify_congr ?_
  generalize s.periph u = p at *
  obtain ⟨ph, cr, fl, ier, k, i, sp, core, a, b, c⟩ := p
  obtain ⟨⟩ := core
  simp_all [pushInput]

theorem admits_mono {s t : State} {a : Nat} (h : t.alloc = s.alloc) : t.admits a = s.admits a := by
  unfold State.admits; rw [h]

/-- A block word is read or zero (43_block_pump.md R252). -/
theorem blockWord_eq {t : DataType} {p : Word} {i j len : Nat} {s : State} (hj : j < 4)
    (ha : blockAdmitted s p i len) : blockWord t p i j len s = .ok (paddedWord t s.mem p i len j) := by
  unfold blockWord paddedWord
  simp only
  split
  · have := ha j hj (by omega)
    simp [memRead, this]
  · split
    · have := ha j hj (by assumption)
      simp [memRead, this]
    · rfl

theorem four_congr {f g : Nat → State → Res} {K : State → Prop} {s : State}
    (h : ∀ j t, j < 4 → K t → f j t = g j t) (k : ∀ j t, K t → Post K (g j t)) (hs : K s) :
    four f s = four g s := by
  have cong : ∀ {r : Res} {a b : State → Res}, Post K r → (∀ t, K t → a t = b t) →
      (r >>= a) = (r >>= b) := by
    intro r a b hr hab
    cases r with
    | error e => rfl
    | ok t => exact hab t (hr t rfl)
  unfold four
  rw [h 0 s (by omega) hs]
  refine cong (k 0 s hs) fun s hs => ?_
  rw [h 1 s (by omega) hs]
  refine cong (k 1 s hs) fun s hs => ?_
  rw [h 2 s (by omega) hs]
  exact cong (k 2 s hs) fun s hs => h 3 s (by omega) hs

/-- `WriteNext()` starts the next block (43_block_pump.md R255). -/
theorem writeNext_eq {u : Inst} {s : State} {ph : PumpPhase}
    (hp : phaseOf (s.periph u).h.algorithm (s.periph u).cr.gcmph = some ph)
    (he : (s.periph u).cr.en = true) (hj : (s.periph u).core.job = none)
    (ho : (s.periph u).core.outFifo = []) (hi : (s.periph u).core.inFifo = [])
    (ha : nextAdmitted s ph (s.periph u)) :
    writeNext u s = .ok (s.modify u (nextBlock ph s.mem)) := by
  have hc : currentPhase u s = .ok ph := by simp [currentPhase, hp]
  have hn : setNpblb u ph (s.periph u).h.blockIndex.toNat s =
      .ok (s.modify u fun p => { p with cr := npblbSet ph p.h.blockIndex.toNat p.h p.cr }) := by
    unfold setNpblb
    split
    · rename_i h
      rw [crWrite_npblb (by simpa using hj)]
      congr 1
      refine State.modify_congr ?_
      simp only [State.h_eq, State.cr_eq] at h
      simp [npblbSet, h]
    · rename_i h
      refine congrArg _ (State.modify_id ?_).symm
      simp only [State.h_eq, State.cr_eq, Bool.not_eq_true] at h
      simp [npblbSet, h]
  have hd : ∀ c : CR, ∀ ix h, (npblbSet ph ix h c).datatype = c.datatype ∧ (npblbSet ph ix h c).en = c.en := by
    intro c ix h; unfold npblbSet; split <;> simp
  unfold writeNext
  rw [hc, ok_bind]
  simp only [State.h_eq]
  rw [hn, ok_bind]
  have key : ∀ (j : Nat) (t : State), j < 4 → t.mem = s.mem → t.alloc = s.alloc →
      (t.periph u).h = (s.periph u).h → (t.periph u).cr.datatype = (s.periph u).cr.datatype →
      writeBlockWord u ph (s.periph u).h.blockIndex.toNat j t =
        dinWrite u (paddedWord (s.periph u).cr.datatype s.mem (phaseBuf ph (s.periph u).h)
          (s.periph u).h.blockIndex.toNat (phaseLen ph (s.periph u).h) j) t := by
    intro j t hj hm hl hh hdt
    unfold writeBlockWord
    simp only [State.h_eq, State.cr_eq, hh, hdt]
    rw [blockWord_eq hj, ok_bind, hm]
    intro j hj hlt
    rw [admits_mono hl]
    exact ha j hj hlt
  generalize ht : (s.modify u fun p => { p with cr := npblbSet ph p.h.blockIndex.toNat p.h p.cr }) = t
  have het : (t.periph u).cr.en = true := by subst ht; simpa [hd] using he
  have hjt : (t.periph u).core.job = none := by subst ht; simpa using hj
  have hot : (t.periph u).core.outFifo = [] := by subst ht; simpa using ho
  have hit : (t.periph u).core.inFifo = [] := by subst ht; simpa using hi
  have hm : t.mem = s.mem := by subst ht; simp
  have hl : t.alloc = s.alloc := by subst ht; simp
  have hh : (t.periph u).h = (s.periph u).h := by subst ht; simp
  have hdt : (t.periph u).cr.datatype = (s.periph u).cr.datatype := by subst ht; simp [hd]
  have keep : ∀ (w : Word) (a b : State), dinWrite u w a = .ok b → b.mem = a.mem ∧
      b.alloc = a.alloc ∧ (b.periph u).h = (a.periph u).h ∧
      (b.periph u).cr.datatype = (a.periph u).cr.datatype := by
    intro w a b h
    unfold dinWrite at h
    simp only at h
    split at h
    · cases h
    · split at h <;> cases h <;> simp
  rw [four_congr (K := fun a => a.mem = s.mem ∧ a.alloc = s.alloc ∧
      (a.periph u).h = (s.periph u).h ∧ (a.periph u).cr.datatype = (s.periph u).cr.datatype)
    (g := fun j => dinWrite u (paddedWord (s.periph u).cr.datatype s.mem (phaseBuf ph (s.periph u).h)
          (s.periph u).h.blockIndex.toNat (phaseLen ph (s.periph u).h) j))
    (fun j a hj ha => key j a hj ha.1 ha.2.1 ha.2.2.1 ha.2.2.2)
    (fun j a ha b hb => by
      obtain ⟨h1, h2, h3, h4⟩ := keep _ _ _ hb
      exact ⟨h1.trans ha.1, h2.trans ha.2.1, h3.trans ha.2.2.1, h4.trans ha.2.2.2⟩)
    ⟨hm, hl, hh, hdt⟩]
  unfold four
  rw [dinWrite_block _ _ _ _ het hjt hot hit, ok_bind]
  subst ht
  simp only [State.modH_eq, State.modify_modify]
  congr 1
  refine State.modify_congr ?_
  simp [nextBlock, blockWritten, blockJob, hd]

/-- The state with the output FIFO of `u` and caller memory set. -/
def withOutput (u : Inst) (s : State) (q : List Word) (m : List Host.Cell) : State :=
  { s.modify u fun p => { p with core := { p.core with outFifo := q } } with mem := m }

theorem withOutput_self {u : Inst} {s : State} {q : List Word} (h : (s.periph u).core.outFifo = q) :
    withOutput u s q s.mem = s := by
  unfold withOutput
  rw [State.modify_id (by subst h; rfl)]

theorem withOutput_periph (u : Inst) (s : State) (q : List Word) (m : List Host.Cell) :
    (withOutput u s q m).periph u =
      { s.periph u with core := { (s.periph u).core with outFifo := q } } := by
  unfold withOutput; rw [State.with_mem_periph, State.modify_periph]

/-- One word read of the output FIFO (40_register_access.md R146). -/
theorem doutRead_eq {u : Inst} {s : State} {c : Word} {q : List Word} {m : List Host.Cell}
    (he : (s.periph u).cr.en = true) :
    doutRead u (withOutput u s (c :: q) m) =
      .ok (swap (s.periph u).cr.datatype c, withOutput u s q m) := by
  unfold doutRead withOutput
  cases u <;> simp_all [State.periph, State.modify, State.setPeriph, State.modCore]

/-- One output word is read and, within the byte count, stored (43_block_pump.md R254). -/
theorem readBlockWord_eq {u : Inst} {s : State} {i j : Nat} {c : Word} {q : List Word}
    {m : List Host.Cell} (he : (s.periph u).cr.en = true)
    (ha : 16 * i + 4 * j < (s.periph u).h.dataSizeByte.toNat →
      s.admits ((s.periph u).h.pOut.toNat + (16 * i + 4 * j)) = true) :
    readBlockWord u i j (withOutput u s (c :: q) m) =
      .ok (withOutput u s q (outStored m (s.periph u).h.pOut i (s.periph u).h.dataSizeByte.toNat j
        (swap (s.periph u).cr.datatype c))) := by
  have hh : ((withOutput u s q m).periph u).h = (s.periph u).h := by rw [withOutput_periph]
  have hl : (withOutput u s q m).alloc = s.alloc := by simp [withOutput]
  have hm : (withOutput u s q m).mem = m := rfl
  unfold readBlockWord outStored
  rw [doutRead_eq he, ok_bind]
  simp only [State.h_eq, hh]
  split
  · rename_i hlt
    unfold memWrite
    rw [admits_mono hl, if_pos (ha hlt), hm]
    rfl
  · rfl

/-- `ReadOut(i)` stores the block's words (43_block_pump.md R254). -/
theorem readOut_eq {u : Inst} {s : State} {i : Nat} {ph : PumpPhase} {c0 c1 c2 c3 : Word}
    (hp : phaseOf (s.periph u).h.algorithm (s.periph u).cr.gcmph = some ph) (hh : ph ≠ .header)
    (hs : outputSkip u (s.periph u).cr = false) (he : (s.periph u).cr.en = true)
    (hq : (s.periph u).core.outFifo = [c0, c1, c2, c3])
    (ha : blockAdmitted s (s.periph u).h.pOut i (s.periph u).h.dataSizeByte.toNat) :
    readOut u i s =
      .ok (withOutput u s [] (blockStored s.mem (s.periph u).h.pOut i
        (s.periph u).h.dataSizeByte.toNat (swap (s.periph u).cr.datatype c0)
        (swap (s.periph u).cr.datatype c1) (swap (s.periph u).cr.datatype c2)
        (swap (s.periph u).cr.datatype c3))) := by
  have hc : currentPhase u s = .ok ph := by simp [currentPhase, hp]
  unfold readOut
  rw [hc, ok_bind, if_neg (by simp [hh, hs])]
  conv_lhs => rw [← withOutput_self hq]
  unfold four
  rw [readBlockWord_eq he (ha 0 (by omega)), ok_bind, readBlockWord_eq he (ha 1 (by omega)),
      ok_bind,
    readBlockWord_eq he (ha 2 (by omega)), ok_bind, readBlockWord_eq he (ha 3 (by omega))]
  rfl

/-- `ReadTag(a)` stores the tag (44_phase_machine.md R303). -/
theorem readTag_eq {u : Inst} {s : State} {a : Word} {c0 c1 c2 c3 : Word}
    (he : (s.periph u).cr.en = true) (hq : (s.periph u).core.outFifo = [c0, c1, c2, c3])
    (ha : wordsAdmitted s a 4) :
    readTag u a s =
      .ok (withOutput u s [] (Memory.writeWord (Memory.writeWord (Memory.writeWord (Memory.writeWord
        s.mem (wordAddr a 0) (swap (s.periph u).cr.datatype c0))
        (wordAddr a 1) (swap (s.periph u).cr.datatype c1))
        (wordAddr a 2) (swap (s.periph u).cr.datatype c2))
        (wordAddr a 3) (swap (s.periph u).cr.datatype c3))) := by
  have word : ∀ (j : Nat) (c : Word) (q : List Word) (m : List Host.Cell), j < 4 →
      readTagWord u a j (withOutput u s (c :: q) m) =
        .ok (withOutput u s q (Memory.writeWord m (wordAddr a j) (swap (s.periph u).cr.datatype c))) := by
    intro j c q m hj
    unfold readTagWord
    rw [doutRead_eq he, ok_bind]
    have hl : (withOutput u s q m).alloc = s.alloc := by simp [withOutput]
    simp only [memWrite, admits_mono hl, ha j hj]
    rfl
  unfold readTag
  conv_lhs => rw [← withOutput_self hq]
  unfold four
  rw [word 0 _ _ _ (by omega), ok_bind, word 1 _ _ _ (by omega), ok_bind, word 2 _ _ _ (by omega),
    ok_bind, word 3 _ _ _ (by omega)]

/-! ### Process calls -/

theorem outputSkip_normal {u : Inst} {c : CR} (h : c.kmod = .normal) : outputSkip u c = false := by
  simp [outputSkip, h]

/-- The message checks all pass (44_phase_machine.md R299). -/
theorem msgCheck_none {u : Inst} {dir : Direction} {t : Transport} {a n o : Word} {s : State}
    (h : callChecked u dir t a n o s) : msgCheck u dir n s = none := by
  obtain ⟨-, -, -, -, -, -, -, -, -, h1, h2, h3, h4, h5, h6⟩ := h
  unfold msgCheck
  simp only
  rw [if_neg (by simp only [h1]; simp),
      if_neg (by rintro ⟨x, y⟩; rcases h2 with h | h <;> contradiction),
    if_neg (by rintro ⟨x, y⟩; exact y (h3 x)), if_neg (by rintro ⟨x, y⟩; rw [h4 x] at y; cases y),
    if_neg (by omega), if_neg (by simp only [h6]; simp)]

/-- A call whose checks before the key check pass (45_transport.md R323). -/
theorem entryCheck_checked {u : Inst} {dir : Direction} {t : Transport} {a n o : Word} {s : State}
    {go : State → Res} (h : callChecked u dir t a n o s) :
    entryCheck u dir t a n o s go =
      let s' := s.modify u (entered dir t a n o)
      if (s.fl u).keyvalid = true then go s' else failMain u .error errKey s' := by
  have hm := msgCheck_none h
  obtain ⟨h1, h2, h3, h4, h5, h6, h7, h8, h9, -, -, -, -, -, hk⟩ := h
  unfold entryCheck
  simp only
  rw [if_neg (by rintro (x | x | x) <;> contradiction), if_neg (by rintro ⟨x, y⟩; exact y (h4 x)),
    if_neg (by rintro ⟨x, y⟩; obtain ⟨z, w, -⟩ := h5 x; simp [z, w] at y), h6, h7, h8,
    if_neg (by simp), if_neg (by simp), if_neg (by simp only [h9]; simp),
    if_neg (by rw [outputSkip_normal hk]; simp), hm]
  simp only
  rw [if_neg (by rintro ⟨x, y⟩; obtain ⟨-, -, z, w⟩ := h5 x; simp [z, w] at y), State.modH_eq]
  cases hv : (s.fl u).keyvalid
  · rw [if_pos (by simp only [State.fl_eq] at hv ⊢; simp [hv]), if_neg (by simp)]; rfl
  · rw [if_neg (by simp only [State.fl_eq] at hv ⊢; simp [hv]), if_pos rfl]; rfl

/-- A call whose checks all pass (45_transport.md R323). -/
theorem entryCheck_admitted {u : Inst} {dir : Direction} {t : Transport} {a n o : Word} {s : State}
    {go : State → Res} (h : callAdmitted u dir t a n o s) :
    entryCheck u dir t a n o s go = go (s.modify u (entered dir t a n o)) := by
  rw [entryCheck_checked h.1]
  simp only
  rw [if_pos h.2]

/-- `CR.MODE <- m; CR.EN <- 1` from the disabled instance (44_phase_machine.md R282). -/
theorem enableMode {u : Inst} {m : Mode} {s : State} (q : coreQuiet (s.periph u))
    (k : (s.periph u).fl.keyvalid = true) (j : jobOnEnable (idledMode m (s.periph u)) = none) :
    ((do
      let s ← crWrite u (.mode m) (disable u s)
      crWrite u (.en true) s) : Res) =
      .ok (s.modify u fun p => enabledWith none (idledMode m p)) := by
  rw [disable_quiet q, crWrite_config (by simp [idled]) (.inl rfl) rfl (by simp), ok_bind,
    crWrite_en (by simp [crApply, idled]) (by left; simp [idled, k]), State.modify_modify,
    State.modify_modify]
  congr 1
  refine State.modify_congr ?_
  have e : ({ idled (s.periph u) with cr := crApply (.mode m) (idled (s.periph u)).cr } : Periph) =
      idledMode m (s.periph u) := rfl
  simp only [e, j]

/-- The setup of a call that waits for nothing (44_phase_machine.md R282). -/
theorem callSetup_setUp {u : Inst} {dir : Direction} {t : Transport} {a n o : Word} {s : State}
    {ph : PumpPhase} {q : Periph} {pr : Proc} {b : Bound} (h : setUp u dir t a n o s ph q)
    (k : (s.fl u).keyvalid = true) :
    callSetup u pr dir b (s.modify u (entered dir t a n o)) =
      afterSetup u pr (s.modify u fun _ => q) := by
  have re : ∀ (x : State) (f : Periph → Periph), restartBlocks u (x.modify u f) =
      x.modify u fun p => { f p with h := { (f p).h with blockIndex := 0 } } := by
    intro x f; unfold restartBlocks; rw [State.modH_eq, State.modify_modify]
  have hs : ((s.modify u (entered dir t a n o)).h u).dataSizeSum = (s.periph u).h.dataSizeSum := by
    simp [entered, enterHandle]
  have ha : ((s.modify u (entered dir t a n o)).h u).algorithm = (s.periph u).h.algorithm := by
    simp [entered, enterHandle]
  unfold callSetup
  simp only [hs, ha]
  rcases h with ⟨h1, h2, h3, h4, h5, -, rfl⟩ | ⟨h1, h2, -, h4, rfl⟩
  · rw [if_neg (by simp [h1]), if_pos h2, if_neg (by rintro ⟨x, y⟩; exact h3 ⟨x, y⟩)]
    unfold flatSetupEnd
    have hc : (s.periph u).cr.chmod = .ecb ∨ (s.periph u).cr.chmod = .cbc ∨ (s.periph u).cr.chmod = .ctr := by
      rw [h4] at h2
      revert h2; cases (s.periph u).cr.chmod <;> simp [flatAlg, ecbOrCbc]
    have hm : ∀ d, modeOfDirection d ≠ .keyDeriv := by intro d; cases d <;> simp [modeOfDirection]
    have hj : jobOnEnable (idledMode (modeOfDirection dir) (entered dir t a n o (s.periph u))) = none := by
      unfold jobOnEnable
      rw [if_neg (by simp [idledMode, hm]), if_neg]
      · simp [idledMode, idled]
      · rintro ⟨x, -⟩; simp only [idledMode, entered] at x
        rcases hc with hc | hc | hc <;> rw [hc] at x <;> simp at x
    have := enableMode (u := u) (m := modeOfDirection dir) (s := s.modify u (entered dir t a n o))
      (by simpa [coreQuiet, entered] using h5) (by simpa [entered] using k) (by simpa using hj)
    rw [← bind_assoc, this, ok_bind, State.modify_modify, re]
    congr 1
  · rw [if_pos h1, re]
    congr 1

/-- The INIT phase is started (44_phase_machine.md R283). -/
theorem phaseInitStart_eq {u : Inst} {m : Mode} {s : State} (q : coreQuiet (s.periph u))
    (k : (s.periph u).fl.keyvalid = true)
    (a : (s.periph u).cr.chmod = .gcmGmac ∨ (s.periph u).cr.chmod = .ccm) (hm : m ≠ .keyDeriv) :
    phaseInitStart u m s = .ok (s.modify u (initStarted m)) := by
  unfold phaseInitStart
  rw [disable_quiet q, crWrite_config (by simp [idled]) (.inl rfl) rfl (by simp), ok_bind,
    crWrite_phase (by simp [idled]) (by simp), ok_bind, crWrite_npblb (by simp [idled]), ok_bind,
    crWrite_en (by simp [crApply, idled]) (by left; simp [idled, k])]
  simp only [State.modify_modify]
  congr 1
  refine State.modify_congr ?_
  have j : jobOnEnable
      { idled (s.periph u) with
        cr := { (s.periph u).cr with en := false, mode := m, gcmph := .init, npblb := 0 } } =
      some .init := by
    unfold jobOnEnable
    rw [if_neg (by simpa using hm), if_pos ⟨by simpa using a, rfl⟩]
  unfold initStarted
  rw [← j]
  rfl

/-- The key derivation is started (42_key_iv.md R231). -/
theorem keyDerivStart_eq {u : Inst} {s : State} (q : coreQuiet (s.periph u))
    (k : (s.periph u).fl.keyvalid = true) :
    keyDerivStart u s = .ok (s.modify u derivStarted) := by
  unfold keyDerivStart
  rw [disable_quiet q, crWrite_config (by simp [idled]) (.inl rfl) rfl (by simp), ok_bind,
    crWrite_en (by simp [crApply, idled]) (by left; simp [idled, k]), State.modify_modify,
    State.modify_modify]
  congr 1

theorem idled_idled (p : Periph) : idled (idled p) = idled p := rfl

theorem coreQuiet_idled (p : Periph) : coreQuiet (idled p) := by simp [coreQuiet, idled]

/-- A tag command whose checks pass (44_phase_machine.md R300, R301). -/
theorem tagCheck_checked {u : Inst} {k : TagKind} {a : Word} {s : State} {go : State → Res}
    (h : tagChecked u k a s) : tagCheck u k a s go = go s := by
  obtain ⟨h1, h2, h3, h4, h5, h6, h7, h8, h9⟩ := h
  unfold tagCheck
  simp only
  rw [if_neg h1, if_neg (by simp only [h2]; simp), h3, if_neg (by simp),
    if_neg (by simp only [h4]; simp), if_neg h5, if_neg (by rintro ⟨x, y⟩; exact h6 x y),
    if_neg (by rintro ⟨x, y⟩; rw [h7 x] at y; cases y), if_neg (by simp only [h8]; simp),
    if_neg (by rintro ⟨x, y⟩; have := h9 x; omega)]

/-- A wrap or share command whose checks before the key check pass (47_key_wrap_share.md R405). -/
theorem keyOpCheck_checked {m : KMod} {a : Word} {o k : Option Word} {s : State} {go : State → Res}
    (h : keyOpChecked m a o k s) :
    keyOpCheck .saes m a o k s go =
      let s' := s.modify .saes (keyOpEntered a (o.getD null))
      if (s.fl .saes).keyvalid = true then go s' else failMain .saes .error errKey s' := by
  obtain ⟨h1, h2, h3, h4, h5, h6, h7, h8, h9, h10, h11, h12, h13⟩ := h
  unfold keyOpCheck
  simp only
  rw [if_neg (by rintro (x | x) <;> contradiction), h3, if_neg (by simp),
    if_neg (by simp only [h4]; simp), h5, if_neg (by simp), if_neg (by simp only [h6]; simp), h7, h8,
    if_neg (by simp), if_neg (by simp only [h9]; simp), if_neg (by simp only [h10, h11]; simp),
    if_neg h12, if_neg (by rintro ⟨x, y⟩; rw [h13 x] at y; cases y), State.modH_eq]
  cases hv : (s.fl .saes).keyvalid
  · rw [if_pos (by simp only [State.fl_eq] at hv ⊢; simp [hv]), if_neg (by simp)]; rfl
  · rw [if_neg (by simp only [State.fl_eq] at hv ⊢; simp [hv]), if_pos rfl]; rfl

/-- The data swap undoes itself (30_encoding.md R121). -/
theorem swap_swap (t : DataType) (w : Word) : swap t (swap t w) = w := by
  cases t
  · rfl
  · unfold swap
    apply BitVec.eq_of_getLsbD_eq
    intro i hi
    simp only [BitVec.getLsbD_append, BitVec.getLsbD_extractLsb']
    by_cases h : i < 16
    · have : ¬(16 + i < 16) := by omega
      simp [h, this, show 16 + i - 16 = i by omega]
    · have : i - 16 < 16 := by omega
      simp [h, this, show 16 + (i - 16) = i by omega]
  · unfold swap
    apply BitVec.eq_of_getLsbD_eq
    intro i hi
    simp only [BitVec.getLsbD_append, BitVec.getLsbD_extractLsb', Nat.zero_add]
    repeat' split
    all_goals first
      | omega
      | (rw [decide_eq_true (by omega), decide_eq_true (by omega), Bool.true_and, Bool.true_and]
         congr 1; omega)
      | (rw [decide_eq_true (by omega), Bool.true_and, Bool.true_and]; congr 1; omega)
  · simp [swap]

/-! ### Boundaries -/

/-- The next block at a boundary, after the move to PAYLOAD where it is due (44_phase_machine.md R284,
45_transport.md R331). -/
theorem boundary_eq {u : Inst} {s : State} {ph : PumpPhase}
    (hp : phaseOf (s.periph u).h.algorithm (s.periph u).cr.gcmph = some ph) (hr : coreReady (s.periph u))
    (hn : nextAdmitted s (boundaryPhase ph (s.periph u).h) (boundaryMoved ph (s.periph u))) :
    (do
      let s ← doIf (ph = .header ∧ (s.h u).blockIndex.toNat = phaseBlocks .header (s.h u)) (headerToPayload u) s
      writeNext u s : Res) = .ok (s.modify u (boundaryWritten ph s.mem)) ∧
    (do
      let s ← doIf (ph = .header ∧ (s.h u).blockIndex.toNat = phaseBlocks .header (s.h u)) (headerToPayload u) s
      currentPhase u s : Except Stop PumpPhase) = .ok (boundaryPhase ph (s.periph u).h) := by
  obtain ⟨r1, r2, r3, r4⟩ := hr
  by_cases hc : ph = .header ∧ (s.periph u).h.blockIndex.toNat = phaseBlocks .header (s.periph u).h
  · have hd : doIf (ph = .header ∧ (s.h u).blockIndex.toNat = phaseBlocks .header (s.h u)) (headerToPayload u) s = .ok (s.modify u (boundaryMoved ph)) := by
      rw [doIf, if_pos hc]
      unfold headerToPayload restartBlocks
      rw [crWrite_phase (by simpa using r2) (by simp), ok_bind, State.modH_eq, State.modify_modify]
      congr 1
      apply State.modify_congr
      unfold boundaryMoved; rw [if_pos hc]
    have hph : phaseOf (boundaryMoved ph (s.periph u)).h.algorithm (boundaryMoved ph (s.periph u)).cr.gcmph = some .payload := by
      unfold boundaryMoved; rw [if_pos hc]
      rw [hc.1] at hp
      simp only
      revert hp
      cases (s.periph u).h.algorithm with
      | none => simp [phaseOf]
      | some x => cases x <;> cases (s.periph u).cr.gcmph <;> simp [phaseOf]
    have hbp : boundaryPhase ph (s.periph u).h = .payload := by unfold boundaryPhase; rw [if_pos hc]
    have hcore : (boundaryMoved ph (s.periph u)).core = (s.periph u).core ∧ (boundaryMoved ph (s.periph u)).cr.en = (s.periph u).cr.en := by
      unfold boundaryMoved; rw [if_pos hc]; exact ⟨rfl, rfl⟩
    rw [hd, ok_bind, ok_bind, hbp]
    constructor
    · rw [writeNext_eq (ph := .payload) (by simpa using hph) (by simp [hcore, r1]) (by simp [hcore,
        r2]) (by simp [hcore, r4]) (by simp [hcore, r3])]
      · rw [State.modify_modify]; congr 1; apply State.modify_congr
        simp only [State.modify_mem, boundaryWritten, hbp]
      · intro j hj hl; rw [admits_mono (s := s) (by simp)]; simp only [State.modify_periph] at hl ⊢; rw [hbp] at hn; exact hn j hj hl
    · simp [currentPhase, hph]
  · have hd : doIf (ph = .header ∧ (s.h u).blockIndex.toNat = phaseBlocks .header (s.h u)) (headerToPayload u) s = .ok s := by
      rw [doIf, if_neg hc]
    have hm : boundaryMoved ph (s.periph u) = s.periph u := by unfold boundaryMoved; rw [if_neg hc]
    have hbp : boundaryPhase ph (s.periph u).h = ph := by unfold boundaryPhase; rw [if_neg hc]
    rw [hd, ok_bind, ok_bind, hbp]
    rw [hm, hbp] at hn
    constructor
    · rw [writeNext_eq hp r1 r2 r4 r3 hn]; congr 1; apply State.modify_congr
      simp only [boundaryWritten, hbp, hm]
    · simp [currentPhase, hp]

/-- The end of a header block (43_block_pump.md R259, R260). -/
theorem blockEnd_header {u : Inst} {s : State} (hp : phaseOf (s.periph u).h.algorithm (s.periph u).cr.gcmph = some .header) :
    blockEnd u s = .ok (clearCcf u s) := by
  unfold blockEnd readOut
  have : currentPhase u (clearCcf u s) = .ok .header := by simp [currentPhase, clearCcf, hp]
  rw [this, ok_bind, if_pos (.inl rfl)]

/-- The end of a block with output (43_block_pump.md R254, R260). -/
theorem blockEnd_out {u : Inst} {s : State} {ph : PumpPhase} {c0 c1 c2 c3} (hp : phaseOf (s.periph u).h.algorithm (s.periph u).cr.gcmph = some ph)
    (hh : ph ≠ .header) (ho : outputSkip u (s.periph u).cr = false) (hw : outputWords (s.periph u) c0 c1 c2 c3) (ha : outputAdmitted s (s.periph u)) :
    blockEnd u s = .ok { s.modify u outputRead with mem := outputMemory (s.periph u) s.mem c0 c1 c2 c3 } := by
  obtain ⟨w1, w2, w3, w4⟩ := hw
  unfold blockEnd
  have hb : (s.h u).blockIndex = (s.periph u).h.blockIndex := rfl
  rw [readOut_eq (ph := ph) (c0 := c0) (c1 := c1) (c2 := c2) (c3 := c3) (by simpa [clearCcf] using hp) hh (by simpa [clearCcf] using ho) (by simpa [clearCcf] using w1) (by simpa [clearCcf] using w2) (by
     intro j hj hl; rw [admits_mono (s := s) (by simp [clearCcf])]; simp only [clearCcf,
         State.modFl_periph] at hl ⊢; exact ha j hj hl)]
  unfold withOutput
  have h1 : ((clearCcf u s).modify u fun p => { p with core := { p.core with outFifo := [] } }) = s.modify u outputRead := by
    unfold clearCcf; rw [State.modFl_eq, State.modify_modify]; rfl
  rw [h1]
  simp only [clearCcf, State.modFl_periph, State.modFl_mem, outputMemory]

end Sys2Proof.Machine
end

