-- ==== Sys2Proof/Laws/Events.lean ====
section
/-! SUPPORT. One lemma per shared end of a command or event: returns, failures, boundaries, the DMA finish, key commands, restore. -/

namespace Sys2Proof.Machine

/-! ### Ends -/

/-- `return c` from a state. -/
theorem outcome_ret {k : Runner} {x : State} {c : RetCode} {a b : State} (h : a = b) :
    Res.outcome k x (ret c a) = .next (returning c b) := by subst h; rfl

theorem outcome_ok {k : Runner} {x a b : State} (h : a = b) :
    Res.outcome k x (.ok a) = .next b := by subst h; rfl

theorem State.with_mainPos_modify (s : State) (u : Inst) (f : Periph → Periph) (v) :
    ({ s with mainPos := v } : State).modify u f = { s.modify u f with mainPos := v } := by
  cases u <;> rfl

theorem State.with_isrPos_modify (s : State) (u : Inst) (f : Periph → Periph) (v) :
    ({ s with isrPos := v } : State).modify u f = { s.modify u f with isrPos := v } := by
  cases u <;> rfl

theorem State.with_mem_modify (s : State) (u : Inst) (f : Periph → Periph) (v) :
    ({ s with mem := v } : State).modify u f = { s.modify u f with mem := v } := by
  cases u <;> rfl

/-- A failed command (60_exceptions.md R503). -/
theorem failMain_eq {k : Runner} {x : State} {u : Inst} {c : RetCode} {e : Word} {s : State}
    (q : coreQuiet (s.periph u)) :
    Res.outcome k x (failMain u c e s) = .next (returning c (s.modify u (failed e))) := by
  unfold failMain; rw [failEpilogue_eq q]; rfl

/-- A failed interrupt-context entry (60_exceptions.md R503, R515). -/
theorem failIsr_eq {u : Inst} {e : Word} {s : State} (q : coreQuiet (s.periph u)) :
    failIsr u e s =
      .ok (logging [eventOf .error (failed e (s.periph u)).h] (s.modify u (failed e))) := by
  unfold failIsr
  rw [failEpilogue_eq q]
  unfold callback
  simp only [State.h_eq, State.modify_periph]; rfl

/-- The states a configuration or key command runs in (41_lifecycle_config.md R180). -/
theorem configurable_iff {l : Life} : configurable l = true ↔ l = .init ∨ l = .idle := by
  cases l <;> simp [configurable]

theorem configurable_not {l : Life} : configurable l = false ↔ l ≠ .init ∧ l ≠ .idle := by
  cases l <;> simp [configurable]

theorem aligned_iff (a : Word) : aligned a = true ↔ a.toNat % 4 = 0 := by simp [aligned]

theorem aligned_not (a : Word) : aligned a = false ↔ a.toNat % 4 ≠ 0 := by simp [aligned]

/-! ### Calls and boundaries -/

/-- The one form of the six process commands (45_transport.md). -/
theorem processCall_form {u a n o t s c} (h : c ∈ processCalls u a n o t) :
    exec c.instr s = Res.outcome .mainline s
      (entryCheck u c.dir c.transport a n o s fun s => callSetup u c.proc c.dir c.bound s) := by
  simp only [processCalls, List.mem_cons, List.not_mem_nil, or_false] at h
  rcases h with rfl | rfl | rfl | rfl | rfl | rfl <;> rfl

/-- A process command runs in the mainline. -/
theorem processCall_mainline {u a n o t c} (h : c ∈ processCalls u a n o t) : inHandler c.proc = false := by
  simp only [processCalls, List.mem_cons, List.not_mem_nil, or_false] at h
  rcases h with rfl | rfl | rfl | rfl | rfl | rfl <;> rfl

/-- What a set-up call has left of the handle. -/
theorem setUp_handle {u ph n o a dir t} {s : State} {q : Periph} (h : setUp u dir t a n o s ph q) : ph ≠ .header ∧ q.h.blockIndex = 0 ∧ q.h.dataSizeByte = n := by
  rcases h with ⟨_, _, _, _, _, rfl, rfl⟩ | ⟨_, _, h, _, rfl⟩
  · exact ⟨by simp, rfl, rfl⟩
  · exact ⟨h, rfl, rfl⟩

/-- A set-up call's core takes a block. -/
theorem setUp_ready {u ph n o a dir t} {s : State} {q : Periph} (h : setUp u dir t a n o s ph q) :
   q.cr.en = true ∧ q.core.job = none ∧ q.core.outFifo = [] ∧ q.core.inFifo = [] ∧ phaseOf q.h.algorithm q.cr.gcmph = some ph := by
  rcases h with ⟨_, h2, _, h3, h4, rfl, rfl⟩ | ⟨_, h2, h, ⟨r1, r2, r3, r4⟩, rfl⟩
  · refine ⟨rfl, rfl, rfl, rfl, ?_⟩
    simp only [enabledWith, idledMode, entered, enterHandle, idled]
    revert h2; cases (s.periph u).h.algorithm with
    | none => simp [flatAlg, ecbOrCbc]
    | some x => cases x <;> simp [flatAlg, ecbOrCbc, phaseOf]
  · exact ⟨r1, r2, r4, r3, h2⟩

/-- The phase stays while a block is written. -/
theorem nextBlock_phase (ph m q) : phaseOf (nextBlock ph m q).h.algorithm (nextBlock ph m q).cr.gcmph = phaseOf q.h.algorithm q.cr.gcmph := by
  simp only [nextBlock, blockWritten, npblbSet]; split <;> rfl

/-- The input-complete callback where it is due (45_transport.md R327, R331). -/
theorem lastInputCallback_eq {u : Inst} {x : State} {ph} {p : Periph} (hx : x.periph u = p) (h : phaseOf p.h.algorithm p.cr.gcmph = some ph) :
    lastInputCallback u x = .ok (logging (lastInputEvents ph p) x) := by
  unfold lastInputCallback lastInputEvents
  have hc : currentPhase u x = .ok ph := by simp [currentPhase, hx, h]
  rw [hc, ok_bind]
  simp only [State.h_eq, hx]
  split
  · unfold callback; simp only [State.h_eq, hx]; rfl
  · unfold logging; simp only [List.append_nil]

/-- The end of an interrupt call (45_transport.md R332). -/
theorem itComplete_eq (u : Inst) (y : State) : itComplete u y =
    logging [eventOf .outCplt (commitHandle (y.periph u).h)]
      (y.modify u fun p => { p with h := commitHandle p.h, ier := ierNone }) := by
  cases u <;> rfl

/-- The suspension of an interrupt call (45_transport.md R333). -/
theorem itSuspend_eq (u : Inst) (y : State) : itSuspend u y =
    logging [eventOf .suspend { (y.periph u).h with suspendRequest := false, state := .suspended }]
      (y.modify u fun p => { p with h := { p.h with suspendRequest := false, state := .suspended }, ier := ierNone }) := by
  cases u <;> rfl

/-- The boundary that writes the next block (45_transport.md R331, R337). -/
theorem itBoundary_next {u : Inst} {check : Bool} {y : State} {ph : PumpPhase} {q : Periph} (hy : y.periph u = q)
    (hp : phaseOf q.h.algorithm q.cr.gcmph = some ph) (hr : coreReady q)
    (hb : ph = .header ∨ q.h.blockIndex.toNat < phaseBlocks ph q.h) (hc : (check && q.h.suspendRequest) = false)
    (hn : nextAdmitted y (boundaryPhase ph q.h) (boundaryMoved ph q)) :
    itBoundary u check y = .ok (logging (lastInputEvents (boundaryPhase ph q.h) (boundaryWritten ph y.mem q)) (y.modify u fun _ => boundaryWritten ph y.mem q)) := by
  subst hy
  unfold itBoundary
  have hcp : currentPhase u y = .ok ph := by simp [currentPhase, hp]
  rw [hcp, ok_bind]
  simp only [State.h_eq]
  rw [if_neg (not_not.2 hb), hc]
  simp only [Bool.false_eq_true, if_false]
  obtain ⟨k1, k2⟩ := boundary_eq hp hr hn
  simp only [State.h_eq] at k1
  rw [← bind_assoc, k1, ok_bind,
      lastInputCallback_eq (x := y.modify u _) (p := boundaryWritten ph y.mem (y.periph u)) (ph := boundaryPhase ph (y.periph u).h) (by simp)]
  · congr 2; 
  · unfold boundaryWritten
    rw [nextBlock_phase]
    unfold boundaryMoved boundaryPhase
    split
    · rename_i hc
      rw [hc.1] at hp
      revert hp
      cases (y.periph u).h.algorithm with
      | none => simp [phaseOf]
      | some x => cases x <;> cases (y.periph u).cr.gcmph <;> simp [phaseOf]
    · exact hp

/-- The end of a DMA call (45_transport.md R349). -/
theorem dmaFinishEnd_eq (u : Inst) (b : Bool) (y : State) : dmaFinishEnd u b y =
   .ok (logging ((if ((y.periph u).h.dataSizeByte.toNat % 16 != 0 || b) = true then [eventOf .inCplt (commitHandle (y.periph u).h)] else []) ++ [eventOf .outCplt (commitHandle (y.periph u).h)])
     (y.modify u fun p => { p with h := commitHandle p.h, ier := ierNone })) := by
  unfold dmaFinishEnd
  by_cases h : ((y.periph u).h.dataSizeByte.toNat % 16 != 0 || b) = true
  · simp only [State.h_eq, h, if_true]
    cases u <;> simp [isrReturn, callback, logging, callCommit, eventOf, State.periph, State.modH,
        State.modify, State.setPeriph, ierWrite, ierNone]
  · simp only [State.h_eq, h, if_false, Bool.false_eq_true]
    cases u <;> simp [isrReturn, callback, logging, callCommit, eventOf, State.periph, State.modH,
        State.modify, State.setPeriph, ierWrite, ierNone]

/-! ### Tags, key commands, restore -/

/-- `WriteLengthBlock()` (44_phase_machine.md R302). -/
theorem writeLengthBlock_eq {u : Inst} {s : State} (h : coreReady (s.periph u)) :
    writeLengthBlock u s = .ok (s.modify u fun p => { p with core := { p.core with job := some (.block 0 (p.h.headerSize * 8) 0 (p.h.dataSizeSum * 8)) } }) := by
  obtain ⟨r1, r2, r3, r4⟩ := h
  unfold writeLengthBlock dinSwapped
  have keep : ∀ (w : Word) (a b : State), dinWrite u w a = .ok b → (b.periph u).h = (a.periph u).h ∧ (b.periph u).cr = (a.periph u).cr := by
    intro w a b h
    unfold dinWrite at h
    simp only at h
    split at h
    · cases h
    · split at h <;> cases h <;> simp
  have key := dinWrite_block (u := u) (s := s) (swap (s.periph u).cr.datatype 0) (swap (s.periph u).cr.datatype ((s.periph u).h.headerSize * 8)) (swap (s.periph u).cr.datatype 0) (swap (s.periph u).cr.datatype ((s.periph u).h.dataSizeSum * 8)) r1 r2 r4 r3
  have goal : (do
      let s ← dinWrite u (swap (s.cr u).datatype 0) s
      let s ← dinWrite u (swap (s.cr u).datatype ((s.h u).headerSize * 8)) s
      let s ← dinWrite u (swap (s.cr u).datatype 0) s
      dinWrite u (swap (s.cr u).datatype ((s.h u).dataSizeSum * 8)) s : Res) = (do
      let s' ← dinWrite u (swap (s.periph u).cr.datatype 0) s
      let s' ← dinWrite u (swap (s.periph u).cr.datatype ((s.periph u).h.headerSize * 8)) s'
      let s' ← dinWrite u (swap (s.periph u).cr.datatype 0) s'
      dinWrite u (swap (s.periph u).cr.datatype ((s.periph u).h.dataSizeSum * 8)) s' : Res) := by
    simp only [State.cr_eq, State.h_eq]
    cases h1 : dinWrite u (swap (s.periph u).cr.datatype 0) s with
    | error e => rfl
    | ok a =>
      obtain ⟨a1, a2⟩ := keep _ _ _ h1
      simp only [ok_bind, a1, a2]
      cases h2 : dinWrite u (swap (s.periph u).cr.datatype ((s.periph u).h.headerSize * 8)) a with
      | error e => rfl
      | ok b =>
        obtain ⟨b1, b2⟩ := keep _ _ _ h2
        simp only [ok_bind, a2, b2]
        cases h3 : dinWrite u (swap (s.periph u).cr.datatype 0) b with
        | error e => rfl
        | ok c =>
          obtain ⟨c1, c2⟩ := keep _ _ _ h3
          simp only [ok_bind, c1, c2, b1, b2, a1, a2]
  rw [goal, key]
  congr 1
  apply State.modify_congr
  simp only [swap_swap]

/-- `CR.KSHAREID <- k` (47_key_wrap_share.md R402, R404). -/
theorem writeShareId_eq {s : State} {k : Word} (h : (s.periph .saes).cr.en = false) :
   writeShareId .saes k s = .ok (s.modify .saes fun p => { p with cr := { p.cr with kshareid := BitVec.ofNat 2 k.toNat } }) := by
  unfold writeShareId
  rw [crWrite_config h (.inr rfl) rfl (by simp)]; rfl

/-- The encrypting key commands write their first block (47_key_wrap_share.md R400, R402). -/
theorem keyOpEncrypt_eq {s : State} {k : KeyOp} {t : Word} {p q : Periph} (hp : s.periph .saes = p) (qu : coreQuiet p) (he : p.cr.en = false)
    (hv : p.fl.keyvalid = true) (hq : q = enabledWith none (idledMode .encrypt p)) (hc : p.cr.chmod = .ecb ∨ p.cr.chmod = .cbc)
    (hph : phaseOf p.h.algorithm p.cr.gcmph = some .flat) (hb : p.h.blockIndex = 0) (hn : nextAdmitted s .flat q) :
    keyOpEncrypt .saes k t s = .ok (waiting ⟨.saes, .keyOp k t, .block, .ms t⟩ (s.modify .saes fun _ => nextBlock .flat s.mem q)) := by
  subst hp hq
  unfold keyOpEncrypt keyOpBlocks
  have hj : jobOnEnable (idledMode .encrypt (s.periph .saes)) = none := by
    unfold jobOnEnable
    rw [if_neg (by simp [idledMode]), if_neg]
    · simp [idledMode, idled]
    · rintro ⟨x, -⟩; simp only [idledMode] at x
      rcases hc with hc | hc <;> rw [hc] at x <;> simp at x
  have hd : disable .saes s = s := by unfold disable; rw [if_neg (by simp [he])]
  have key := enableMode (u := .saes) (m := .encrypt) (s := s) qu hv hj
  rw [hd] at key
  rw [← bind_assoc, key, ok_bind]
  unfold keyOpLoop
  rw [if_pos]
  · rw [writeNext_eq (ph := .flat) (by simpa [enabledWith, idledMode,
      idled] using hph) (by simp [enabledWith]) (by simp [enabledWith]) (by simp [enabledWith,
      idledMode, idled]) (by simp [enabledWith, idledMode, idled]) (by
      intro j hj hl; rw [admits_mono (s := s) (by simp)]; rw [State.modify_periph] at hl ⊢; exact hn j hj hl), ok_bind, park_waiting _ rfl, State.modify_modify]
    simp only [State.modify_mem]
    exact congrArg (fun x => Except.ok (waiting _ x)) (State.modify_congr rfl)
  · simp only [State.h_eq, State.cr_eq, State.modify_periph]
    have : (enabledWith none (idledMode .encrypt (s.periph .saes))).h.blockIndex = 0 := hb
    rw [this]
    cases (enabledWith none (idledMode .encrypt (s.periph .saes))).cr.keysize <;> decide

/-- The decrypting key commands start the key derivation (47_key_wrap_share.md R401, R404). -/
theorem keyOpDecrypt_eq {s : State} {k : KeyOp} {t : Word} {p : Periph} (hp : s.periph .saes = p) (qu : coreQuiet p)
    (hv : p.fl.keyvalid = true) :
    keyOpDecrypt .saes k t s = .ok (waiting ⟨.saes, .keyOp k t, .keyDeriv, .keyDerivBudget⟩ (s.modify .saes fun _ => derivStarted p)) := by
  subst hp
  unfold keyOpDecrypt
  rw [keyDerivStart_eq qu hv, ok_bind, park_waiting _ rfl]
  exact congrArg (fun x => Except.ok (waiting _ x)) (State.modify_congr rfl)

/-- `CR <- c.cr` (46_suspend_resume.md R376). -/
theorem restoreCr_eq {u : Inst} {c : CR} {t : State} (he : (t.periph u).cr.en = false) (hj : (t.periph u).core.job = none) :
    restoreCr u c t = .ok (t.modify u fun p =>
      let q := { p with cr := { c with en := false, dmainen := false, dmaouten := false, kshareid := if u = .saes then c.kshareid else p.cr.kshareid, keysel := if u = .saes then c.keysel else p.cr.keysel, keyprot := if u = .saes then c.keyprot else p.cr.keyprot } }
      if u = .saes ∧ c.keysel ≠ .software then loadStarted (.hw c.keysel) q else q) := by
  have cfg : ∀ (w : CrWrite) (f : Periph → Periph), (f (t.periph u)).cr.en = false → (crSaesOnly (crFieldOf w) = false ∨ u = .saes) →
      crWritableEnabled (crFieldOf w) = false → (∀ v, w ≠ .keysel v) →
      crWrite u w (t.modify u f) = .ok (t.modify u fun p => { f p with cr := crApply w (f p).cr }) := by
    intro w f h1 h2 h3 h4
    rw [crWrite_config (by simpa using h1) h2 h3 h4, State.modify_modify]
  have phs : ∀ (v : Phase) (f : Periph → Periph), (f (t.periph u)).cr.en = false → (f (t.periph u)).core.job = none →
      crWrite u (.gcmph v) (t.modify u f) = .ok (t.modify u fun p => { f p with cr := { (f p).cr with gcmph := v } }) := by
    intro v f h1 h2
    unfold crWrite crEffect writePhase
    simp only [crFieldOf, crSaesOnly, crWritableEnabled, crNeedsNoJob, Bool.false_and,
        Bool.not_true, Bool.false_eq_true, if_false, State.core_eq, State.modify_periph, h2,
        Option.isSome_none, Bool.and_false, State.cr_eq, State.modCr_periph, crApply, h1, and_false]
    rw [State.modCr_eq, State.modify_modify]; rfl
  have npb : ∀ (v : BitVec 4) (f : Periph → Periph), (f (t.periph u)).core.job = none →
      crWrite u (.npblb v) (t.modify u f) = .ok (t.modify u fun p => { f p with cr := { (f p).cr with npblb := v } }) := by
    intro v f h2
    rw [crWrite_npblb (by simpa using h2), State.modify_modify]
  have h0 : t = t.modify u id := (State.modify_id rfl).symm
  unfold restoreCr crWritesOf
  simp only [List.foldlM_cons, List.foldlM_nil]
  conv_lhs => rw [h0]
  rw [cfg _ _ he (.inl rfl) rfl (by simp), ok_bind, cfg _ _ he (.inl rfl) rfl (by simp), ok_bind,
      cfg _ _ he (.inl rfl) rfl (by simp), ok_bind,
    phs _ _ he hj, ok_bind, crWrite_dmainen, ok_bind, State.modify_modify, crWrite_dmaouten, ok_bind, State.modify_modify,
    cfg _ _ he (.inl rfl) rfl (by simp), ok_bind, npb _ _ hj, ok_bind, cfg _ _ he (.inl rfl) rfl (by simp), ok_bind]
  cases u
  · rw [crWrite_saesOnly _ rfl, ok_bind, crWrite_saesOnly _ rfl, ok_bind, crWrite_saesOnly _ rfl,
      ok_bind]
    refine congrArg Except.ok (State.modify_congr ?_)
    simp only [id, crApply]
    rw [if_neg (by simp)]
    simp only [he]; rfl
  · rw [cfg _ _ he (.inr rfl) rfl (by simp), ok_bind, crWrite_keysel (by simpa [crApply] using he),
      ok_bind]
    unfold writeKeySel
    by_cases hk : c.keysel = .software
    · rw [if_pos hk, State.modCr_eq, State.modify_modify, cfg _ _ he (.inr rfl) rfl (by simp),
        ok_bind]
      refine congrArg Except.ok (State.modify_congr ?_)
      simp only [id, crApply]
      rw [if_neg (by simp [hk])]
      simp only [he]; rfl
    · rw [if_neg hk, coreKeyLoad_eq, State.modCr_eq, State.modify_modify, State.modify_modify,
        cfg _ _ he (.inr rfl) rfl (by simp), ok_bind]
      refine congrArg Except.ok (State.modify_congr ?_)
      simp only [id, crApply]
      rw [if_pos ⟨trivial, hk⟩]
      simp only [he]; rfl

/-- The restored IV (46_suspend_resume.md R376). -/
theorem restoreIv_eq {u : Inst} {v : Vector Word 4} {t : State} (he : (t.periph u).cr.en = false) :
    restoreIv u v t = .ok (t.modify u fun p => { p with ivr := v }) := by
  have st : ∀ (i : Fin 4) (f : Periph → Periph), (f (t.periph u)).cr.en = false →
     ivrWrite u i v[i] (t.modify u f) = .ok (t.modify u fun p => { f p with ivr := (f p).ivr.set i v[i] }) := by
    intro i f h
    unfold ivrWrite
    rw [if_neg (by simp [h]), State.modify_modify]
  have h0 : t = t.modify u id := (State.modify_id rfl).symm
  unfold restoreIv
  rw [show List.finRange 4 = [0, 1, 2, 3] from rfl]
  simp only [List.foldlM_cons, List.foldlM_nil]
  conv_lhs => rw [h0]
  rw [st _ _ he, ok_bind, st _ _ he, ok_bind, st _ _ he, ok_bind, st _ _ he, ok_bind]
  refine congrArg Except.ok (State.modify_congr ?_)
  simp only [id]
  congr 1
  ext i hi
  have : i = 0 ∨ i = 1 ∨ i = 2 ∨ i = 3 := by omega
  rcases this with rfl | rfl | rfl | rfl <;> simp

/-! ### After the waits -/

/-- The key derivation ended (42_key_iv.md R231). -/
theorem keyDerivEnd_eq {u : Inst} {s : State} (q : coreQuiet (s.periph u)) :
    keyDerivEnd u s = .ok (s.modify u derivEnded) := by
  unfold keyDerivEnd clearCcf
  rw [disable_quiet (by simpa [coreQuiet] using q), crWrite_config (by simp [idled]) (.inl rfl) rfl
    (by simp), ok_bind, State.modH_eq]
  simp only [State.modFl_eq, State.modify_modify]
  rfl

/-- The enable after a key derivation of an ECB or CBC instance starts no job (44_phase_machine.md R282,
47_key_wrap_share.md R401). -/
theorem enable_derived {u : Inst} {s : State} (he : (s.periph u).cr.en = false)
    (hm : (s.periph u).cr.mode = .decrypt)
    (k : (s.periph u).fl.keyvalid = true ∨ (s.periph u).fl.busy = true)
    (c : (s.periph u).cr.chmod = .ecb ∨ (s.periph u).cr.chmod = .cbc)
    (j : (s.periph u).core.job = none) :
    ((do
      let s ← crWrite u (.mode .decrypt) s
      crWrite u (.en true) s) : Res) = .ok (s.modify u (enabledWith none)) := by
  have e : s.modify u (fun p => { p with cr := crApply (.mode .decrypt) p.cr }) = s := by
    refine State.modify_id ?_
    simp only [crApply, ← hm]
  have n : jobOnEnable (s.periph u) = none := by
    unfold jobOnEnable
    rw [if_neg (by rw [hm]; simp), if_neg, j]
    rintro ⟨x, -⟩
    rcases c with c | c <;> rw [c] at x <;> simp at x
  rw [crWrite_config he (.inl rfl) rfl (by simp), ok_bind, e, crWrite_en he k]
  exact congrArg Except.ok (State.modify_congr (by rw [n]))

/-- An ECB or CBC handle is mirrored in `CR.CHMOD` (10_state.md R23). -/
theorem chmod_of_ecbOrCbc {p : Periph} (hm : algMirrored p) (ha : ecbOrCbc p.h.algorithm = true) :
    p.cr.chmod = .ecb ∨ p.cr.chmod = .cbc := by
  unfold algMirrored at hm
  rw [hm] at ha
  revert ha
  cases p.cr.chmod <;> simp [ecbOrCbc]

/-- The phase of ECB and CBC (44_phase_machine.md R281). -/
theorem phaseOf_ecbOrCbc {a : Option Alg} {g : Phase} (ha : ecbOrCbc a = true) :
    phaseOf a g = some .flat := by
  revert ha
  cases a with
  | none => simp [ecbOrCbc]
  | some x => cases x <;> simp [ecbOrCbc, phaseOf]

/-- A process command polls, starts an interrupt call or starts a DMA call (45_transport.md). -/
theorem processCall_proc {u a n o t c} (h : c ∈ processCalls u a n o t) :
    (∃ d t, c.proc = .poll d t) ∨ (∃ d, c.proc = .startIt d) ∨ ∃ d, c.proc = .startDma d := by
  simp only [processCalls, List.mem_cons, List.not_mem_nil, or_false] at h
  rcases h with rfl | rfl | rfl | rfl | rfl | rfl <;> simp

/-- The INIT phase ended (44_phase_machine.md R283). -/
theorem phaseInitEnd_eq {u : Inst} {s : State} (q : coreQuiet (s.periph u))
    (k : (s.periph u).fl.keyvalid = true ∨ (s.periph u).fl.busy = true)
    (m : (s.periph u).cr.mode ≠ .keyDeriv) :
    phaseInitEnd u s = .ok (s.modify u initEnded) := by
  unfold phaseInitEnd clearCcf
  rw [disable_quiet (by simpa [coreQuiet] using q), State.modFl_eq, State.modify_modify]
  simp only
  rw [crWrite_phase (by simp [idled]) (by unfold phaseAfterInit; split <;> simp), ok_bind,
    crWrite_en (by simp [idled]) (by simpa [idled] using k), ok_bind]
  unfold restartBlocks
  simp only [State.modH_eq, State.modify_modify]
  refine congrArg Except.ok (State.modify_congr ?_)
  have j : jobOnEnable
      { ccfCleared (idled (s.periph u)) with
        cr := { (s.periph u).cr with en := false, gcmph := phaseAfterInit (s.periph u).h }
        h := { (s.periph u).h with blockIndex := 0 } } = none := by
    unfold jobOnEnable
    rw [if_neg (by simpa [ccfCleared, idled] using m), if_neg]
    · rfl
    · rintro ⟨-, x⟩
      revert x
      simp only [phaseAfterInit]
      split <;> simp
  simp only [State.h_eq, State.modify_periph, initEnded]
  simp only [phaseAfterInit] at j
  rw [← j]
  rfl

/-- What `InitEnded` leaves takes a block, in the phase its header tells. -/
theorem initEnded_ready (p : Periph) :
    coreReady (initEnded p) ∧ (initEnded p).h.blockIndex = 0 ∧
      (authAlg p.h.algorithm = true →
        phaseOf (initEnded p).h.algorithm (initEnded p).cr.gcmph = some (phaseOfHeader p.h)) := by
  refine ⟨⟨rfl, rfl, rfl, rfl⟩, rfl, fun h => ?_⟩
  simp only [initEnded, enabledWith, ccfCleared, idled, phaseOfHeader]
  revert h
  cases p.h.algorithm with
  | none => simp [authAlg]
  | some x => cases x <;> simp [authAlg] <;> split <;> rfl

/-- A call goes on after its setup (45_transport.md R322, R327, R342). -/
theorem afterSetup_eq {u : Inst} {pr : Proc} {ph : PumpPhase} {p : Periph} {s : State}
    (hpr : (∃ d t, pr = .poll d t) ∨ (∃ d, pr = .startIt d) ∨ ∃ d, pr = .startDma d)
    (hp : phaseOf p.h.algorithm p.cr.gcmph = some ph) (hr : coreReady p)
    (hb : p.h.blockIndex = 0) (h0 : p.h.dataSizeByte ≠ 0) (hh : ph = .header → p.h.headerSize ≠ 0)
    (ha : startsWithBlock pr ph p.h → nextAdmitted s ph p) :
    afterSetup u pr (s.modify u fun _ => p) = .ok (callStarted u pr ph p s) := by
  obtain ⟨r1, r2, r3, r4⟩ := hr
  have hc : currentPhase u (s.modify u fun _ => p) = .ok ph := by simp [currentPhase, hp]
  have wn : startsWithBlock pr ph p.h →
      writeNext u (s.modify u fun _ => p) = .ok (s.modify u fun _ => nextBlock ph s.mem p) := by
    intro h
    rw [writeNext_eq (ph := ph) (by simpa using hp) (by simpa using r1) (by simpa using r2) (by simpa using r4)
      (by simpa using r3) (by
        rw [State.modify_periph]; intro j hj hl; rw [admits_mono (s := s) (by simp)]; exact ha h j hj hl),
      State.modify_modify, State.modify_mem]
  have nb : (0 : Nat) < phaseBlocks ph p.h := by
    have e1 : p.h.dataSizeByte.toNat ≠ 0 := fun e => h0 (BitVec.eq_of_toNat_eq e)
    have e2 : ph = .header → p.h.headerSize.toNat ≠ 0 := fun x e => hh x (BitVec.eq_of_toNat_eq e)
    unfold phaseBlocks ceilDiv phaseLen
    cases ph <;> simp at e2 ⊢ <;> omega
  have hb' : p.h.blockIndex.toNat = 0 := by rw [hb]; rfl
  rcases hpr with ⟨d, t, rfl⟩ | ⟨d, rfl⟩ | ⟨d, rfl⟩
  · unfold afterSetup pollLoop
    simp only
    rw [hc, ok_bind, doIf, if_neg (by
        rintro ⟨rfl, x⟩; simp only [State.h_eq, State.modify_periph, hb'] at x; omega), ok_bind, hc, ok_bind,
      if_neg (by rintro ⟨-, x⟩; simp only [State.h_eq, State.modify_periph, hb'] at x; omega),
      wn (.inl (by simp)), ok_bind, park_waiting _ rfl]
    rfl
  · unfold afterSetup itStart
    simp only
    rw [wn (.inl (by simp)), ok_bind]
    simp only [State.h_eq, State.modify_modify, State.modify_periph, ierWrite]
    rw [lastInputCallback_eq (x := s.modify u _) (State.modify_periph _ _ _), ok_bind]
    · rfl
    · rw [← hp]; exact nextBlock_phase ph s.mem p
  · unfold afterSetup dmaLoop
    simp only
    rw [hc, ok_bind]
    simp only [State.h_eq, State.modify_periph]
    unfold callStarted
    by_cases e : ph = .header
    · rw [if_pos ⟨e, by rw [hb', ← e]; exact nb⟩, wn (.inr (.inl e)), ok_bind, park_waiting _ rfl]
      simp only [if_pos e]
    · rw [if_neg (by rintro ⟨x, -⟩; exact e x), doIf, if_neg e, ok_bind]
      simp only [if_neg e, State.modify_periph]
      by_cases l : p.h.dataSizeByte.toNat < 16
      · rw [if_pos (by omega), wn (.inr (.inr l)), ok_bind, park_waiting _ rfl, if_pos l]
      · rw [if_neg (by omega), crWrite_dmaouten, ok_bind, crWrite_dmainen, ok_bind, if_neg l]
        simp only [dmaStartBoth, ierWrite, State.modify_modify]
        refine congrArg (fun x => Except.ok (returning .ok x)) (State.modify_congr ?_)
        simp [dmaStarted, callEnables, dmaMask]

/-- FINAL is started (44_phase_machine.md R300 to R302). -/
theorem tagFinal_eq {u : Inst} {k : TagKind} {a t : Word} {s : State} (hr : coreReady (s.periph u))
    (hm : (s.periph u).cr.chmod = tagAlg k) :
    tagFinal u k a t s =
      .ok (waiting ⟨u, .tag k a t, .tagWords, .ms t⟩ (s.modify u (finalStarted k))) := by
  obtain ⟨r1, r2, r3, r4⟩ := hr
  unfold tagFinal
  have hw : crWrite u (.gcmph .final) s = .ok (writePhase u .final s) := by
    simp [crWrite, crEffect, crFieldOf, crSaesOnly, crWritableEnabled, crNeedsNoJob, r2]
  rw [hw, ok_bind]
  cases k
  · have : writePhase u .final s = s.modify u fun p => { p with cr := { p.cr with gcmph := .final } } := by
      unfold writePhase
      simp only
      rw [if_neg (by simp [hm, tagAlg, crApply]), State.modCr_eq]
      rfl
    rw [this, doIf, if_pos rfl, writeLengthBlock_eq (by simpa [coreReady] using ⟨r1, r2, r3, r4⟩), ok_bind,
      park_waiting _ rfl, State.modify_modify]
    rfl
  · have : writePhase u .final s = s.modify u (finalStarted .ccm) := by
      unfold writePhase
      simp only
      rw [if_pos (by simp [hm, tagAlg, crApply, r1]), State.modCr_eq, State.modCore_eq,
        State.modify_modify]
      rfl
    rw [this, doIf, if_neg (by simp), ok_bind, park_waiting _ rfl]

/-- A tag command goes on after INIT or a header block (44_phase_machine.md R300). -/
theorem tagLoop_eq {u : Inst} {k : TagKind} {a t : Word} {p : Periph} {s : State} (hr : coreReady p)
    (hm : p.cr.chmod = tagAlg k) (hal : p.h.algorithm = some (tagAlg k))
    (hg : p.cr.gcmph = .header ∨ p.cr.gcmph = .payload)
    (ha : p.cr.gcmph = .header → p.h.blockIndex.toNat < phaseBlocks .header p.h →
      nextAdmitted s .header p) :
    tagLoop u k a t (s.modify u fun _ => p) = .ok (tagContinued u k a t p s) := by
  have hp : phaseOf p.h.algorithm p.cr.gcmph =
      some (if p.cr.gcmph = .header then .header else .payload) := by
    rw [hal]
    rcases hg with h | h <;> rw [h] <;> cases k <;> rfl
  have hc : currentPhase u (s.modify u fun _ => p) =
      .ok (if p.cr.gcmph = .header then .header else .payload) := by
    simp [currentPhase, hp]
  have hf : tagFinal u k a t (s.modify u fun _ => p) = .ok (waiting ⟨u, .tag k a t, .tagWords, .ms t⟩
      (s.modify u fun _ => finalStarted k p)) := by
    rw [tagFinal_eq (by simpa using hr) (by simpa using hm), State.modify_modify]
  unfold tagLoop tagContinued
  rw [hc, ok_bind, hf]
  simp only [State.h_eq, State.modify_periph]
  by_cases h : p.cr.gcmph = .header
  · by_cases l : p.h.blockIndex.toNat < phaseBlocks .header p.h
    · rw [if_pos ⟨by rw [if_pos h], l⟩, if_pos ⟨h, l⟩,
        writeNext_eq (ph := .header) (by rw [State.modify_periph, hp, if_pos h]) (by simpa using hr.1)
          (by simpa using hr.2.1) (by simpa using hr.2.2.2) (by simpa using hr.2.2.1) (by
          rw [State.modify_periph]; intro j hj hl; rw [admits_mono (s := s) (by simp)]
          exact ha h l j hj hl), ok_bind,
        park_waiting _ rfl, State.modify_modify, State.modify_mem]
    · rw [if_neg (by rintro ⟨-, x⟩; exact l x), if_neg (by rintro ⟨-, x⟩; exact l x)]
  · rw [if_neg (by rw [if_neg h]; rintro ⟨x, -⟩; cases x), if_neg (by rintro ⟨x, -⟩; exact h x)]

/-- The restored suspend registers (46_suspend_resume.md R376). -/
theorem restoreSusp_eq {u : Inst} {v : Vector Word 8} {t : State} (he : (t.periph u).cr.en = false) :
    restoreSusp u v t = .ok (t.modify u fun p => { p with suspr := v }) := by
  have st : ∀ (i : Fin 8) (f : Periph → Periph), (f (t.periph u)).cr.en = false →
      susprWrite u i v[i] (t.modify u f) =
        .ok (t.modify u fun p => { f p with suspr := (f p).suspr.set i v[i] }) := by
    intro i f h
    unfold susprWrite
    rw [if_neg (by simp [h]), State.modify_modify]
  have h0 : t = t.modify u id := (State.modify_id rfl).symm
  unfold restoreSusp
  rw [show List.finRange 8 = [0, 1, 2, 3, 4, 5, 6, 7] from rfl]
  simp only [List.foldlM_cons, List.foldlM_nil]
  conv_lhs => rw [h0]
  rw [st _ _ he, ok_bind, st _ _ he, ok_bind, st _ _ he, ok_bind, st _ _ he, ok_bind, st _ _ he, ok_bind,
    st _ _ he, ok_bind, st _ _ he, ok_bind, st _ _ he, ok_bind]
  refine congrArg Except.ok (State.modify_congr ?_)
  simp only [id]
  congr 1
  ext i hi
  have : i = 0 ∨ i = 1 ∨ i = 2 ∨ i = 3 ∨ i = 4 ∨ i = 5 ∨ i = 6 ∨ i = 7 := by omega
  rcases this with rfl | rfl | rfl | rfl | rfl | rfl | rfl | rfl <;> simp

/-- The end of a restore (46_suspend_resume.md R376). -/
theorem restoreEnd_eq {u : Inst} {c : Context} {s : State} (he : (s.periph u).cr.en = false) :
    restoreEnd u c s = .ok (returning .ok (s.modify u (restoreEnded c))) := by
  unfold restoreEnd doIf
  by_cases h : authAlg c.algorithm = true
  · rw [if_pos h, restoreSusp_eq he, ok_bind, State.modH_eq, State.modify_modify]
    refine congrArg (fun x => Except.ok (returning .ok x)) (State.modify_congr ?_)
    simp [restoreEnded, h]
  · rw [if_neg h, ok_bind, State.modH_eq]
    refine congrArg (fun x => Except.ok (returning .ok x)) (State.modify_congr ?_)
    simp [restoreEnded, h]

/-- A failed restore (46_suspend_resume.md R378). -/
theorem restoreFail_eq {u : Inst} {r : Option WaitFail} {s : State} (q : coreQuiet (s.periph u)) :
    restoreFail u r s = .ok (returning .error (s.modify u (restoreFailed (waitErrBits r)))) := by
  have hd : ∀ t : State, (t.periph u).core = (s.periph u).core → (t.periph u).cr.en = (s.periph u).cr.en →
      disable u t = t.modify u idled := by
    intro t hc he
    exact disable_eq (by simp only [State.cr_eq, State.core_eq, hc, he]; exact q.1)
  unfold restoreFail
  by_cases hi : (s.periph u).h.inst = some .saes
  · simp only [clearRngeifOnSaes, addErrors, clearRweif, clearKeif, clearRngeif, State.h_eq,
      State.modH_periph, State.modFl_periph, hi, if_true]
    rw [hd _ (by simp) (by simp)]
    simp only [State.modH_eq, State.modFl_eq, State.modify_modify]
    refine congrArg (fun x => Except.ok (returning .error x)) (State.modify_congr ?_)
    simp [restoreFailed, restoreFailHandle, flagsCleared, idled, hi]
  · simp only [clearRngeifOnSaes, addErrors, clearRweif, clearKeif, State.h_eq, State.modH_periph,
      State.modFl_periph, hi, if_false]
    rw [hd _ (by simp) (by simp)]
    simp only [State.modH_eq, State.modFl_eq, State.modify_modify]
    refine congrArg (fun x => Except.ok (returning .error x)) (State.modify_congr ?_)
    simp [restoreFailed, restoreFailHandle, flagsCleared, idled, hi]

end Sys2Proof.Machine
end

