-- ==== Sys2Proof/Laws/Frame.lean ====
section
/-! SUPPORT. What every instruction leaves as it was: the stores, the other instance, the key material; stated as invariants closed under the shared operations. -/

namespace Sys2Proof.Machine

/-- Any property of the four stores that only `MemWrite` and the context store could break. -/
theorem closed_stores (I : State → Prop) 
    (hI : ∀ s t : State, t.mem = s.mem → t.contexts = s.contexts → t.shareSlots = s.shareSlots →
      t.alloc = s.alloc → I s → I t) (u : Inst) : Closed u I := by
  have cr : ∀ w s, Post (fun t => t.mem = s.mem ∧ t.contexts = s.contexts ∧ t.shareSlots = s.shareSlots ∧ t.alloc = s.alloc) (crWrite u w s) := by
    intro w s
    unfold crWrite crEffect enable coreEnable disable coreDisable writePhase writeKeySel coreKeyLoad
    simp only
    repeat' split
    all_goals first | exact Post.error _ | (refine Post.ok ?_; simp; try done)
  constructor
  case cr => intro w s h t ht; have := cr w s t ht; exact hI _ _ this.1 this.2.1 this.2.2.1 this.2.2.2 h
  case din =>
    intro w s h; unfold dinWrite; simp only; (repeat' split) <;> first | exact Post.error _ | (refine Post.ok (hI s _ ?_ ?_ ?_ ?_ h) <;> simp)
  case dout =>
    intro s h; unfold doutRead; simp only; (repeat' split) <;> first | exact Post.error _ | (refine Post.ok (hI s _ ?_ ?_ ?_ ?_ h) <;> simp)
  case keyr =>
    intro i w s h; unfold keyrWrite coreKeyLoad; simp only; (repeat' split) <;> first | exact Post.error _ | (refine Post.ok (hI s _ ?_ ?_ ?_ ?_ h) <;> simp)
  case ivr =>
    intro i w s h; unfold ivrWrite; (repeat' split) <;> first | exact Post.error _ | (refine Post.ok (hI s _ ?_ ?_ ?_ ?_ h) <;> simp)
  case suspr =>
    intro i w s h; unfold susprWrite; (repeat' split) <;> first | exact Post.error _ | (refine Post.ok (hI s _ ?_ ?_ ?_ ?_ h) <;> simp)
  case receive =>
    intro k s h; unfold sharedReceive coreKeyLoad; split <;> (refine (hI s _ ?_ ?_ ?_ ?_ h) <;> simp)
  case disable =>
    intro s h; unfold disable coreDisable; split <;> (refine (hI s _ ?_ ?_ ?_ ?_ h) <;> simp)
  case park =>
    intro p s h; unfold park; split <;> (refine (hI s _ ?_ ?_ ?_ ?_ h) <;> simp)
  case unpark =>
    intro p s h; unfold unpark; split <;> (refine (hI s _ ?_ ?_ ?_ ?_ h) <;> simp)
  case modH => intro f s h _; exact hI s _ (by simp) (by simp) (by simp) (by simp) h
  all_goals 
    intros
    rename_i s h
    exact hI s _ (by simp [ierWrite, clearCcf, clearKeif, clearRngeif, clearRweif,
        dmaStartBoth, abandonDma]) (by simp [ierWrite, clearCcf, clearKeif, clearRngeif, clearRweif,
        dmaStartBoth, abandonDma])  (by simp [ierWrite, clearCcf, clearKeif, clearRngeif, clearRweif,
        dmaStartBoth, abandonDma]) (by simp [ierWrite, clearCcf, clearKeif, clearRngeif, clearRweif,
        dmaStartBoth, abandonDma]) h

/-- Nothing but the instance `u`, caller memory, the context store and the positions changes. -/
theorem closed_other (u : Inst) (s0 : State) : Closed u (fun t => (∀ v, v ≠ u → t.periph v = s0.periph v) ∧ t.shareSlots = s0.shareSlots ∧ t.alloc = s0.alloc ∧ t.inbox = s0.inbox ∧ t.turn = s0.turn) := by
  have base : ∀ s t : State, (∀ v, v ≠ u → t.periph v = s.periph v) → t.shareSlots = s.shareSlots → t.alloc = s.alloc → t.inbox = s.inbox → t.turn = s.turn →
      ((∀ v, v ≠ u → s.periph v = s0.periph v) ∧ s.shareSlots = s0.shareSlots ∧ s.alloc = s0.alloc ∧ s.inbox = s0.inbox ∧ s.turn = s0.turn) →
      ((∀ v, v ≠ u → t.periph v = s0.periph v) ∧ t.shareSlots = s0.shareSlots ∧ t.alloc = s0.alloc ∧ t.inbox = s0.inbox ∧ t.turn = s0.turn) := by
    intro s t a b c d e h
    exact ⟨fun v hv => (a v hv).trans (h.1 v hv), b.trans h.2.1, c.trans h.2.2.1, d.trans h.2.2.2.1, e.trans h.2.2.2.2⟩
  have md : ∀ (f : Periph → Periph) (s : State), 
      ((∀ v, v ≠ u → s.periph v = s0.periph v) ∧ s.shareSlots = s0.shareSlots ∧ s.alloc = s0.alloc ∧ s.inbox = s0.inbox ∧ s.turn = s0.turn) →
      ((∀ v, v ≠ u → (s.modify u f).periph v = s0.periph v) ∧ (s.modify u f).shareSlots = s0.shareSlots ∧ (s.modify u f).alloc = s0.alloc ∧ (s.modify u f).inbox = s0.inbox ∧ (s.modify u f).turn = s0.turn) := by
    intro f s h; exact base s _ (fun v hv => State.modify_other s f hv) (by simp) (by simp) (by simp) (by simp) h
  have dis : ∀ s, ((∀ v, v ≠ u → s.periph v = s0.periph v) ∧ s.shareSlots = s0.shareSlots ∧ s.alloc = s0.alloc ∧ s.inbox = s0.inbox ∧ s.turn = s0.turn) → 
      ((∀ v, v ≠ u → (disable u s).periph v = s0.periph v) ∧ (disable u s).shareSlots = s0.shareSlots ∧ (disable u s).alloc = s0.alloc ∧ (disable u s).inbox = s0.inbox ∧ (disable u s).turn = s0.turn) := by
    intro s h; unfold disable; split
    · exact md _ _ (md _ _ h)
    · exact h
  constructor
  case cr =>
    intro w s h
    unfold crWrite crEffect enable coreEnable writePhase writeKeySel coreKeyLoad
    simp only
    repeat' split
    all_goals first | exact Post.error _ | exact Post.ok h | exact Post.ok (md _ _ h) | exact Post.ok (md _ _ (md _ _ h)) | exact Post.ok (md _ _ (md _ _ (md _ _ h))) | exact Post.ok (dis _ h)
  case din => intro w s h; unfold dinWrite; simp only; (repeat' split) <;> first | exact Post.error _ | exact Post.ok (md _ _ h)
  case dout => 
    intro s h; unfold doutRead; simp only; (repeat' split) <;> first | exact Post.error _ | exact Post.ok (md _ _ h)
  case keyr => intro i w s h; unfold keyrWrite coreKeyLoad; simp only; (repeat' split) <;> first | exact Post.error _ | exact Post.ok (md _ _ h) |  exact Post.ok (md _ _ (md _ _ (md _ _ h)))
  case ivr => intro i w s h; unfold ivrWrite; (repeat' split) <;> first | exact Post.error _ | exact Post.ok (md _ _ h)
  case suspr => intro i w s h; unfold susprWrite; (repeat' split) <;> first | exact Post.error _ | exact Post.ok (md _ _ h)
  case receive => intro k s h; unfold sharedReceive coreKeyLoad; split <;> first | exact md _ _ h | exact md _ _ (md _ _ h)
  case disable => exact dis
  case stuck => intro k s h; exact base s _ (by simp) (by simp) (by simp) (by simp) (by simp) h
  case park => intro p s h; unfold park; split <;> (refine base s _ ?_ rfl rfl rfl rfl h; intro v _; cases v <;> rfl)
  case unpark => intro p s h; unfold unpark; split <;> (refine base s _ ?_ rfl rfl rfl rfl h; intro v _; cases v <;> rfl)
  case modH => intro f s h _; exact md _ _ h
  case returned => intro p s h; (refine base s _ ?_ rfl rfl rfl rfl h; intro v _; cases v <;> rfl)
  case logged => intro p s h; (refine base s _ ?_ rfl rfl rfl rfl h; intro v _; cases v <;> rfl)
  all_goals 
    intros
    rename_i s h
    exact md _ _ h

/-- What only a step of the core changes: key material, a key made valid, `CCF` and `RNGEIF` raised
(10_state.md R42, R46). -/
def keysKept (p0 p : Periph) : Prop := p.core.keymat = p0.core.keymat ∧ (p.fl.keyvalid = true → p0.fl.keyvalid = true) ∧ (p.fl.ccf = true → p0.fl.ccf = true) ∧ (p.fl.rngeif = true → p0.fl.rngeif = true)

/-- The shared operations of `u` change none of it. -/
theorem closed_keysKept (u : Inst) (p0 : Inst → Periph) : Closed u (fun t => ∀ v, keysKept (p0 v) (t.periph v)) := by
  have md : ∀ (f : Periph → Periph) (s : State), (∀ p q, keysKept q p → keysKept q (f p)) → (∀ v, keysKept (p0 v) (s.periph v)) → ∀ v, keysKept (p0 v) ((s.modify u f).periph v) := by
    intro f s hf h v
    by_cases e : v = u
    · subst e; rw [State.modify_periph]; exact hf _ _ (h v)
    · rw [State.modify_other s f e]; exact h v
  have oth : ∀ s t : State, (∀ v, t.periph v = s.periph v) → (∀ v, keysKept (p0 v) (s.periph v)) → (∀ v, keysKept (p0 v) (t.periph v)) := by
    intro s t e h v; rw [e]; exact h v
  have dis : ∀ s, (∀ v, keysKept (p0 v) (s.periph v)) → ∀ v, keysKept (p0 v) ((disable u s).periph v) := by
    intro s h; unfold disable coreDisable; split
    · exact md _ _ (fun p q h => h) (md _ _ (fun p q h => h) h)
    · exact h
  have ld : ∀ src s, (∀ v, keysKept (p0 v) (s.periph v)) → ∀ v, keysKept (p0 v) ((coreKeyLoad u src s).periph v) := by
    intro src s h; rw [coreKeyLoad_eq]; exact md _ _ (fun p q h => ⟨h.1, fun e => by simp [loadStarted] at e, h.2.2⟩) h
  have cr : ∀ (f : CR → CR) (s : State), (∀ v, keysKept (p0 v) (s.periph v)) → ∀ v, keysKept (p0 v) ((s.modCr u f).periph v) := by
    intro f s h; exact md _ _ (fun p q h => h) h
  have hh : ∀ (f : Handle → Handle) (s : State), (∀ v, keysKept (p0 v) (s.periph v)) → ∀ v, keysKept (p0 v) ((s.modH u f).periph v) := by
    intro f s h; exact md _ _ (fun p q h => h) h
  have co : ∀ (f : Core → Core) (s : State), (∀ c, (f c).keymat = c.keymat) → (∀ v, keysKept (p0 v) (s.periph v)) → ∀ v, keysKept (p0 v) ((s.modCore u f).periph v) := by
    intro f s hf h; exact md _ _ (fun p q h => ⟨(hf _).trans h.1, h.2⟩) h
  have fl : ∀ (f : Flags → Flags) (s : State), (∀ c, ((f c).keyvalid = true → c.keyvalid = true) ∧ ((f c).ccf = true → c.ccf = true) ∧ ((f c).rngeif = true → c.rngeif = true)) → (∀ v, keysKept (p0 v) (s.periph v)) → ∀ v, keysKept (p0 v) ((s.modFl u f).periph v) := by
    intro f s hf h; exact md _ _ (fun p q h => ⟨h.1, fun e => h.2.1 ((hf _).1 e), fun e => h.2.2.1 ((hf _).2.1 e), fun e => h.2.2.2 ((hf _).2.2 e)⟩) h
  constructor
  case cr =>
    intro w s h
    unfold crWrite
    simp only
    split
    · exact Post.ok h
    split
    · exact Post.error _
    split
    · exact Post.error _
    rename_i n1 n2 n3
    clear n1 n2 n3
    cases w
    case en v =>
      cases v
      · exact Post.ok (dis _ h)
      · show Post _ (enable u s)
        unfold enable coreEnable
        simp only
        split
        · exact Post.ok h
        split
        · exact Post.error _
        · refine Post.ok (co _ _ ?_ (cr _ _ h)); intro c; rfl
    case gcmph v =>
      show Post _ (.ok (writePhase u v s))
      unfold writePhase
      simp only
      split
      · refine Post.ok (co _ _ ?_ (cr _ _ h)); intro c; rfl
      · exact Post.ok (cr _ _ h)
    case keysel v =>
      show Post _ (.ok (writeKeySel u v s))
      unfold writeKeySel
      simp only
      split
      · exact Post.ok (cr _ _ h)
      · exact Post.ok (ld _ _ (cr _ _ h))
    all_goals exact Post.ok (cr _ _ h)
  case modH => exact fun f s h _ => hh f s h
  case disable => exact dis
  case din => 
    intro w s h; unfold dinWrite; simp only; (repeat' split)
    · exact Post.error _
    · exact Post.ok (fl _ _ (fun c => by simp) h)
    · refine Post.ok (co _ _ (fun c => ?_) h); unfold pushInput; split <;> rfl
  case dout =>
    intro s h; unfold doutRead; simp only; (repeat' split)
    · exact Post.error _
    · exact Post.ok (oth (s.modFl u _) _ (fun v => by cases v <;> rfl) (fl _ _ (fun c => by simp) h))
    · refine Post.ok (co _ _ ?_ h); intro c; rfl
  case keyr =>
    intro i w s h; unfold keyrWrite; simp only; (repeat' split)
    · exact Post.error _
    · exact Post.error _
    · refine Post.ok (ld _ _ (md _ _ ?_ h)); intro p q h; exact ⟨h.1, fun e => h.2.1 (by simp at e; exact e.1), h.2.2⟩
    · refine Post.ok (md _ _ ?_ h); intro p q h; exact ⟨h.1, fun e => h.2.1 (by simp at e; exact e.1), h.2.2⟩
  case ivr => intro i w s h; unfold ivrWrite; (repeat' split) <;> first | exact Post.error _ | exact Post.ok (md _ _ (fun p q h => h) h)
  case suspr => intro i w s h; unfold susprWrite; (repeat' split) <;> first | exact Post.error _ | exact Post.ok (md _ _ (fun p q h => h) h)
  case receive => intro k s h; unfold sharedReceive; split; exact fl _ _ (fun c => by simp) h; exact ld _ _ h
  case stuck => intro k s h; exact oth s _ (fun v => by simp) h
  case park => intro p s h; exact oth s _ (fun v => by simp) h
  case unpark => intro p s h; exact oth s _ (fun v => by simp) h
  case returned => intro p s h; exact oth s _ (fun v => by simp) h
  case logged => intro p s h; exact oth s _ (fun v => by simp) h
  case dmainen => intro s h; exact cr _ _ h
  case dmaouten => intro s h; exact cr _ _ h
  case ier => intro v s h; exact md _ _ (fun p q h => h) h
  case dma => intro v s h; exact md _ _ (fun p q h => h) h
  case abandon => intro s h; exact md _ _ (fun p q h => h) h
  all_goals intro s h; exact fl _ _ (fun c => by simp) h

/-- A step of the core keeps the share slots canonical. -/
theorem coreStep_shareSlots (u a) (s : State) (h : assocRising s.shareSlots) : assocRising (coreStep u a s).shareSlots := by
  unfold coreStep
  split
  · rename_i b
    cases hj : (s.periph u).core.job with
    | none => unfold finishJob; simp only [State.core_eq, hj]; exact h
    | some j =>
      by_cases e : j = .keyDeriv
      · subst e; rw [finishJob_derivation hj]; simpa
      · rw [finishJob_data hj e]; simp only; split
        · exact assocRising_put _ _ h
        · exact h
  · unfold finishKeyLoad; (repeat' split) <;> cases u <;> exact h
  · unfold keyErrorStep; (repeat' split) <;> cases u <;> exact h
  · unfold rngErrorStep; (repeat' split) <;> cases u <;> exact h
  · unfold endStartup; (repeat' split) <;> cases u <;> exact h

/-- A step of the core leaves caller memory and the context store. -/
theorem coreStep_mem (u a) (s : State) : (coreStep u a s).mem = s.mem ∧ (coreStep u a s).contexts = s.contexts ∧ (coreStep u a s).alloc = s.alloc:= by
  unfold coreStep
  split
  · rename_i b
    cases hj : (s.periph u).core.job with
    | none => unfold finishJob; simp only [State.core_eq, hj]; simp
    | some j =>
      by_cases e : j = .keyDeriv
      · subst e; rw [finishJob_derivation hj]; simp
      · rw [finishJob_data hj e]; simp
  · unfold finishKeyLoad; (repeat' split) <;> cases u <;> exact ⟨rfl, rfl, rfl⟩
  · unfold keyErrorStep; (repeat' split) <;> cases u <;> exact ⟨rfl, rfl, rfl⟩
  · unfold rngErrorStep; (repeat' split) <;> cases u <;> exact ⟨rfl, rfl, rfl⟩
  · unfold endStartup; (repeat' split) <;> cases u <;> exact ⟨rfl, rfl, rfl⟩

end Sys2Proof.Machine
end

