-- ==== Sys2Proof/Laws/Instancewise.lean ====
section
/-! SUPPORT. Invariants of one instance: a predicate that survives every change an operation, an agent or the core makes to an instance survives every step. -/

namespace Sys2Proof.Machine

/-- Every instance satisfies `P`. -/
def All (P : Inst → Periph → Prop) (s : State) : Prop := ∀ v, P v (s.periph v)

/-- `P` survives every change that an operation, an agent or the core makes to one instance. -/
structure Instancewise (P : Inst → Periph → Prop) : Prop where
  h : ∀ u p x, (x.inst = p.h.inst ∨ x.inst = none ∨ x.inst = some u) → P u p → P u { p with h := x }
  ier : ∀ u p (v : Ier), P u p → P u { p with ier := { v with rngeie := v.rngeie && u == .saes } }
  ccf : ∀ u p, P u p → P u { p with fl := { p.fl with ccf := false } }
  keif : ∀ u p b, P u p → P u { p with fl := { p.fl with keif := b } }
  rngeif : ∀ u p, P u p → P u { p with fl := { p.fl with rngeif := false } }
  rweif : ∀ u p, P u p → P u { p with fl := { p.fl with rweif := false, rderr := false, wrerr := false } }
  load : ∀ u p src, P u p → P u (loadStarted src p)
  cr : ∀ u p w, (∀ b, w ≠ .en b) → ¬(crSaesOnly (crFieldOf w) = true ∧ u = .aes) → P u p → P u { p with cr := crApply w p.cr }
  disable : ∀ u p, P u p → P u (idled p)
  enable : ∀ u p, p.cr.en = false → P u p → P u (enabledWith (jobOnEnable p) p)
  ccm : ∀ u p, p.cr.en = true → P u p → P u { p with core := { p.core with job := some .finalCcm } }
  wrerr : ∀ u p, P u p → P u { p with fl := { p.fl with wrerr := true, rweif := true } }
  rderr : ∀ u p, P u p → P u { p with fl := { p.fl with rderr := true, rweif := true } }
  push : ∀ u p w, p.cr.en = true → p.core.job = none → p.core.inFifo.length ≤ 3 → P u p → P u { p with core := pushInput w p.core }
  pop : ∀ u p c q, p.cr.en = true → p.core.outFifo = c :: q → P u p → P u { p with core := { p.core with outFifo := q } }
  keyr : ∀ u p k m b, P u p → P u { p with keyr := k, fl := { p.fl with keyvalid := p.fl.keyvalid && b }, core := { p.core with keyMarks := m } }
  ivr : ∀ u p v, P u p → P u { p with ivr := v }
  suspr : ∀ u p v, P u p → P u { p with suspr := v }
  dmas : ∀ u p a b, P u p → P u { p with dmaIn := a, dmaOut := b }
  ev : ∀ u p v, P u p → P u { p with dmaEvents := v }
  derived : ∀ u p b, p.core.job = some .keyDeriv → P u p → P u (derivationFinished b p)
  transformed : ∀ u p b j, p.core.job = some j → j ≠ .keyDeriv → P u p → P u (dataFinished u b j p)
  keyLoaded : ∀ u p m, P u p → P u
    { p with
      fl := { p.fl with keyvalid := true, busy := false }
      core := { p.core with keymat := m, keyLoad := none } }
  keyRefused : ∀ u p, P u p → P u
    { p with
      fl := { p.fl with keif := true, keyvalid := false, busy := false }
      core := { p.core with keyLoad := none } }
  keyError : ∀ u p b, P u p → P u { p with fl := { p.fl with keif := true, keyvalid := p.fl.keyvalid && b } }
  rngError : ∀ p, P .saes p → P .saes { p with fl := { p.fl with rngeif := true } }
  jobLost : ∀ p, P .saes p → P .saes { p with core := { p.core with job := none } }
  started : ∀ u p b c, p.core.startup = true → P u p → P u
    { p with
      fl := { p.fl with busy := p.fl.busy && c, rngeif := p.fl.rngeif || b }
      core := { p.core with startup := false } }

theorem all_modify {P : Inst → Periph → Prop} {u : Inst} {s : State} {f : Periph → Periph} (hf : P u (s.periph u) → P u (f (s.periph u))) (h : All P s) : All P (s.modify u f) := by
  intro v
  by_cases e : v = u
  · subst e; rw [State.modify_periph]; exact hf (h _)
  · rw [State.modify_other s f e]; exact h v

theorem Instancewise.crWrite {P} (C : Instancewise P) (u w) {s : State} (h : All P s) : Post (All P) (Machine.crWrite u w s) := by
  unfold Machine.crWrite
  simp only
  split
  · exact Post.ok h
  rename_i hn
  have hn : ¬(crSaesOnly (crFieldOf w) = true ∧ u = .aes) := by simpa using hn
  split
  · exact Post.error _
  split
  · exact Post.error _
  rename_i hj
  have gen : ∀ w, (∀ b, w ≠ .en b) → ¬(crSaesOnly (crFieldOf w) = true ∧ u = .aes) → All P (s.modCr u (crApply w)) := fun w hw hn =>
    all_modify (C.cr u _ w hw hn) h
  unfold crEffect
  split
  · unfold Machine.enable
    split
    · exact Post.ok h
    · rename_i he
      have := all_modify (f := fun p => enabledWith (jobOnEnable p) p) (C.enable u _ (by simpa using he)) h
      unfold coreEnable; simp only
      split
      · exact Post.error _
      · refine Post.ok ?_
        rw [State.modCr_eq, State.modCore_eq, State.modify_modify, State.modify_periph]
        exact this
  · refine Post.ok ?_
    unfold Machine.disable; split
    · rw [coreDisable, State.modCr_eq, State.modCore_eq, State.modify_modify]
      exact all_modify (C.disable u _) h
    · exact h
  · refine Post.ok ?_
    have := gen _ (by simp) hn
    unfold writePhase; simp only; split
    · rename_i hc
      exact all_modify (C.ccm u _ hc.2.2) this
    · exact this
  · refine Post.ok ?_
    have := gen _ (by simp) hn
    unfold writeKeySel; simp only; split
    · exact this
    · rw [coreKeyLoad_eq]
      exact all_modify (C.load u _ _) this
  all_goals exact Post.ok (gen _ (by simp) hn)

theorem all_of_periph {P} {s t : State} (h : All P s) (e : ∀ v, t.periph v = s.periph v) : All P t := by
  intro v; rw [e]; exact h v

theorem Instancewise.coreStep {P} (C : Instancewise P) (u : Inst) (a : CoreAct) {s : State}
    (h : All P s) : All P (Machine.coreStep u a s) := by
  unfold Machine.coreStep
  split
  · rename_i b
    cases hj : (s.periph u).core.job with
    | none => unfold finishJob; simp only [State.core_eq, hj]; exact h
    | some j =>
      by_cases e : j = .keyDeriv
      · subst e
        rw [finishJob_derivation hj]
        exact all_modify (C.derived u _ _ hj) h
      · rw [finishJob_data hj e]
        exact all_of_periph (all_modify (C.transformed u _ b j hj e) h) fun v => by cases v <;> rfl
  · unfold finishKeyLoad
    split
    · exact h
    · simp only
      split
      · rw [State.modFl_eq, State.modCore_eq, State.modify_modify]
        exact all_modify (C.keyLoaded u _ _) h
      · rw [State.modFl_eq, State.modCore_eq, State.modify_modify]
        exact all_modify (C.keyRefused u _) h
  · unfold keyErrorStep
    split
    · exact all_modify (C.keyError u _ _) h
    · exact h
  · unfold rngErrorStep
    split
    · rename_i hu
      have hu : u = .saes := by simp at hu; exact hu.1
      subst hu
      have h' : All P (s.modFl .saes fun f => { f with rngeif := true }) := all_modify (C.rngError _) h
      simp only
      split
      · exact all_modify (C.jobLost _) h'
      · exact h'
    · exact h
  · unfold endStartup
    split
    · rename_i hs
      simp only
      rw [State.modFl_eq, State.modCore_eq, State.modify_modify]
      exact all_modify (C.started u _ _ _ hs) h
    · exact h

theorem Instancewise.closed {P} (C : Instancewise P) (u : Inst) : Closed u (All P) where
  modH f s h hf := all_modify (C.h u _ _ (hf _)) h
  returned v s h := all_of_periph h (fun v => by simp)
  logged v s h := all_of_periph h (fun v => by simp)
  park p s h := all_of_periph h (fun v => by simp)
  stuck k s h := all_of_periph h (fun v => by simp)
  unpark p s h := all_of_periph h (fun v => by simp)
  ier v s h := all_modify (C.ier u _ _) h
  ccf s h := all_modify (C.ccf u _) h
  keif s h := all_modify (C.keif u _ _) h
  rngeif s h := all_modify (C.rngeif u _) h
  rweif s h := all_modify (C.rweif u _) h
  receive k s h := by
    unfold sharedReceive; split
    · exact all_modify (C.keif u _ _) h
    · rw [coreKeyLoad_eq]; exact all_modify (C.load u _ _) h
  cr w s h := C.crWrite u w h
  disable s h := by
    unfold Machine.disable; split
    · rw [coreDisable, State.modCr_eq, State.modCore_eq, State.modify_modify]
      exact all_modify (C.disable u _) h
    · exact h
  dmainen s h := all_modify (C.cr u _ (.dmainen false) (by simp) (by simp [crSaesOnly,
      crFieldOf])) h
  dmaouten s h := all_modify (C.cr u _ (.dmaouten false) (by simp) (by simp [crSaesOnly,
      crFieldOf])) h
  din w s h := by
    unfold dinWrite; simp only; split
    · exact Post.error _
    · split
      · exact Post.ok (all_modify (C.wrerr u _) h)
      · rename_i he hj
        refine Post.ok (all_modify (C.push u _ _ ?_ ?_ ?_) h)
        · simpa using he
        · simp at hj; exact hj.1.1
        · simp at hj; omega
  dout s h := by
    unfold doutRead; simp only; split
    · exact Post.error _
    · rename_i he
      split
      · exact Post.ok (all_of_periph (all_modify (C.rderr u _) h) (fun v => by simp; rfl))
      · rename_i c q hq
        exact Post.ok (all_modify (C.pop u _ c q (by simpa using he) hq) h)
  keyr i w s h := by
    unfold keyrWrite; simp only; split
    · exact Post.error _
    · split
      · exact Post.error _
      · refine Post.ok ?_
        have := all_modify (C.keyr u (s.periph u) ((s.periph u).keyr.set i w) ((s.periph u).core.keyMarks.set i true) (!(!((s.periph u).core.keyMarks.toList.any id)))) (s := s) (f := fun p => { p with keyr := p.keyr.set i w, fl := { p.fl with keyvalid := p.fl.keyvalid && (!(!((s.periph u).core.keyMarks.toList.any id))) }, core := { p.core with keyMarks := (s.periph u).core.keyMarks.set i true } }) h
        split
        · rw [coreKeyLoad_eq]; exact all_modify (C.load u _ _) this
        · exact this
  ivr i w s h := by
    unfold ivrWrite; split
    · exact Post.error _
    · exact Post.ok (all_modify (C.ivr u _ _) h)
  suspr i w s h := by
    unfold susprWrite; split
    · exact Post.error _
    · exact Post.ok (all_modify (C.suspr u _ _) h)
  dma m s h := all_modify (C.dmas u _ _ _) h
  abandon s h := all_modify (f := dmaAbandoned) (fun h =>
    C.ev u { s.periph u with dmaIn := (dmaAbandoned (s.periph u)).dmaIn, dmaOut := (dmaAbandoned (s.periph u)).dmaOut }
      (dmaAbandoned (s.periph u)).dmaEvents (C.dmas u _ _ _ h)) h

theorem Instancewise.agentClosed {P} (C : Instancewise P) : AgentClosed (All P) where
  target u := C.closed u
  store a w s h := by
    unfold memWrite; split
    · exact Post.ok (all_of_periph h (fun v => by simp))
    · exact Post.error _
  saved k c s h := all_of_periph h (fun v => by simp)
  inbox v s h := all_of_periph h (fun v => by simp)
  next s h := all_of_periph h (fun v => by cases v <;> rfl)
  core u a s h := C.coreStep u a h
  events u v s h := all_modify (C.ev u _ _) h
  moved u q t s h := by
    refine all_modify ?_ h
    intro h
    unfold advanceTransfer setTransfer
    split
    · cases q
      · exact C.ev _ _ _ (C.dmas u _ none _ h)
      · exact C.ev _ _ _ (C.dmas u _ _ none h)
    · cases q
      · exact C.dmas u _ _ _ h
      · exact C.dmas u _ _ _ h
  failed u q t s h := by
    unfold dmaFail
    refine all_modify ?_ h
    intro h
    unfold setTransfer
    cases q
    · exact C.ev _ _ _ (C.dmas u _ none _ h)
    · exact C.ev _ _ _ (C.dmas u _ _ none h)

end Sys2Proof.Machine
end

