-- ==== Sys2Proof/Laws/PerInstr.lean ====
section
/-! SUPPORT. One lemma per constructor of `Instr` for each statement about every instruction: its command word lies in the opcode range of its format (30_encoding.md R110). -/

namespace Sys2Proof.Laws

/-- The opcode lies in the range of the instruction's format, so bits [31:8] of its word are zero (R110). -/
def OpcodeWord.Statement (i : Instr) : Prop :=
  match i.format with
  | .cmd => 0x01 ≤ (encode i).1.toNat ∧ (encode i).1.toNat ≤ 0x7f
  | .evt => 0x80 ≤ (encode i).1.toNat ∧ (encode i).1.toNat ≤ 0xbf
  | .bus => 0xc0 ≤ (encode i).1.toNat ∧ (encode i).1.toNat ≤ 0xff

theorem OpcodeWord.init (u : Inst) (inst : Word) : OpcodeWord.Statement (.init u inst) :=
  show 0x01 ≤ (0x1 : Word).toNat ∧ (0x1 : Word).toNat ≤ 0x7f by decide

theorem OpcodeWord.deinit (u : Inst) : OpcodeWord.Statement (.deinit u) :=
  show 0x01 ≤ (0x2 : Word).toNat ∧ (0x2 : Word).toNat ≤ 0x7f by decide

theorem OpcodeWord.setConfigEcb (u : Inst) : OpcodeWord.Statement (.setConfigEcb u) :=
  show 0x01 ≤ (0x3 : Word).toNat ∧ (0x3 : Word).toNat ≤ 0x7f by decide

theorem OpcodeWord.setConfigCbc (u : Inst) (pIv : Word) : OpcodeWord.Statement (.setConfigCbc u pIv) :=
  show 0x01 ≤ (0x4 : Word).toNat ∧ (0x4 : Word).toNat ≤ 0x7f by decide

theorem OpcodeWord.setConfigCtr (u : Inst) (pIv : Word) : OpcodeWord.Statement (.setConfigCtr u pIv) :=
  show 0x01 ≤ (0x5 : Word).toNat ∧ (0x5 : Word).toNat ≤ 0x7f by decide

theorem OpcodeWord.setConfigGcmGmac (u : Inst) (pIv : Word) (pHeader : Word) (headerSize : Word) : OpcodeWord.Statement (.setConfigGcmGmac u pIv pHeader headerSize) :=
  show 0x01 ≤ (0x6 : Word).toNat ∧ (0x6 : Word).toNat ≤ 0x7f by decide

theorem OpcodeWord.setConfigCcm (u : Inst) (pB0 : Word) (pHeader : Word) (headerSize : Word) : OpcodeWord.Statement (.setConfigCcm u pB0 pHeader headerSize) :=
  show 0x01 ≤ (0x7 : Word).toNat ∧ (0x7 : Word).toNat ≤ 0x7f by decide

theorem OpcodeWord.setDataSwap (u : Inst) (datatype : Word) : OpcodeWord.Statement (.setDataSwap u datatype) :=
  show 0x01 ≤ (0x8 : Word).toNat ∧ (0x8 : Word).toNat ≤ 0x7f by decide

theorem OpcodeWord.getDataSwap (u : Inst) : OpcodeWord.Statement (.getDataSwap u) :=
  show 0x01 ≤ (0x9 : Word).toNat ∧ (0x9 : Word).toNat ≤ 0x7f by decide

theorem OpcodeWord.getState (u : Inst) : OpcodeWord.Statement (.getState u) :=
  show 0x01 ≤ (0xa : Word).toNat ∧ (0xa : Word).toNat ≤ 0x7f by decide

theorem OpcodeWord.getLastErrorCodes (u : Inst) : OpcodeWord.Statement (.getLastErrorCodes u) :=
  show 0x01 ≤ (0xb : Word).toNat ∧ (0xb : Word).toNat ≤ 0x7f by decide

theorem OpcodeWord.setUserData (u : Inst) (pUserData : Word) : OpcodeWord.Statement (.setUserData u pUserData) :=
  show 0x01 ≤ (0xc : Word).toNat ∧ (0xc : Word).toNat ≤ 0x7f by decide

theorem OpcodeWord.getUserData (u : Inst) : OpcodeWord.Statement (.getUserData u) :=
  show 0x01 ≤ (0xd : Word).toNat ∧ (0xd : Word).toNat ≤ 0x7f by decide

theorem OpcodeWord.registerCallback (u : Inst) (kind : Word) (cb : Word) : OpcodeWord.Statement (.registerCallback u kind cb) :=
  show 0x01 ≤ (0xe : Word).toNat ∧ (0xe : Word).toNat ≤ 0x7f by decide

theorem OpcodeWord.linkDma (u : Inst) (fifo : Word) (channel : Word) : OpcodeWord.Statement (.linkDma u fifo channel) :=
  show 0x01 ≤ (0xf : Word).toNat ∧ (0xf : Word).toNat ≤ 0x7f by decide

theorem OpcodeWord.setNormalKey (u : Inst) (pKey : Word) (keySize : Word) : OpcodeWord.Statement (.setNormalKey u pKey keySize) :=
  show 0x01 ≤ (0x10 : Word).toNat ∧ (0x10 : Word).toNat ≤ 0x7f by decide

theorem OpcodeWord.setHwKey (u : Inst) (keysel : Word) (kmod : Word) (keySize : Word) : OpcodeWord.Statement (.setHwKey u keysel kmod keySize) :=
  show 0x01 ≤ (0x11 : Word).toNat ∧ (0x11 : Word).toNat ≤ 0x7f by decide

theorem OpcodeWord.setSharedKey (u : Inst) (keySize : Word) (shareId : Word) : OpcodeWord.Statement (.setSharedKey u keySize shareId) :=
  show 0x01 ≤ (0x12 : Word).toNat ∧ (0x12 : Word).toNat ≤ 0x7f by decide

theorem OpcodeWord.enableKeyProtection (u : Inst) : OpcodeWord.Statement (.enableKeyProtection u) :=
  show 0x01 ≤ (0x13 : Word).toNat ∧ (0x13 : Word).toNat ≤ 0x7f by decide

theorem OpcodeWord.disableKeyProtection (u : Inst) : OpcodeWord.Statement (.disableKeyProtection u) :=
  show 0x01 ≤ (0x14 : Word).toNat ∧ (0x14 : Word).toNat ≤ 0x7f by decide

theorem OpcodeWord.encrypt (u : Inst) (pIn : Word) (sizeByte : Word) (pOut : Word) (timeoutMs : Word) : OpcodeWord.Statement (.encrypt u pIn sizeByte pOut timeoutMs) :=
  show 0x01 ≤ (0x20 : Word).toNat ∧ (0x20 : Word).toNat ≤ 0x7f by decide

theorem OpcodeWord.decrypt (u : Inst) (pIn : Word) (sizeByte : Word) (pOut : Word) (timeoutMs : Word) : OpcodeWord.Statement (.decrypt u pIn sizeByte pOut timeoutMs) :=
  show 0x01 ≤ (0x21 : Word).toNat ∧ (0x21 : Word).toNat ≤ 0x7f by decide

theorem OpcodeWord.encryptIt (u : Inst) (pIn : Word) (sizeByte : Word) (pOut : Word) : OpcodeWord.Statement (.encryptIt u pIn sizeByte pOut) :=
  show 0x01 ≤ (0x22 : Word).toNat ∧ (0x22 : Word).toNat ≤ 0x7f by decide

theorem OpcodeWord.decryptIt (u : Inst) (pIn : Word) (sizeByte : Word) (pOut : Word) : OpcodeWord.Statement (.decryptIt u pIn sizeByte pOut) :=
  show 0x01 ≤ (0x23 : Word).toNat ∧ (0x23 : Word).toNat ≤ 0x7f by decide

theorem OpcodeWord.encryptDma (u : Inst) (pIn : Word) (sizeByte : Word) (pOut : Word) : OpcodeWord.Statement (.encryptDma u pIn sizeByte pOut) :=
  show 0x01 ≤ (0x24 : Word).toNat ∧ (0x24 : Word).toNat ≤ 0x7f by decide

theorem OpcodeWord.decryptDma (u : Inst) (pIn : Word) (sizeByte : Word) (pOut : Word) : OpcodeWord.Statement (.decryptDma u pIn sizeByte pOut) :=
  show 0x01 ≤ (0x25 : Word).toNat ∧ (0x25 : Word).toNat ≤ 0x7f by decide

theorem OpcodeWord.gcmGenerateTag (u : Inst) (pTag : Word) (timeoutMs : Word) : OpcodeWord.Statement (.gcmGenerateTag u pTag timeoutMs) :=
  show 0x01 ≤ (0x28 : Word).toNat ∧ (0x28 : Word).toNat ≤ 0x7f by decide

theorem OpcodeWord.ccmGenerateTag (u : Inst) (pTag : Word) (timeoutMs : Word) : OpcodeWord.Statement (.ccmGenerateTag u pTag timeoutMs) :=
  show 0x01 ≤ (0x29 : Word).toNat ∧ (0x29 : Word).toNat ≤ 0x7f by decide

theorem OpcodeWord.requestSuspend (u : Inst) : OpcodeWord.Statement (.requestSuspend u) :=
  show 0x01 ≤ (0x30 : Word).toNat ∧ (0x30 : Word).toNat ≤ 0x7f by decide

theorem OpcodeWord.resume (u : Inst) : OpcodeWord.Statement (.resume u) :=
  show 0x01 ≤ (0x31 : Word).toNat ∧ (0x31 : Word).toNat ≤ 0x7f by decide

theorem OpcodeWord.saveContext (u : Inst) (ctx : Word) : OpcodeWord.Statement (.saveContext u ctx) :=
  show 0x01 ≤ (0x32 : Word).toNat ∧ (0x32 : Word).toNat ≤ 0x7f by decide

theorem OpcodeWord.restoreContext (u : Inst) (ctx : Word) : OpcodeWord.Statement (.restoreContext u ctx) :=
  show 0x01 ≤ (0x33 : Word).toNat ∧ (0x33 : Word).toNat ≤ 0x7f by decide

theorem OpcodeWord.wrapKey (u : Inst) (pKeyIn : Word) (pOut : Word) (timeoutMs : Word) : OpcodeWord.Statement (.wrapKey u pKeyIn pOut timeoutMs) :=
  show 0x01 ≤ (0x40 : Word).toNat ∧ (0x40 : Word).toNat ≤ 0x7f by decide

theorem OpcodeWord.unwrapKey (u : Inst) (pWrapped : Word) (timeoutMs : Word) : OpcodeWord.Statement (.unwrapKey u pWrapped timeoutMs) :=
  show 0x01 ≤ (0x41 : Word).toNat ∧ (0x41 : Word).toNat ≤ 0x7f by decide

theorem OpcodeWord.encryptSharedKey (u : Inst) (pKeyIn : Word) (pOut : Word) (shareId : Word) (timeoutMs : Word) : OpcodeWord.Statement (.encryptSharedKey u pKeyIn pOut shareId timeoutMs) :=
  show 0x01 ≤ (0x42 : Word).toNat ∧ (0x42 : Word).toNat ≤ 0x7f by decide

theorem OpcodeWord.decryptSharedKey (u : Inst) (pEncKey : Word) (shareId : Word) (timeoutMs : Word) : OpcodeWord.Statement (.decryptSharedKey u pEncKey shareId timeoutMs) :=
  show 0x01 ≤ (0x43 : Word).toNat ∧ (0x43 : Word).toNat ≤ 0x7f by decide

theorem OpcodeWord.irq (u : Inst) : OpcodeWord.Statement (.irq u) :=
  show 0x80 ≤ (0x80 : Word).toNat ∧ (0x80 : Word).toNat ≤ 0xbf by decide

theorem OpcodeWord.dmaInCplt (u : Inst) : OpcodeWord.Statement (.dmaInCplt u) :=
  show 0x80 ≤ (0x81 : Word).toNat ∧ (0x81 : Word).toNat ≤ 0xbf by decide

theorem OpcodeWord.dmaOutCplt (u : Inst) : OpcodeWord.Statement (.dmaOutCplt u) :=
  show 0x80 ≤ (0x82 : Word).toNat ∧ (0x82 : Word).toNat ≤ 0xbf by decide

theorem OpcodeWord.dmaError (u : Inst) (fifo : Fifo) : OpcodeWord.Statement (.dmaError u fifo) :=
  show 0x80 ≤ (0x83 : Word).toNat ∧ (0x83 : Word).toNat ≤ 0xbf by decide

theorem OpcodeWord.busCrWrite (u : Inst) (field : CrField) (value : Word) : OpcodeWord.Statement (.busCrWrite u field value) :=
  show 0xc0 ≤ (0xc0 : Word).toNat ∧ (0xc0 : Word).toNat ≤ 0xff by decide

theorem OpcodeWord.busCrRead (u : Inst) : OpcodeWord.Statement (.busCrRead u) :=
  show 0xc0 ≤ (0xc1 : Word).toNat ∧ (0xc1 : Word).toNat ≤ 0xff by decide

theorem OpcodeWord.busFlagRead (u : Inst) (flag : FlagName) : OpcodeWord.Statement (.busFlagRead u flag) :=
  show 0xc0 ≤ (0xc2 : Word).toNat ∧ (0xc2 : Word).toNat ≤ 0xff by decide

theorem OpcodeWord.busFlagClear (u : Inst) (flag : FlagName) : OpcodeWord.Statement (.busFlagClear u flag) :=
  show 0xc0 ≤ (0xc3 : Word).toNat ∧ (0xc3 : Word).toNat ≤ 0xff by decide

theorem OpcodeWord.busDinWrite (u : Inst) (w : Word) : OpcodeWord.Statement (.busDinWrite u w) :=
  show 0xc0 ≤ (0xc4 : Word).toNat ∧ (0xc4 : Word).toNat ≤ 0xff by decide

theorem OpcodeWord.busDoutRead (u : Inst) : OpcodeWord.Statement (.busDoutRead u) :=
  show 0xc0 ≤ (0xc5 : Word).toNat ∧ (0xc5 : Word).toNat ≤ 0xff by decide

theorem OpcodeWord.busKeyrWrite (u : Inst) (i : Fin 8) (w : Word) : OpcodeWord.Statement (.busKeyrWrite u i w) :=
  show 0xc0 ≤ (0xc6 : Word).toNat ∧ (0xc6 : Word).toNat ≤ 0xff by decide

theorem OpcodeWord.busIvrWrite (u : Inst) (i : Fin 4) (w : Word) : OpcodeWord.Statement (.busIvrWrite u i w) :=
  show 0xc0 ≤ (0xc7 : Word).toNat ∧ (0xc7 : Word).toNat ≤ 0xff by decide

theorem OpcodeWord.busIvrRead (u : Inst) (i : Fin 4) : OpcodeWord.Statement (.busIvrRead u i) :=
  show 0xc0 ≤ (0xc8 : Word).toNat ∧ (0xc8 : Word).toNat ≤ 0xff by decide

theorem OpcodeWord.busSusprWrite (u : Inst) (i : Fin 8) (w : Word) : OpcodeWord.Statement (.busSusprWrite u i w) :=
  show 0xc0 ≤ (0xc9 : Word).toNat ∧ (0xc9 : Word).toNat ≤ 0xff by decide

theorem OpcodeWord.busSusprRead (u : Inst) (i : Fin 8) : OpcodeWord.Statement (.busSusprRead u i) :=
  show 0xc0 ≤ (0xca : Word).toNat ∧ (0xca : Word).toNat ≤ 0xff by decide

theorem OpcodeWord.busIerWrite (u : Inst) (mask : BitVec 4) : OpcodeWord.Statement (.busIerWrite u mask) :=
  show 0xc0 ≤ (0xcb : Word).toNat ∧ (0xcb : Word).toNat ≤ 0xff by decide

end Sys2Proof.Laws
end

