-- ==== Sys2Proof/Laws/Runs.lean ====
section
/-! SUPPORT. What the named premises give: a fair run completes a job that nothing else ends; a reload yields the key it yielded before; and under the context law a restored instance goes on as the saved one. -/

namespace Sys2Proof.Machine

/-- On a fair run a job in progress ends (70_reset_and_hazards.md R621). -/
theorem Fair.job_ends {r : Nat → State} (F : Fair r) (R : isRun r) (u : Inst) (n : Nat) :
    ∃ m, n ≤ m ∧ ((r m).core u).job = none := by
  by_contra h
  push Not at h
  obtain ⟨m, hm, b, ht⟩ := F.job u n h
  have hs := R m
  unfold step agentTurn at hs
  rw [ht] at hs
  have hr : r (m + 1) = nextTurn (coreStep u (.finishJob b) (r m)) :=
    (Host.Outcome.next.inj hs).symm
  refine h (m + 1) (by omega) ?_
  have hj := h m hm
  rw [hr]
  obtain ⟨j, hj⟩ := Option.ne_none_iff_exists'.1 hj
  have e : ∀ s, (nextTurn s).periph u = s.periph u := fun s => by cases u <;> rfl
  simp only [State.core_eq, e] at hj ⊢
  unfold coreStep
  simp only
  by_cases k : j = .keyDeriv
  · subst k
    rw [finishJob_derivation hj]
    simp [derivationFinished]
  · rw [finishJob_data hj k, State.with_shareSlots_periph, State.modify_periph]
    rfl

/-- Under the context law the enable takes up the chaining state that a job left: no other algorithm than
ECB loses it to a save and a restore (10_state.md R50). -/
theorem ContextLaw.enable_resumes (C : ContextLaw) {u : Inst} {b : Bool} {j : Job} (p : Periph) (k : Option Job)
    (he : p.cr.en = true) (hj : j ≠ .init) (hc : p.cr.chmod ≠ .ecb) (hk : keyArrives u j p = false) :
    (enabledWith k (dataFinished u b j p)).core.chain = (dataFinished u b j p).core.chain := by
  have h : ({ p.cr with en := true } : CR) = p.cr := by rw [← he]
  simp only [enabledWith, dataFinished, hk, if_neg hj, Bool.false_eq_true, if_false, transformOf, h]
  exact C.resumes p.cr _ _ _ hc

/-! ### Resume after save and restore (46_suspend_resume.md R381) -/

/-- A load yields the same key from the same size, key mode and key words. -/
theorem keyFrom_congr {src : KeySource} {p q : Periph} (hs : q.cr.keysize = p.cr.keysize)
    (hm : q.cr.kmod = p.cr.kmod)
    (hw : keyWordsOf src p.cr.keysize q.keyr = keyWordsOf src p.cr.keysize p.keyr) :
    keyFrom src q = keyFrom src p := by
  simp only [keyFrom, hs, hm, hw]

/-- A hardware key is the same whatever the key registers hold (R377). -/
theorem loadedKey_hw {u : Inst} {k : KeySel} {s t : State}
    (hs : (t.cr u).keysize = (s.cr u).keysize) (hm : (t.cr u).kmod = (s.cr u).kmod) :
    loadedKey u (.hw k) t = loadedKey u (.hw k) s :=
  keyFrom_congr hs hm rfl

/-- The key words that a load of size `k` reads depend on the key registers of that size alone. -/
theorem keyWordsOf_congr {k : KeySize} {v w : Vector Word 8}
    (h : ∀ i : Fin 8, i.val < k.words → v[i] = w[i]) :
    keyWordsOf .software k v = keyWordsOf .software k w := by
  apply List.ext_getElem
  · simp [keyWordsOf]
  · intro n h1 _
    simp only [keyWordsOf, List.length_take, Vector.length_toList, lt_inf_iff] at h1
    simpa [keyWordsOf] using h ⟨n, h1.2⟩ h1.1

/-- A software key reloaded from an unchanged key buffer is the same, whatever the key registers held
between (R381). -/
theorem loadedKey_reload {u : Inst} {s t : State} {m : List Host.Cell} {a : Word} {v w : Vector Word 8}
    (hs : (t.cr u).keysize = (s.cr u).keysize) (hm : (t.cr u).kmod = (s.cr u).kmod)
    (h1 : (s.periph u).keyr = keyOfMemory m a (s.cr u).keysize v)
    (h2 : (t.periph u).keyr = keyOfMemory m a (s.cr u).keysize w) :
    loadedKey u .software t = loadedKey u .software s :=
  keyFrom_congr hs hm (by
    rw [h1, h2]
    exact keyWordsOf_congr fun i hi => by simp [keyOfMemory, hi])

/-- Under the context law an instance restored from the record of a suspended message, with the same key,
gives for the next job the words and the chaining state that the suspended one would have given (R381).
`p` is the instance at the end of the last block before the suspension. -/
theorem ContextLaw.restored_goes_on (C : ContextLaw) {u : Inst} {b : Bool} {j : Job} {old : Option Context}
    {p q : Periph} (ha : algMirrored p) (hj : j ≠ .init) (hk : keyArrives u j p = false) :
    let d := dataFinished u b j p
    let c := savedContext d old
    let r := enabledWith none (restoreEnded c q)
    { q.cr with en := true } = d.cr → (p.cr.chmod ≠ .ecb → q.ivr = c.iv) →
    q.core.keymat = d.core.keymat → ∀ x : Job,
      (transformOf x r).1 = (transformOf x d).1 ∧
        (p.cr.chmod ≠ .ecb → (transformOf x r).2 = (transformOf x d).2) := by
  intro d c r hcr hiv hkey x
  have hd : d.cr = p.cr := by simp [d, dataFinished, hj]
  have hr : r.cr = p.cr := hcr.trans hd
  have hm : r.core.keymat = d.core.keymat := hkey
  unfold transformOf
  rw [hr, hd, hm]
  by_cases ecb : p.cr.chmod = .ecb
  · exact ⟨C.ecbNone _ _ _ _ _ ecb, fun h => absurd ecb h⟩
  · suffices h : r.core.chain = d.core.chain by rw [h]; exact ⟨rfl, fun _ => rfl⟩
    have alg : d.h.algorithm = some p.cr.chmod := ha
    have iv : q.ivr = d.ivr := by rw [hiv ecb]; simp [c, savedContext, alg, ecb]
    have saved : Config.chainFrom p.cr d.ivr d.suspr d.core.keymat = d.core.chain := by
      have k : d.core.keymat = p.core.keymat := by simp [d, dataFinished, hk]
      rw [k]
      exact C.resumes p.cr _ _ _ ecb
    have now : r.core.chain = Config.chainFrom p.cr q.ivr (restoreEnded c q).suspr d.core.keymat := by
      rw [← hr, ← hm]; rfl
    rw [now, iv, ← saved]
    by_cases auth : authAlg (some p.cr.chmod) = true
    · simp [restoreEnded, c, savedContext, alg, auth]
    · refine C.ivAlone _ _ _ _ _ ?_
      revert ecb auth
      cases p.cr.chmod <;> simp [authAlg]

end Sys2Proof.Machine
end

