-- ==== Sys2Proof/Machine/Assembler.lean ====
section
/-! DEFINITION. The assembler's names (30_encoding.md R111, R116) and its pseudo-commands, which expand to commands and have no rule of their own (R117). -/

namespace Sys2Proof.Machine

/-- The mnemonic of an instruction (R111). -/
def mnemonic (i : Instr) : String :=
  match i with
  | .init _ _ => "INIT"
  | .deinit _ => "DEINIT"
  | .setConfigEcb _ => "SET_CONFIG_ECB"
  | .setConfigCbc _ _ => "SET_CONFIG_CBC"
  | .setConfigCtr _ _ => "SET_CONFIG_CTR"
  | .setConfigGcmGmac _ _ _ _ => "SET_CONFIG_GCM_GMAC"
  | .setConfigCcm _ _ _ _ => "SET_CONFIG_CCM"
  | .setDataSwap _ _ => "SET_DATA_SWAP"
  | .getDataSwap _ => "GET_DATA_SWAP"
  | .getState _ => "GET_STATE"
  | .getLastErrorCodes _ => "GET_LAST_ERROR_CODES"
  | .setUserData _ _ => "SET_USER_DATA"
  | .getUserData _ => "GET_USER_DATA"
  | .registerCallback _ _ _ => "REGISTER_CALLBACK"
  | .linkDma _ _ _ => "LINK_DMA"
  | .setNormalKey _ _ _ => "SET_NORMAL_KEY"
  | .setHwKey _ _ _ _ => "SET_HW_KEY"
  | .setSharedKey _ _ _ => "SET_SHARED_KEY"
  | .enableKeyProtection _ => "ENABLE_KEY_PROTECTION"
  | .disableKeyProtection _ => "DISABLE_KEY_PROTECTION"
  | .encrypt _ _ _ _ _ => "ENCRYPT"
  | .decrypt _ _ _ _ _ => "DECRYPT"
  | .encryptIt _ _ _ _ => "ENCRYPT_IT"
  | .decryptIt _ _ _ _ => "DECRYPT_IT"
  | .encryptDma _ _ _ _ => "ENCRYPT_DMA"
  | .decryptDma _ _ _ _ => "DECRYPT_DMA"
  | .gcmGenerateTag _ _ _ => "GCM_GENERATE_TAG"
  | .ccmGenerateTag _ _ _ => "CCM_GENERATE_TAG"
  | .requestSuspend _ => "REQUEST_SUSPEND"
  | .resume _ => "RESUME"
  | .saveContext _ _ => "SAVE_CONTEXT"
  | .restoreContext _ _ => "RESTORE_CONTEXT"
  | .wrapKey _ _ _ _ => "WRAP_KEY"
  | .unwrapKey _ _ _ => "UNWRAP_KEY"
  | .encryptSharedKey _ _ _ _ _ => "ENCRYPT_SHARED_KEY"
  | .decryptSharedKey _ _ _ _ => "DECRYPT_SHARED_KEY"
  | .irq _ => "IRQ"
  | .dmaInCplt _ => "DMA_IN_CPLT"
  | .dmaOutCplt _ => "DMA_OUT_CPLT"
  | .dmaError _ _ => "DMA_ERROR"
  | .busCrWrite _ _ _ => "BUS_CR_WRITE"
  | .busCrRead _ => "BUS_CR_READ"
  | .busFlagRead _ _ => "BUS_FLAG_READ"
  | .busFlagClear _ _ => "BUS_FLAG_CLEAR"
  | .busDinWrite _ _ => "BUS_DIN_WRITE"
  | .busDoutRead _ => "BUS_DOUT_READ"
  | .busKeyrWrite _ _ _ => "BUS_KEYR_WRITE"
  | .busIvrWrite _ _ _ => "BUS_IVR_WRITE"
  | .busIvrRead _ _ => "BUS_IVR_READ"
  | .busSusprWrite _ _ _ => "BUS_SUSPR_WRITE"
  | .busSusprRead _ _ => "BUS_SUSPR_READ"
  | .busIerWrite _ _ => "BUS_IER_WRITE"

/-- The instance as the syntax names it (R116). -/
def instName : Inst → String
  | .aes => "@AES"
  | .saes => "@SAES"

/-- The pseudo-commands (R117). -/
inductive Pseudo
  | gmac (u : Inst) (pIv pHeader headerSize pTag timeoutMs : Word)
  | suspendAndSave (u : Inst) (ctx : Word)
  deriving DecidableEq, Repr

/-- The commands a pseudo-command expands to (R117). `polls` is how often the caller's wait asks for the
state before it reads SUSPENDED. -/
def Pseudo.expand (p : Pseudo) (polls : Nat) : List Instr :=
  match p with
  | .gmac u pIv pHeader headerSize pTag timeoutMs =>
    [.setConfigGcmGmac u pIv pHeader headerSize, .gcmGenerateTag u pTag timeoutMs]
  | .suspendAndSave u ctx =>
    .requestSuspend u :: (List.replicate polls (.getState u) ++ [.saveContext u ctx])

end Sys2Proof.Machine
end

