-- ==== Sys2Proof/Machine/Layout.lean ====
section
/-! DEFINITION. The register layout `REG_LAYOUT` (30_encoding.md R120): offsets, the words of CR, SR, IER and ISR, and the clears of ICR. PRESUMED and not normative (log 19): no rule and no other file uses it. -/

namespace Sys2Proof.Machine

/-- The registers of the layout. -/
inductive Register
  | cr | sr | dinr | doutr
  | keyr (i : Fin 8)
  | ivr (i : Fin 4)
  | suspr (i : Fin 8)
  | ier | isr | icr
  deriving DecidableEq, Repr

/-- The offset of a register (R120). -/
def Register.offset : Register → Nat
  | .cr => 0x000
  | .sr => 0x004
  | .dinr => 0x008
  | .doutr => 0x00c
  | .keyr i => if i.val < 4 then 0x010 + 4 * i.val else 0x030 + 4 * (i.val - 4)
  | .ivr i => 0x020 + 4 * i.val
  | .suspr i => 0x040 + 4 * i.val
  | .ier => 0x300
  | .isr => 0x304
  | .icr => 0x308

/-- The base address of an instance (20_memory.md R99, a parameter). -/
def instBase : Inst → Nat
  | .aes => Config.aesBase
  | .saes => Config.saesBase

/-- The address of a register of an instance (R120, 20_memory.md R99). -/
def Register.address (u : Inst) (r : Register) : Nat := instBase u + r.offset

def dataTypeBits : DataType → BitVec 32
  | .none => 0
  | .halfword => 1
  | .byte => 2
  | .bit => 3

def modeBits : Mode → BitVec 32
  | .encrypt => 0
  | .keyDeriv => 1
  | .decrypt => 2

def algBits : Alg → BitVec 32
  | .ecb => 0
  | .cbc => 1
  | .ctr => 2
  | .gcmGmac => 3
  | .ccm => 4

def phaseBits : Phase → BitVec 32
  | .init => 0
  | .header => 1
  | .payload => 2
  | .final => 3

def keySizeBits : KeySize → BitVec 32
  | .k128 => 0
  | .k256 => 1

def kModBits : KMod → BitVec 32
  | .normal => 0
  | .wrapped => 1
  | .shared => 2

/-- `DHUK_XOR_BHK` is 4 (R120). -/
def keySelBits : KeySel → BitVec 32
  | .software => 0
  | .dhuk => 1
  | .bhk => 2
  | .dhukXorBhk => 4

def flagBit (b : Bool) : BitVec 32 := if b then 1 else 0

/-- The word of `CR` (R120); `CHMOD` is split over [6:5] and [16]. -/
def crWord (c : CR) : BitVec 32 :=
  flagBit c.en ||| dataTypeBits c.datatype <<< 1 ||| modeBits c.mode <<< 3 |||
    (algBits c.chmod &&& 3) <<< 5 ||| flagBit c.dmainen <<< 11 ||| flagBit c.dmaouten <<< 12 |||
    phaseBits c.gcmph <<< 13 ||| (algBits c.chmod >>> 2) <<< 16 ||| keySizeBits c.keysize <<< 18 |||
    flagBit c.keyprot <<< 19 ||| c.npblb.zeroExtend 32 <<< 20 ||| kModBits c.kmod <<< 24 |||
    c.kshareid.zeroExtend 32 <<< 26 ||| keySelBits c.keysel <<< 28

/-- The word of `SR` (R120). -/
def srWord (f : Flags) : BitVec 32 :=
  flagBit f.ccf ||| flagBit f.rderr <<< 1 ||| flagBit f.wrerr <<< 2 ||| flagBit f.busy <<< 3 |||
    flagBit f.keyvalid <<< 7

/-- The word of `IER` (R120). -/
def ierWord (e : Ier) : BitVec 32 :=
  flagBit e.ccfie ||| flagBit e.rweie <<< 1 ||| flagBit e.keie <<< 2 ||| flagBit e.rngeie <<< 3

/-- The word of `ISR` (R120). -/
def isrWord (f : Flags) : BitVec 32 :=
  flagBit f.ccf ||| flagBit f.rweif <<< 1 ||| flagBit f.keif <<< 2 ||| flagBit f.rngeif <<< 3

/-- The flags after a write of `ICR` (R120): 1 clears `CCF` [0], `RWEIF` [1] with its qualifiers
(40_register_access.md R143), `KEIF` [2] and `RNGEIF` [3]. -/
def icrWritten (w : BitVec 32) (f : Flags) : Flags :=
  { f with
    ccf := f.ccf && !w.getLsbD 0
    rweif := f.rweif && !w.getLsbD 1
    rderr := f.rderr && !w.getLsbD 1
    wrerr := f.wrerr && !w.getLsbD 1
    keif := f.keif && !w.getLsbD 2
    rngeif := f.rngeif && !w.getLsbD 3 }

end Sys2Proof.Machine
end

