-- ==== Sys2Proof/Tests/Slice0.lean ====
section
/-! SUPPORT. Tests on words, tables and examples of the spec, and a witness for the hypotheses of each obligation. -/

namespace Sys2Proof.Tests

open Sys2Proof Sys2Proof.Machine

/-! ### WellFormed -/

/-- `EN` has one bit, so the value 2 is refused, in the check and in the decoder. -/
theorem test_wellFormed_refuses :
    (Instr.busCrWrite .aes .en 2).wellFormed = false ∧
      (Instr.busCrWrite .saes .npblb 16).wellFormed = false ∧
      decode 0xc0 ⟨0, 0, 2, 0, 0⟩ = .error .badOperand := ⟨rfl, rfl, rfl⟩

/-! ### Decoding, words written out from the opcode map (30_encoding.md R111) -/

theorem test_decode_lifecycle :
    decode 0x01 ⟨1, 1, 0, 0, 0⟩ = .ok (.init .saes 1) ∧
      decode 0x02 ⟨0, 0, 0, 0, 0⟩ = .ok (.deinit .aes) ∧
      decode 0x03 ⟨1, 0, 0, 0, 0⟩ = .ok (.setConfigEcb .saes) ∧
      decode 0x04 ⟨0, 0x100, 0, 0, 0⟩ = .ok (.setConfigCbc .aes 0x100) ∧
      decode 0x05 ⟨0, 0x100, 0, 0, 0⟩ = .ok (.setConfigCtr .aes 0x100) ∧
      decode 0x06 ⟨0, 0x100, 0x200, 16, 0⟩ = .ok (.setConfigGcmGmac .aes 0x100 0x200 16) ∧
      decode 0x07 ⟨0, 0x100, 0x200, 16, 0⟩ = .ok (.setConfigCcm .aes 0x100 0x200 16) := by
  refine ⟨rfl, rfl, rfl, rfl, rfl, rfl, rfl⟩

theorem test_decode_queries :
    decode 0x08 ⟨0, 2, 0, 0, 0⟩ = .ok (.setDataSwap .aes 2) ∧
      decode 0x09 ⟨0, 0, 0, 0, 0⟩ = .ok (.getDataSwap .aes) ∧
      decode 0x0a ⟨0, 0, 0, 0, 0⟩ = .ok (.getState .aes) ∧
      decode 0x0b ⟨0, 0, 0, 0, 0⟩ = .ok (.getLastErrorCodes .aes) ∧
      decode 0x0c ⟨0, 5, 0, 0, 0⟩ = .ok (.setUserData .aes 5) ∧
      decode 0x0d ⟨0, 0, 0, 0, 0⟩ = .ok (.getUserData .aes) ∧
      decode 0x0e ⟨0, 3, 9, 0, 0⟩ = .ok (.registerCallback .aes 3 9) ∧
      decode 0x0f ⟨0, 1, 7, 0, 0⟩ = .ok (.linkDma .aes 1 7) := by
  refine ⟨rfl, rfl, rfl, rfl, rfl, rfl, rfl, rfl⟩

theorem test_decode_keys :
    decode 0x10 ⟨0, 0x100, 1, 0, 0⟩ = .ok (.setNormalKey .aes 0x100 1) ∧
      decode 0x11 ⟨1, 1, 2, 0, 0⟩ = .ok (.setHwKey .saes 1 2 0) ∧
      decode 0x12 ⟨0, 1, 0, 0, 0⟩ = .ok (.setSharedKey .aes 1 0) ∧
      decode 0x13 ⟨1, 0, 0, 0, 0⟩ = .ok (.enableKeyProtection .saes) ∧
      decode 0x14 ⟨1, 0, 0, 0, 0⟩ = .ok (.disableKeyProtection .saes) := by
  refine ⟨rfl, rfl, rfl, rfl, rfl⟩

theorem test_decode_processing :
    decode 0x20 ⟨0, 0x100, 16, 0x200, 10⟩ = .ok (.encrypt .aes 0x100 16 0x200 10) ∧
      decode 0x21 ⟨0, 0x100, 16, 0x200, 10⟩ = .ok (.decrypt .aes 0x100 16 0x200 10) ∧
      decode 0x22 ⟨0, 0x100, 16, 0x200, 0⟩ = .ok (.encryptIt .aes 0x100 16 0x200) ∧
      decode 0x23 ⟨0, 0x100, 16, 0x200, 0⟩ = .ok (.decryptIt .aes 0x100 16 0x200) ∧
      decode 0x24 ⟨0, 0x100, 16, 0x200, 0⟩ = .ok (.encryptDma .aes 0x100 16 0x200) ∧
      decode 0x25 ⟨0, 0x100, 16, 0x200, 0⟩ = .ok (.decryptDma .aes 0x100 16 0x200) ∧
      decode 0x28 ⟨0, 0x400, 10, 0, 0⟩ = .ok (.gcmGenerateTag .aes 0x400 10) ∧
      decode 0x29 ⟨0, 0x400, 10, 0, 0⟩ = .ok (.ccmGenerateTag .aes 0x400 10) := by
  refine ⟨rfl, rfl, rfl, rfl, rfl, rfl, rfl, rfl⟩

theorem test_decode_suspension :
    decode 0x30 ⟨0, 0, 0, 0, 0⟩ = .ok (.requestSuspend .aes) ∧
      decode 0x31 ⟨0, 0, 0, 0, 0⟩ = .ok (.resume .aes) ∧
      decode 0x32 ⟨0, 1, 0, 0, 0⟩ = .ok (.saveContext .aes 1) ∧
      decode 0x33 ⟨0, 1, 0, 0, 0⟩ = .ok (.restoreContext .aes 1) := by
  refine ⟨rfl, rfl, rfl, rfl⟩

theorem test_decode_keyOps :
    decode 0x40 ⟨1, 0x100, 0x200, 10, 0⟩ = .ok (.wrapKey .saes 0x100 0x200 10) ∧
      decode 0x41 ⟨1, 0x100, 10, 0, 0⟩ = .ok (.unwrapKey .saes 0x100 10) ∧
      decode 0x42 ⟨1, 0x100, 0x200, 0, 10⟩ = .ok (.encryptSharedKey .saes 0x100 0x200 0 10) ∧
      decode 0x43 ⟨1, 0x100, 0, 10, 0⟩ = .ok (.decryptSharedKey .saes 0x100 0 10) := by
  refine ⟨rfl, rfl, rfl, rfl⟩

theorem test_decode_events :
    decode 0x80 ⟨1, 0, 0, 0, 0⟩ = .ok (.irq .saes) ∧
      decode 0x81 ⟨0, 0, 0, 0, 0⟩ = .ok (.dmaInCplt .aes) ∧
      decode 0x82 ⟨0, 0, 0, 0, 0⟩ = .ok (.dmaOutCplt .aes) ∧
      decode 0x83 ⟨0, 1, 0, 0, 0⟩ = .ok (.dmaError .aes .output) := by
  refine ⟨rfl, rfl, rfl, rfl⟩

theorem test_decode_bus :
    decode 0xc0 ⟨0, 8, 15, 0, 0⟩ = .ok (.busCrWrite .aes .npblb 15) ∧
      decode 0xc1 ⟨0, 0, 0, 0, 0⟩ = .ok (.busCrRead .aes) ∧
      decode 0xc2 ⟨0, 7, 0, 0, 0⟩ = .ok (.busFlagRead .aes .wrerr) ∧
      decode 0xc3 ⟨0, 5, 0, 0, 0⟩ = .ok (.busFlagClear .aes .rweif) ∧
      decode 0xc4 ⟨0, 0xffffffff, 0, 0, 0⟩ = .ok (.busDinWrite .aes 0xffffffff) ∧
      decode 0xc5 ⟨0, 0, 0, 0, 0⟩ = .ok (.busDoutRead .aes) ∧
      decode 0xc6 ⟨0, 7, 0x1234, 0, 0⟩ = .ok (.busKeyrWrite .aes 7 0x1234) ∧
      decode 0xc7 ⟨0, 3, 0x1234, 0, 0⟩ = .ok (.busIvrWrite .aes 3 0x1234) ∧
      decode 0xc8 ⟨0, 3, 0, 0, 0⟩ = .ok (.busIvrRead .aes 3) ∧
      decode 0xc9 ⟨0, 7, 0x1234, 0, 0⟩ = .ok (.busSusprWrite .aes 7 0x1234) ∧
      decode 0xca ⟨0, 7, 0, 0, 0⟩ = .ok (.busSusprRead .aes 7) ∧
      decode 0xcb ⟨1, 9, 0, 0, 0⟩ = .ok (.busIerWrite .saes 9) := by
  refine ⟨rfl, rfl, rfl, rfl, rfl, rfl, rfl, rfl, rfl, rfl, rfl, rfl⟩

/-- R114, and the checks of the operand record. -/
theorem test_decode_refuses :
    decode 0x101 ⟨0, 0, 0, 0, 0⟩ = .error .unknownOpcode ∧
      decode 0x15 ⟨0, 0, 0, 0, 0⟩ = .error .unknownOpcode ∧
      decode 0x02 ⟨2, 0, 0, 0, 0⟩ = .error .badTarget ∧
      decode 0x02 ⟨0, 1, 0, 0, 0⟩ = .error .surplusOperand ∧
      decode 0xc7 ⟨0, 4, 0, 0, 0⟩ = .error .badOperand := ⟨rfl, rfl, rfl, rfl, rfl⟩

/-- The table's word 1 of `SET_CONFIG_CBC` is its target record, here the SAES. -/
theorem test_tableWord :
    decodeTableWord 8 0x04 = some (.setConfigCbc .aes 0) ∧
      decodeTableWord 64 0x100000004 = some (.setConfigCbc .saes 0) := ⟨rfl, rfl⟩

/-! ### Tables of the spec -/

/-- `PadMask(T, k)`, the table of 30_encoding.md R122. -/
theorem test_padMask :
    padMask .none 1 = 0xff000000 ∧ padMask .none 2 = 0xffff0000 ∧ padMask .none 3 = 0xffffff00 ∧
      padMask .halfword 1 = 0x0000ff00 ∧ padMask .halfword 2 = 0x0000ffff ∧
      padMask .halfword 3 = 0xff00ffff ∧ padMask .byte 1 = 0x000000ff ∧
      padMask .byte 2 = 0x0000ffff ∧ padMask .byte 3 = 0x00ffffff ∧ padMask .bit 1 = 0x000000ff ∧
      padMask .bit 2 = 0x0000ffff ∧ padMask .bit 3 = 0x00ffffff := by decide +kernel

/-- `swap_T` on one word, by the formulas of 30_encoding.md R121. -/
theorem test_swap :
    swap .none 0x12345678 = 0x12345678 ∧ swap .halfword 0x12345678 = 0x56781234 ∧
      swap .byte 0x12345678 = 0x78563412 ∧ swap .bit 0x00000001 = 0x80000000 := by decide +kernel

/-- Words are little-endian (20_memory.md R82), and a zero byte leaves the list. -/
theorem test_memory :
    Memory.writeWord [] 0x100 0x00223344 = [(0x100, 0x44), (0x101, 0x33), (0x102, 0x22)] ∧
      Memory.readWord [(0x100, 0x44), (0x101, 0x33), (0x102, 0x22)] 0x100 = 0x00223344 ∧
      Memory.writeWord [(0x100, 0x44)] 0x100 0 = [] := by decide

/-- The pseudo-commands expand (30_encoding.md R117) and the mnemonics are the table's. -/
theorem test_mnemonic : mnemonic (.setConfigGcmGmac .aes 0 0 0) = "SET_CONFIG_GCM_GMAC" := rfl

/-! ### States for the tests -/

/-- An IDLE handle of `u` with an open message of the algorithm and a software key. -/
def idleHandle (u : Inst) (g : Alg) : Handle :=
  { Handle.reset with
    inst := some u, state := .idle, algorithm := some g, msgStatus := .open, keySched := .enc
    keySrc := .software, pKey := 0x40, hdmaIn := 1, hdmaOut := 2 }

/-- The instance configured, with a valid key. -/
def idleState (u : Inst) (g : Alg) : State :=
  State.reset.modify u fun p =>
    { p with
      h := idleHandle u g, cr := { p.cr with chmod := g }
      fl := ⟨false, false, true, false, false, false, false, false⟩ }

/-- A state with the handle changed. -/
def withH (u : Inst) (f : Handle → Handle) (s : State) : State :=
  s.modify u fun p => { p with h := f p.h }

/-- A state with the instance changed. -/
def withP (u : Inst) (f : Periph → Periph) (s : State) : State := s.modify u f

/-- The instance enabled in an ACTIVE call of 32 bytes, with `n` blocks written. -/
def callState (u : Inst) (g : Alg) (ph : Phase) (T : Transport) (n : Word) : State :=
  (idleState u g).modify u fun p =>
    { p with
      cr := { p.cr with en := true, gcmph := ph }
      h := { p.h with
        state := .active, transport := T, direction := .enc, pIn := 0x100, pOut := 0x200
        dataSizeByte := 32, blockIndex := n } }

/-- The instance with an output block to read and `CCF` set. -/
def outputReady (u : Inst) (s : State) : State :=
  s.modify u fun p =>
    { p with fl := { p.fl with ccf := true }, core := { p.core with outFifo := [1, 2, 3, 4] } }

/-- The instance with `CCF` set. -/
def completed (u : Inst) (s : State) : State :=
  s.modify u fun p => { p with fl := { p.fl with ccf := true } }

/-- The instance with a 256-bit key. -/
def with256 (u : Inst) (s : State) : State :=
  s.modify u fun p => { p with cr := { p.cr with keysize := .k256 } }

/-- The wait of the instance at `w` reports the awaited condition. -/
def waitOk (u : Inst) (w : WaitPoint) (s : State) : Prop :=
  waitCheck (s.h u).inst w true (s.fl u) = .ok

/-- The mainline's next step begins the request. -/
def issued (q : Request) : State := { State.reset with inbox := [q] }

/-! ### Steps, by the spec's own examples -/

/-- `INIT` of the AES at reset (41_lifecycle_config.md R182). -/
theorem test_init :
    ∃ t, exec (.init .aes 0) State.reset = .next t ∧ t.aes.h.state = .init ∧
      t.aes.h.inst = some .aes ∧ t.returned = some (.code .ok) := ⟨_, rfl, rfl, rfl, rfl⟩

/-- Four words start a block, seen swapped by the core (40_register_access.md R145). -/
theorem test_din :
    ∃ t, exec (.busDinWrite .aes 0x01020304)
      (withP .aes (fun p => { p with cr := { p.cr with datatype := .byte }, core := { p.core with inFifo := [1, 2, 3] } })
        (callState .aes .ecb .init .poll 0)) = .next t ∧
      t.aes.core.job = some (.block 1 2 3 0x04030201) ∧ t.aes.core.inFifo = [] :=
  ⟨_, rfl, rfl, rfl⟩

/-- With `KEYSIZE = K128`, the fourth distinct key word starts the load (40_register_access.md R149). -/
theorem test_keyr :
    ∃ t, exec (.busKeyrWrite .aes 0 7)
      (withP .aes (fun p => { p with core := { p.core with keyMarks := #v[false, true, true, true,
          false, false, false, false] } })
        State.reset) = .next t ∧ t.aes.core.keyLoad = some .software ∧ t.aes.fl.busy = true :=
  ⟨_, rfl, rfl, rfl⟩

/-- GCM with a 16-byte header and 32 bytes: the length block is `[0, 128, 0, 256]`
(44_phase_machine.md R300's example). -/
theorem test_gcm_length_block :
    ∃ t, exec (.gcmGenerateTag .aes 0x20000400 10)
      (withH .aes (fun h => { h with headerSize := 16, dataSizeSum := 32 })
        (withP .aes (fun p => { p with cr := { p.cr with en := true, gcmph := .payload } })
          (idleState .aes .gcmGmac))) = .next t ∧
      t.aes.core.job = some (.block 0 128 0 256) := ⟨_, rfl, rfl⟩

/-- A polling call that is no whole number of blocks in ECB is refused by its parameters
(45_transport.md R323), before the state check. -/
theorem test_ecb_partial :
    exec (.encrypt .aes 0x100 17 0x200 10) State.reset = .next (returning .invalidParam State.reset) ∨
      exec (.encrypt .aes 0x100 17 0x200 10) (idleState .aes .ecb) =
        .next (returning .invalidParam (idleState .aes .ecb)) := .inr rfl

/-- The IV's first word in memory goes to `IVR[3]` (42_key_iv.md R230). -/
theorem test_iv_order :
    ∃ t, exec (.setConfigCbc .aes 0x100)
      { idleState .aes .ecb with mem := [(0x100, 1), (0x104, 2), (0x108, 3),
          (0x10c, 4)] } = .next t ∧
      t.aes.ivr = #v[4, 3, 2, 1] := ⟨_, rfl, by decide⟩

/-- The layout's `CHMOD` is split (30_encoding.md R120). -/
theorem test_layout :
    crWord { CR.reset with chmod := .ccm, en := true } = 0x00010001 ∧
      Register.offset (.keyr 4) = 0x030 := by decide

/-! ### Witnesses: encoding, steps, reset -/

theorem test_witness_encode : (Instr.busCrWrite .saes .keysel 4).wellFormed = true := by decide

theorem test_witness_decoded :
    decode 0xcb ⟨1, 15, 0, 0, 0⟩ = .ok (.busIerWrite .saes 15) := rfl

theorem test_witness_unknown_high :
    beginsRequest (issued ⟨.host, 0x101, ⟨0, 0, 0, 0, 0⟩⟩) ⟨.host, 0x101, ⟨0, 0, 0, 0, 0⟩⟩ [] ∧
      (0x101 : Word).extractLsb' 8 24 ≠ 0 := ⟨⟨⟨false, rfl⟩, rfl, rfl, rfl, rfl⟩, by decide⟩

theorem test_witness_unknown_opcode :
    beginsRequest (issued ⟨.host, 0xff, ⟨0, 0, 0, 0, 0⟩⟩) ⟨.host, 0xff, ⟨0, 0, 0, 0, 0⟩⟩ [] ∧
      ∀ i : Instr, (encode i).1 ≠ 0xff :=
  ⟨⟨⟨false, rfl⟩, rfl, rfl, rfl, rfl⟩, fun i => by cases i <;> simp [encode]⟩

/-- The host's command, its event with a record that decodes to nothing, and the engine's two words. -/
theorem test_witness_step :
    beginsRequest (issued ⟨.host, 0x02, ⟨0, 0, 0, 0, 0⟩⟩) ⟨.host, 0x02, ⟨0, 0, 0, 0, 0⟩⟩ [] ∧
      decode 0x02 ⟨0, 0, 0, 0, 0⟩ = .ok (.deinit .aes) ∧ (Instr.deinit .aes).format = .cmd ∧
      beginsRequest (issued ⟨.host, 0x80, ⟨9, 0, 0, 0, 0⟩⟩) ⟨.host, 0x80, ⟨9, 0, 0, 0, 0⟩⟩ [] ∧
      (encode (.irq .aes)).1 = 0x80 ∧ (Instr.irq .aes).format ≠ .cmd ∧
      beginsRequest (issued ⟨.engine, 0xc1, ⟨0, 0, 0, 0, 0⟩⟩) ⟨.engine, 0xc1, ⟨0, 0, 0, 0, 0⟩⟩ [] ∧
      decode 0xc1 ⟨0, 0, 0, 0, 0⟩ = .ok (.busCrRead .aes) ∧ (Instr.busCrRead .aes).format = .bus ∧
      (Instr.deinit .aes).format ≠ .bus :=
  ⟨⟨⟨false, rfl⟩, rfl, rfl, rfl, rfl⟩, rfl, rfl, ⟨⟨false, rfl⟩, rfl, rfl, rfl, rfl⟩, rfl, by decide,
    ⟨⟨false, rfl⟩, rfl, rfl, rfl, rfl⟩, rfl, rfl, by decide⟩

/-- A placed command, event and micro-operation, and a run of the host's commands. -/
theorem test_witness_placed :
    decodeTableWord 8 0x02 = some (.deinit .aes) ∧ decodeTableWord 8 0x81 = some (.dmaInCplt .aes) ∧
      decodeTableWord 8 0xc1 = some (.busCrRead .aes) ∧
      hostOnly (issued ⟨.host, 0x02, ⟨0, 0, 0, 0, 0⟩⟩) ∧
      ∃ t, step (issued ⟨.host, 0x02, ⟨0, 0, 0, 0, 0⟩⟩) = .next t :=
  ⟨rfl, rfl, rfl, by unfold hostOnly; decide, _, rfl⟩

theorem test_witness_handle_reset :
    ((idleState .saes .ecb).h .saes).state ≠ .reset ∧
      ∃ t, exec (.deinit .saes) (idleState .saes .ecb) = .next t := ⟨by decide, _, rfl⟩

/-- A step from a state that meets every invariant: `INIT` of the AES at reset. -/
theorem test_witness_invariants :
    let s := issued ⟨.host, 0x01, ⟨0, 0, 0, 0, 0⟩⟩
    canonicalForms s ∧ coreQuiet s.aes ∧ coreQuiet s.saes ∧ aesPlain s.aes ∧
      errorsQualified s.aes.fl ∧ errorsQualified s.saes.fl ∧ handleOwned .aes s.aes ∧
      handleOwned .saes s.saes ∧ ∃ t, step s = .next t :=
  ⟨by unfold canonicalForms; decide, by unfold coreQuiet; decide, by unfold coreQuiet; decide,
    by unfold aesPlain; decide, by unfold errorsQualified; decide, by unfold errorsQualified; decide,
    .inl rfl, .inl rfl, _, rfl⟩

/-- `StepKeepsCoreQuiet` where the core computes: a job that ends. -/
theorem test_witness_invariants_core :
    let s := { withP .aes (fun p => { p with core := { p.core with job := some (.block 0 0 0 0) } })
      (callState .aes .ecb .init .poll 1) with turn := .core .aes (.finishJob true) }
    coreQuiet s.aes ∧ errorsQualified s.aes.fl ∧ aesPlain s.aes ∧ ∃ t, step s = .next t :=
  ⟨by unfold coreQuiet; decide, by unfold errorsQualified; decide, by unfold aesPlain; decide, _, rfl⟩

/-- The frame statements: an instruction that writes, and `IRQ` at a block boundary. -/
theorem test_witness_frames :
    (∃ t, exec (.saveContext .aes 1) (withH .aes (fun h => { h with state := .suspended })
        (idleState .aes .ecb)) = .next t) ∧
      (∀ u, Instr.saveContext .aes 1 ≠ .irq u) ∧
      ∃ t, exec (.irq .aes) (withP .aes (fun p => { p with ier := ⟨true, true, true, false⟩ })
        (outputReady .aes (callState .aes .ecb .init .it 2))) = .next t ∧
        Memory.readByte t.mem 0x210 = 1 :=
  ⟨⟨_, rfl⟩, by simp, _, rfl, by decide⟩

/-! ### Witnesses: lifecycle and configuration -/

/-- The three clauses of `INIT`, and `DEINIT` from RESET and from an enabled instance. -/
theorem test_witness_init :
    (1 : Word) ≠ instWord .aes ∧ (0 : Word) = instWord .aes ∧
      ((idleState .aes .ecb).h .aes).state ≠ .reset ∧ (State.reset.h .aes).state = .reset ∧
      coreQuiet (State.reset.periph .aes) ∧
      coreQuiet ((callState .aes .ecb .init .poll 1).periph .aes) := by unfold coreQuiet; decide

/-- A call of the instance in progress: neither INIT nor IDLE. -/
theorem test_witness_busy :
    let s := callState .saes .ecb .init .it 1
    (s.h .saes).state ≠ .init ∧ (s.h .saes).state ≠ .idle ∧ (s.h .saes).inst = some .saes ∧
      ¬((s.h .saes).state = .init ∨ (s.h .saes).state = .idle) := by decide

/-- `SET_CONFIG_CBC` with the last four words of memory, a misaligned IV, and one not allocated. -/
theorem test_witness_iv :
    let s := idleState .aes .ecb
    ((0xfffffff0 : Word) ≠ null ∧ (0xfffffff0 : Word).toNat % 4 = 0 ∧
      ((s.h .aes).state = .init ∨ (s.h .aes).state = .idle) ∧ coreQuiet (s.periph .aes) ∧
      wordsAdmitted s 0xfffffff0 4) ∧ (0x103 : Word) ≠ null ∧ (0x103 : Word).toNat % 4 ≠ 0 ∧
      ¬wordsAdmitted { s with alloc := [] } 0xfffffff0 4 := by
  unfold wordsAdmitted coreQuiet; decide

/-- `SET_CONFIG_CCM` with no header, with one byte, and with a header at NULL and at a misaligned
address. -/
theorem test_witness_header :
    let s := idleState .aes .ecb
    ((0x100 : Word) ≠ null ∧ (0x100 : Word).toNat % 4 = 0 ∧ (0 : Word) = 0 ∧
      ((s.h .aes).state = .init ∨ (s.h .aes).state = .idle) ∧ coreQuiet (s.periph .aes) ∧
      wordsAdmitted s 0x100 4) ∧ ((1 : Word) ≠ 0 ∧ null = null) ∧
      ((1 : Word) ≠ 0 ∧ (0x104 : Word) ≠ null ∧ (0x104 : Word).toNat % 4 = 0) ∧
      ¬((1 : Word) ≠ 0 ∧ (0x102 : Word) = null) ∧ (0x102 : Word).toNat % 4 ≠ 0 := by
  unfold wordsAdmitted coreQuiet; decide

/-- The last data type and the first value outside the list. -/
theorem test_witness_data_swap :
    let s := idleState .aes .ecb
    4 ≤ (4 : Word).toNat ∧ (3 : Word).toNat < 4 ∧ (3 : Word) = dataTypeWord .bit ∧
      ((s.h .aes).state = .init ∨ (s.h .aes).state = .idle) ∧ coreQuiet (s.periph .aes) := by
  unfold coreQuiet; decide

/-- The last kind and FIFO inside their lists, the first outside, at INIT. -/
theorem test_witness_links :
    let s := withH .aes (fun h => { h with state := .init }) State.reset
    4 ≤ (4 : Word).toNat ∧ (3 : Word).toNat < 4 ∧ 2 ≤ (2 : Word).toNat ∧ (1 : Word).toNat < 2 ∧
      (1 : Word) ≠ null ∧ ((s.h .aes).state = .init ∨ (s.h .aes).state = .idle) ∧
      ¬((State.reset.h .aes).state = .init ∨ (State.reset.h .aes).state = .idle) := by decide

/-! ### Witnesses: keys -/

/-- A 256-bit key at the end of memory, and the first value outside the list. -/
theorem test_witness_normal_key :
    let s := idleState .aes .ecb
    (keySizeOfWord 1 = some .k256 ∧ (0xffffffe0 : Word) ≠ null ∧ (0xffffffe0 : Word).toNat % 4 = 0 ∧
      ((s.h .aes).state = .init ∨ (s.h .aes).state = .idle) ∧ coreQuiet (s.periph .aes) ∧
      (s.core .aes).keyMarks = Vector.replicate 8 false ∧
      wordsAdmitted s 0xffffffe0 KeySize.k256.words) ∧
      2 ≤ (2 : Word).toNat ∧ (1 : Word).toNat < 2 ∧ (0x102 : Word) ≠ null ∧
      (0x102 : Word).toNat % 4 ≠ 0 := by unfold wordsAdmitted coreQuiet; decide

theorem test_witness_hw_key :
    let s := idleState .saes .ecb
    KeySel.dhukXorBhk ≠ .software ∧ keySelOfWord 3 = some .dhukXorBhk ∧ kModOfWord 2 = some .shared ∧
      keySizeOfWord 0 = some .k128 ∧ (s.h .saes).inst = some .saes ∧
      ((s.h .saes).state = .init ∨ (s.h .saes).state = .idle) ∧ coreQuiet (s.periph .saes) := by
  unfold coreQuiet; decide

/-- Each reason of `SetHwKeyElsewhereWritesNothing`, at the first value outside the list. -/
theorem test_witness_hw_key_elsewhere :
    ((idleState .aes .ecb).h .aes).inst ≠ some .saes ∧ (0 : Word).toNat = 0 ∧
      4 ≤ (4 : Word).toNat ∧ 3 ≤ (3 : Word).toNat ∧ 2 ≤ (2 : Word).toNat := by decide

/-- An empty and a filled slot 0, and a share id outside every list. -/
theorem test_witness_shared_key :
    let s := idleState .aes .ecb
    let f := { s with shareSlots := [(0, (⟨9⟩ : KeyMat))] }
    2 ≤ (2 : Word).toNat ∧ ((idleState .saes .ecb).h .saes).inst ≠ some .aes ∧
      keySizeOfWord 0 = some .k128 ∧ (0 : Word).toNat < Config.kshareidValues ∧
      Config.kshareidValues ≤ (4 : Word).toNat ∧ (s.h .aes).inst = some .aes ∧
      (f.h .aes).inst = some .aes ∧ ((s.h .aes).state = .init ∨ (s.h .aes).state = .idle) ∧
      ((f.h .aes).state = .init ∨ (f.h .aes).state = .idle) ∧ coreQuiet (s.periph .aes) ∧
      coreQuiet (f.periph .aes) ∧ assocGet (0 : Word).toNat s.shareSlots = none ∧
      assocGet (0 : Word).toNat f.shareSlots ≠ none :=
  ⟨by decide, by decide, rfl, Nat.succ_pos _,
    by have := Config.moreShareIds.isLt; unfold Config.kshareidValues; exact this,
    by decide, by decide, by decide, by decide, by unfold coreQuiet; decide, by unfold coreQuiet; decide,
    by decide, by decide⟩

theorem test_witness_protection :
    let s := idleState .saes .ecb
    (s.h .saes).inst = some .saes ∧ ((s.h .saes).state = .init ∨ (s.h .saes).state = .idle) ∧
      coreQuiet (s.periph .saes) ∧ ((idleState .aes .ecb).h .aes).inst ≠ some .saes := by
  unfold coreQuiet; decide

/-- The AES waiting for a key load, with given flags. -/
def loadingState (f : Flags) : State :=
  { withP .aes (fun p => { p with fl := f }) (idleState .aes .ecb) with
    mainPos := some ⟨.aes, .setNormalKey 0x40 .k128, .keyLoad, .keyTimeout⟩ }

/-- The five ends of the wait of a key load. -/
theorem test_witness_key_load_wait :
    let ends (el : Bool) (f : Flags) (r : WaitResult) : Prop :=
      let s := loadingState f
      coreQuiet (s.periph .aes) ∧ (s.cr .aes).en = false ∧
        waitCheck (s.h .aes).inst .keyLoad el (s.fl .aes) = r
    ends true ⟨false, true, false, true, false, false, false, false⟩ (.failed (.hwErr 1)) ∧
      ends true ⟨false, true, false, false, false, false, false, false⟩ (.failed .timeout) ∧
      ends true ⟨false, false, false, false, false, false, false, false⟩ .ok ∧
      ends true ⟨false, false, true, false, false, false, false, false⟩ .ok ∧
      ends false ⟨false, true, false, false, false, false, false, false⟩ .again := by
  unfold coreQuiet
  dsimp only
  refine ⟨by decide, by decide, by decide, by decide, by decide⟩

/-! ### Witnesses: process calls -/

/-- Every check of `ProcessCallChecks` fails somewhere, the ones on numbers at their first value. -/
theorem test_witness_call_checks :
    (flatAlg (some .ecb) = true ∧ (17 : Word).toNat % 16 ≠ 0) ∧ (0x201 : Word).toNat % 4 ≠ 0 ∧
      ((0x100 : Word).toNat < (0x104 : Word).toNat ∧
        (0x104 : Word).toNat < (0x100 : Word).toNat + 4 * ceilDiv (5 : Word).toNat 4) ∧
      outputSkip .saes { CR.reset with mode := .decrypt, kmod := .shared } = true ∧
      2 ^ 32 ≤ (0xfffffff0 : Word).toNat + (0x10 : Word).toNat ∧
      ¬(2 ^ 32 ≤ (0xffffffe0 : Word).toNat + (0x10 : Word).toNat) ∧
      (⟨.encrypt .aes 4 16 8 1, .enc, .poll, .poll .enc 1, .ms 1⟩ : ProcessCall).proc ∈
        (processCalls .aes 4 16 8 1).map (·.proc) := by decide

/-- A polling call of one block, the last 16 bytes of memory. -/
theorem test_witness_poll :
    (⟨.encrypt .aes 0xfffffff0 16 0x200 10, .enc, .poll, .poll .enc 10, .ms 10⟩ : ProcessCall) ∈
        processCalls .aes 0xfffffff0 16 0x200 10 ∧
      callAdmitted .aes .enc .poll 0xfffffff0 16 0x200 (idleState .aes .ecb) ∧
      ∃ q, setUp .aes .enc .poll 0xfffffff0 16 0x200 (idleState .aes .ecb) .flat q ∧
        nextAdmitted (idleState .aes .ecb) .flat q :=
  ⟨.head _, by unfold callAdmitted callChecked; decide, _,
    .inl ⟨by decide, by decide, by decide, by unfold algMirrored; decide, by unfold coreQuiet; decide, rfl, rfl⟩,
    fun j hj _ => by
      have h : ∀ j, j < 4 → State.admits (idleState .aes .ecb) (0xfffffff0 + (16 * 0 + 4 * j)) = true := by decide
      exact h j hj⟩

/-- A later interrupt call of a GCM message. -/
theorem test_witness_it :
    (⟨.encryptIt .aes 0x100 17 0x200, .enc, .it, .startIt .enc, .ccfBudget⟩ : ProcessCall) ∈
        processCalls .aes 0x100 17 0x200 0 ∧
      ∃ s q, callAdmitted .aes .enc .it 0x100 17 0x200 s ∧
        setUp .aes .enc .it 0x100 17 0x200 s .payload q ∧ nextAdmitted s .payload q :=
  ⟨by simp [processCalls], withP .aes (fun p => { p with
      cr := { p.cr with en := true, gcmph := .payload }
      h := { p.h with dataSizeSum := 16, direction := .enc } }) (idleState .aes .gcmGmac), _,
    by unfold callAdmitted callChecked; decide,
    .inr ⟨by decide, by decide, by decide, by unfold coreReady; decide, rfl⟩,
    fun j hj _ => by
      have h : ∀ j, j < 4 → State.admits (idleState .aes .gcmGmac) (0x100 + (16 * 0 + 4 * j)) = true := by decide
      exact h j hj⟩

/-- DMA calls of one block and of 15 bytes, the boundary between the two clauses. -/
theorem test_witness_dma :
    callAdmitted .aes .enc .dma 0x100 16 0x200 (idleState .aes .ctr) ∧
      (∃ q, setUp .aes .enc .dma 0x100 16 0x200 (idleState .aes .ctr) .flat q) ∧
      16 ≤ (16 : Word).toNat ∧ (15 : Word).toNat < 16 ∧
      ∃ s q, callAdmitted .aes .enc .dma 0x100 15 0x200 s ∧
        setUp .aes .enc .dma 0x100 15 0x200 s .payload q ∧ nextAdmitted s .payload q :=
  ⟨by unfold callAdmitted callChecked; decide,
    ⟨_, .inl ⟨by decide, by decide, by decide, by unfold algMirrored; decide, by unfold coreQuiet; decide, rfl, rfl⟩⟩,
    by decide, by decide, withP .aes (fun p => { p with
      cr := { p.cr with en := true, gcmph := .payload }
      h := { p.h with dataSizeSum := 16, direction := .enc } }) (idleState .aes .ccm), _,
    by unfold callAdmitted callChecked; decide,
    .inr ⟨by decide, by decide, by decide, by unfold coreReady; decide, rfl⟩,
    fun j hj _ => by
      have h : ∀ j, j < 4 → State.admits (idleState .aes .ccm) (0x100 + (16 * 0 + 4 * j)) = true := by decide
      exact h j hj⟩

theorem test_witness_auth_call :
    callAdmitted .saes .dec .it 0x100 1 0x200 (idleState .saes .ccm) ∧
      authAlg ((idleState .saes .ccm).h .saes).algorithm = true ∧
      ((idleState .saes .ccm).h .saes).dataSizeSum = 0 ∧
      algMirrored ((idleState .saes .ccm).periph .saes) ∧
      coreQuiet ((idleState .saes .ccm).periph .saes) :=
  ⟨by unfold callAdmitted callChecked; decide, by decide, by decide, by unfold algMirrored; decide,
    by unfold coreQuiet; decide⟩

theorem test_witness_derivation :
    callAdmitted .aes .dec .poll 0x100 16 0x200 (idleState .aes .cbc) ∧
      ecbOrCbc ((idleState .aes .cbc).h .aes).algorithm = true ∧
      ((idleState .aes .cbc).h .aes).dataSizeSum = 0 ∧
      coreQuiet ((idleState .aes .cbc).periph .aes) :=
  ⟨by unfold callAdmitted callChecked; decide, by decide, by decide, by unfold coreQuiet; decide⟩

/-- The end of the INIT phase without and with a header, and of a key derivation. -/
theorem test_witness_setup_ends :
    let s := completed .aes (callState .aes .gcmGmac .init .it 0)
    let h := withH .aes (fun h => { h with pHeader := 0x300, headerSize := 16 }) s
    let d := completed .aes (withP .aes (fun p => { p with cr := { p.cr with mode := .keyDeriv } })
      (callState .aes .cbc .init .dma 0))
    (waitOk .aes .phaseInit s ∧ authAlg (s.h .aes).algorithm = true ∧ coreQuiet (s.periph .aes) ∧
      (s.fl .aes).keyvalid = true ∧ (s.cr .aes).mode ≠ .keyDeriv ∧ (s.h .aes).dataSizeByte ≠ 0 ∧
      phaseOfHeader (s.h .aes) = .payload ∧ nextAdmitted s .payload (initEnded (s.periph .aes))) ∧
      (phaseOfHeader (h.h .aes) = .header ∧ nextAdmitted h .header (initEnded (h.periph .aes))) ∧
      waitOk .aes .keyDeriv d ∧ ecbOrCbc (d.h .aes).algorithm = true ∧ coreQuiet (d.periph .aes) ∧
      algMirrored (d.periph .aes) ∧ (d.fl .aes).keyvalid = true ∧ (d.h .aes).dataSizeByte ≠ 0 ∧
      nextAdmitted d .flat (derivEnded (d.periph .aes)) := by
  unfold waitOk coreQuiet nextAdmitted blockAdmitted algMirrored; decide

/-- The four clauses of `NoKeyFailsTheCommand`: after `SET_CONFIG`, before any key. -/
def noKey (u : Inst) (g : Alg) : State :=
  withP u (fun p => { p with fl := { p.fl with keyvalid := false }, h := { p.h with keySched := .none } })
    (idleState u g)

theorem test_witness_no_key :
    callChecked .aes .enc .poll 0x100 16 0x200 (noKey .aes .ecb) ∧
      tagChecked .aes .gcm 0x400 (noKey .aes .gcmGmac) ∧
      keyOpChecked .wrapped 0x100 (some 0x200) none
        (withP .saes (fun p => { p with cr := { p.cr with kmod := .wrapped } }) (noKey .saes .ecb)) ∧
      ((noKey .aes .ecb).fl .aes).keyvalid = false ∧
      coreQuiet ((noKey .aes .ecb).periph .aes) ∧
      ((withH .aes (fun h => { h with state := .suspended }) (noKey .aes .ecb)).h .aes).state =
        .suspended :=
  ⟨by unfold callChecked; decide, by unfold tagChecked; decide, by unfold keyOpChecked; decide,
    by decide, by unfold coreQuiet; decide, by decide⟩

/-- Each order of errors in one iteration of a wait (43_block_pump.md R250). -/
theorem test_witness_wait :
    waitCheck (some .saes) .block true ⟨true, false, false, true, true, true, true, true⟩ =
        .failed (.hwErr 1) ∧
      waitCheck (some .saes) .block true ⟨true, false, false, false, true, true, true, true⟩ =
        .failed (.hwErr 2) ∧
      waitCheck (some .aes) .block true ⟨true, false, false, false, true, true, true, true⟩ =
        .failed (.hwErr 12) ∧
      waitCheck (some .aes) .block true ⟨true, false, false, false, false, false, false, false⟩ = .ok ∧
      waitCheck (some .aes) .block true ⟨false, false, false, false, false, false, false, false⟩ =
        .failed .timeout ∧
      waitCheck (some .aes) .block false ⟨false, false, false, false, false, false, false, false⟩ =
        .again := by decide

/-- A block that times out and one that a key error ends, in the mainline and in the handler. -/
theorem test_witness_failed_wait :
    let s := callState .aes .ecb .init .poll 1
    let k := withP .aes (fun p => { p with fl := { p.fl with keif := true, ccf := true } }) s
    coreQuiet (s.periph .aes) ∧ coreQuiet (k.periph .aes) ∧
      waitCheck (s.h .aes).inst .block true (s.fl .aes) = .failed .timeout ∧
      waitCheck (k.h .aes).inst .block true (k.fl .aes) = .failed (.hwErr 1) ∧
      (∃ dir t, Proc.poll .enc 10 = .poll dir t) ∧ ∃ x, Proc.dmaFinish true = .dmaFinish x :=
  ⟨by unfold coreQuiet; decide, by unfold coreQuiet; decide, by decide, by decide, ⟨_, _, rfl⟩, _, rfl⟩

/-- The last block of a polling call (clause 2, first case) and the one before it. -/
theorem test_witness_poll_block :
    let s := outputReady .aes (callState .aes .ecb .init .poll 2)
    let b := outputReady .aes (callState .aes .ecb .init .poll 1)
    (waitCheck (s.h .aes).inst .block true (s.fl .aes) = .ok ∧
      phaseOf (s.h .aes).algorithm (s.cr .aes).gcmph = some .flat ∧
      outputSkip .aes (s.cr .aes) = false ∧ outputWords (s.periph .aes) 1 2 3 4 ∧
      outputAdmitted s (s.periph .aes) ∧ (s.h .aes).blockIndex.toNat = phaseBlocks .flat (s.h .aes)) ∧
      waitCheck (b.h .aes).inst .block true (b.fl .aes) = .ok ∧
      phaseOf (b.h .aes).algorithm (b.cr .aes).gcmph = some .flat ∧
      outputSkip .aes (b.cr .aes) = false ∧ outputWords (b.periph .aes) 1 2 3 4 ∧
      outputAdmitted b (b.periph .aes) ∧ (b.h .aes).blockIndex.toNat ≠ phaseBlocks .flat (b.h .aes) ∧
      nextAdmitted b .flat (outputRead (b.periph .aes)) := by
  unfold outputWords outputAdmitted nextAdmitted blockAdmitted; decide

/-- The last output block of a wrap of a 128-bit key, and the first of a 256-bit key. -/
theorem test_witness_wrap_block :
    let l := outputReady .saes (callState .saes .ecb .init .poll 1)
    let f := with256 .saes l
    let done (s : State) : Prop :=
      waitOk .saes .block s ∧ ecbOrCbc (s.h .saes).algorithm = true ∧
        outputSkip .saes (s.cr .saes) = false ∧ outputWords (s.periph .saes) 1 2 3 4 ∧
        outputAdmitted s (s.periph .saes)
    (done l ∧ (l.cr .saes).keysize.words / 4 ≤ (l.h .saes).blockIndex.toNat) ∧ done f ∧
      (f.h .saes).blockIndex.toNat < (f.cr .saes).keysize.words / 4 ∧
      nextAdmitted f .flat (outputRead (f.periph .saes)) := by
  unfold waitOk outputWords outputAdmitted nextAdmitted blockAdmitted; decide

/-- The only header block of a polling call. -/
theorem test_witness_poll_header :
    let s := withP .aes (fun p => { p with
      fl := { p.fl with ccf := true }, h := { p.h with pHeader := 0x300, headerSize := 16 } })
      (callState .aes .ccm .header .poll 1)
    waitCheck (s.h .aes).inst .block true (s.fl .aes) = .ok ∧
      phaseOf (s.h .aes).algorithm (s.cr .aes).gcmph = some .header ∧ coreReady (s.periph .aes) ∧
      (s.h .aes).blockIndex.toNat = phaseBlocks .header (s.h .aes) ∧ (s.h .aes).dataSizeByte ≠ 0 ∧
      nextAdmitted s (boundaryPhase .header (s.h .aes)) (boundaryMoved .header (s.periph .aes)) := by
  unfold coreReady nextAdmitted blockAdmitted; decide

/-- The two starts of a tag command. -/
theorem test_witness_tag :
    tagAdmitted .aes .gcm 0x400 (idleState .aes .gcmGmac) ∧
      algMirrored ((idleState .aes .gcmGmac).periph .aes) ∧
      ((idleState .aes .gcmGmac).h .aes).dataSizeSum = 0 ∧
      tagAdmitted .aes .ccm 0x400 (withP .aes (fun p => { p with
        cr := { p.cr with en := true, gcmph := .payload }, h := { p.h with dataSizeSum := 1 } })
        (idleState .aes .ccm)) ∧
      coreReady ((withP .aes (fun p => { p with
        cr := { p.cr with en := true, gcmph := .payload }, h := { p.h with dataSizeSum := 1 } })
        (idleState .aes .ccm)).periph .aes) :=
  ⟨by unfold tagAdmitted tagChecked; decide, by unfold algMirrored; decide, by decide,
    by unfold tagAdmitted tagChecked; decide, by unfold coreReady; decide⟩

/-- A tag command after its INIT phase, and after the first and the last of two header blocks. -/
theorem test_witness_tag_header :
    let c (n : Word) := completed .aes
      (withH .aes (fun h => { h with pHeader := 0x300, headerSize := 17, dataSizeSum := 0 })
        (callState .aes .ccm .header .poll n))
    let i := withP .aes (fun p => { p with cr := { p.cr with gcmph := .init } }) (c 0)
    (waitOk .aes .phaseInit i ∧ coreQuiet (i.periph .aes) ∧ algMirrored (i.periph .aes) ∧
      (i.fl .aes).keyvalid = true ∧ (i.cr .aes).mode ≠ .keyDeriv ∧
      nextAdmitted i .header (initEnded (i.periph .aes))) ∧
      (waitOk .aes .headerBlock (c 1) ∧ coreReady ((c 1).periph .aes) ∧
        algMirrored ((c 1).periph .aes) ∧ ((c 1).cr .aes).gcmph = .header ∧
        nextAdmitted (c 1) .header (ccfCleared ((c 1).periph .aes))) ∧
      waitOk .aes .headerBlock (c 2) ∧ coreReady ((c 2).periph .aes) ∧
      ¬((c 2).h .aes).blockIndex.toNat < phaseBlocks .header ((c 2).h .aes) := by
  unfold waitOk coreQuiet coreReady algMirrored nextAdmitted blockAdmitted; decide

/-- The bit-length bound of GCM, at both sides. -/
theorem test_witness_tag_checks :
    2 ^ 29 ≤ (0x20000000 : Word).toNat ∧ ¬(2 ^ 29 ≤ (0x1fffffff : Word).toNat) ∧
      (⟨.unwrapKey .saes 4 8, .unwrap, .wrapped, none, none⟩ : KeyCall).op ∈
        (keyCalls .saes 4 4 0 8).map (·.op) := by decide

theorem test_witness_tag_words :
    let s := outputReady .aes (callState .aes .gcmGmac .final .poll 0)
    waitCheck (s.h .aes).inst .tagWords false (s.fl .aes) = .ok ∧
      outputWords (s.periph .aes) 1 2 3 4 ∧ wordsAdmitted s 0xfffffff0 4 :=
  ⟨by decide, ⟨rfl, rfl, rfl, rfl⟩, by unfold wordsAdmitted; decide⟩

/-! ### Witnesses: suspension -/

theorem test_witness_save :
    let s := withH .aes (fun h => { h with state := .suspended }) (callState .aes .ccm .payload .it 1)
    (1 : Word) ≠ null ∧ (s.h .aes).state = .suspended ∧ coreQuiet (s.periph .aes) ∧
      ((callState .aes .ecb .init .it 1).h .aes).state ≠ .suspended := by unfold coreQuiet; decide

/-- A save of an ECB message over an older record. -/
theorem test_witness_save_over :
    let s := { withH .aes (fun h => { h with state := .suspended })
      (callState .aes .ecb .init .it 1) with contexts := [(1, savedContext State.reset.aes none)] }
    (s.h .aes).state = .suspended ∧ coreQuiet (s.periph .aes) ∧ (s.h .aes).algorithm = some .ecb ∧
      assocGet (1 : Word).toNat s.contexts = some (savedContext State.reset.aes none) := by
  unfold coreQuiet; decide

/-- No flag set. -/
def noFlags : Flags := ⟨false, false, false, false, false, false, false, false⟩

/-- The record of a suspended CBC encryption on the SAES with a software key. -/
def record : Context :=
  savedContext ((callState .saes .cbc .init .it 1).periph .saes) none

/-- The IDLE SAES with one record. -/
def restorable (c : Context) : State := { idleState .saes .ecb with contexts := [(1, c)] }

/-- The reasons a restore does not start: no record, another instance, a busy handle, a key the engine
cannot reload, no key pointer. -/
theorem test_witness_restore_stops :
    let s := restorable record
    assocGet (2 : Word).toNat s.contexts = none ∧ assocGet (1 : Word).toNat s.contexts = some record ∧
      record.inst ≠ (s.h .aes).inst ∧ record.inst = (s.h .saes).inst ∧ (s.h .saes).state = .idle ∧
      ((callState .saes .ecb .init .it 1).h .saes).state ≠ .idle ∧
      (restorable { record with keySrc := .none }).contexts = [(1, { record with keySrc := .none })] ∧
      { record with keySrc := .none }.keySrc = .none ∧
      { record with keySched := .dec, pKey := null }.keySched = .dec ∧
      { record with keySched := .dec, pKey := null }.keySrc = .software := by decide

/-- The software clause of a restore. -/
theorem test_witness_restore_software :
    let s := restorable record
    assocGet (1 : Word).toNat s.contexts = some record ∧ record.inst = (s.h .saes).inst ∧
      (s.h .saes).state = .idle ∧ record.keySrc = .software ∧ record.keySched ≠ .dec ∧
      coreQuiet (s.periph .saes) ∧ record.cr.keysel = .software ∧
      (s.core .saes).keyMarks = Vector.replicate 8 false ∧ record.keySize = record.cr.keysize ∧
      wordsAdmitted s record.pKey record.keySize.words := by unfold coreQuiet wordsAdmitted; decide

/-- The hardware clause of a restore. -/
theorem test_witness_restore_hardware :
    let c := { record with keySrc := .hw, pKey := null, cr := { record.cr with keysel := .bhk } }
    let s := restorable c
    assocGet (1 : Word).toNat s.contexts = some c ∧ c.inst = (s.h .saes).inst ∧
      (s.h .saes).state = .idle ∧ c.keySrc = .hw ∧
      ¬(c.keySched = .dec ∧ c.keySrc = .software ∧ c.pKey = null) ∧ coreQuiet (s.periph .saes) ∧
      c.cr.keysel ≠ .software := by unfold coreQuiet; decide

/-- The waits of a restore: a key error, a timeout, a load without a valid key, one of an encryption and of
a decryption, and the end of a derivation. -/
theorem test_witness_restore_ends :
    let s (f : Flags) := withP .saes (fun p => { p with fl := f }) (restorable record)
    let check (w : WaitPoint) (f : Flags) := waitCheck ((s f).h .saes).inst w true ((s f).fl .saes)
    coreQuiet ((s noFlags).periph .saes) ∧ assocGet (1 : Word).toNat (s noFlags).contexts = some record ∧
      ((s noFlags).cr .saes).en = false ∧
      check .keyLoad { noFlags with keif := true } = .failed (.hwErr 1) ∧
      check .keyDeriv noFlags = .failed .timeout ∧ check .keyLoad noFlags = .ok ∧
      check .keyLoad { noFlags with keyvalid := true } = .ok ∧
      check .keyDeriv { noFlags with ccf := true } = .ok ∧ record.direction ≠ .dec ∧
      (restorable { record with direction := .dec }).contexts = [(1, { record with direction := .dec })] ∧
      record.algorithm = some .cbc := by unfold coreQuiet; decide

/-- A resume without a save, and one after a restore, whose enable starts no job. -/
theorem test_witness_resume :
    let s := withH .aes (fun h => { h with state := .suspended }) (callState .aes .gcmGmac .payload .it 1)
    let r := withP .aes (fun p => { p with cr := { p.cr with en := false } }) s
    let ready (s : State) : Prop :=
      (s.h .aes).state = .suspended ∧ (s.fl .aes).keyvalid = true ∧
        phaseOf (s.h .aes).algorithm (s.cr .aes).gcmph = some .payload ∧
        (s.h .aes).blockIndex.toNat < phaseBlocks .payload (s.h .aes) ∧ (s.core .aes).job = none ∧
        (s.core .aes).inFifo = [] ∧ (s.core .aes).outFifo = [] ∧
        ((s.cr .aes).en = false → jobOnEnable (s.periph .aes) = none) ∧
        ∀ j, j < 4 → s.admits ((s.h .aes).pIn.toNat + (16 * 1 + 4 * j)) = true
    ready s ∧ ready r ∧ (s.cr .aes).en = true ∧ (r.cr .aes).en = false ∧
      ((idleState .aes .ecb).h .aes).state ≠ .suspended := by decide

/-! ### Witnesses: key operations -/

/-- The SAES ready for a wrap or share command. -/
def keyOpState (m : KMod) : State :=
  withP .saes (fun p => { p with cr := { p.cr with kmod := m } }) (idleState .saes .ecb)

theorem test_witness_key_commands :
    keyOpAdmitted .wrapped 0xfffffff0 (some 0x200) none (keyOpState .wrapped) ∧
      keyOpAdmitted .wrapped 0x100 none none (keyOpState .wrapped) ∧
      keyOpAdmitted .shared 0x100 (some 0x200) (some 0) (keyOpState .shared) ∧
      keyOpAdmitted .shared 0x100 none (some 0) (keyOpState .shared) ∧
      coreQuiet ((keyOpState .wrapped).periph .saes) ∧
      algMirrored ((keyOpState .wrapped).periph .saes) ∧
      (∀ j, j < 4 → (keyOpState .wrapped).admits (0xfffffff0 + (16 * 0 + 4 * j)) = true) := by
  have k : (some (0 : Word)).all shareIdValid = true := by
    simp [shareIdValid, Config.kshareidValues]
  refine ⟨?_, ?_, ?_, ?_, by unfold coreQuiet; decide, by unfold algMirrored; decide, by decide⟩
  · unfold keyOpAdmitted keyOpChecked; decide
  · unfold keyOpAdmitted keyOpChecked; decide
  · exact ⟨⟨by decide, by decide, k, by decide⟩, by decide⟩
  · exact ⟨⟨by decide, by decide, k, by decide⟩, by decide⟩

/-- The SAES in a wrap or share command with `n` blocks of the received key written. -/
def receiving (n : Word) : State :=
  completed .saes (withP .saes (fun p => { p with cr := { p.cr with mode := .decrypt, kmod := .wrapped } })
    (callState .saes .ecb .init .poll n))

/-- The end of the derivation of an unwrap; the last block of a 128-bit key with and without a valid key;
the first block of a 256-bit key. -/
theorem test_witness_received :
    let d := receiving 0
    let l := receiving 1
    let v := withP .saes (fun p => { p with fl := { p.fl with keyvalid := false } }) l
    let f := with256 .saes l
    let done (s : State) : Prop :=
      waitOk .saes .block s ∧ outputSkip .saes (s.cr .saes) = true ∧
        ecbOrCbc (s.h .saes).algorithm = true ∧ coreReady (s.periph .saes) ∧ coreQuiet (s.periph .saes)
    let last (s : State) : Prop := (s.cr .saes).keysize.words / 4 ≤ (s.h .saes).blockIndex.toNat
    (waitOk .saes .keyDeriv d ∧ algMirrored (d.periph .saes) ∧ ¬last d ∧
      (d.fl .saes).keyvalid = true ∧ nextAdmitted d .flat (derivEnded (d.periph .saes))) ∧
      (done l ∧ last l ∧ (l.fl .saes).keyvalid = true) ∧
      (done v ∧ last v ∧ (v.fl .saes).keyvalid = false) ∧
      done f ∧ ¬last f ∧ nextAdmitted f .flat (ccfCleared (f.periph .saes)) := by
  unfold waitOk coreQuiet coreReady algMirrored nextAdmitted blockAdmitted
  dsimp only
  refine ⟨by decide, by decide, by decide, by decide⟩

/-! ### Witnesses: events -/

/-- The AES with an enabled interrupt and given flags in an ACTIVE call. -/
def irqPeriph (T : Transport) (f : Flags) : Periph :=
  (withP .aes (fun p => { p with ier := ⟨true, true, true, false⟩, fl := f })
    (callState .aes .ecb .init T 1)).periph .aes

/-- The AES in such a state. -/
def irqState (T : Transport) (f : Flags) : State := withP .aes (fun _ => irqPeriph T f) State.reset

/-- An enabled error in a call and outside one, a completion nobody waits for, nothing, and an error flag
that R330 does not test. -/
theorem test_witness_irq_errors :
    let p := irqPeriph .it ⟨false, false, true, true, false, false, false, false⟩
    let o := irqPeriph .poll ⟨false, false, true, true, false, false, false, false⟩
    let d := irqPeriph .poll ⟨true, false, true, false, false, false, false, false⟩
    let n := irqPeriph .it ⟨false, false, true, false, false, false, false, false⟩
    let r := irqPeriph .it ⟨true, false, true, false, true, false, false, false⟩
    (irqErrors p.h.inst p.fl p.ier = 1 ∧ p.h.state = .active ∧ p.h.transport = .it ∧ coreQuiet p) ∧
      (irqErrors o.h.inst o.fl o.ier = 1 ∧ o.h.transport ≠ .it ∧ o.h.transport ≠ .dma) ∧
      (irqErrors d.h.inst d.fl d.ier = 0 ∧ d.ier.ccfie = true ∧ d.fl.ccf = true ∧
        d.h.transport ≠ .it) ∧
      (irqErrors n.h.inst n.fl n.ier = 0 ∧ ¬(n.ier.ccfie = true ∧ n.fl.ccf = true) ∧
        n.fl.keif = false ∧ n.fl.rweif = false ∧ n.fl.rngeif = false) ∧
      irqErrors .none r.fl r.ier = 0 ∧ r.fl.rngeif = true := by
  unfold coreQuiet; decide

/-- `RNGEIF` raises the line of a SAES whose handle names no instance; its `IRQ` acknowledges it
(45_transport.md R335, 92_eei_decisions.md D34: a level line must be acknowledged). -/
theorem test_spurious_irq :
    let s := withP .saes (fun p => { p with
      ier := ⟨false, false, false, true⟩, fl := { p.fl with rngeif := true } }) State.reset
    irqDue .saes s = true ∧
      exec (.irq .saes) s = .next (withP .saes (fun p => { p with fl := { p.fl with rngeif := false } }) s) ∧
      irqDue .saes (withP .saes (fun p => { p with fl := { p.fl with rngeif := false } }) s) = false :=
  ⟨rfl, rfl, rfl⟩

/-- The AES in an interrupt call at a completed block: `n` blocks written, output to read. -/
def boundaryPeriph (g : Alg) (ph : Phase) (n : Word) (out : List Word) : Periph :=
  { (callState .aes g ph .it n).aes with
    ier := ⟨true, true, true, false⟩
    fl := ⟨true, false, true, false, false, false, false, false⟩
    core := { (callState .aes g ph .it n).aes.core with outFifo := out } }

/-- What every clause of `IrqAdvancesTheCall` assumes. -/
def atBoundary (p : Periph) : Prop :=
  irqErrors p.h.inst p.fl p.ier = 0 ∧ p.ier.ccfie = true ∧ p.fl.ccf = true ∧ p.h.state = .active ∧
    p.h.transport = .it

/-- A phase error, the last block, a suspend request before it, and a next block. -/
theorem test_witness_irq_advance :
    let f := boundaryPeriph .gcmGmac .final 1 []
    let l := boundaryPeriph .ecb .init 2 [1, 2, 3, 4]
    let b := boundaryPeriph .ecb .init 1 [1, 2, 3, 4]
    (atBoundary f ∧ authAlg f.h.algorithm = true ∧ f.cr.gcmph ≠ .header ∧ f.cr.gcmph ≠ .payload ∧
      coreQuiet f) ∧
      (atBoundary l ∧ phaseOf l.h.algorithm l.cr.gcmph = some .flat ∧ outputSkip .aes l.cr = false ∧
        outputAdmitted (withP .aes (fun _ => l) State.reset) l ∧ outputWords l 1 2 3 4 ∧
        phaseBlocks .flat l.h ≤ l.h.blockIndex.toNat) ∧
      atBoundary b ∧ phaseOf b.h.algorithm b.cr.gcmph = some .flat ∧ outputSkip .aes b.cr = false ∧
      outputAdmitted (withP .aes (fun _ => b) State.reset) b ∧ outputWords b 1 2 3 4 ∧
      b.h.blockIndex.toNat < phaseBlocks .flat b.h ∧ b.h.suspendRequest = false ∧
      { b.h with suspendRequest := true }.suspendRequest = true ∧
      nextAdmitted (withP .aes (fun _ => b) State.reset) (boundaryPhase .flat b.h)
        (boundaryMoved .flat (outputRead b)) := by
  unfold atBoundary coreQuiet outputAdmitted outputWords nextAdmitted blockAdmitted
  dsimp only
  refine ⟨by decide, by decide, by decide, by decide, by decide, by decide, by decide, by decide,
    by decide, by decide, by decide⟩

/-- The last header block of an interrupt call. -/
theorem test_witness_irq_header :
    let p := boundaryPeriph .ccm .header 1 []
    let h := { p with h := { p.h with pHeader := 0x300, headerSize := 16 } }
    atBoundary h ∧ phaseOf h.h.algorithm h.cr.gcmph = some .header ∧ coreReady h ∧
      h.h.blockIndex.toNat = phaseBlocks .header h.h ∧
      nextAdmitted State.reset (boundaryPhase .header h.h) (boundaryMoved .header h) := by
  unfold atBoundary coreReady nextAdmitted blockAdmitted; decide

/-- DMA calls: nothing done yet, the other channel done, whole blocks and a partial block of one byte. -/
theorem test_witness_dma_events :
    let p := (callState .aes .gcmGmac .payload .dma 0).periph .aes
    let o := { p with h := { p.h with dmaOutDone := true, dataSizeByte := 17 } }
    let i := { p with h := { p.h with dmaInDone := true } }
    ((p.h.state = .active ∧ p.h.transport = .dma) ∧ p.h.dmaInDone = false ∧ p.h.dmaOutDone = false ∧
      p.h.dataSizeByte.toNat % 16 = 0 ∧ coreQuiet p) ∧
      ((o.h.state = .active ∧ o.h.transport = .dma) ∧ o.h.dmaInDone = false ∧ o.h.dmaOutDone = true ∧
        o.h.dataSizeByte.toNat % 16 ≠ 0 ∧ phaseOf o.h.algorithm o.cr.gcmph = some .payload ∧
        coreReady o ∧ ∀ j, j < 4 → 16 * 1 + 4 * j < 17 →
          State.admits State.reset (o.h.pIn.toNat + (16 * 1 + 4 * j)) = true) ∧
      ((i.h.state = .active ∧ i.h.transport = .dma) ∧ i.h.dmaInDone = true ∧ i.h.dmaOutDone = false ∧
        i.h.dataSizeByte.toNat % 16 = 0) ∧
      ¬((idleHandle .aes .ecb).state = .active ∧ (idleHandle .aes .ecb).transport = .dma) := by
  unfold coreQuiet coreReady; decide

/-- The blocks a DMA call writes itself: its only header block, then a call of 32 bytes (whole blocks) and
one of 15; and the partial block of 17 bytes. -/
theorem test_witness_dma_waits :
    let h := completed .aes (withH .aes (fun h => { h with pHeader := 0x300, headerSize := 16 })
      (callState .aes .ccm .header .dma 1))
    let b (n k : Word) := outputReady .aes (withH .aes (fun h => { h with dataSizeByte := n })
      (callState .aes .ccm .payload .dma k))
    let done (s : State) : Prop :=
      waitOk .aes .block s ∧ phaseOf (s.h .aes).algorithm (s.cr .aes).gcmph = some .payload ∧
        outputSkip .aes (s.cr .aes) = false ∧ outputWords (s.periph .aes) 1 2 3 4 ∧
        outputAdmitted s (s.periph .aes)
    (waitOk .aes .headerBlock h ∧ phaseOf (h.h .aes).algorithm (h.cr .aes).gcmph = some .header ∧
      coreReady (h.periph .aes) ∧ (h.h .aes).blockIndex.toNat = phaseBlocks .header (h.h .aes) ∧
      nextAdmitted h .payload (boundaryMoved .header (ccfCleared (h.periph .aes)))) ∧
      done (b 15 1) ∧ done (b 17 2) ∧ ((b 17 2).h .aes).dataSizeByte.toNat % 16 ≠ 0 := by
  unfold waitOk coreReady outputWords outputAdmitted nextAdmitted blockAdmitted; decide

/-! ### Witnesses: bus operations and agents -/

/-- A reserved value, and each branch of a write at its boundary. -/
theorem test_witness_cr_write :
    crWriteOf .mode 3 = none ∧ crWriteOf .chmod 5 = none ∧ crWriteOf .chmod 4 = some (.chmod .ccm) ∧
      crWriteOf .npblb 15 = some (.npblb 15) ∧ crWriteOf .npblb 16 = none ∧
      crWriteOf .en 1 = some (.en true) ∧ crWriteOf .keysel 3 = some (.keysel .dhukXorBhk) ∧
      crWriteOf .gcmph 3 = some (.gcmph .final) ∧
      (idleState .aes .ecb).aes.cr.en = false ∧ (idleState .aes .ecb).aes.fl.keyvalid = true ∧
      (callState .aes .ccm .payload .it 1).aes.cr.en = true := by decide

/-- The third and the fourth input word, and a word the core does not take. -/
theorem test_witness_din :
    let p (q : List Word) := (withP .aes (fun p => { p with core := { p.core with inFifo := q } })
      (callState .aes .ecb .init .poll 0)).aes
    let taken (p : Periph) := p.core.job = none ∧ p.core.outFifo = [] ∧ p.core.inFifo.length < 4
    ((p [1, 2]).cr.en = true ∧ taken (p [1, 2]) ∧ (p [1, 2]).core.inFifo.length < 3) ∧
      ((p [1, 2, 3]).cr.en = true ∧ taken (p [1, 2, 3]) ∧ (p [1, 2, 3]).core.inFifo = [1, 2, 3]) ∧
      ((outputReady .aes (callState .aes .ecb .init .poll 0)).aes.cr.en = true ∧
        ¬taken (outputReady .aes (callState .aes .ecb .init .poll 0)).aes) ∧
      State.reset.aes.cr.en = false := by decide

theorem test_witness_dout :
    (callState .aes .ecb .init .poll 0).aes.cr.en = true ∧
      (callState .aes .ecb .init .poll 0).aes.core.outFifo = [] ∧
      (outputReady .aes (callState .aes .ecb .init .poll 0)).aes.core.outFifo = 1 :: [2, 3, 4] ∧
      State.reset.aes.cr.en = false := by decide

/-- The last key register of a 128-bit key and the first beyond it. -/
theorem test_witness_registers :
    State.reset.aes.cr.en = false ∧ (callState .aes .ecb .init .poll 0).aes.cr.en = true ∧
      State.reset.aes.cr.keysize.words ≤ (4 : Fin 8).val ∧
      (3 : Fin 8).val < State.reset.aes.cr.keysize.words := by decide

/-- A derivation, a block, the last key block of a shared-key decryption, and a key load. -/
theorem test_witness_core :
    let c := (callState .saes .ecb .init .poll 1).saes
    let working (j : Job) (m : Mode) (k : KMod) : Periph :=
      { c with cr := { c.cr with mode := m, kmod := k }, core := { c.core with job := some j } }
    let d := working .keyDeriv .keyDeriv .normal
    let b := working (.block 0 0 0 0) .encrypt .normal
    let k := working (.block 0 0 0 0) .decrypt .shared
    let l := { c with core := { c.core with keyLoad := some .software } }
    (c.core.job = none ∧ c.core.keyLoad = none) ∧ d.core.job = some .keyDeriv ∧
      (b.core.job = some (.block 0 0 0 0) ∧ Job.block 0 0 0 0 ≠ .keyDeriv ∧
        ¬(keyArrives .saes (.block 0 0 0 0) b = true ∧ b.cr.kmod = .shared)) ∧
      (k.core.job = some (.block 0 0 0 0) ∧ keyArrives .saes (.block 0 0 0 0) k = true ∧
        k.cr.kmod = .shared) ∧ l.core.keyLoad = some .software := by decide

/-- A 128-bit key and other words in the key registers beyond it. -/
theorem test_witness_key_words :
    let p := State.reset.aes
    (∀ i : Fin 8, i.val < p.cr.keysize.words → (#v[0, 0, 0, 0, 1, 2, 3, 4] : Vector Word 8)[i] = p.keyr[i]) ∧
      keyWordsOf .software .k128 #v[1, 2, 3, 4, 5, 6, 7, 8] = [1, 2, 3, 4] := by decide

/-- A stuck mainline has no step, so its run ends, and is not finished (00_scope.md R19). -/
theorem test_run_ends :
    let s := withP .saes (fun p => { p with core := { p.core with startup := false } }) State.reset
    runFinished s = true ∧ runEnded State.reset = false ∧ runEnded (stuckState .mainline s) = true ∧
      runFinished (stuckState .mainline s) = false ∧
      runEnded { s with mainPos := some ⟨.aes, .setHwKey .k128, .keyLoad, .keyTimeout⟩ } = false := by
  decide

/-- A key error on an enabled and on a disabled instance, an RNG error on the busy SAES and on the AES, the
start-up, and none. -/
theorem test_witness_core_errors :
    (callState .aes .ecb .init .poll 1).aes.cr.en = true ∧ State.reset.aes.cr.en = false ∧
      State.reset.saes.fl.busy = true ∧ State.reset.saes.core.startup = true ∧
      State.reset.aes.core.startup = false := by decide

/-- A channel that moves its last word and its first of two, one without its request, one whose word is
not allocated, and one without a transfer. -/
theorem test_witness_channels :
    let t : Transfer := ⟨0x100, 2, 0, false⟩
    let on (s : State) := withP .aes (fun p => { p with
      dmaIn := some t, dmaOut := some { t with moved := 1 }
      cr := { p.cr with dmainen := true, dmaouten := true } }) s
    let i := on (callState .aes .ecb .init .dma 0)
    let o := outputReady .aes i
    dmaInRequest i.aes = true ∧ i.admits 0x100 = true ∧ t.moved + 1 < t.words ∧
      dmaOutRequest o.aes = true ∧ o.aes.core.outFifo = 1 :: [2, 3, 4] ∧ o.aes.cr.en = true ∧
      o.admits 0x104 = true ∧ ¬(1 + 1 < t.words) ∧ dmaInRequest o.aes = false ∧
      ({ i with alloc := [] } : State).admits 0x100 = false ∧ State.reset.aes.dmaIn = none := by decide

/-- A high and a low line, a delivered DMA event, and a waiting mainline and handler. -/
theorem test_witness_turns :
    let s := irqState .it ⟨true, false, true, false, false, false, false, false⟩
    let e := withP .aes (fun p => { p with dmaEvents := [⟨.inCplt, false⟩, ⟨.outCplt, true⟩] }) State.reset
    (s.isrPos = none ∧ irqLine (s.fl .aes) (s.periph .aes).ier = true) ∧
      (State.reset.isrPos = none ∧ irqLine (State.reset.fl .aes) (State.reset.periph .aes).ier = false) ∧
      (e.isrPos = none ∧ ⟨.inCplt, false⟩ ∈ (e.periph .aes).dmaEvents ∧
        ⟨.outCplt, true⟩ ∈ (e.periph .aes).dmaEvents) ∧
      ⟨.inCplt, false⟩ ∉ (State.reset.periph .aes).dmaEvents ∧
      (State.reset.mainPos = none ∧ State.reset.inbox = []) ∧
      ((loadingState ⟨false, true, false, false, false, false, false, false⟩).isrPos = none ∧
        (loadingState ⟨false, true, false, false, false, false, false, false⟩).mainPos =
          some ⟨.aes, .setNormalKey 0x40 .k128, .keyLoad, .keyTimeout⟩) ∧
      ({ s with isrPos := some ⟨.aes, .dmaFinish true, .block, .ccfBudget⟩ }).isrPos =
        some ⟨.aes, .dmaFinish true, .block, .ccfBudget⟩ ∧
      (stuckState .mainline s).mainStuck = true ∧ (stuckState .entry s).isrStuck = true := by
  decide

/-- An error fails a DMA call whose output completion is pending: the event is stale (60_exceptions.md R504),
and in a later DMA call its entry takes it and does nothing else. -/
theorem test_stale_event :
    let call (l : List PendingEvent) := withP .aes (fun p => { p with dmaEvents := l })
      (callState .aes .ecb .init .dma 0)
    exec (.dmaError .aes .input) (call [⟨.outCplt, false⟩]) =
        .next (logging [eventOf .error (failed 0x10 ((call []).periph .aes)).h]
          (withP .aes (fun p => { failed 0x10 p with dmaEvents := [⟨.outCplt, true⟩] }) (call []))) ∧
      dmaEntryTurn .aes ⟨.outCplt, true⟩ (call [⟨.outCplt, true⟩]) = .next (call []) :=
  ⟨rfl, rfl⟩

theorem test_witness_request_suspend :
    ((callState .aes .ecb .init .it 1).h .aes).state = .active ∧
      ((callState .aes .ecb .init .it 1).h .aes).transport = .it ∧
      ¬(((callState .aes .ecb .init .dma 1).h .aes).transport = .it) := by decide

end Sys2Proof.Tests
end

/-! What each agent does in its turn (00_scope.md R18), one lemma per way the turn can go; then the
statement O60 about turns. -/

namespace Sys2Proof.Machine

/-! ### The turn beside the rest of the state -/

theorem State.with_turn_modify (s : State) (u : Inst) (f : Periph → Periph) (v : Turn) :
    ({ s with turn := v } : State).modify u f = { s.modify u f with turn := v } := by
  cases u <;> rfl

theorem irqDue_with_turn (u : Inst) (s : State) (v : Turn) : irqDue u { s with turn := v } = irqDue u s := by
  simp [irqDue]

theorem takeEvent_with_turn (u : Inst) (e : PendingEvent) (s : State) (v : Turn) :
    takeEvent u e { s with turn := v } = { takeEvent u e s with turn := v } := State.with_turn_modify s u _ v

theorem entryRuns_false_iff (s : State) : entryRuns s = false ↔ s.isrPos = none ∧ s.isrStuck = false := by
  simp [entryRuns]

theorem entryRuns_true_iff (s : State) : entryRuns s = true ↔ ¬(s.isrPos = none ∧ s.isrStuck = false) := by
  rw [← entryRuns_false_iff, Bool.not_eq_false]

/-- The turn that a step was made in does not show in its answer (log 4). -/
theorem nextTurn_modify_turn (s : State) (u : Inst) (f : Periph → Periph) (v : Turn) :
    nextTurn (({ s with turn := v } : State).modify u f) = nextTurn (s.modify u f) := by
  cases u <;> rfl

/-! ### The mainline (20_memory.md R88) -/

theorem mainlineTurn_blocked {b : Bool} {s : State} (h : entryRuns s = true ∨ s.mainStuck = true) :
    mainlineTurn b s = .next s := by
  unfold mainlineTurn; rw [if_pos (by simpa using h)]

theorem mainlineTurn_waits {b : Bool} {s : State} {p : Pos} (hr : entryRuns s = false)
    (hm : s.mainStuck = false) (hp : s.mainPos = some p) : mainlineTurn b s = waitOutcome p b s := by
  unfold mainlineTurn; rw [if_neg (by simp [hr, hm]), hp]

theorem mainlineTurn_rests {b : Bool} {s : State} (hp : s.mainPos = none) (hi : s.inbox = []) :
    mainlineTurn b s = .next s := by
  unfold mainlineTurn
  split
  · rfl
  · rw [hp, hi]

theorem mainlineTurn_issues {b : Bool} {s : State} {q : Request} {rest : List Request}
    (hr : entryRuns s = false) (hm : s.mainStuck = false) (hp : s.mainPos = none)
    (hi : s.inbox = q :: rest) : mainlineTurn b s = issue q { s with inbox := rest } := by
  unfold mainlineTurn; rw [if_neg (by simp [hr, hm]), hp, hi]

/-! ### Interrupt-context entries (60_exceptions.md R510, R511, 20_memory.md R88, R89) -/

theorem irqTurn_idle {u : Inst} {s : State} (h : entryRuns s = true ∨ irqDue u s = false) :
    irqTurn u s = .next s := by
  unfold irqTurn; rw [if_neg (by rcases h with h | h <;> simp [h])]

theorem irqTurn_runs {u : Inst} {s : State} (hr : entryRuns s = false) (hd : irqDue u s = true) :
    irqTurn u s = exec (.irq u) s := by
  unfold irqTurn; rw [if_pos (by simp [hr, hd])]; rfl

/-- The event word of a DMA event (30_encoding.md R111). -/
def eventInstr (u : Inst) : DmaEvent → Instr
  | .inCplt => .dmaInCplt u
  | .outCplt => .dmaOutCplt u
  | .error q => .dmaError u q

theorem dmaEntryTurn_idle {u : Inst} {e : PendingEvent} {s : State}
    (h : entryRuns s = true ∨ e ∉ (s.periph u).dmaEvents) : dmaEntryTurn u e s = .next s := by
  unfold dmaEntryTurn; rw [if_neg (by rcases h with h | h <;> simp [h])]

/-- The entry of a pending event takes it; a stale one does nothing else (60_exceptions.md R504, log 39). -/
theorem dmaEntryTurn_runs {u : Inst} {e : PendingEvent} {s : State} (hr : entryRuns s = false)
    (he : e ∈ (s.periph u).dmaEvents) :
    dmaEntryTurn u e s =
      if e.stale = true then .next (takeEvent u e s) else exec (eventInstr u e.event) (takeEvent u e s) := by
  unfold dmaEntryTurn runDmaEvent
  rw [if_pos (by simpa [hr] using he)]
  obtain ⟨ev, stale⟩ := e
  cases stale
  · cases ev <;> rfl
  · rfl

theorem handlerTurn_idle {b : Bool} {s : State} (h : s.isrPos = none ∨ s.isrStuck = true) :
    handlerTurn b s = .next s := by
  unfold handlerTurn
  rcases h with h | h
  · rw [h]; cases s.isrStuck <;> rfl
  · rw [h]

theorem handlerTurn_waits {b : Bool} {s : State} {p : Pos} (hs : s.isrStuck = false)
    (hp : s.isrPos = some p) : handlerTurn b s = waitOutcome p b s := by
  unfold handlerTurn; rw [hs, hp]

/-! ### DMA channels (20_memory.md R92, 40_register_access.md R166) -/

theorem advanceTransfer_eq (q : Fifo) (t : Transfer) (p : Periph) :
    advanceTransfer q t p = wordMoved q t p := by
  unfold advanceTransfer wordMoved
  by_cases h : t.moved + 1 < t.words
  · rw [if_neg (by omega)]; cases q <;> simp [h, setTransfer]
  · rw [if_pos (by omega)]; cases q <;> simp [h, setTransfer, completion]

theorem dmaInRequest_iff (p : Periph) : dmaInRequest p = true ↔
    p.cr.dmainen = true ∧ p.cr.en = true ∧ p.core.job = none ∧ p.core.outFifo = [] ∧
      p.core.inFifo.length < 4 := by
  simp [dmaInRequest, and_assoc]

theorem dmaOutRequest_iff (p : Periph) :
    dmaOutRequest p = true ↔ p.cr.dmaouten = true ∧ p.core.outFifo ≠ [] := by
  simp [dmaOutRequest]

theorem dmaStep_none {u : Inst} {q : Fifo} {b : Bool} {s : State} (h : transferOf q (s.periph u) = none) :
    dmaStep u q b s = .ok s := by
  unfold dmaStep; rw [h]

theorem dmaStep_error {u : Inst} {q : Fifo} {t : Transfer} {s : State}
    (h : transferOf q (s.periph u) = some t) : dmaStep u q true s = .ok (dmaFail u q t s) := by
  unfold dmaStep; rw [h]; rfl

theorem dmaStep_input {u : Inst} {t : Transfer} {s : State} (h : (s.periph u).dmaIn = some t) :
    dmaStep u .input false s = if dmaInRequest (s.periph u) then dmaMoveIn u t s else .ok s := by
  unfold dmaStep transferOf; rw [h]; rfl

theorem dmaStep_output {u : Inst} {t : Transfer} {s : State} (h : (s.periph u).dmaOut = some t) :
    dmaStep u .output false s = if dmaOutRequest (s.periph u) then dmaMoveOut u t s else .ok s := by
  unfold dmaStep transferOf; rw [h]; rfl

theorem memRead_admitted {a : Nat} {s : State} (h : s.admits a = true) :
    memRead a s = .ok (Memory.readWord s.mem a) := if_pos h

theorem memRead_stuck {a : Nat} {s : State} (h : s.admits a = false) : memRead a s = .error .stuck :=
  if_neg (by simp [h])

theorem memWrite_admitted {a : Nat} {w : Word} {s : State} (h : s.admits a = true) :
    memWrite a w s = .ok { s with mem := Memory.writeWord s.mem a w } := if_pos h

theorem memWrite_stuck {a : Nat} {w : Word} {s : State} (h : s.admits a = false) :
    memWrite a w s = .error .stuck := if_neg (by simp [h])

/-- The input channel on its request moves the word that its transfer is at. -/
theorem dmaMoveIn_eq {u : Inst} {t : Transfer} {s : State} (hq : dmaInRequest (s.periph u) = true)
    (ha : s.admits (wordAddr t.addr t.moved) = true) :
    dmaMoveIn u t s = .ok (s.modify u fun p => wordMoved .input t
      { p with
        core := pushInput
          (swap (s.periph u).cr.datatype (Memory.readWord s.mem (wordAddr t.addr t.moved))) p.core }) := by
  obtain ⟨-, he, hj, ho, hi⟩ := (dmaInRequest_iff _).mp hq
  unfold dmaMoveIn
  rw [memRead_admitted ha, ok_bind, dinWrite_accept he hj ho (by omega), ok_bind, State.modCore_eq,
    State.modify_modify]
  simp only [advanceTransfer_eq]

theorem dmaMoveIn_stuck {u : Inst} {t : Transfer} {s : State}
    (ha : s.admits (wordAddr t.addr t.moved) = false) : dmaMoveIn u t s = .error .stuck := by
  unfold dmaMoveIn; rw [memRead_stuck ha, error_bind]

theorem doutRead_word {u : Inst} {s : State} {c : Word} {q : List Word} (he : (s.periph u).cr.en = true)
    (hq : (s.periph u).core.outFifo = c :: q) :
    doutRead u s = .ok (swap (s.periph u).cr.datatype c,
      s.modify u fun p => { p with core := { p.core with outFifo := q } }) := by
  unfold doutRead; simp [he, hq, State.modCore_eq]

/-- The output channel on its request moves the word that its transfer is at. -/
theorem dmaMoveOut_eq {u : Inst} {t : Transfer} {s : State} {c : Word} {q : List Word}
    (he : (s.periph u).cr.en = true) (hq : (s.periph u).core.outFifo = c :: q)
    (ha : s.admits (wordAddr t.addr t.moved) = true) :
    dmaMoveOut u t s = .ok
      { s.modify u fun p => wordMoved .output t { p with core := { p.core with outFifo := q } } with
        mem := Memory.writeWord s.mem (wordAddr t.addr t.moved) (swap (s.periph u).cr.datatype c) } := by
  unfold dmaMoveOut
  rw [doutRead_word he hq, ok_bind]
  dsimp only
  rw [memWrite_admitted (by rwa [admits_mono (s := s) (by simp)]), ok_bind,
    State.with_mem_modify, State.modify_modify, State.modify_mem]
  simp only [advanceTransfer_eq]

theorem dmaMoveOut_stuck {u : Inst} {t : Transfer} {s : State} (he : (s.periph u).cr.en = true)
    (hq : (s.periph u).core.outFifo ≠ []) (ha : s.admits (wordAddr t.addr t.moved) = false) :
    dmaMoveOut u t s = .error .stuck := by
  obtain ⟨c, q, hq⟩ := List.exists_cons_of_ne_nil hq
  unfold dmaMoveOut
  rw [doutRead_word he hq, ok_bind]
  dsimp only
  rw [memWrite_stuck (by rwa [admits_mono (s := s) (by simp)]), error_bind]

/-- Without its request, or where memory does not admit its word, the input channel has no step. -/
theorem dmaStep_input_idle {u : Inst} {t : Transfer} {s : State} (ht : (s.periph u).dmaIn = some t)
    (h : ¬(dmaInRequest (s.periph u) = true ∧ s.admits (wordAddr t.addr t.moved) = true)) :
    Res.outcome .channel s (dmaStep u .input false s) = .next s := by
  rw [dmaStep_input ht]
  split
  · rename_i hq
    rw [dmaMoveIn_stuck (by simpa [hq] using h)]; rfl
  · rfl

/-- Without its request, or where memory does not admit its word, the output channel has no step. -/
theorem dmaStep_output_idle {u : Inst} {t : Transfer} {s : State} (ht : (s.periph u).dmaOut = some t)
    (h : (s.periph u).cr.dmaouten = false ∨ (s.periph u).core.outFifo = [] ∨
      (s.periph u).cr.en = true ∧ s.admits (wordAddr t.addr t.moved) = false) :
    Res.outcome .channel s (dmaStep u .output false s) = .next s := by
  rw [dmaStep_output ht]
  split
  · rename_i hq
    obtain ⟨hen, hne⟩ := (dmaOutRequest_iff _).mp hq
    rcases h with h | h | ⟨he, ha⟩
    · simp [hen] at h
    · exact absurd h hne
    · rw [dmaMoveOut_stuck he hne ha]; rfl
  · rfl

theorem dmaStep_input_moves {u : Inst} {t : Transfer} {s : State} (ht : (s.periph u).dmaIn = some t)
    (hq : dmaInRequest (s.periph u) = true) (ha : s.admits (wordAddr t.addr t.moved) = true) :
    dmaStep u .input false s = .ok (s.modify u fun p => wordMoved .input t
      { p with
        core := pushInput
          (swap (s.periph u).cr.datatype (Memory.readWord s.mem (wordAddr t.addr t.moved))) p.core }) := by
  rw [dmaStep_input ht, if_pos hq, dmaMoveIn_eq hq ha]

theorem dmaStep_output_moves {u : Inst} {t : Transfer} {s : State} {c : Word} {q : List Word}
    (ht : (s.periph u).dmaOut = some t) (hen : (s.periph u).cr.dmaouten = true)
    (he : (s.periph u).cr.en = true) (hq : (s.periph u).core.outFifo = c :: q)
    (ha : s.admits (wordAddr t.addr t.moved) = true) :
    dmaStep u .output false s = .ok
      { s.modify u fun p => wordMoved .output t { p with core := { p.core with outFifo := q } } with
        mem := Memory.writeWord s.mem (wordAddr t.addr t.moved) (swap (s.periph u).cr.datatype c) } := by
  rw [dmaStep_output ht, if_pos ((dmaOutRequest_iff _).mpr ⟨hen, by simp [hq]⟩), dmaMoveOut_eq he hq ha]

/-! ### The core -/

/-- The peripheral with the parts written that a step of its core may write. -/
def coreWritten (c : CR) (f : Flags) (v : Vector Word 4) (x : Vector Word 8) (k : Core) (p : Periph) :
    Periph :=
  { p with cr := c, fl := f, ivr := v, suspr := x, core := k }

/-- `t` is `s` with no more than the core of `u` may write: registers and core of `u`, and the share slots
(40_register_access.md R151 to R158). -/
def CoreWrites (u : Inst) (s t : State) : Prop :=
  ∃ c f v x k m, t = { s.modify u (coreWritten c f v x k) with shareSlots := m }

theorem CoreWrites.refl (u : Inst) (s : State) : CoreWrites u s s :=
  ⟨_, _, _, _, _, s.shareSlots, by rw [State.modify_id (u := u) (s := s) rfl]⟩

theorem CoreWrites.slots {u : Inst} {s t : State} (h : CoreWrites u s t) (m : List (Nat × KeyMat)) :
    CoreWrites u s { t with shareSlots := m } := by
  obtain ⟨c, f, v, x, k, _, rfl⟩ := h
  exact ⟨c, f, v, x, k, m, rfl⟩

theorem CoreWrites.modify {u : Inst} {s : State} {g : Periph → Periph}
    (h : ∃ c f v x k, g (s.periph u) = coreWritten c f v x k (s.periph u)) :
    CoreWrites u s (s.modify u g) := by
  obtain ⟨c, f, v, x, k, h⟩ := h
  exact ⟨c, f, v, x, k, s.shareSlots, by rw [State.modify_congr h, ← State.modify_shareSlots]⟩

theorem CoreWrites.other {u v : Inst} {s t : State} (h : CoreWrites u s t) (hv : v ≠ u) :
    t.periph v = s.periph v := by
  obtain ⟨c, f, iv, x, k, m, rfl⟩ := h
  rw [State.with_shareSlots_periph, State.modify_other s _ hv]

theorem CoreWrites.fields {u : Inst} {s t : State} (h : CoreWrites u s t) :
    t.mem = s.mem ∧ t.mainPos = s.mainPos ∧ t.isrPos = s.isrPos ∧ t.inbox = s.inbox := by
  obtain ⟨c, f, iv, x, k, m, rfl⟩ := h
  simp

theorem CoreWrites.own {u : Inst} {s t : State} (h : CoreWrites u s t) :
    ∃ c f v x k, t.periph u = coreWritten c f v x k (s.periph u) := by
  obtain ⟨c, f, v, x, k, m, rfl⟩ := h
  exact ⟨c, f, v, x, k, by rw [State.with_shareSlots_periph, State.modify_periph]⟩

theorem finishJob_writes (u : Inst) (b : Bool) (s : State) : CoreWrites u s (finishJob u b s) := by
  cases hj : (s.periph u).core.job with
  | none => unfold finishJob; rw [State.core_eq, hj]; exact .refl u s
  | some j =>
    by_cases hd : j = .keyDeriv
    · subst hd
      rw [finishJob_derivation hj]
      exact .modify ⟨_, _, _, _, _, rfl⟩
    · rw [finishJob_data hj hd]
      exact .slots (.modify ⟨_, _, _, _, _, rfl⟩) _

theorem finishKeyLoad_writes (u : Inst) (b : Bool) (s : State) : CoreWrites u s (finishKeyLoad u b s) := by
  unfold finishKeyLoad
  split
  · exact .refl u s
  · cases b <;> simp only [State.modFl_eq, State.modCore_eq, State.modify_modify] <;>
      exact .modify ⟨_, _, _, _, _, rfl⟩

theorem keyErrorStep_writes (u : Inst) (b : Bool) (s : State) : CoreWrites u s (keyErrorStep u b s) := by
  unfold keyErrorStep
  split
  · exact .modify ⟨_, _, _, _, _, rfl⟩
  · exact .refl u s

theorem rngErrorStep_writes (u : Inst) (b : Bool) (s : State) : CoreWrites u s (rngErrorStep u b s) := by
  unfold rngErrorStep
  split
  · cases b <;> simp only [State.modFl_eq, State.modCore_eq, State.modify_modify] <;>
      exact .modify ⟨_, _, _, _, _, rfl⟩
  · exact .refl u s

theorem endStartup_writes (u : Inst) (b : Bool) (s : State) : CoreWrites u s (endStartup u b s) := by
  unfold endStartup
  split
  · simp only [State.modFl_eq, State.modCore_eq, State.modify_modify]
    exact .modify ⟨_, _, _, _, _, rfl⟩
  · exact .refl u s

/-- Everything a step of the core may write. -/
theorem coreStep_writes (u : Inst) (a : CoreAct) (s : State) : CoreWrites u s (coreStep u a s) := by
  cases a with
  | finishJob b => exact finishJob_writes u b s
  | finishKeyLoad b => exact finishKeyLoad_writes u b s
  | keyError b => exact keyErrorStep_writes u b s
  | rngError b => exact rngErrorStep_writes u b s
  | endStartup b => exact endStartup_writes u b s

/-! ### What a step is in each turn -/

/-- A channel's step that changes its peripheral alone. -/
theorem passTurn_channel {s : State} {u : Inst} {f : Periph → Periph} {v : Turn} {r : Res}
    (h : r = .ok (({ s with turn := v } : State).modify u f)) :
    passTurn (Res.outcome .channel { s with turn := v } r) = .next (nextTurn (s.modify u f)) := by
  rw [h, ← nextTurn_modify_turn s u f v]; rfl

/-- Settles O60, by the lemmas above: one per way the turn of an agent can go. -/
theorem turnsFollowTheAgents : Obligations.TurnsFollowTheAgents := by
  intro u el e s p turn idle free high word asks
  have running (h : ¬free) : entryRuns s = true := (entryRuns_true_iff s).mpr h
  have resting (h : free) : entryRuns s = false := (entryRuns_false_iff s).mpr h
  let now (v : Turn) : State := { s with turn := v }
  have periphNow (v : Turn) : (now v).periph u = p := State.with_turn_periph s u v
  refine ⟨fun h => ⟨?_, ?_, ?_⟩, fun h => ?_, fun h => ?_, fun h hl => ?_, fun h hl => ?_, fun h he => ?_,
    fun h he => ?_, fun w h hm hp => ?_, fun w h hp => ?_, fun h hp hi => ?_, fun h => ?_, fun h => ?_,
    fun t ht => ?_, fun t ht => ?_, fun t ht => ⟨fun h => ?_, fun ha hw => ?_⟩,
    fun t ht => ⟨fun h => ?_, fun c rest hd he hq hw => ?_⟩, fun a => ?_⟩
  -- the mainline and the interrupt-context entries
  · exact congrArg passTurn (mainlineTurn_blocked (s := now (.mainline el)) (.inl (running h)))
  · exact congrArg passTurn (irqTurn_idle (s := now (.irq u)) (.inl (running h)))
  · exact congrArg passTurn (dmaEntryTurn_idle (s := now (.dmaEntry u e)) (.inl (running h)))
  · exact congrArg passTurn (mainlineTurn_blocked (s := now (.mainline el)) (.inr h))
  · exact congrArg passTurn (handlerTurn_idle (s := now (.handlerWait el)) h)
  · exact congrArg passTurn (irqTurn_idle (s := now (.irq u)) (.inr ((irqDue_with_turn u s _).trans hl)))
  · exact congrArg passTurn (irqTurn_runs (s := now (.irq u)) (resting h) ((irqDue_with_turn u s _).trans hl))
  · exact congrArg passTurn (dmaEntryTurn_idle (s := now (.dmaEntry u e)) (.inr (by rwa [periphNow])))
  · have runs := dmaEntryTurn_runs (s := now (.dmaEntry u e)) (resting h) (by rwa [periphNow])
    rw [takeEvent_with_turn] at runs
    refine (congrArg passTurn runs).trans ?_
    obtain ⟨ev, stale⟩ := e
    cases stale
    · cases ev <;> rfl
    · rfl
  · exact congrArg passTurn (mainlineTurn_waits (s := now (.mainline el)) (resting h) hm hp)
  · exact congrArg passTurn (handlerTurn_waits (s := now (.handlerWait el)) h hp)
  · exact congrArg passTurn (mainlineTurn_rests (s := now (.mainline el)) hp hi)
  -- the DMA channels
  · exact congrArg (fun r => passTurn (Res.outcome .channel (now (.dma u .input el)) r))
      (dmaStep_none (q := .input) (by rwa [periphNow]))
  · exact congrArg (fun r => passTurn (Res.outcome .channel (now (.dma u .output el)) r))
      (dmaStep_none (q := .output) (by rwa [periphNow]))
  · exact passTurn_channel (v := .dma u .input true) (dmaStep_error (by rwa [periphNow]))
  · exact passTurn_channel (v := .dma u .output true) (dmaStep_error (by rwa [periphNow]))
  · refine congrArg passTurn (dmaStep_input_idle (s := now (.dma u .input false)) (t := t)
      (by rwa [periphNow]) ?_)
    rw [periphNow, dmaInRequest_iff]
    exact h
  · have moves := dmaStep_input_moves (s := now (.dma u .input false)) (t := t) (by rwa [periphNow])
      (by rw [periphNow, dmaInRequest_iff]; exact ha) hw
    rw [periphNow] at moves
    exact passTurn_channel moves
  · refine congrArg passTurn (dmaStep_output_idle (s := now (.dma u .output false)) (t := t)
      (by rwa [periphNow]) ?_)
    rw [periphNow]
    exact h
  · have moves := dmaStep_output_moves (s := now (.dma u .output false)) (t := t) (c := c) (q := rest)
      (by rwa [periphNow]) (by rwa [periphNow]) (by rwa [periphNow]) (by rwa [periphNow]) hw
    rw [periphNow, State.with_turn_modify] at moves
    exact congrArg (fun r => passTurn (Res.outcome .channel (now (.dma u .output false)) r)) moves
  -- the core
  · have writes := coreStep_writes u a (now (.core u a))
    obtain ⟨hm, hmain, hisr, -⟩ := writes.fields
    obtain ⟨c, f, v, x, k, own⟩ := writes.own
    rw [periphNow] at own
    refine ⟨_, rfl, hm, fun v hv => (writes.other hv).trans (State.with_turn_periph s v _), hmain, hisr, ?_⟩
    rw [own]
    exact ⟨rfl, rfl, rfl, rfl, rfl, rfl⟩

end Sys2Proof.Machine

/-! A request from the inbox to its instruction, the inbox along a step, and the placing of a word
(30_encoding.md R110 to R115, log 2); then the statement O5 about steps. -/

namespace Sys2Proof.Machine

/-! ### What the decoder's answer says of the word (30_encoding.md R110, R111) -/

/-- What the decoding answers, if anything, is an instruction of the opcode `op`. -/
def Decodes (op : Nat) (x : Except DecodeError Instr) : Prop := ∀ i, x = .ok i → (encode i).1.toNat = op

theorem Decodes.surplus {op n : Nat} {r : Record} {i : Instr} (h : (encode i).1.toNat = op) :
    Decodes op (surplus n r i) := by
  intro j hj
  unfold Sys2Proof.surplus at hj
  split at hj <;> cases hj
  exact h

theorem Decodes.bind {op : Nat} {α : Type} {x : Except DecodeError α} {f : α → Except DecodeError Instr}
    (h : ∀ a, Decodes op (f a)) : Decodes op (x.bind f) := by
  cases x with
  | error e => intro j hj; cases hj
  | ok a => exact h a

/-- The arm of an opcode answers instructions of that opcode. -/
theorem decodeOp_opcode {op : Nat} {r : Record} {f : Inst → Except DecodeError Instr}
    (h : decodeOp op r = some f) (u : Inst) : Decodes op (f u) := by
  unfold decodeOp at h
  split at h <;> cases h
  all_goals
    repeat refine Decodes.bind fun _ => ?_
    exact Decodes.surplus rfl

/-- A decoded instruction has the opcode of its word, which is one of the map. -/
theorem decode_opcode {w : Word} {r : Record} {i : Instr} (h : decode w r = .ok i) :
    (encode i).1 = w ∧ (decodeOp w.toNat r).isSome = true := by
  unfold decode at h
  split at h
  · cases h
  · rename_i f hf
    exact ⟨BitVec.eq_of_toNat_eq (Decodes.bind (decodeOp_opcode hf) i h), by rw [hf]; rfl⟩

/-- The opcode of an instruction is one of the map, whatever the record. -/
theorem decodeOp_encode (i : Instr) (r : Record) : (decodeOp (encode i).1.toNat r).isSome = true := by
  cases i <;> rfl

/-- The opcode of an instruction lies in the range of its format (30_encoding.md R110). -/
theorem formatOfOpcode_encode (i : Instr) : formatOfOpcode (encode i).1.toNat = i.format := by
  cases i <;> rfl

/-! ### Issuing a request (30_encoding.md R115) -/

theorem misissued_of_encode {q : Request} {i : Instr} (h : (encode i).1 = q.word) :
    misissued q = (issuerOf i.format != some q.issuer) := by
  unfold misissued
  rw [← h, decodeOp_encode, formatOfOpcode_encode, Bool.true_and]

theorem issue_runs {q : Request} {i : Instr} {s : State} (h : decode q.word q.record = .ok i)
    (hi : issuerOf i.format = some q.issuer) : issue q s = exec i s := by
  unfold issue
  rw [misissued_of_encode (decode_opcode h).1, if_neg (by simp [hi]), h]

theorem issue_misissued {q : Request} {i : Instr} {s : State} (h : (encode i).1 = q.word)
    (hi : issuerOf i.format ≠ some q.issuer) : issue q s = .refused (issueRefusal q.issuer) := by
  unfold issue
  rw [misissued_of_encode h, if_pos (by simpa using hi)]

/-- Where `issue` answers a next state it ran an instruction. -/
theorem issue_next {q : Request} {s t : State} (h : issue q s = .next t) : ∃ i, exec i s = .next t := by
  unfold issue at h
  split at h
  · cases h
  · split at h
    · cases h
    · exact ⟨_, h⟩

theorem issuerOf_eq_host {f : Format} : issuerOf f = some .host ↔ f = .cmd := by cases f <;> simp [issuerOf]

theorem issuerOf_eq_engine {f : Format} : issuerOf f = some .engine ↔ f = .bus := by
  cases f <;> simp [issuerOf]

theorem agentTurn_mainline {s : State} {b : Bool} (h : s.turn = .mainline b) :
    agentTurn s = mainlineTurn b s := by
  unfold agentTurn; rw [h]

theorem step_beginsRequest {s : State} {q : Request} {rest : List Request} (h : beginsRequest s q rest) :
    step s = passTurn (issue q { s with inbox := rest }) := by
  obtain ⟨⟨b, ht⟩, hr, hm, hp, hi⟩ := h
  unfold step
  rw [agentTurn_mainline ht, mainlineTurn_issues hr hm hp hi]

/-- The next request runs, if its issuer may issue it. -/
theorem step_of_issued {s : State} {q : Request} {rest : List Request} {i : Instr}
    (hb : beginsRequest s q rest) (hd : decode q.word q.record = .ok i)
    (hi : issuerOf i.format = some q.issuer) : step s = passTurn (exec i { s with inbox := rest }) := by
  rw [step_beginsRequest hb, issue_runs hd hi]

/-- The next request is refused from its opcode alone, if its issuer may not issue it. -/
theorem step_of_misissued {s : State} {q : Request} {rest : List Request} {i : Instr}
    (hb : beginsRequest s q rest) (hw : (encode i).1 = q.word)
    (hi : issuerOf i.format ≠ some q.issuer) : step s = .refused (issueRefusal q.issuer) := by
  rw [step_beginsRequest hb, issue_misissued hw hi]; rfl

/-! ### The inbox (log 2) -/

/-- What the operations addressed to `u` leave of `s0`: all but the peripheral of `u`, the stores, the positions
and what is returned. -/
def ownOnly (u : Inst) (s0 t : State) : Prop :=
  (∀ v, v ≠ u → t.periph v = s0.periph v) ∧ t.shareSlots = s0.shareSlots ∧ t.alloc = s0.alloc ∧
    t.inbox = s0.inbox ∧ t.turn = s0.turn

theorem ownOnly.refl (u : Inst) (s : State) : ownOnly u s s := ⟨fun _ _ => rfl, rfl, rfl, rfl, rfl⟩

theorem closed_ownOnly (u : Inst) (s0 : State) : Closed u (ownOnly u s0) := closed_other u s0

theorem storeClosed_ownOnly (u : Inst) (s0 : State) : StoreClosed (ownOnly u s0) := by
  intro a w s h
  unfold memWrite
  split
  · exact Post.ok (by simpa [ownOnly] using h)
  · exact Post.error _

theorem saveClosed_ownOnly (u : Inst) (s0 : State) (k : Nat) : SaveClosed k (ownOnly u s0) := by
  intro c s h
  simpa [ownOnly] using h

theorem exec_inbox {i : Instr} {s t : State} (h : exec i s = .next t) : t.inbox = s.inbox := by
  obtain ⟨-, -, -, hin, -⟩ := Closed.exec i (closed_ownOnly i.target s)
    (fun _ => storeClosed_ownOnly _ s) (fun _ c _ => saveClosed_ownOnly _ s c.toNat) (.refl _ s) h
  exact hin

theorem waitOutcome_inbox {p : Pos} {b : Bool} {s t : State} (h : waitOutcome p b s = .next t) :
    t.inbox = s.inbox := by
  have C := closed_ownOnly p.u s
  obtain ⟨-, -, -, hin, -⟩ := Post.outcome (C.stuck _ _ (.refl _ s))
    (C.waitStep (storeClosed_ownOnly p.u s) b (.refl _ s)) h
  exact hin

theorem dmaStep_inbox (u : Inst) (q : Fifo) (b : Bool) (s : State) :
    Post (fun t => t.inbox = s.inbox) (dmaStep u q b s) := by
  have C := closed_ownOnly u s
  have keeps {f : Periph → Periph} {t : State} (h : ownOnly u s t) : (t.modify u f).inbox = s.inbox := by
    obtain ⟨-, -, -, hin, -⟩ := h
    rw [State.modify_inbox, hin]
  unfold dmaStep
  split
  · exact Post.ok rfl
  · refine Post.ite (fun _ => Post.ok (keeps (.refl u s))) fun _ => ?_
    cases q
    · refine Post.ite (fun _ => ?_) fun _ => Post.ok rfl
      exact Post.bind (Post.trivially _) fun _ _ => Post.bind (C.din _ _ (.refl u s)) fun _ h =>
        Post.ok (keeps h)
    · refine Post.ite (fun _ => ?_) fun _ => Post.ok rfl
      exact Post.bind (C.dout _ (.refl u s)) fun _ h =>
        Post.bind (storeClosed_ownOnly u s _ _ _ h) fun _ h => Post.ok (keeps h)

theorem mainlineTurn_inbox {b : Bool} {s t : State} (h : mainlineTurn b s = .next t) :
    t.inbox <:+ s.inbox := by
  unfold mainlineTurn at h
  split at h
  · cases h; exact List.suffix_rfl
  split at h
  · rw [waitOutcome_inbox h]
  · cases h; exact List.suffix_rfl
  · rename_i q rest _ hi
    obtain ⟨i, h⟩ := issue_next h
    rw [exec_inbox h, hi]
    exact List.suffix_cons q rest

/-- No agent puts a request into the inbox. -/
theorem agentTurn_inbox {s t : State} (h : agentTurn s = .next t) : t.inbox <:+ s.inbox := by
  have same (hin : t.inbox = s.inbox) : t.inbox <:+ s.inbox := by rw [hin]
  unfold agentTurn at h
  split at h
  case h_1 => exact mainlineTurn_inbox h
  case h_2 u _ =>
    unfold irqTurn at h
    split at h
    · exact same (exec_inbox (i := .irq u) h)
    · cases h; exact same rfl
  case h_3 u e _ =>
    by_cases runs : entryRuns s = false ∧ e ∈ (s.periph u).dmaEvents
    · obtain ⟨hr, he⟩ := runs
      rw [dmaEntryTurn_runs hr he] at h
      split at h
      · cases h; exact same (State.modify_inbox s u _)
      · exact same ((exec_inbox h).trans (State.modify_inbox s u _))
    · rw [dmaEntryTurn_idle (by simpa [imp_iff_not_or] using runs)] at h
      cases h; exact same rfl
  case h_4 b _ =>
    unfold handlerTurn at h
    split at h
    · exact same (waitOutcome_inbox h)
    · cases h; exact same rfl
  case h_5 u q b _ =>
    exact same (Post.outcome (Q := fun t => t.inbox = s.inbox) rfl (dmaStep_inbox u q b s) h)
  case h_6 u a _ =>
    cases h
    obtain ⟨-, -, -, hin⟩ := (coreStep_writes u a s).fields
    exact same hin

/-- No step makes a request of its own (30_encoding.md R115). -/
theorem step_hostOnly {s t : State} (hs : hostOnly s) (h : step s = .next t) : hostOnly t := by
  unfold step passTurn at h
  split at h
  · rename_i s' hs'
    cases h
    exact fun q hq => hs q ((agentTurn_inbox hs').subset hq)
  · cases h
  · cases h

/-! ### Placing an instruction (log 2) -/

theorem lineRaised_due (u : Inst) (s : State) : irqDue u (lineRaised u s) = true := by
  unfold lineRaised
  split
  · assumption
  · simp [irqDue, irqLine]

theorem takeEvent_eventPending (u : Inst) (e : PendingEvent) (s : State) :
    takeEvent u e (eventPending u e s) = s := by
  unfold takeEvent eventPending
  rw [State.modify_modify]
  exact State.modify_id (by simp)

theorem mem_eventPending (u : Inst) (e : PendingEvent) (s : State) :
    e ∈ ((eventPending u e s).periph u).dmaEvents := by simp [eventPending]

theorem atBoundary_periph (s : State) (u : Inst) : (atBoundary s).periph u = s.periph u := by
  cases u <;> rfl

/-- What placing the instruction `i` in `s` may change: the line of an interrupt, by its flag and its enable,
the positions, the inbox and the turn. -/
def placedFrom (i : Instr) (s t : State) : Prop :=
  t.mem = s.mem ∧ t.contexts = s.contexts ∧ t.shareSlots = s.shareSlots ∧ t.alloc = s.alloc ∧
    (∀ v, t.periph v = { s.periph v with fl := t.fl v, ier := (t.periph v).ier }) ∧
    ((∀ u, i ≠ .irq u) → t.aes = s.aes ∧ t.saes = s.saes)

theorem placedFrom_of_same {s t : State} (i : Instr) (hm : t.mem = s.mem) (hc : t.contexts = s.contexts)
    (hk : t.shareSlots = s.shareSlots) (ha : t.alloc = s.alloc) (hp : ∀ v, t.periph v = s.periph v) :
    placedFrom i s t :=
  ⟨hm, hc, hk, ha, fun v => by rw [State.fl_eq, hp], fun _ => ⟨hp .aes, hp .saes⟩⟩

theorem lineRaised_periph (u v : Inst) (s : State) : (lineRaised u s).periph v =
    { s.periph v with fl := (lineRaised u s).fl v, ier := ((lineRaised u s).periph v).ier } := by
  unfold lineRaised
  split
  · rfl
  · by_cases hv : v = u
    · subst hv; rw [State.fl_eq, State.modify_periph]
    · rw [State.fl_eq, State.modify_other s _ hv]

theorem placedFrom_lineRaised (u : Inst) (s : State) (v : Turn) :
    placedFrom (.irq u) s { lineRaised u (atBoundary s) with turn := v } := by
  have kept : ∀ t : State, (lineRaised u t).mem = t.mem ∧ (lineRaised u t).contexts = t.contexts ∧
      (lineRaised u t).shareSlots = t.shareSlots ∧ (lineRaised u t).alloc = t.alloc := by
    intro t; unfold lineRaised; split <;> simp
  obtain ⟨hm, hc, hk, ha⟩ := kept (atBoundary s)
  refine ⟨hm, hc, hk, ha, fun w => ?_, fun h => absurd rfl (h u)⟩
  simp only [State.fl_eq, State.with_turn_periph]
  exact (lineRaised_periph u w (atBoundary s)).trans (by rw [atBoundary_periph, State.fl_eq])

/-- The interrupt handler runs in the next step once its line is high. -/
theorem step_delivered_irq (u : Inst) (s : State) :
    ∃ t, step (delivered (.irq u) (atBoundary s)) = passTurn (exec (.irq u) t) ∧ placedFrom (.irq u) s t := by
  let t : State := { lineRaised u (atBoundary s) with turn := .irq u }
  have hr : entryRuns t = false := by
    show entryRuns (lineRaised u (atBoundary s)) = false
    unfold lineRaised
    split
    · rfl
    · simp [entryRuns, atBoundary]
  have hd : irqDue u t = true := (irqDue_with_turn u _ _).trans (lineRaised_due u (atBoundary s))
  exact ⟨t, congrArg passTurn (irqTurn_runs hr hd), placedFrom_lineRaised u s _⟩

/-- The entry of a delivered DMA event runs in the next step. -/
theorem step_delivered_event (u : Inst) (ev : DmaEvent) (s : State) :
    ∃ t, step (delivered (.dmaEntry u ⟨ev, false⟩) (atBoundary s)) = passTurn (exec (eventInstr u ev) t) ∧
      placedFrom (eventInstr u ev) s t := by
  let e : PendingEvent := ⟨ev, false⟩
  let s' : State := { eventPending u e (atBoundary s) with turn := .dmaEntry u e }
  have hr : entryRuns s' = false := by simp [s', entryRuns, eventPending, atBoundary]
  have he : e ∈ (s'.periph u).dmaEvents := by
    rw [State.with_turn_periph]; exact mem_eventPending u e (atBoundary s)
  have runs := dmaEntryTurn_runs hr he
  rw [if_neg (by simp [e]), takeEvent_with_turn, takeEvent_eventPending] at runs
  exact ⟨_, congrArg passTurn runs, placedFrom_of_same _ rfl rfl rfl rfl fun v => by
    rw [State.with_turn_periph, atBoundary_periph]⟩

/-- A request placed first in the inbox runs in the next step. -/
theorem step_placed_request {w : Word} {r : Record} {i : Instr} (s : State) (h : decode w r = .ok i)
    (hf : i.format ≠ .evt) :
    ∃ t, step { atBoundary s with inbox := requestOf w r :: s.inbox, turn := .mainline false } =
        passTurn (exec i t) ∧ placedFrom i s t := by
  have issued : issuerOf i.format = some (requestOf w r).issuer := by
    rw [requestOf, ← (decode_opcode h).1, formatOfOpcode_encode]
    cases hc : i.format with
    | cmd => rfl
    | evt => exact absurd hc hf
    | bus => rfl
  let t : State := { atBoundary s with turn := .mainline false }
  refine ⟨t, ?_, ?_⟩
  · exact step_of_issued (q := requestOf w r) ⟨⟨_, rfl⟩, rfl, rfl, rfl, rfl⟩ h issued
  · exact placedFrom_of_same _ rfl rfl rfl rfl (atBoundary_periph s)

/-- Every instruction is an interrupt, a DMA event, or comes as a request. -/
theorem event_or_request (i : Instr) : (∃ u, i = .irq u) ∨ (∃ u ev, i = eventInstr u ev) ∨
    i.format ≠ .evt ∧ turnOfEvent i = none := by
  cases i
  case irq u => exact .inl ⟨u, rfl⟩
  case dmaInCplt u => exact .inr (.inl ⟨u, .inCplt, rfl⟩)
  case dmaOutCplt u => exact .inr (.inl ⟨u, .outCplt, rfl⟩)
  case dmaError u q => exact .inr (.inl ⟨u, .error q, rfl⟩)
  all_goals exact .inr (.inr ⟨nofun, rfl⟩)

theorem turnOfEvent_eventInstr (u : Inst) (ev : DmaEvent) :
    turnOfEvent (eventInstr u ev) = some (.dmaEntry u ⟨ev, false⟩) := by cases ev <;> rfl

/-- The step after placing a word runs its instruction. -/
theorem step_placed {w : Word} {r : Record} {i : Instr} (s : State) (h : decode w r = .ok i) :
    ∃ t, step (placed w r s) = passTurn (exec i t) ∧ placedFrom i s t := by
  have hb : (decode w r).toOption.bind turnOfEvent = turnOfEvent i := by rw [h]; rfl
  unfold placed
  rw [hb]
  rcases event_or_request i with ⟨u, rfl⟩ | ⟨u, ev, rfl⟩ | ⟨hf, hv⟩
  · exact step_delivered_irq u s
  · rw [turnOfEvent_eventInstr]
    exact step_delivered_event u ev s
  · rw [hv]
    exact step_placed_request s h hf

theorem decodeTableWord_ok {n w : Nat} {i : Instr} (h : decodeTableWord n w = some i) :
    decode (tableWord (w % 2 ^ n) 0) (tableRecord (w % 2 ^ n)) = .ok i := by
  unfold decodeTableWord at h
  dsimp only at h
  split at h <;> cases h
  assumption

/-- Settles O5: a request by `step_of_issued` and `step_of_misissued`, a placed word by `step_placed`, the
inbox by `step_hostOnly`. -/
theorem stepRunsDecodedInstruction : Obligations.StepRunsDecodedInstruction := by
  refine ⟨fun s q rest i hb => ⟨fun hd => ⟨fun hi => ?_, fun he hf => ?_⟩, fun hw hh hf => ?_⟩,
    fun s n w i h => step_placed s (decodeTableWord_ok h), fun s t hs h => step_hostOnly hs h,
    fun _ => rfl, fun _ => rfl, fun _ => rfl⟩
  · refine step_of_issued hb hd ?_
    rcases hi with ⟨hq, hf⟩ | ⟨hq, hf⟩
    · rw [hq, issuerOf_eq_host]; exact hf
    · rw [hq, issuerOf_eq_engine]; exact hf
  · obtain ⟨hw, -⟩ := decode_opcode hd
    rw [step_of_misissued hb hw (by rwa [he, ne_eq, issuerOf_eq_engine]), he]
    rfl
  · rw [step_of_misissued hb hw (by rwa [hh, ne_eq, issuerOf_eq_host]), hh]
    rfl

end Sys2Proof.Machine

/-! What every step keeps: the canonical forms of the stores (log 7), the quiet core (10_state.md R45), the
fields the AES does not have, the qualified error flag and the owner a handle names; then the statements O9 to
O13. -/

namespace Sys2Proof.Machine

/-! ### The canonical forms of the stores -/

/-- The canonical forms speak of the three stores alone. -/
theorem canonicalForms_of_same {s t : State} (hm : t.mem = s.mem) (hc : t.contexts = s.contexts)
    (hk : t.shareSlots = s.shareSlots) (h : canonicalForms s) : canonicalForms t := by
  unfold canonicalForms
  rwa [hm, hc, hk]

theorem closed_canonicalForms (u : Inst) : Closed u canonicalForms :=
  closed_stores canonicalForms (fun _ _ hm hc hk _ => canonicalForms_of_same hm hc hk) u

theorem storeClosed_canonicalForms : StoreClosed canonicalForms := by
  rintro a w s ⟨hm, hc, hk⟩ t ht
  obtain ⟨ha, rfl⟩ := memWrite_ok ht
  exact ⟨Memory.wf_writeWord hm (admits_size ha) w, hc, hk⟩

theorem saveClosed_canonicalForms (k : Nat) : SaveClosed k canonicalForms :=
  fun c _ ⟨hm, hc, hk⟩ => ⟨hm, assocRising_put k c hc, hk⟩

theorem coreStep_canonicalForms (u : Inst) (a : CoreAct) {s : State} (h : canonicalForms s) :
    canonicalForms (coreStep u a s) := by
  obtain ⟨hm, hc, hk⟩ := h
  obtain ⟨em, ec, -⟩ := coreStep_mem u a s
  refine ⟨?_, ?_, coreStep_shareSlots u a s hk⟩
  · rwa [em]
  · rwa [ec]

theorem agentClosed_canonicalForms : AgentClosed canonicalForms where
  target := closed_canonicalForms
  store := storeClosed_canonicalForms
  saved := saveClosed_canonicalForms
  inbox _ _ h := h
  next _ h := h
  core u a _ h := coreStep_canonicalForms u a h
  events _ _ _ h := canonicalForms_of_same (by simp) (by simp) (by simp) h
  moved _ _ _ _ h := canonicalForms_of_same (by simp) (by simp) (by simp) h
  failed _ _ _ _ h := canonicalForms_of_same (by simp [dmaFail]) (by simp [dmaFail]) (by simp [dmaFail]) h

/-- Settles O9: every operation keeps the canonical forms, a store by `Memory.wf_writeWord`, a save and a
share slot by `assocRising_put`. -/
theorem stepKeepsCanonicalForms : Obligations.StepKeepsCanonicalForms :=
  fun _ _ h ht => agentClosed_canonicalForms.step h ht

/-! ### Invariants of the peripherals -/

/-- What every change of one peripheral keeps, every step keeps of both. -/
theorem Instancewise.step {P : Inst → Periph → Prop} (C : Instancewise P) {s t : State}
    (ha : P .aes s.aes) (hs : P .saes s.saes) (ht : Machine.step s = .next t) :
    P .aes t.aes ∧ P .saes t.saes := by
  have before : All P s := fun v => by cases v <;> assumption
  have after : All P t := C.agentClosed.step before ht
  exact ⟨after .aes, after .saes⟩

theorem crApply_en {w : CrWrite} (hw : ∀ b, w ≠ .en b) (c : CR) : (crApply w c).en = c.en := by
  cases w
  case en b => exact absurd rfl (hw b)
  all_goals rfl

/-- A write of a field the AES has leaves those it does not have (10_state.md R41). -/
theorem crApply_saesOnly {w : CrWrite} (hw : crSaesOnly (crFieldOf w) = false) (c : CR) :
    (crApply w c).keysel = c.keysel ∧ (crApply w c).keyprot = c.keyprot ∧
      (crApply w c).kshareid = c.kshareid := by
  cases w
  case keysel | keyprot | kshareid => cases hw
  all_goals exact ⟨rfl, rfl, rfl⟩

/-! #### The quiet core -/

theorem coreQuiet_of_empty {p : Periph} (hj : p.cr.en = false → p.core.job = none)
    (hi : p.core.inFifo = []) (ho : p.core.outFifo = []) : coreQuiet p :=
  ⟨fun h => ⟨hj h, hi, ho⟩, fun _ => ⟨hi, ho⟩, by simp [hi], by simp [ho]⟩

/-- An enabled core with a job other than INIT and key derivation, or none. -/
theorem coreQuiet_of_enabled {p : Periph} (he : p.cr.en = true) (h1 : p.core.job ≠ some .init)
    (h2 : p.core.job ≠ some .keyDeriv) (hi : p.core.inFifo.length ≤ 3) (ho : p.core.outFifo.length ≤ 4) :
    coreQuiet p :=
  ⟨fun h => (Bool.false_ne_true (h.symm.trans he)).elim, fun h => (h.elim h1 h2).elim, hi, ho⟩

/-- Four words leave the input FIFO for a block, fewer stay in it (40_register_access.md R145). -/
theorem pushInput_cases (w : Word) (c : Core) (h : c.inFifo.length ≤ 3) :
    (∃ w0 w1 w2 w3, pushInput w c = { c with inFifo := [], job := some (.block w0 w1 w2 w3) }) ∨
      ∃ q, q.length ≤ 3 ∧ pushInput w c = { c with inFifo := q } := by
  unfold pushInput
  split
  · exact .inl ⟨_, _, _, _, rfl⟩
  · rename_i hq
    refine .inr ⟨_, ?_, rfl⟩
    match hc : c.inFifo with
    | [] | [_] | [_, _] => simp
    | [a, b, d] => exact absurd (by rw [hc]; rfl) (hq a b d w)
    | _ :: _ :: _ :: _ :: _ => exact absurd h (by simp [hc])

theorem coreQuiet_push {p : Periph} (w : Word) (he : p.cr.en = true) (hj : p.core.job = none)
    (hl : p.core.inFifo.length ≤ 3) (h : coreQuiet p) :
    coreQuiet { p with core := pushInput w p.core } := by
  obtain ⟨-, -, -, ho⟩ := h
  rcases pushInput_cases w p.core hl with ⟨_, _, _, _, e⟩ | ⟨q, hq, e⟩
  · exact coreQuiet_of_enabled he (by simp [e]) (by simp [e]) (by simp [e]) (by simpa [e] using ho)
  · exact coreQuiet_of_enabled he (by simp [e, hj]) (by simp [e, hj]) (by simpa [e] using hq)
      (by simpa [e] using ho)

theorem coreQuiet_pop {p : Periph} {c : Word} {q : List Word} (he : p.cr.en = true)
    (hq : p.core.outFifo = c :: q) (h : coreQuiet p) :
    coreQuiet { p with core := { p.core with outFifo := q } } := by
  obtain ⟨-, hb, hi, ho⟩ := h
  have busy : ∀ j, j = .init ∨ j = .keyDeriv → p.core.job ≠ some j := by
    rintro j hj e
    obtain ⟨-, hn⟩ := hb (by rcases hj with rfl | rfl <;> simp [e])
    rw [hq] at hn
    cases hn
  exact coreQuiet_of_enabled he (busy _ (.inl rfl)) (busy _ (.inr rfl)) hi
    (by rw [hq, List.length_cons] at ho; exact (Nat.le_succ _).trans ho)

theorem coreQuiet_enable {p : Periph} (he : p.cr.en = false) (h : coreQuiet p) (j : Option Job) :
    coreQuiet (enabledWith j p) := by
  obtain ⟨hd, -⟩ := h
  obtain ⟨-, hi, ho⟩ := hd he
  exact coreQuiet_of_empty nofun hi ho

/-- Only INIT may leave its core disabled, and its FIFOs are empty (40_register_access.md R164). -/
theorem coreQuiet_dataFinished {u : Inst} {p : Periph} {b : Bool} {j : Job} (hj : p.core.job = some j)
    (h : coreQuiet p) : coreQuiet (dataFinished u b j p) := by
  obtain ⟨hd, hb, hi, ho⟩ := h
  by_cases init : j = .init
  · subst init
    obtain ⟨ei, eo⟩ := hb (.inl hj)
    exact coreQuiet_of_empty (fun _ => rfl) ei (by simpa [dataFinished, producesOutput] using eo)
  · have he : p.cr.en = true := by
      by_contra hn
      obtain ⟨hjn, -, -⟩ := hd (by simpa using hn)
      rw [hj] at hjn
      cases hjn
    refine coreQuiet_of_enabled (by simpa [dataFinished, init] using he) nofun nofun hi ?_
    simp only [dataFinished]
    split
    · simp
    · exact ho

/-- Every other change keeps the enable, the job and the FIFOs. -/
theorem instancewise_coreQuiet : Instancewise fun _ => coreQuiet := by
  constructor
  case cr =>
    intro u p w hw _ h
    unfold coreQuiet
    rwa [crApply_en hw]
  case disable => exact fun _ p _ => coreQuiet_idled p
  case enable => exact fun _ _ he h => coreQuiet_enable he h _
  case ccm =>
    rintro u p he ⟨-, -, hi, ho⟩
    exact coreQuiet_of_enabled he (by simp) (by simp) hi ho
  case push => exact fun _ _ w he hj hl h => coreQuiet_push w he hj hl h
  case pop => exact fun _ _ _ _ he hq h => coreQuiet_pop he hq h
  case derived =>
    rintro u p b hj ⟨-, hb, -, -⟩
    obtain ⟨hi, ho⟩ := hb (.inr hj)
    exact coreQuiet_of_empty (fun _ => rfl) hi ho
  case transformed => exact fun _ _ _ _ hj _ h => coreQuiet_dataFinished hj h
  case jobLost =>
    rintro p ⟨hd, -, hl⟩
    exact ⟨fun he => ⟨rfl, (hd he).2⟩, nofun, hl⟩
  all_goals intros; assumption

/-- Settles O10: every change of one peripheral keeps its core quiet. -/
theorem stepKeepsCoreQuiet : Obligations.StepKeepsCoreQuiet :=
  fun _ _ ha hs ht => instancewise_coreQuiet.step ha hs ht

/-! #### The fields the AES does not have -/

/-- `aesPlain`, asked of the AES alone. -/
def plainOn (u : Inst) (p : Periph) : Prop := u = .aes → aesPlain p

/-- Every other change keeps the fields of `aesPlain`. -/
theorem instancewise_plainOn : Instancewise plainOn := by
  constructor
  case ier =>
    rintro u p v h rfl
    obtain ⟨hk, hp, hs, -, hr, hst⟩ := h rfl
    exact ⟨hk, hp, hs, Bool.and_false _, hr, hst⟩
  case rngeif =>
    intro u p h hu
    obtain ⟨hk, hp, hs, hi, -, hst⟩ := h hu
    exact ⟨hk, hp, hs, hi, rfl, hst⟩
  case cr =>
    intro u p w _ hw h hu
    obtain ⟨hk, hp, hs⟩ := crApply_saesOnly (w := w) (by simpa [hu] using hw) p.cr
    unfold aesPlain
    rw [hk, hp, hs]
    exact h hu
  case push =>
    intro u p w _ _ hl h hu
    obtain ⟨hk, hp, hs, hi, hr, hst⟩ := h hu
    refine ⟨hk, hp, hs, hi, hr, ?_⟩
    rcases pushInput_cases w p.core hl with ⟨_, _, _, _, e⟩ | ⟨_, -, e⟩ <;> rw [e] <;> exact hst
  case rngError => exact fun _ _ => nofun
  case jobLost => exact fun _ _ => nofun
  case started =>
    intro u p b c hst h hu
    obtain ⟨-, -, -, -, -, hn⟩ := h hu
    rw [hn] at hst
    cases hst
  all_goals intros; assumption

/-- Settles O11: `plainOn` asks nothing of the SAES. -/
theorem stepKeepsAesPlain : Obligations.StepKeepsAesPlain := by
  intro s t ha ht
  obtain ⟨hp, -⟩ := instancewise_plainOn.step (fun _ => ha) nofun ht
  exact hp rfl

/-! #### The qualified error flag and the handle's owner -/

/-- Every other change keeps the three flags. -/
theorem instancewise_errorsQualified : Instancewise fun _ p => errorsQualified p.fl := by
  constructor
  case rweif => exact fun _ _ _ => rfl
  case wrerr => exact fun _ _ _ => (Bool.or_true _).symm
  case rderr => exact fun _ _ _ => (Bool.true_or _).symm
  all_goals intros; assumption

/-- Settles O12: the flag is written with `RDERR` and `WRERR` alone. -/
theorem stepKeepsErrorsQualified : Obligations.StepKeepsErrorsQualified :=
  fun _ _ ha hs ht => instancewise_errorsQualified.step ha hs ht

/-- Every other change keeps the handle. -/
theorem instancewise_handleOwned : Instancewise handleOwned := by
  constructor
  case h =>
    rintro u p x (e | e | e) h
    · unfold handleOwned
      rwa [e]
    · exact .inl e
    · exact .inr e
  all_goals intros; assumption

/-- Settles O13: only a change of the handle could name the other peripheral, and none does (log 17). -/
theorem stepKeepsHandleInstance : Obligations.StepKeepsHandleInstance :=
  fun _ _ ha hs ht => instancewise_handleOwned.step ha hs ht

end Sys2Proof.Machine

/-! The state after reset (10_state.md R65, R66), and what no instruction changes: the other peripheral and
the stores (R20, R61, R64), the key material and the completions of the core (R42, R46); then the statements
O6 to O8, O16 and O17. -/

namespace Sys2Proof.Machine

/-! ### The values at reset -/

@[simp] theorem abandonDma_handle (u : Inst) (s : State) :
    ((abandonDma u s).periph u).h = (s.periph u).h := by
  rw [abandonDma, State.modify_periph]; rfl

/-- A `DEINIT` from another state than RESET leaves the handle at its reset values. -/
theorem exec_deinit_handle {u : Inst} {s t : State} (hs : (s.h u).state ≠ .reset)
    (h : exec (.deinit u) s = .next t) : t.h u = Handle.reset := by
  change Res.outcome .mainline s (runDeinit u s) = .next t at h
  unfold runDeinit at h
  rw [if_neg hs] at h
  cases h
  simp

/-- Settles O6: at reset and after `DEINIT` the handle is `Handle.reset`. -/
theorem handleResetValues : Obligations.HandleResetValues := by
  intro u h hh
  have hr : h = Handle.reset := by
    rcases hh with rfl | ⟨s, t, hs, ht, rfl⟩
    · cases u <;> rfl
    · exact exec_deinit_handle hs ht
  subst hr
  decide

/-- Settles O7: the values of `Periph.reset` and `State.reset`. -/
theorem registerResetValues : Obligations.RegisterResetValues := by
  refine ⟨fun u => ?_, by decide⟩
  cases u <;> decide

/-- Settles O8: the stores are empty, the cores idle, the flags and the handles' owners clear. -/
theorem resetMeetsInvariants : Obligations.ResetMeetsInvariants := by
  have canonical : canonicalForms State.reset := by unfold canonicalForms; decide
  have quiet (u : Inst) : coreQuiet (Periph.reset u) := coreQuiet_of_empty (fun _ => rfl) rfl rfl
  have qualified (u : Inst) : errorsQualified (Periph.reset u).fl := rfl
  have plain : aesPlain (Periph.reset .aes) := ⟨rfl, rfl, rfl, rfl, rfl, rfl⟩
  exact ⟨canonical, quiet .aes, quiet .saes, plain, qualified .aes, qualified .saes, .inl rfl, .inl rfl⟩

/-! ### What no instruction changes -/

/-- The operations leave the context store: only a save writes it. -/
theorem closed_contextKept (u : Inst) (k : Nat) (c : Option Context) :
    Closed u fun t => assocGet k t.contexts = c :=
  closed_stores _ (fun _ _ _ hc _ _ h => by rwa [hc]) u

theorem storeClosed_contextKept (k : Nat) (c : Option Context) :
    StoreClosed fun t => assocGet k t.contexts = c := by
  intro a w s h t ht
  obtain ⟨-, rfl⟩ := memWrite_ok ht
  exact h

theorem saveClosed_contextKept {k j : Nat} (c : Option Context) (hk : k ≠ j) :
    SaveClosed j fun t => assocGet k t.contexts = c :=
  fun x s h => (assocGet_put_other x s.contexts hk).trans h

/-- Settles O16: the operations keep `ownOnly`, and every record of the context store but the one that a save
names. -/
theorem frameOfOtherInstanceAndStores : Obligations.FrameOfOtherInstanceAndStores := by
  intro i s t ht
  obtain ⟨hp, hs, ha, hi, hv⟩ := Closed.exec i (closed_ownOnly i.target s)
    (fun _ => storeClosed_ownOnly _ s) (fun _ c _ => saveClosed_ownOnly _ s c.toNat) (.refl _ s) ht
  refine ⟨hp, hs, ha, hi, hv, fun k hk => ?_⟩
  exact Closed.exec i (closed_contextKept i.target k _) (fun _ => storeClosed_contextKept k _)
    (fun u c e => saveClosed_contextKept _ (hk u c e)) rfl ht

theorem keysKept.refl (p : Periph) : keysKept p p := ⟨rfl, id, id, id⟩

theorem storeClosed_keysKept (p0 : Inst → Periph) :
    StoreClosed fun t => ∀ v, keysKept (p0 v) (t.periph v) := by
  intro a w s h t ht
  obtain ⟨-, rfl⟩ := memWrite_ok ht
  simpa using h

theorem saveClosed_keysKept (k : Nat) (p0 : Inst → Periph) :
    SaveClosed k fun t => ∀ v, keysKept (p0 v) (t.periph v) := by
  intro c s h
  simpa using h

/-- Settles O17: the operations keep `keysKept` of both peripherals. -/
theorem onlyTheCoreMakesKeysAndCompletions : Obligations.OnlyTheCoreMakesKeysAndCompletions :=
  fun i s _ ht => Closed.exec i (closed_keysKept i.target s.periph) (fun _ => storeClosed_keysKept _)
    (fun _ c _ => saveClosed_keysKept c.toNat _) (fun v => .refl (s.periph v)) ht

end Sys2Proof.Machine

/-! What a step of the core does (40_register_access.md R152 to R158, R164, 70_reset_and_hazards.md R602):
each of its acts as one change of its peripheral, or none; then the statement O59. -/

namespace Sys2Proof.Machine

/-! ### The acts of the core -/

theorem keyErrorStep_idle {u : Inst} {b : Bool} {s : State} (h : (s.periph u).cr.en = false) :
    keyErrorStep u b s = s := by
  unfold keyErrorStep
  rw [if_neg (by simp [h])]

theorem keyErrorStep_enabled {u : Inst} {b : Bool} {s : State} (h : (s.periph u).cr.en = true) :
    keyErrorStep u b s = s.modify u fun p =>
      { p with fl := { p.fl with keif := true, keyvalid := p.fl.keyvalid && !b } } := by
  unfold keyErrorStep
  rw [if_pos h, State.modFl_eq]

theorem rngErrorStep_idle {u : Inst} {b : Bool} {s : State}
    (h : u = .aes ∨ (s.periph u).cr.en = false ∧ (s.periph u).fl.busy = false) :
    rngErrorStep u b s = s := by
  unfold rngErrorStep
  rw [if_neg]
  rcases h with rfl | ⟨he, hb⟩
  · simp
  · simp [he, hb]

theorem rngErrorStep_saes {b : Bool} {s : State}
    (h : (s.periph .saes).cr.en = true ∨ (s.periph .saes).fl.busy = true) :
    rngErrorStep .saes b s = s.modify .saes fun p =>
      { p with
        fl := { p.fl with rngeif := true }
        core := { p.core with job := if b then none else p.core.job } } := by
  unfold rngErrorStep
  rw [if_pos (by simpa using h)]
  cases b
  · rfl
  · simp only [State.modFl_eq, State.modCore_eq, State.modify_modify, if_true]

theorem endStartup_idle {u : Inst} {b : Bool} {s : State} (h : (s.periph u).core.startup = false) :
    endStartup u b s = s := by
  unfold endStartup
  rw [if_neg (by simp [h])]

/-- `BUSY` is left to a key load in progress (70_reset_and_hazards.md R602, log 34). -/
theorem endStartup_pending {u : Inst} {b : Bool} {s : State} (h : (s.periph u).core.startup = true) :
    endStartup u b s = s.modify u fun p =>
      { p with
        fl := { p.fl with busy := p.fl.busy && p.core.keyLoad.isSome, rngeif := p.fl.rngeif || b }
        core := { p.core with startup := false } } := by
  unfold endStartup
  rw [if_pos h]
  simp only [State.modFl_eq, State.modCore_eq, State.modify_modify, State.core_eq, State.modify_periph]
  exact State.modify_congr rfl

theorem finishJob_none {u : Inst} {b : Bool} {s : State} (h : (s.periph u).core.job = none) :
    finishJob u b s = s := by
  unfold finishJob
  rw [State.core_eq, h]

theorem finishKeyLoad_none {u : Inst} {b : Bool} {s : State} (h : (s.periph u).core.keyLoad = none) :
    finishKeyLoad u b s = s := by
  unfold finishKeyLoad
  rw [State.core_eq, h]

theorem finishKeyLoad_refused {u : Inst} {s : State} (h : (s.periph u).core.keyLoad ≠ none) :
    finishKeyLoad u false s = s.modify u fun p =>
      { p with
        fl := { p.fl with keif := true, keyvalid := false, busy := false }
        core := { p.core with keyLoad := none } } := by
  obtain ⟨src, hs⟩ := Option.ne_none_iff_exists'.1 h
  unfold finishKeyLoad
  simp only [State.core_eq, hs, State.modFl_eq, State.modCore_eq, State.modify_modify, Bool.false_eq_true,
    if_false]

theorem finishKeyLoad_loaded {u : Inst} {src : KeySource} {s : State}
    (h : (s.periph u).core.keyLoad = some src) :
    finishKeyLoad u true s = s.modify u fun p =>
      { p with
        fl := { p.fl with keyvalid := true, busy := false }
        core := { p.core with keymat := loadedKey u src s, keyLoad := none } } := by
  unfold finishKeyLoad
  simp only [State.core_eq, h, State.modFl_eq, State.modCore_eq, State.modify_modify, if_true]

/-! ### The turn of the core -/

theorem step_core (u : Inst) (a : CoreAct) (s : State) : step { s with turn := .core u a } =
    .next (nextTurn (coreStep u a { s with turn := .core u a })) := rfl

/-- The turn of a core whose act changes nothing. -/
theorem step_core_idle {u : Inst} {a : CoreAct} {s : State}
    (h : coreStep u a { s with turn := .core u a } = { s with turn := .core u a }) :
    step { s with turn := .core u a } = .next (nextTurn s) := by
  rw [step_core, h]; rfl

/-- The turn of a core whose act changes its peripheral alone. -/
theorem step_core_modify {u : Inst} {a : CoreAct} {f : Periph → Periph} {s : State}
    (h : coreStep u a { s with turn := .core u a } = ({ s with turn := .core u a } : State).modify u f) :
    step { s with turn := .core u a } = .next (nextTurn (s.modify u f)) := by
  rw [step_core, h, nextTurn_modify_turn]

/-- The turn of a core that also writes a share slot. -/
theorem step_core_shares {u : Inst} {a : CoreAct} {f : Periph → Periph} {m : List (Nat × KeyMat)}
    {s : State} (h : coreStep u a { s with turn := .core u a } =
      { ({ s with turn := .core u a } : State).modify u f with shareSlots := m }) :
    step { s with turn := .core u a } = .next (nextTurn { s.modify u f with shareSlots := m }) := by
  rw [step_core, h, State.with_turn_modify]; rfl

theorem loadedKey_with_turn (u : Inst) (src : KeySource) (s : State) (v : Turn) :
    loadedKey u src { s with turn := v } = loadedKey u src s := by
  cases u <;> cases src <;> rfl

/-! ### Completing a job -/

/-- A job that gives no key for the share slots changes its peripheral alone (40_register_access.md R152,
R153). -/
theorem finishJob_transformed {u : Inst} {b : Bool} {j : Job} {s : State}
    (h : (s.periph u).core.job = some j) (hj : j ≠ .keyDeriv)
    (hk : ¬(keyArrives u j (s.periph u) = true ∧ (s.periph u).cr.kmod = .shared)) :
    finishJob u b s = s.modify u (dataFinished u b j) := by
  rw [finishJob_data h hj, if_neg hk]
  cases u <;> rfl

/-- The last block of a shared-key decryption also places its key in the slot (40_register_access.md R156). -/
theorem finishJob_shared {u : Inst} {b : Bool} {j : Job} {s : State}
    (h : (s.periph u).core.job = some j) (hj : j ≠ .keyDeriv) (ha : keyArrives u j (s.periph u) = true)
    (hm : (s.periph u).cr.kmod = .shared) :
    finishJob u b s =
      { s.modify u (dataFinished u b j) with
        shareSlots := assocPut (s.periph u).cr.kshareid.toNat
          (dataFinished u b j (s.periph u)).core.keymat s.shareSlots } := by
  rw [finishJob_data h hj, if_pos ⟨ha, hm⟩]
  simp [dataFinished, ha]

/-! ### The key of a load (10_state.md R46, log 40) -/

/-- A software key does not depend on the key registers beyond its size. -/
theorem loadedKey_software_congr {u : Inst} {s : State} {v : Vector Word 8}
    (h : ∀ i : Fin 8, i.val < (s.periph u).cr.keysize.words → v[i] = (s.periph u).keyr[i]) :
    loadedKey u .software (s.modify u fun p => { p with keyr := v }) = loadedKey u .software s := by
  have words : keyWordsOf .software (s.periph u).cr.keysize v =
      keyWordsOf .software (s.periph u).cr.keysize (s.periph u).keyr := keyWordsOf_congr h
  unfold loadedKey
  rw [State.modify_periph]
  exact keyFrom_congr rfl rfl words

/-- Settles O59, by one lemma for each act of the core and each case of its peripheral. -/
theorem coreCompletesJobsAndLoads : Obligations.CoreCompletesJobsAndLoads := by
  intro u b s p finished loaded becomes keyErr rngErr started
  have now (v : Turn) : ({ s with turn := v } : State).periph u = p := State.with_turn_periph s u v
  refine ⟨fun h => ?_, fun h => ?_, fun h => ?_, ?_, fun h => ?_, fun h => ?_, fun h => ?_, fun h => ?_,
    fun j h hj hk => ?_, fun j h hj ha hm => ?_, fun h => ?_, fun h hb => ?_, fun src h hb => ?_,
    fun v => ⟨fun k => ?_, fun h => loadedKey_software_congr h⟩⟩
  · exact step_core_idle (keyErrorStep_idle (by rwa [now]))
  · exact step_core_modify (keyErrorStep_enabled (by rwa [now]))
  · exact step_core_idle (rngErrorStep_idle (by rwa [now]))
  · rintro rfl h
    exact step_core_modify (rngErrorStep_saes (by rwa [now]))
  · exact step_core_idle (endStartup_idle (by rwa [now]))
  · exact step_core_modify (endStartup_pending (by rwa [now]))
  · exact step_core_idle (finishJob_none (by rwa [now]))
  · exact step_core_modify (finishJob_derivation (by rwa [now]))
  · exact step_core_modify (finishJob_transformed (by rwa [now]) hj (by rwa [now]))
  · refine ⟨_, rfl, ?_⟩
    have shared := finishJob_shared (b := b) (s := { s with turn := .core u (.finishJob b) })
      (by rwa [now]) hj (by rwa [now]) (by rwa [now])
    rw [now] at shared
    exact step_core_shares shared
  · exact step_core_idle (finishKeyLoad_none (by rwa [now]))
  · subst hb
    exact step_core_modify (finishKeyLoad_refused (by rwa [now]))
  · subst hb
    refine step_core_modify ((finishKeyLoad_loaded (by rwa [now])).trans ?_)
    rw [loadedKey_with_turn]
  · exact loadedKey_hw (by simp) (by simp)

end Sys2Proof.Machine

/-! Saving and restoring a context (46_suspend_resume.md R373 to R378, 10_state.md R60, R62): the checks, the
record, the registers and the handle that a restore writes back, and what follows its waits; then the
statements O46 and O47. -/

namespace Sys2Proof.Machine

theorem authAlg_iff (a : Option Alg) : authAlg a = true ↔ a = some .gcmGmac ∨ a = some .ccm := by
  simp [authAlg]

theorem ecbOrCbc_iff (a : Option Alg) : ecbOrCbc a = true ↔ a = some .ecb ∨ a = some .cbc := by
  simp [ecbOrCbc]

theorem State.with_contexts_modify (s : State) (u : Inst) (f : Periph → Periph) (v) :
    ({ s with contexts := v } : State).modify u f = { s.modify u f with contexts := v } := by
  cases u <;> rfl

/-! ### SAVE_CONTEXT -/

/-- The disabled peripheral with its message closed (46_suspend_resume.md R373). -/
theorem closeMessage_eq {u : Inst} {s : State} (q : coreQuiet (s.periph u)) :
    closeMessage u s = s.modify u fun p => { idled p with h := messageClosed p.h } := by
  rw [closeMessage, disable_quiet q, State.modH_eq, State.modify_modify]
  rfl

theorem runSaveContext_suspended {u : Inst} {x : Word} {s : State} (hx : x ≠ null)
    (hs : (s.h u).state = .suspended) (q : coreQuiet (s.periph u)) :
    runSaveContext u x s = ret .ok
      { s.modify u fun p => { idled p with h := messageClosed p.h } with
        contexts :=
          assocPut x.toNat (savedContext (s.periph u) (assocGet x.toNat s.contexts)) s.contexts } := by
  unfold runSaveContext
  rw [if_neg hx, if_neg (not_not.mpr hs)]
  dsimp only
  rw [closeMessage_eq (by rwa [State.with_contexts_periph]), State.with_contexts_modify]

/-- The fields under R60's condition for GCM and CCM, saved anew. -/
theorem savedContext_auth {p : Periph} {old : Option Context} (h : authAlg p.h.algorithm = true) :
    (savedContext p old).pHeader = p.h.pHeader ∧ (savedContext p old).headerSize = p.h.headerSize ∧
      (savedContext p old).susp = p.suspr := by
  simp [savedContext, h]

/-- The same fields for the other algorithms: what the record held. -/
theorem savedContext_not_auth {p : Periph} {old : Context} (h : ¬authAlg p.h.algorithm = true) :
    (savedContext p (some old)).pHeader = old.pHeader ∧
      (savedContext p (some old)).headerSize = old.headerSize ∧
      (savedContext p (some old)).susp = old.susp := by
  simp [savedContext, h]

/-- Settles O46: the record is `savedContext`. -/
theorem saveContextWritesTheRecord : Obligations.SaveContextWritesTheRecord := by
  intro u x s
  refine ⟨fun hx => ?_, fun hx hs => ?_, fun hx hs q => ?_⟩
  · exact congrArg (Res.outcome .mainline s) (if_pos hx)
  · exact congrArg (Res.outcome .mainline s) ((if_neg hx).trans (if_pos hs))
  · intro h auth
    refine ⟨savedContext (s.periph u) (assocGet x.toNat s.contexts), ?_, rfl, rfl, rfl, rfl, rfl, rfl, rfl,
      rfl, rfl, rfl, rfl, rfl, rfl, rfl, rfl, rfl, rfl, rfl, fun ha => ?_, fun hn => if_neg hn,
      fun old ho => ?_⟩
    · exact congrArg (Res.outcome .mainline s) (runSaveContext_suspended hx hs q)
    · exact savedContext_auth ((authAlg_iff _).mpr ha)
    · rw [ho]
      exact ⟨fun hn => savedContext_not_auth (mt (authAlg_iff _).mp hn), fun he => if_pos he⟩

/-! ### RESTORE_CONTEXT up to its wait -/

theorem notReloadable_iff (o : KeyOrigin) :
    notReloadable o = true ↔ o = .unwrapped ∨ o = .shared ∨ o = .none := by
  cases o <;> simp [notReloadable]

/-- The checks of a restore all pass: the record is one of this handle, which is IDLE, and the key can be
reloaded (46_suspend_resume.md R376). -/
structure Restorable (u : Inst) (x : Word) (c : Context) (s : State) : Prop where
  context : x ≠ null
  written : assocGet x.toNat s.contexts = some c
  inst : c.inst = (s.h u).inst
  idle : (s.h u).state = .idle
  source : c.keySrc = .software ∨ c.keySrc = .hw
  pointer : ¬(c.keySched = .dec ∧ c.keySrc = .software ∧ c.pKey = null)

/-- The peripheral with the control register, the handle and the IV of the record (46_suspend_resume.md
R376); the AES keeps the fields it does not have (10_state.md R41). -/
def restored (u : Inst) (c : Context) (p : Periph) : Periph :=
  { idled p with
    h := restoreHandle c p.h
    cr := { c.cr with
      en := false, dmainen := false, dmaouten := false
      kshareid := if u = .saes then c.cr.kshareid else p.cr.kshareid
      keysel := if u = .saes then c.cr.keysel else p.cr.keysel
      keyprot := if u = .saes then c.cr.keyprot else p.cr.keyprot }
    ivr := if c.algorithm = some .ecb then p.ivr else c.iv }

/-- The peripheral when the writes of a restore have also started the load of a hardware key (R377). -/
def restoredLoading (u : Inst) (c : Context) (p : Periph) : Periph :=
  if u = .saes ∧ c.cr.keysel ≠ .software then loadStarted (.hw c.cr.keysel) (restored u c p)
  else restored u c p

theorem restoredLoading_cr (u : Inst) (c : Context) (p : Periph) :
    (restoredLoading u c p).cr = (restored u c p).cr := by
  unfold restoredLoading
  split <;> rfl

theorem restoredLoading_software {u : Inst} {c : Context} {p : Periph}
    (h : (restored u c p).cr.keysel = .software) : restoredLoading u c p = restored u c p := by
  refine if_neg ?_
  rintro ⟨rfl, hk⟩
  exact hk h

section Checks

variable {u : Inst} {x : Word} {c : Context} {s : State}

theorem runRestoreContext_unwritten (hx : x ≠ null) (hn : assocGet x.toNat s.contexts = none) :
    runRestoreContext u x s = refuse .unwrittenContext := by
  unfold runRestoreContext
  rw [if_neg hx, hn]

theorem runRestoreContext_otherInst (hx : x ≠ null) (hc : assocGet x.toNat s.contexts = some c)
    (hi : c.inst ≠ (s.h u).inst) : runRestoreContext u x s = ret .invalidParam s := by
  unfold runRestoreContext
  rw [if_neg hx, hc]
  exact if_pos hi

theorem runRestoreContext_busy (hx : x ≠ null) (hc : assocGet x.toNat s.contexts = some c)
    (hi : c.inst = (s.h u).inst) (hs : (s.h u).state ≠ .idle) : runRestoreContext u x s = ret .busy s := by
  unfold runRestoreContext
  rw [if_neg hx, hc]
  exact (if_neg (not_not.mpr hi)).trans (if_pos hs)

theorem runRestoreContext_notReloadable (hx : x ≠ null) (hc : assocGet x.toNat s.contexts = some c)
    (hi : c.inst = (s.h u).inst) (hs : (s.h u).state = .idle) (hk : notReloadable c.keySrc = true) :
    runRestoreContext u x s = refuse .keyNotReloadable := by
  unfold runRestoreContext
  rw [if_neg hx, hc]
  exact (if_neg (not_not.mpr hi)).trans ((if_neg (not_not.mpr hs)).trans (if_pos hk))

theorem runRestoreContext_noPointer (hx : x ≠ null) (hc : assocGet x.toNat s.contexts = some c)
    (hi : c.inst = (s.h u).inst) (hs : (s.h u).state = .idle)
    (hp : c.keySched = .dec ∧ c.keySrc = .software ∧ c.pKey = null) :
    runRestoreContext u x s = .error (.fault .noKeyPointer) := by
  have ⟨_, hsrc, _⟩ := hp
  have hk : ¬notReloadable c.keySrc = true := by simp [hsrc, notReloadable]
  unfold runRestoreContext
  rw [if_neg hx, hc]
  exact (if_neg (not_not.mpr hi)).trans ((if_neg (not_not.mpr hs)).trans ((if_neg hk).trans (if_pos hp)))

end Checks

/-- What remains of a restore once its checks have passed. -/
theorem Restorable.run {u : Inst} {x : Word} {c : Context} {s : State} (R : Restorable u x c s) :
    runRestoreContext u x s = (do
      let s ← restoreCr u c.cr (disable u s)
      let s ← doIf (c.algorithm ≠ some .ecb) (restoreIv u c.iv) (s.modH u (restoreHandle c))
      let s ← doIf ((s.cr u).keysel = .software) (writeKey u c.pKey c.keySize) s
      .ok (park ⟨u, .restore x, .keyLoad, .keyTimeout⟩ s) : Res) := by
  have reloadable : ¬notReloadable c.keySrc = true := by
    rcases R.source with e | e <;> simp [e, notReloadable]
  unfold runRestoreContext
  rw [if_neg R.context, R.written]
  dsimp only
  rw [if_neg (not_not.mpr R.inst), if_neg (not_not.mpr R.idle), if_neg reloadable, if_neg R.pointer]

theorem doIf_restoreIv {u : Inst} {c : Context} {t : State} (he : (t.periph u).cr.en = false) :
    doIf (c.algorithm ≠ some .ecb) (restoreIv u c.iv) t =
      .ok (t.modify u fun p => { p with ivr := if c.algorithm = some .ecb then p.ivr else c.iv }) := by
  unfold doIf
  by_cases ha : c.algorithm = some .ecb
  · rw [if_neg (not_not.mpr ha)]
    refine congrArg Except.ok (State.modify_id ?_).symm
    rw [if_pos ha]
  · rw [if_pos ha, restoreIv_eq he]
    simp only [if_neg ha]

/-- The writes of a restore before its key reload (46_suspend_resume.md R376). -/
theorem restoreWrites_eq {u : Inst} {c : Context} {s : State} (q : coreQuiet (s.periph u)) :
    (do
      let s ← restoreCr u c.cr (disable u s)
      doIf (c.algorithm ≠ some .ecb) (restoreIv u c.iv) (s.modH u (restoreHandle c)) : Res) =
      .ok (s.modify u (restoredLoading u c)) := by
  rw [disable_quiet q, restoreCr_eq (by simp [idled]) (by simp [idled]), ok_bind, doIf_restoreIv]
  · simp only [State.modH_eq, State.modify_modify]
    refine congrArg Except.ok (State.modify_congr ?_)
    unfold restoredLoading
    split <;> rfl
  · simp only [State.modH_periph, State.modify_periph]
    split <;> rfl

/-- The key reload and the wait of a restore whose checks pass. -/
theorem Restorable.reloads {u : Inst} {x : Word} {c : Context} {s : State} (R : Restorable u x c s)
    (q : coreQuiet (s.periph u)) :
    runRestoreContext u x s = (do
      let s ← doIf ((restored u c (s.periph u)).cr.keysel = .software) (writeKey u c.pKey c.keySize)
        (s.modify u (restoredLoading u c))
      .ok (waiting ⟨u, .restore x, .keyLoad, .keyTimeout⟩ s) : Res) := by
  rw [R.run, ← bind_assoc, restoreWrites_eq q, ok_bind, State.cr_eq, State.modify_periph, restoredLoading_cr]
  rfl

/-- A software key is reloaded from its pointer. -/
theorem Restorable.software {u : Inst} {x : Word} {c : Context} {s : State} (R : Restorable u x c s)
    (q : coreQuiet (s.periph u)) (hk : (restored u c (s.periph u)).cr.keysel = .software)
    (hm : (s.periph u).core.keyMarks = Vector.replicate 8 false) (hs : c.keySize = c.cr.keysize)
    (ha : wordsAdmitted s c.pKey c.keySize.words) :
    runRestoreContext u x s = .ok (waiting ⟨u, .restore x, .keyLoad, .keyTimeout⟩ (s.modify u fun _ =>
      loadStarted .software
        { restored u c (s.periph u) with
          keyr := keyOfMemory s.mem c.pKey c.keySize (s.periph u).keyr })) := by
  have plain : (s.modify u (restoredLoading u c)).periph u = restored u c (s.periph u) := by
    rw [State.modify_periph, restoredLoading_software hk]
  have admitted : wordsAdmitted (s.modify u (restoredLoading u c)) c.pKey c.keySize.words := by
    intro j hj
    rw [admits_mono (s := s) (by simp)]
    exact ha j hj
  rw [R.reloads q, doIf, if_pos hk, writeKey_eq (by rw [plain]; rfl) (by rw [plain]; exact hs.symm)
    (by rw [plain]; exact hm) admitted, ok_bind, State.modify_modify, State.modify_mem]
  refine congrArg (fun t => Except.ok (waiting _ t)) (State.modify_congr ?_)
  rw [restoredLoading_software hk]
  rfl

/-- A hardware key is reloaded by `CR.KEYSEL`, which only the SAES has (R377). -/
theorem Restorable.hardware {x : Word} {c : Context} {s : State} (R : Restorable .saes x c s)
    (q : coreQuiet (s.periph .saes)) (hk : c.cr.keysel ≠ .software) :
    runRestoreContext .saes x s = .ok (waiting ⟨.saes, .restore x, .keyLoad, .keyTimeout⟩
      (s.modify .saes fun _ => loadStarted (.hw c.cr.keysel) (restored .saes c (s.periph .saes)))) := by
  have hk' : (restored .saes c (s.periph .saes)).cr.keysel ≠ .software := hk
  rw [R.reloads q, doIf, if_neg hk', ok_bind]
  refine congrArg (fun t => Except.ok (waiting _ t)) (State.modify_congr ?_)
  exact if_pos ⟨rfl, hk⟩

/-! ### RESTORE_CONTEXT after its waits -/

theorem waitStep_ok {p : Pos} {b : Bool} {s : State}
    (h : waitCheck (s.h p.u).inst p.wp b (s.fl p.u) = .ok) : waitStep p b s = waitDone p (unpark p s) := by
  unfold waitStep
  rw [h]

theorem waitStep_failed {p : Pos} {b : Bool} {r : WaitFail} {s : State}
    (h : waitCheck (s.h p.u).inst p.wp b (s.fl p.u) = .failed r) :
    waitStep p b s = waitFailed p r (unpark p s) := by
  unfold waitStep
  rw [h]

/-- A failed wait of a restore (46_suspend_resume.md R378). -/
theorem waitStep_restore_failed {u : Inst} {x : Word} {w : WaitPoint} {d : Bound} {b : Bool} {r : WaitFail}
    {s : State} (q : coreQuiet (s.periph u)) (h : waitCheck (s.h u).inst w b (s.fl u) = .failed r) :
    waitStep ⟨u, .restore x, w, d⟩ b s =
      ret .error { s.modify u (restoreFailed (waitErrBits r)) with mainPos := none } := by
  refine (waitStep_failed h).trans ?_
  change restoreFail u (some r) { s with mainPos := none } = _
  rw [restoreFail_eq (by rwa [State.with_mainPos_periph]), State.with_mainPos_modify]
  rfl

theorem restoreKeyLoaded_invalid {u : Inst} {x : Word} {c : Context} {s : State}
    (hc : assocGet x.toNat s.contexts = some c) (q : coreQuiet (s.periph u))
    (hv : (s.periph u).fl.keyvalid = false) :
    restoreKeyLoaded u x s = ret .error (s.modify u (restoreFailed errKey)) := by
  unfold restoreKeyLoaded contextOf
  rw [hc]
  dsimp only
  rw [ok_bind, State.fl_eq, hv, if_pos (by simp), restoreFail_eq q]
  rfl

/-- The handle with the key that the restore reloaded. -/
def keyRestored (c : Context) (p : Periph) : Periph :=
  { p with h := { p.h with keySched := .enc, keySrc := c.keySrc } }

/-- The key came back; only an ECB or CBC decryption derives its schedule again (46_suspend_resume.md
R376). -/
theorem restoreKeyLoaded_valid {u : Inst} {x : Word} {c : Context} {s : State}
    (hc : assocGet x.toNat s.contexts = some c) (hv : (s.periph u).fl.keyvalid = true) :
    restoreKeyLoaded u x s =
      if ecbOrCbc c.algorithm = true ∧ c.direction = .dec then
        keyDerivStart u (s.modify u (keyRestored c)) >>= fun s =>
          .ok (park ⟨u, .restore x, .keyDeriv, .keyDerivBudget⟩ s)
      else restoreEnd u c (s.modify u (keyRestored c)) := by
  unfold restoreKeyLoaded contextOf
  rw [hc]
  dsimp only
  rw [ok_bind, State.fl_eq, hv, if_neg (by simp)]
  rfl

theorem restoreKeyLoaded_ends {u : Inst} {x : Word} {c : Context} {s : State}
    (hc : assocGet x.toNat s.contexts = some c) (hv : (s.periph u).fl.keyvalid = true)
    (hd : ¬(ecbOrCbc c.algorithm = true ∧ c.direction = .dec)) (he : (s.periph u).cr.en = false) :
    restoreKeyLoaded u x s = ret .ok (s.modify u fun _ => restoreEnded c (keyRestored c (s.periph u))) := by
  rw [restoreKeyLoaded_valid hc hv, if_neg hd, restoreEnd_eq (by rwa [State.modify_periph]),
    State.modify_modify]
  exact congrArg (ret .ok) (State.modify_congr rfl)

theorem restoreKeyLoaded_derives {u : Inst} {x : Word} {c : Context} {s : State}
    (hc : assocGet x.toNat s.contexts = some c) (hv : (s.periph u).fl.keyvalid = true)
    (hd : ecbOrCbc c.algorithm = true ∧ c.direction = .dec) (q : coreQuiet (s.periph u)) :
    restoreKeyLoaded u x s = .ok (waiting ⟨u, .restore x, .keyDeriv, .keyDerivBudget⟩
      (s.modify u fun _ => derivStarted (keyRestored c (s.periph u)))) := by
  rw [restoreKeyLoaded_valid hc hv, if_pos hd, keyDerivStart_eq (by rwa [State.modify_periph])
    (by rwa [State.modify_periph]), ok_bind, State.modify_modify]
  exact congrArg (fun t => Except.ok (waiting _ t)) (State.modify_congr rfl)

/-- A restore after its key derivation (46_suspend_resume.md R376). -/
theorem restoreDerived_eq {u : Inst} {x : Word} {c : Context} {s : State}
    (hc : assocGet x.toNat s.contexts = some c) (q : coreQuiet (s.periph u)) :
    restoreDerived u x s = ret .ok (s.modify u fun _ => restoreEnded c
      { derivEnded (s.periph u) with cr := { (s.periph u).cr with en := false, mode := c.cr.mode } }) := by
  unfold restoreDerived contextOf
  rw [hc]
  dsimp only
  rw [ok_bind, keyDerivEnd_eq q, ok_bind,
    crWrite_config (by rw [State.cr_eq, State.modify_periph]; rfl) (.inl rfl) rfl (by simp), ok_bind,
    restoreEnd_eq (by simp only [State.modify_periph]; rfl), State.modify_modify, State.modify_modify]
  exact congrArg (ret .ok) (State.modify_congr rfl)

/-- Settles O47: the checks in order, `Restorable.software` and `Restorable.hardware` for the reload, and the
lemmas above for what follows the two waits. -/
theorem restoreContextStartsTheReload : Obligations.RestoreContextStartsTheReload := by
  have runs {u : Inst} {x : Word} {s : State} {r : Res} (h : runRestoreContext u x s = r) :
      exec (.restoreContext u x) s = Res.outcome .mainline s r := congrArg (Res.outcome .mainline s) h
  refine ⟨fun u x s => ⟨fun hx => runs (if_pos hx), fun hx hn => runs (runRestoreContext_unwritten hx hn),
    fun c hx hc => ⟨fun hi => runs (runRestoreContext_otherInst hx hc hi),
      fun hi hs => runs (runRestoreContext_busy hx hc hi hs), fun hi hs => ⟨fun hk => ?_, fun h1 h2 h3 => ?_,
        fun hk hp q => ⟨fun hsel hm hsz ha => ?_, fun hsel hu => ?_⟩⟩⟩⟩, fun u x el s c hc q => ?_⟩
  · exact runs (runRestoreContext_notReloadable hx hc hi hs ((notReloadable_iff _).mpr hk))
  · exact runs (runRestoreContext_noPointer hx hc hi hs ⟨h1, h2, h3⟩)
  · exact runs (Restorable.software ⟨hx, hc, hi, hs, hk, hp⟩ q hsel hm hsz ha)
  · subst hu
    exact runs (Restorable.hardware ⟨hx, hc, hi, hs, hk, hp⟩ q hsel)
  · intro p wait check fails ends loaded derives
    let s0 : State := { s with mainPos := none }
    have hp : s0.periph u = p := State.with_mainPos_periph s u none
    have goes {w : WaitPoint} {d : Bound} {r : Res} (h : check w = .ok)
        (hr : waitDone ⟨u, .restore x, w, d⟩ s0 = r) : wait w d = Res.outcome .mainline s r :=
      congrArg (Res.outcome .mainline s) ((waitStep_ok h).trans hr)
    have ended (k : RetCode) (f : Periph → Periph) : Res.outcome .mainline s (ret k (s0.modify u f)) =
        .next (returning k { s.modify u f with mainPos := none }) :=
      outcome_ret (State.with_mainPos_modify s u f none)
    have derives_iff : derives ↔ ecbOrCbc c.algorithm = true ∧ c.direction = .dec :=
      and_congr_left' (ecbOrCbc_iff _).symm
    refine ⟨fun w d e h => ?_, fun w d h => ?_, fun h hv => ?_, fun h hv hd he => ?_, fun h hv hd => ?_,
      fun h => ?_⟩
    · exact congrArg (Res.outcome .mainline s) (waitStep_restore_failed q h)
    · exact congrArg (Res.outcome .mainline s) (waitStep_restore_failed q h)
    · exact (goes h (restoreKeyLoaded_invalid hc (by rwa [hp]) (by rwa [hp]))).trans (ended _ _)
    · refine (goes h (restoreKeyLoaded_ends hc (by rwa [hp]) (mt derives_iff.mpr hd) (by rwa [hp]))).trans ?_
      rw [hp]
      exact ended _ _
    · refine (goes h (restoreKeyLoaded_derives hc (by rwa [hp]) (derives_iff.mp hd) (by rwa [hp]))).trans ?_
      rw [hp, State.with_mainPos_modify]
      rfl
    · refine (goes h (restoreDerived_eq hc (by rwa [hp]))).trans ?_
      rw [hp]
      exact ended _ _

end Sys2Proof.Machine

/-! Where caller memory is stored to (20_memory.md R85) and where it is read for an IV (42_key_iv.md R230):
the frame of every instruction but `IRQ`, and the four configuration commands that load an IV
(41_lifecycle_config.md R186 to R189); then the statements O14, O21 and O22. -/

namespace Sys2Proof.Machine

/-! ### What no instruction but IRQ stores to -/

theorem sameBytes.refl (s : State) : sameBytes s s := fun _ => rfl

/-- The operations leave caller memory: only `MemWrite` stores to it. -/
theorem closed_sameBytes (u : Inst) (s : State) : Closed u (sameBytes s) :=
  closed_stores (sameBytes s) (fun x t hm _ _ _ h a => by rw [hm]; exact h a) u

theorem saveClosed_sameBytes (k : Nat) (s : State) : SaveClosed k (sameBytes s) := fun _ _ h => h

theorem storesAtOnce_irq {i : Instr} (h : storesAtOnce i) : ∃ u, i = .irq u := by
  cases i
  case irq u => exact ⟨u, rfl⟩
  all_goals exact h.elim

/-- Settles O14: the operations keep every byte, and an instruction that stores before its first wait is
`IRQ`. -/
theorem onlyIrqStoresBeforeItsFirstWait : Obligations.OnlyIrqStoresBeforeItsFirstWait := by
  intro i s t hi ht
  have noStore (h : storesAtOnce i) : StoreClosed (sameBytes s) := by
    obtain ⟨u, e⟩ := storesAtOnce_irq h
    exact absurd e (hi u)
  exact Closed.exec i (closed_sameBytes i.target s) noStore (fun _ c _ => saveClosed_sameBytes c.toNat s)
    (.refl s) ht

/-! ### The IV -/

theorem loadIvWord_admitted {u : Inst} {a : Word} {i : Fin 4} {j : Nat} {s : State}
    (he : (s.periph u).cr.en = false) (ha : s.admits (wordAddr a j) = true) :
    loadIvWord u a s (i, j) =
      .ok (s.modify u fun p => { p with ivr := p.ivr.set i (Memory.readWord s.mem (wordAddr a j)) }) := by
  unfold loadIvWord
  rw [memRead_admitted ha, ok_bind]
  exact if_neg (by simp [he])

theorem loadIvWord_stuck {u : Inst} {a : Word} {i : Fin 4} {j : Nat} {s : State}
    (ha : s.admits (wordAddr a j) = false) : loadIvWord u a s (i, j) = .error .stuck := by
  unfold loadIvWord
  rw [memRead_stuck ha, error_bind]

/-- A list of IV loads is stuck as soon as one of its words is not allocated: the loads before it change
neither the enable nor the allocation. -/
theorem loadIvWords_stuck {u : Inst} {a : Word} (l : List (Fin 4 × Nat)) {s : State}
    (he : (s.periph u).cr.en = false) (hl : ∃ p ∈ l, s.admits (wordAddr a p.2) = false) :
    l.foldlM (loadIvWord u a) s = .error .stuck := by
  induction l generalizing s with
  | nil => simp at hl
  | cons p l ih =>
    rw [List.foldlM_cons]
    cases ha : s.admits (wordAddr a p.2) with
    | false => rw [loadIvWord_stuck ha, error_bind]
    | true =>
      obtain ⟨q, hq, hn⟩ := hl
      rw [loadIvWord_admitted he ha, ok_bind]
      refine ih (by rwa [State.modify_periph]) ⟨q, ?_, by rwa [admits_mono (s := s) (by simp)]⟩
      refine (List.mem_cons.mp hq).resolve_left fun e => ?_
      rw [e, ha] at hn
      cases hn

/-- `WriteIV(a)` where a word of the IV is not allocated (20_memory.md R84, log 9). -/
theorem writeIv_stuck {u : Inst} {a : Word} {s : State} (he : (s.periph u).cr.en = false)
    (ha : ¬wordsAdmitted s a 4) : writeIv u a s = .error .stuck := by
  unfold wordsAdmitted at ha
  push Not at ha
  obtain ⟨j, hj, hn⟩ := ha
  refine loadIvWords_stuck _ he ⟨(⟨3 - j, by omega⟩, j), ?_, by simpa using hn⟩
  interval_cases j <;> simp

/-! ### The configuration commands that load an IV -/

/-- What the four commands do once their checks have passed (41_lifecycle_config.md R184). -/
def configureWithIv (u : Inst) (g : Alg) (a hdr n : Word) (s : State) : Res := do
  let s ← configCommon u g hdr n s
  let s ← writeIv u a s
  ret .ok s

section Configure

variable {u : Inst} {g : Alg} {a p n hdr : Word} {s : State}

theorem wordsAdmitted_modify {f : Periph → Periph} {k : Nat} :
    wordsAdmitted (s.modify u f) a k ↔ wordsAdmitted s a k := by
  unfold wordsAdmitted
  simp only [admits_mono (State.modify_alloc s u f)]

theorem configureWithIv_loads (q : coreQuiet (s.periph u)) (ha : wordsAdmitted s a 4) :
    configureWithIv u g a hdr n s =
      ret .ok (s.modify u fun p => { configured g hdr n p with ivr := ivOfMemory s.mem a }) := by
  unfold configureWithIv
  rw [configCommon_eq q, ok_bind, writeIv_eq (by rw [State.cr_eq, State.modify_periph]; rfl)
    (wordsAdmitted_modify.mpr ha), ok_bind, State.modify_modify, State.modify_mem]

theorem configureWithIv_stuck (q : coreQuiet (s.periph u)) (ha : ¬wordsAdmitted s a 4) :
    configureWithIv u g a hdr n s = .error .stuck := by
  unfold configureWithIv
  rw [configCommon_eq q, ok_bind, writeIv_stuck (by rw [State.modify_periph]; rfl)
    (mt wordsAdmitted_modify.mp ha), error_bind]

/-! #### SET_CONFIG_CBC and SET_CONFIG_CTR (41_lifecycle_config.md R186, R187) -/

theorem setConfigIv_null (ha : a = null) : setConfigIv u g a s = ret .invalidParam s := if_pos ha

theorem setConfigIv_misaligned (ha : a ≠ null) (hm : a.toNat % 4 ≠ 0) :
    setConfigIv u g a s = refuse .misalignedBuffer := by
  unfold setConfigIv
  rw [if_neg ha, if_pos (by simpa using (aligned_not a).mpr hm)]

/-- Past the checks of the operand, the state decides (41_lifecycle_config.md R181). -/
theorem setConfigIv_aligned (ha : a ≠ null) (hm : a.toNat % 4 = 0) :
    setConfigIv u g a s =
      if configurable (s.h u).state = true then configureWithIv u g a null 0 s else ret .busy s := by
  unfold setConfigIv
  rw [if_neg ha, if_neg (by simpa using (aligned_iff a).mpr hm)]
  cases configurable (s.h u).state <;> rfl

/-! #### SET_CONFIG_GCM_GMAC and SET_CONFIG_CCM (41_lifecycle_config.md R188, R189) -/

theorem setConfigAuth_null (h : a = null ∨ n ≠ 0 ∧ p = null) :
    setConfigAuth u g a p n s = ret .invalidParam s := by
  unfold setConfigAuth
  split
  · rfl
  · exact if_pos (h.resolve_left ‹_›)

theorem setConfigAuth_misaligned (ha : a ≠ null) (hp : ¬(n ≠ 0 ∧ p = null))
    (hm : a.toNat % 4 ≠ 0 ∨ n ≠ 0 ∧ p.toNat % 4 ≠ 0) :
    setConfigAuth u g a p n s = refuse .misalignedBuffer := by
  have mis : (!aligned a || (n != 0 && !aligned p)) = true := by simpa [aligned] using hm
  unfold setConfigAuth
  rw [if_neg ha, if_neg hp, if_pos mis]

/-- Past the checks of the operands, the state decides; an absent header has the pointer NULL. -/
theorem setConfigAuth_aligned (ha : a ≠ null) (hm : a.toNat % 4 = 0)
    (hp : n = 0 ∨ p ≠ null ∧ p.toNat % 4 = 0) :
    setConfigAuth u g a p n s =
      if configurable (s.h u).state = true then configureWithIv u g a (if n = 0 then null else p) n s
      else ret .busy s := by
  have present : ¬(n ≠ 0 ∧ p = null) := fun ⟨hn, e⟩ => hp.elim hn fun ⟨hp, _⟩ => hp e
  have fits : ¬(!aligned a || (n != 0 && !aligned p)) = true := by
    have header : n ≠ 0 → p.toNat % 4 = 0 := fun hn => (hp.resolve_left hn).2
    simpa [aligned, hm] using header
  unfold setConfigAuth
  rw [if_neg ha, if_neg present, if_neg fits]
  cases configurable (s.h u).state <;> rfl

end Configure

/-- Settles O21: the checks in their order, then the IV where memory admits it. -/
theorem setConfigIvLoadsTheIv : Obligations.SetConfigIvLoadsTheIv := by
  intro u a s i g hi
  have runs {r : Res} (h : setConfigIv u g a s = r) : exec i s = Res.outcome .mainline s r := by
    rcases hi with ⟨rfl, rfl⟩ | ⟨rfl, rfl⟩ <;> exact congrArg (Res.outcome .mainline s) h
  refine ⟨fun ha => ?_, fun ha hm => ?_, fun ha hm hs hs' => ?_, fun ha hm hs q hw => ?_,
    fun ha hm hs q hw => ?_⟩
  · exact runs (setConfigIv_null ha)
  · exact runs (setConfigIv_misaligned ha hm)
  · have busy := configurable_not.mpr ⟨hs, hs'⟩
    exact runs ((setConfigIv_aligned ha hm).trans (if_neg (by simp [busy])))
  · exact runs ((setConfigIv_aligned ha hm).trans
      ((if_pos (configurable_iff.mpr hs)).trans (configureWithIv_loads q hw)))
  · exact runs ((setConfigIv_aligned ha hm).trans
      ((if_pos (configurable_iff.mpr hs)).trans (configureWithIv_stuck q hw)))

/-- Settles O22: the checks in their order, then the IV and the header. -/
theorem setConfigAuthLoadsIvAndHeader : Obligations.SetConfigAuthLoadsIvAndHeader := by
  intro u a p n s i g hi
  have runs {r : Res} (h : setConfigAuth u g a p n s = r) : exec i s = Res.outcome .mainline s r := by
    rcases hi with ⟨rfl, rfl⟩ | ⟨rfl, rfl⟩ <;> exact congrArg (Res.outcome .mainline s) h
  refine ⟨fun h => ?_, fun ha hp hm => ?_, fun ha hm hp hs hs' => ?_, fun ha hm hp hs q hw => ?_⟩
  · exact runs (setConfigAuth_null h)
  · exact runs (setConfigAuth_misaligned ha hp hm)
  · have busy := configurable_not.mpr ⟨hs, hs'⟩
    exact runs ((setConfigAuth_aligned ha hm hp).trans (if_neg (by simp [busy])))
  · exact runs ((setConfigAuth_aligned ha hm hp).trans
      ((if_pos (configurable_iff.mpr hs)).trans (configureWithIv_loads q hw)))

end Sys2Proof.Machine

/-! The decoder and the encoder undo each other, and the words outside the opcode map (30_encoding.md R110 to
R114, log 1): what each operand's decoder answers, the round trip in its two directions, one lemma over the
arms of the map for each; then the statements O1, O2, O3 and O4 about the encoding. -/

namespace Sys2Proof.Machine

/-! ### The operands (30_encoding.md R112) -/

theorem targetOf_eq_ok {w : Word} {u : Inst} : targetOf w = .ok u ↔ w = instWord u := by
  constructor
  · intro h
    unfold targetOf at h
    split at h <;> cases h <;> exact BitVec.eq_of_toNat_eq ‹_›
  · rintro rfl
    cases u <;> rfl

theorem fifoOf_eq_ok {w : Word} {q : Fifo} : fifoOf w = .ok q ↔ w = fifoWord q := by
  constructor
  · intro h
    unfold fifoOf at h
    split at h <;> cases h <;> exact BitVec.eq_of_toNat_eq ‹_›
  · rintro rfl
    cases q <;> rfl

theorem flagOf_eq_ok {w : Word} {f : FlagName} : flagOf w = .ok f ↔ w = flagWord f := by
  constructor
  · intro h
    unfold flagOf at h
    split at h <;> cases h <;> exact BitVec.eq_of_toNat_eq ‹_›
  · rintro rfl
    cases f <;> rfl

theorem crFieldOfWord_eq_ok {w : Word} {f : CrField} : crFieldOfWord w = .ok f ↔ w = crFieldWord f := by
  constructor
  · intro h
    unfold crFieldOfWord at h
    split at h <;> cases h <;> exact BitVec.eq_of_toNat_eq ‹_›
  · rintro rfl
    cases f <;> rfl

theorem crValueOf_eq_ok {f : CrField} {v w : Word} : crValueOf f v = .ok w ↔ f.admits v = true ∧ v = w := by
  unfold crValueOf
  split <;> simp [*]

/-- A register index is read from the word that spells it, where a word can spell all `n` of them. -/
theorem indexOf_eq_ok {n : Nat} (hn : n ≤ 2 ^ 32) {w : Word} {k : Fin n} :
    indexOf n w = .ok k ↔ w = BitVec.ofNat 32 k.val := by
  have spells : (BitVec.ofNat 32 k.val).toNat = k.val :=
    (BitVec.toNat_ofNat ..).trans (Nat.mod_eq_of_lt (k.isLt.trans_le hn))
  constructor
  · intro h
    unfold indexOf at h
    split at h <;> cases h
    exact BitVec.eq_of_toNat_eq spells.symm
  · rintro rfl
    unfold indexOf
    rw [dif_pos (spells.trans_lt k.isLt)]
    exact congrArg Except.ok (Fin.ext spells)

theorem maskOf_eq_ok {w : Word} {m : BitVec 4} : maskOf w = .ok m ↔ w = m.zeroExtend 32 := by
  unfold maskOf
  constructor
  · intro h
    split at h <;> cases h
    apply BitVec.eq_of_toNat_eq
    simp only [BitVec.truncate_eq_setWidth, BitVec.toNat_setWidth]
    omega
  · rintro rfl
    have fits : (m.zeroExtend 32).toNat < 16 := by
      simp only [BitVec.truncate_eq_setWidth, BitVec.toNat_setWidth]
      omega
    rw [if_pos fits]
    exact congrArg Except.ok (by simp)

/-! ### The slots beyond the operands (log 1) -/

/-- The record with the slots from number `n` on set to zero. -/
def firstSlots (n : Nat) (r : Record) : Record :=
  ⟨r.target, if n ≤ 0 then 0 else r.a, if n ≤ 1 then 0 else r.b, if n ≤ 2 then 0 else r.c,
    if n ≤ 3 then 0 else r.d⟩

theorem firstSlots_eq_self {n : Nat} {r : Record} : firstSlots n r = r ↔
    (n ≤ 0 → r.a = 0) ∧ (n ≤ 1 → r.b = 0) ∧ (n ≤ 2 → r.c = 0) ∧ (n ≤ 3 → r.d = 0) := by
  cases r
  simp only [firstSlots, Record.mk.injEq, true_and, ite_eq_right_iff, @eq_comm Word 0]

theorem surplus_eq_ok {n : Nat} {r : Record} {i j : Instr} :
    surplus n r i = .ok j ↔ firstSlots n r = r ∧ i = j := by
  rw [firstSlots_eq_self]
  unfold surplus
  split
  next h => exact ⟨fun e => ⟨h, Except.ok.inj e⟩, fun ⟨_, e⟩ => congrArg Except.ok e⟩
  next h => exact ⟨nofun, fun ⟨hr, _⟩ => absurd hr h⟩

theorem surplus_ok {n : Nat} {r : Record} {i : Instr} (h : firstSlots n r = r) : surplus n r i = .ok i :=
  surplus_eq_ok.mpr ⟨h, rfl⟩

/-! ### From the instruction to the word and back -/

/-- The instruction is decoded where the arm of its opcode, given its own target, answers it. -/
theorem decode_encode_of_arm {i : Instr} {u : Inst} {f : Inst → Except DecodeError Instr}
    (hf : decodeOp (encode i).1.toNat (encode i).2 = some f) (hu : (encode i).2.target = instWord u)
    (h : f u = .ok i) : decode (encode i).1 (encode i).2 = .ok i := by
  unfold decode
  rw [hf, targetOf_eq_ok.mpr hu]
  exact h

theorem bind_ok {α : Type} {x : Except DecodeError α} {a : α} {f : α → Except DecodeError Instr} {i : Instr}
    (hx : x = .ok a) (h : f a = .ok i) : x.bind f = .ok i := by
  rw [hx]; exact h

/-- The arms that take their slots as they are need nothing; the others decode the operand that was
encoded. -/
theorem decode_encode (i : Instr) (hw : i.wellFormed = true) :
    decode (encode i).1 (encode i).2 = .ok i := by
  cases i
  case dmaError =>
    exact decode_encode_of_arm rfl rfl (bind_ok (fifoOf_eq_ok.mpr rfl) (surplus_ok rfl))
  case busCrWrite =>
    exact decode_encode_of_arm rfl rfl (bind_ok (crFieldOfWord_eq_ok.mpr rfl)
      (bind_ok (crValueOf_eq_ok.mpr ⟨hw, rfl⟩) (surplus_ok rfl)))
  case busFlagRead | busFlagClear =>
    exact decode_encode_of_arm rfl rfl (bind_ok (flagOf_eq_ok.mpr rfl) (surplus_ok rfl))
  case busKeyrWrite | busIvrWrite | busIvrRead | busSusprWrite | busSusprRead =>
    exact decode_encode_of_arm rfl rfl (bind_ok ((indexOf_eq_ok (by decide)).mpr rfl) (surplus_ok rfl))
  case busIerWrite =>
    exact decode_encode_of_arm rfl rfl (bind_ok (maskOf_eq_ok.mpr rfl) (surplus_ok rfl))
  all_goals exact decode_encode_of_arm rfl rfl (surplus_ok rfl)

/-! ### From the word to the instruction and back -/

/-- What the decoding answers, if anything, is well formed and has the record `r`, addressed to `u`. -/
def EncodesBack (u : Inst) (r : Record) (x : Except DecodeError Instr) : Prop :=
  ∀ i, x = .ok i → i.wellFormed = true ∧ (encode i).2 = { r with target := instWord u }

theorem EncodesBack.surplus {u : Inst} {r : Record} {n : Nat} {i : Instr} (hw : i.wellFormed = true)
    (h : (encode i).2 = { firstSlots n r with target := instWord u }) :
    EncodesBack u r (surplus n r i) := by
  intro j hj
  obtain ⟨hr, rfl⟩ := surplus_eq_ok.mp hj
  rw [hr] at h
  exact ⟨hw, h⟩

/-- The same where slot `a` holds the word `x` that spells an operand of the instruction. -/
theorem EncodesBack.spelled {u : Inst} {r : Record} {n : Nat} {x : Word} {i : Instr} (hx : r.a = x)
    (hw : i.wellFormed = true)
    (h : (encode i).2 = { firstSlots n { r with a := x } with target := instWord u }) :
    EncodesBack u r (Sys2Proof.surplus n r i) := by
  subst hx
  exact .surplus hw h

theorem EncodesBack.bind {u : Inst} {r : Record} {α : Type} {x : Except DecodeError α}
    {f : α → Except DecodeError Instr} (h : ∀ a, x = .ok a → EncodesBack u r (f a)) :
    EncodesBack u r (x.bind f) := by
  cases x with
  | error e => intro j hj; cases hj
  | ok a => exact h a rfl

/-- The arm of an opcode drops no slot: it takes a slot as it is, or decodes it to an operand that spells
it, or finds it zero. -/
theorem decodeOp_encodesBack {op : Nat} {r : Record} {f : Inst → Except DecodeError Instr}
    (h : decodeOp op r = some f) (u : Inst) : EncodesBack u r (f u) := by
  unfold decodeOp at h
  split at h <;> cases h
  any_goals exact .surplus rfl rfl
  · exact .bind fun q hq => .spelled (fifoOf_eq_ok.mp hq) rfl rfl
  · refine .bind fun g hg => .bind fun v hv => ?_
    obtain ⟨hw, rfl⟩ := crValueOf_eq_ok.mp hv
    exact .spelled (crFieldOfWord_eq_ok.mp hg) hw rfl
  iterate 2 exact .bind fun g hg => .spelled (flagOf_eq_ok.mp hg) rfl rfl
  iterate 5 exact .bind fun k hk => .spelled ((indexOf_eq_ok (by decide)).mp hk) rfl rfl
  · exact .bind fun m hm => .spelled (maskOf_eq_ok.mp hm) rfl rfl

/-- The word comes back by `decode_opcode`, the record by `decodeOp_encodesBack`. -/
theorem encode_of_decode {w : Word} {r : Record} {i : Instr} (h : decode w r = .ok i) :
    i.wellFormed = true ∧ encode i = (w, r) := by
  have word : (encode i).1 = w := (decode_opcode h).1
  unfold decode at h
  split at h
  · cases h
  next f hf =>
    cases hu : targetOf r.target with
    | error e => rw [hu] at h; cases h
    | ok u =>
      rw [hu] at h
      obtain ⟨hw, record⟩ := decodeOp_encodesBack hf u i h
      rw [← targetOf_eq_ok.mp hu] at record
      exact ⟨hw, Prod.ext word record⟩

/-! ### Words outside the opcode map (30_encoding.md R114) -/

/-- An opcode of the map is some instruction's: with the record of zeros its arm answers one. -/
theorem exists_encode_of_decodeOp {op : Nat} {r : Record} {f : Inst → Except DecodeError Instr}
    (h : decodeOp op r = some f) : ∃ i : Instr, (encode i).1.toNat = op := by
  have answers : ∃ g i, decodeOp op ⟨0, 0, 0, 0, 0⟩ = some g ∧ g .aes = .ok i := by
    unfold decodeOp at h
    split at h <;> cases h <;> exact ⟨_, _, rfl, rfl⟩
  obtain ⟨g, i, hg, hi⟩ := answers
  exact ⟨i, decodeOp_opcode hg .aes i hi⟩

/-- The whole word is the opcode, and every opcode has eight bits (R110). -/
theorem encode_lt (i : Instr) : (encode i).1.toNat < 2 ^ 8 := by
  cases i <;> exact of_decide_eq_true rfl

theorem encode_extractLsb_high (i : Instr) : (encode i).1.extractLsb' 8 24 = 0 := by
  apply BitVec.eq_of_toNat_eq
  rw [BitVec.extractLsb'_toNat, Nat.shiftRight_eq_div_pow, Nat.div_eq_of_lt (encode_lt i)]
  rfl

theorem decodeOp_eq_none {w : Word} {r : Record}
    (h : w.extractLsb' 8 24 ≠ 0 ∨ ∀ i : Instr, (encode i).1 ≠ w) : decodeOp w.toNat r = none := by
  by_contra hs
  obtain ⟨f, hf⟩ := Option.ne_none_iff_exists'.mp hs
  obtain ⟨i, hi⟩ := exists_encode_of_decodeOp hf
  have spelled : (encode i).1 = w := BitVec.eq_of_toNat_eq hi
  rcases h with high | unspelled
  · exact high (spelled ▸ encode_extractLsb_high i)
  · exact unspelled i spelled

theorem issue_unknown {q : Request} {s : State} (h : decodeOp q.word.toNat q.record = none) :
    issue q s = .refused .unknownOpcode := by
  have issued : misissued q = false := by simp [misissued, h]
  have undecoded : decode q.word q.record = .error .unknownOpcode := by simp [decode, h]
  unfold issue
  rw [if_neg (by simp [issued]), undecoded]
  rfl

/-! ### The statements -/

/-- Settles O2, by the case of each instruction's arm in `decode_encode`. -/
theorem decodeOfEncode : Obligations.DecodeOfEncode := decode_encode

/-- Settles O3: the word and the record come back from whatever they decode to. -/
theorem decodedIsWellFormedAndEncodesBack : Obligations.DecodedIsWellFormedAndEncodesBack :=
  fun _ _ _ => encode_of_decode

/-- Settles O1: each word with its record is the encoding of its instruction. -/
theorem sampleWordsDecode : Obligations.SampleWordsDecode :=
  ⟨decode_encode (.init .saes 1) rfl, decode_encode (.setConfigCbc .aes 0x20000000) rfl,
    decode_encode (.setNormalKey .aes 0x20000100 1) rfl,
    decode_encode (.encrypt .aes 0x20000000 32 0x20000100 10) rfl,
    decode_encode (.saveContext .saes 7) rfl, decode_encode (.decryptSharedKey .saes 0x20000200 0 10) rfl,
    decode_encode (.dmaError .saes .output) rfl, decode_encode (.busCrWrite .aes .mode 2) rfl,
    decode_encode (.busIerWrite .saes 0xf) rfl⟩

/-- Settles O4: the map has no arm for the word, which is refused before its issuer or its record counts. -/
theorem unknownWordRefused : Obligations.UnknownWordRefused := by
  intro s q rest hb h
  rw [step_beginsRequest hb, issue_unknown (decodeOp_eq_none h)]
  rfl

end Sys2Proof.Machine

/-! The bus micro-operations (40_register_access.md R141 to R162): what each write, read and clear does, one
lemma per branch of its rule; `SET_SHARED_KEY`, whose receive is one of them (42_key_iv.md R224); then the
statements O29 and O54 to O58. -/

namespace Sys2Proof.Machine

/-! ### Writes of the control register (R141) -/

/-- The value that a bus write spells is one of the field that it names. -/
theorem crFieldOf_of_crWriteOf {f : CrField} {v : Word} {w : CrWrite} (h : crWriteOf f v = some w) :
    crFieldOf w = f := by
  cases f
  case npblb | kshareid =>
    simp only [crWriteOf] at h
    split at h <;> cases h
    rfl
  all_goals
    obtain ⟨x, -, rfl⟩ := Option.map_eq_some_iff.mp h
    rfl

theorem eq_keysel_of_crFieldOf {w : CrWrite} (h : crFieldOf w = .keysel) : ∃ k, w = .keysel k := by
  cases w <;> cases h
  exact ⟨_, rfl⟩

theorem crSaesOnly_iff (f : CrField) :
    crSaesOnly f = true ↔ f = .keysel ∨ f = .keyprot ∨ f = .kshareid := by
  cases f <;> simp [crSaesOnly]

theorem crWritableEnabled_iff (f : CrField) :
    crWritableEnabled f = true ↔ f = .en ∨ f = .gcmph ∨ f = .npblb ∨ f = .dmainen ∨ f = .dmaouten := by
  cases f <;> simp [crWritableEnabled]

theorem crNeedsNoJob_iff (f : CrField) : crNeedsNoJob f = true ↔ f = .gcmph ∨ f = .npblb := by
  cases f <;> simp [crNeedsNoJob]

section CrWrite

variable {u : Inst} {w : CrWrite} {s : State}

/-- The AES does not have the field (10_state.md R41). -/
def crAbsent (u : Inst) (f : CrField) : Prop := u = .aes ∧ (f = .keysel ∨ f = .keyprot ∨ f = .kshareid)

theorem crWrite_absent (h : crAbsent u (crFieldOf w)) : crWrite u w s = .ok s := by
  obtain ⟨rfl, hf⟩ := h
  exact crWrite_saesOnly s ((crSaesOnly_iff _).mpr hf)

/-- On a peripheral that has the field, its two guards stand before the effect (R610). -/
theorem crWrite_present (h : ¬crAbsent u (crFieldOf w)) :
    crWrite u w s =
      if (s.periph u).cr.en = true ∧ crWritableEnabled (crFieldOf w) = false then
        .error (.fault .crWrittenWhileEnabled)
      else if (s.periph u).core.job ≠ none ∧ crNeedsNoJob (crFieldOf w) = true then
        .error (.fault .phaseWrittenDuringJob)
      else crEffect u w s := by
  have present : ¬(crSaesOnly (crFieldOf w) && u == .aes) = true := by
    rw [Bool.and_eq_true, beq_iff_eq, crSaesOnly_iff]
    exact fun ⟨hf, hu⟩ => h ⟨hu, hf⟩
  unfold crWrite
  rw [if_neg present]
  simp only [Bool.and_eq_true, Bool.not_eq_true', Option.isSome_iff_ne_none, and_comm, State.cr_eq,
    State.core_eq]

theorem enable_enabled (h : (s.periph u).cr.en = true) : enable u s = .ok s := if_pos h

/-- `CR.EN <- 1` with neither a valid key nor a key load in progress (R151). -/
theorem enable_withoutKey (h : (s.periph u).cr.en = false) (hk : (s.periph u).fl.keyvalid = false)
    (hb : (s.periph u).fl.busy = false) : enable u s = .error (.fault .enabledWithoutKey) := by
  unfold enable coreEnable
  rw [if_neg (by simp [h])]
  exact if_pos (by simp [hk, hb])

theorem enable_withKey (h : (s.periph u).cr.en = false)
    (hk : (s.periph u).fl.keyvalid = true ∨ (s.periph u).fl.busy = true) :
    enable u s = .ok (s.modify u fun p => enabledWith (jobOnEnable p) p) :=
  (show crWrite u (.en true) s = enable u s from rfl) ▸ crWrite_en h hk

/-- `CR.GCMPH <- FINAL` starts the tag of CCM (R141, R151). -/
theorem writePhase_finalCcm (hc : (s.periph u).cr.chmod = .ccm) (he : (s.periph u).cr.en = true) :
    writePhase u .final s = s.modify u fun p =>
      { p with
        cr := { p.cr with gcmph := .final }
        core := { p.core with job := some .finalCcm } } := by
  unfold writePhase
  simp only [State.cr_eq, State.modCr_periph]
  rw [if_pos ⟨trivial, hc, he⟩, State.modCr_eq, State.modCore_eq, State.modify_modify]
  rfl

theorem writePhase_other {v : Phase}
    (h : ¬(v = .final ∧ (s.periph u).cr.chmod = .ccm ∧ (s.periph u).cr.en = true)) :
    writePhase u v s = s.modCr u (crApply (.gcmph v)) := by
  unfold writePhase
  simp only [State.cr_eq, State.modCr_periph]
  exact if_neg h

/-- `CR.KEYSEL <- v` starts the load of a hardware key (R154). -/
theorem writeKeySel_hw {v : KeySel} (h : v ≠ .software) :
    writeKeySel u v s = s.modify u fun p =>
      loadStarted (.hw v) { p with cr := { p.cr with keysel := v } } := by
  unfold writeKeySel
  rw [if_neg h, coreKeyLoad_eq, State.modCr_eq, State.modify_modify]
  rfl

/-- The write starts something beside the register: `EN`, a FINAL phase of CCM, a hardware `KEYSEL`. -/
def crStarts (w : CrWrite) (c : CR) : Prop :=
  (∃ b, w = .en b) ∨ (w = .gcmph .final ∧ c.chmod = .ccm ∧ c.en = true) ∨
    (crFieldOf w = .keysel ∧ w ≠ .keysel .software)

/-- Any other write writes its field and nothing else (R141). -/
theorem crEffect_plain (h : ¬crStarts w (s.periph u).cr) :
    crEffect u w s = .ok (s.modify u fun p => { p with cr := crApply w p.cr }) := by
  unfold crStarts at h
  push Not at h
  obtain ⟨notEn, notFinal, software⟩ := h
  cases w
  case en b => exact absurd rfl (notEn b)
  case gcmph v =>
    refine congrArg Except.ok (writePhase_other ?_)
    rintro ⟨rfl, hc, he⟩
    exact notFinal rfl hc he
  case keysel v =>
    cases software rfl
    rfl
  all_goals rfl

end CrWrite

theorem exec_busCrWrite {u : Inst} {f : CrField} {v : Word} {w : CrWrite} {s : State}
    (h : crWriteOf f v = some w) :
    exec (.busCrWrite u f v) s = Res.outcome .mainline s (crWrite u w s) := by
  show Res.outcome .mainline s (runBusCrWrite u f v s) = _
  rw [runBusCrWrite, h]

/-! ### The FIFOs (R145 to R148) -/

section Fifos

variable {u : Inst} {w : Word} {s : State}

theorem dinWrite_disabled (he : (s.periph u).cr.en = false) :
    dinWrite u w s = .error (.fault .dinWhileDisabled) := if_pos (by simp [he])

/-- A word that the core does not take is a write error (R147). -/
theorem dinWrite_refused (he : (s.periph u).cr.en = true)
    (h : ¬((s.periph u).core.job = none ∧ (s.periph u).core.outFifo = [] ∧
      (s.periph u).core.inFifo.length < 4)) :
    dinWrite u w s =
      .ok (s.modify u fun p => { p with fl := { p.fl with wrerr := true, rweif := true } }) := by
  have busy : ((s.periph u).core.job.isSome || !(s.periph u).core.outFifo.isEmpty ||
      decide (4 ≤ (s.periph u).core.inFifo.length)) = true := by
    by_contra hn
    simp only [Bool.not_eq_true, Bool.or_eq_false_iff, Option.isSome_eq_false_iff, Option.isNone_iff_eq_none,
      Bool.not_eq_false', List.isEmpty_iff, decide_eq_false_iff_not, Nat.not_le] at hn
    obtain ⟨⟨hj, ho⟩, hi⟩ := hn
    exact h ⟨hj, ho, hi⟩
  unfold dinWrite
  exact (if_neg (by simp [he])).trans (if_pos busy)

/-- Before the fourth word the FIFO only grows (R145). -/
theorem pushInput_append {c : Core} (h : c.inFifo.length < 3) :
    pushInput w c = { c with inFifo := c.inFifo ++ [w] } := by
  unfold pushInput
  split
  next full =>
    have four : c.inFifo.length + 1 = 4 := by simpa using congrArg List.length full
    omega
  · rfl

theorem pushInput_fourth {c : Core} {x y z : Word} (h : c.inFifo = [x, y, z]) :
    pushInput w c = { c with inFifo := [], job := some (.block x y z w) } := by
  unfold pushInput
  rw [h]
  rfl

/-- A word that the core takes enters the FIFO as the core sees it (R145, log 21). -/
theorem dinWrite_taken (he : (s.periph u).cr.en = true) (hj : (s.periph u).core.job = none)
    (ho : (s.periph u).core.outFifo = []) (hi : (s.periph u).core.inFifo.length < 4) :
    dinWrite u w s =
      .ok (s.modify u fun p => { p with core := pushInput (swap p.cr.datatype w) p.core }) :=
  dinWrite_accept he hj ho (Nat.le_of_lt_succ hi)

theorem doutRead_disabled (he : (s.periph u).cr.en = false) :
    doutRead u s = .error (.fault .doutWhileDisabled) := if_pos (by simp [he])

/-- A read of the empty FIFO is a read error and returns a free value (R148, log 11). -/
theorem doutRead_empty (he : (s.periph u).cr.en = true) (ho : (s.periph u).core.outFifo = []) :
    doutRead u s = .ok (Config.readErrorWord s.draws,
      { s.modify u fun p => { p with fl := { p.fl with rderr := true, rweif := true } } with
        draws := s.draws + 1 }) := by
  unfold doutRead
  simp only [he, ho]
  rfl

theorem doutRead_cons {c : Word} {q : List Word} (he : (s.periph u).cr.en = true)
    (ho : (s.periph u).core.outFifo = c :: q) :
    doutRead u s = .ok (swap (s.periph u).cr.datatype c,
      s.modify u fun p => { p with core := { p.core with outFifo := q } }) := by
  unfold doutRead
  simp only [he, ho]
  rfl

/-- `BUS_DOUT_READ` returns the word of its read (R146). -/
theorem exec_busDoutRead {r : Except Stop (Word × State)} (h : doutRead u s = r) :
    exec (.busDoutRead u) s = Res.outcome .mainline s (r >>= fun a => retVal (.word a.1) a.2) := by
  subst h
  rfl

end Fifos

/-! ### The key, IV, suspend and interrupt-enable registers (R149, R150, R160, R162) -/

theorem keyComplete_iff {n : Nat} {m : Vector Bool 8} :
    keyComplete n m = true ↔ ∀ j : Fin 8, j.val < n → m[j] = true := by
  simp only [keyComplete, List.all_eq_true, List.mem_finRange, forall_true_left, Bool.or_eq_true,
    decide_eq_true_eq, ← Nat.not_lt, ← imp_iff_not_or]

/-- Some key register was written since the last key load (R149). -/
theorem any_marked (m : Vector Bool 8) : m.toList.any id = decide (∃ j : Fin 8, m[j] = true) := by
  rw [Bool.eq_iff_iff, decide_eq_true_iff, List.any_eq_true]
  constructor
  · rintro ⟨b, hb, marked⟩
    obtain ⟨j, hj, rfl⟩ := Vector.mem_iff_getElem.mp (Vector.mem_toList_iff.mp hb)
    exact ⟨⟨j, hj⟩, marked⟩
  · rintro ⟨j, marked⟩
    exact ⟨m[j], Vector.mem_toList_iff.mpr (Vector.getElem_mem j.isLt), marked⟩

section Registers

variable {u : Inst} {w : Word} {s : State}

theorem ivrWrite_enabled {i : Fin 4} (he : (s.periph u).cr.en = true) :
    ivrWrite u i w s = .error (.fault .ivWhileEnabled) := if_pos he

theorem ivrWrite_disabled {i : Fin 4} (he : (s.periph u).cr.en = false) :
    ivrWrite u i w s = .ok (s.modify u fun p => { p with ivr := p.ivr.set i w }) := if_neg (by simp [he])

theorem susprWrite_enabled {i : Fin 8} (he : (s.periph u).cr.en = true) :
    susprWrite u i w s = .error (.fault .susprWhileEnabled) := if_pos he

theorem susprWrite_disabled {i : Fin 8} (he : (s.periph u).cr.en = false) :
    susprWrite u i w s = .ok (s.modify u fun p => { p with suspr := p.suspr.set i w }) :=
  if_neg (by simp [he])

theorem keyrWrite_enabled {i : Fin 8} (he : (s.periph u).cr.en = true) :
    keyrWrite u i w s = .error (.fault .keyrWhileEnabled) := if_pos he

theorem keyrWrite_beyond {i : Fin 8} (he : (s.periph u).cr.en = false)
    (hi : (s.periph u).cr.keysize.words ≤ i.val) :
    keyrWrite u i w s = .error (.fault .keyrBeyondSize) :=
  (if_neg (by simp [he])).trans (if_pos hi)

/-- The peripheral with a key word written and its register marked (R149). -/
def keyWordWritten (i : Fin 8) (w : Word) (p : Periph) : Periph :=
  { p with
    keyr := p.keyr.set i w
    fl := { p.fl with keyvalid := p.fl.keyvalid && decide (∃ j : Fin 8, p.core.keyMarks[j] = true) }
    core := { p.core with keyMarks := p.core.keyMarks.set i true } }

/-- A key word is written, and the one that completes the key starts its load (R149, R154). -/
theorem keyrWrite_within {i : Fin 8} (he : (s.periph u).cr.en = false)
    (hi : i.val < (s.periph u).cr.keysize.words) :
    keyrWrite u i w s = .ok (s.modify u fun p =>
      if ∀ j : Fin 8, j.val < p.cr.keysize.words → (p.core.keyMarks.set i true)[j] = true then
        loadStarted .software (keyWordWritten i w p)
      else keyWordWritten i w p) := by
  unfold keyrWrite
  rw [if_neg (by simp [he]), if_neg (Nat.not_le.mpr hi)]
  simp only [keyComplete_iff, any_marked, Bool.not_not, coreKeyLoad_eq, State.modify_modify]
  split
  next complete => exact congrArg Except.ok (State.modify_congr (if_pos complete).symm)
  next incomplete => exact congrArg Except.ok (State.modify_congr (if_neg incomplete).symm)

/-- The mask's bits from the lowest (log 1). -/
theorem ierOfMask_bits (a b c d : Bool) :
    ierOfMask (BitVec.ofBool d ++ BitVec.ofBool c ++ BitVec.ofBool b ++ BitVec.ofBool a) =
      ⟨a, b, c, d⟩ := by
  revert a b c d
  decide

end Registers

/-! ### `SET_SHARED_KEY` (42_key_iv.md R224) -/

theorem keySizeOfWord_outside {w : Word} (h : 2 ≤ w.toNat) : keySizeOfWord w = none := by
  unfold keySizeOfWord
  split
  next h0 => omega
  next h1 => omega
  · rfl

theorem shareIdValid_iff (x : Word) : shareIdValid x = true ↔ x.toNat < Config.kshareidValues :=
  decide_eq_true_iff

/-- The writes of a key-load command before its load (R222 to R224). -/
theorem keyConfigured_eq {u : Inst} {k : KeySize} {m : KMod} {s : State} (q : coreQuiet (s.periph u)) :
    (do
      let s ← crWrite u (.keysize k) (keyPrologue u s)
      crWrite u (.kmod m) s : Res) = .ok (s.modify u (keyConfigured k m)) := by
  rw [keyPrologue_eq q, crWrite_config (by simp [keyCleared, idled]) (.inl rfl) rfl (by simp), ok_bind,
    crWrite_config (by simp [keyCleared, idled, crApply]) (.inl rfl) rfl (by simp), State.modify_modify,
    State.modify_modify]
  rfl

/-- `SET_SHARED_KEY` once its checks have passed and its fields are written (R224). -/
def receiveSharedKey (u : Inst) (x : Word) (k : KeySize) (s : State) : Res :=
  let s := sharedReceive u x s
  if (s.fl u).keif then do
    let s ← crWrite u (.kmod .normal) (clearKeif u s)
    ret .error ((addErrors u errKey s).modH u fun h => { h with keySched := .none, keySrc := .none })
  else .ok (park ⟨u, .setSharedKey k, .keyLoad, .keyTimeout⟩ s)

section SharedKey

variable {u : Inst} {w x : Word} {k : KeySize} {s : State}

/-- A key that the slot does not hold is a key error at once (40_register_access.md R156, log 15). -/
theorem sharedReceive_empty (h : assocGet x.toNat s.shareSlots = none) :
    sharedReceive u x s = s.modify u fun p => { p with fl := { p.fl with keif := true } } := by
  unfold sharedReceive
  rw [h]
  rfl

theorem sharedReceive_filled (h : assocGet x.toNat s.shareSlots ≠ none) :
    sharedReceive u x s = s.modify u (loadStarted (.shared x.toNat)) := by
  obtain ⟨m, hm⟩ := Option.ne_none_iff_exists'.mp h
  unfold sharedReceive
  rw [hm, ← coreKeyLoad_eq]

theorem runSetSharedKey_invalid
    (h : 2 ≤ w.toNat ∨ Config.kshareidValues ≤ x.toNat ∨ (s.h u).inst ≠ some .aes) :
    runSetSharedKey u w x s = ret .invalidParam s := by
  unfold runSetSharedKey
  split
  · rfl
  next k hk =>
  split
  · rfl
  next valid =>
    refine if_pos ((h.resolve_left fun hw => ?_).resolve_left fun hx => valid ?_)
    · rw [keySizeOfWord_outside hw] at hk
      cases hk
    · simpa [shareIdValid] using hx

/-- Past the checks of the operands, the state decides (R181). -/
theorem runSetSharedKey_valid (hk : keySizeOfWord w = some k) (hx : x.toNat < Config.kshareidValues)
    (hi : (s.h u).inst = some .aes) :
    runSetSharedKey u w x s =
      if configurable (s.h u).state = true then
        (do
          let s ← crWrite u (.keysize k) (keyPrologue u s)
          crWrite u (.kmod .shared) s : Res) >>= receiveSharedKey u x k
      else ret .busy s := by
  unfold runSetSharedKey
  rw [hk]
  dsimp only
  rw [if_neg (by simpa using (shareIdValid_iff x).mpr hx), if_neg (not_not.mpr hi), bind_assoc]
  cases configurable (s.h u).state <;> rfl

/-- An empty slot: the command fails and the key mode is normal again. -/
theorem receiveSharedKey_empty (he : (s.periph u).cr.en = false)
    (hn : assocGet x.toNat s.shareSlots = none) :
    receiveSharedKey u x k s = ret .error (s.modify u fun p =>
      { p with
        h := keyLoadFailed errKey p.h
        cr := { p.cr with kmod := .normal }
        fl := { p.fl with keif := false } }) := by
  unfold receiveSharedKey
  rw [sharedReceive_empty hn]
  simp only [State.fl_eq, State.modify_periph, if_true]
  rw [clearKeif, State.modFl_eq, State.modify_modify, crWrite_config (by simp [he]) (.inl rfl) rfl (by simp),
    ok_bind]
  simp only [addErrors, State.modH_eq, State.modify_modify]
  rfl

/-- A filled slot: the receive is started and its wait begins. -/
theorem receiveSharedKey_filled (hf : (s.periph u).fl.keif = false)
    (hn : assocGet x.toNat s.shareSlots ≠ none) :
    receiveSharedKey u x k s = .ok (waiting ⟨u, .setSharedKey k, .keyLoad, .keyTimeout⟩
      (s.modify u (loadStarted (.shared x.toNat)))) := by
  unfold receiveSharedKey
  rw [sharedReceive_filled hn]
  dsimp only
  rw [if_neg (by simp [loadStarted, hf]), park_waiting _ rfl]

/-- The command in a state that admits it (R224). -/
theorem runSetSharedKey_idle (hk : keySizeOfWord w = some k) (hx : x.toNat < Config.kshareidValues)
    (hi : (s.h u).inst = some .aes) (hs : (s.h u).state = .init ∨ (s.h u).state = .idle)
    (q : coreQuiet (s.periph u)) :
    runSetSharedKey u w x s = receiveSharedKey u x k (s.modify u (keyConfigured k .shared)) := by
  rw [runSetSharedKey_valid hk hx hi, if_pos (configurable_iff.mpr hs), keyConfigured_eq q, ok_bind]

end SharedKey

/-! ### The statements -/

/-- Settles O29: the checks in their order, then the slot decides. -/
theorem setSharedKeyReceivesOrFails : Obligations.SetSharedKeyReceivesOrFails := by
  intro u w x s
  have runs {u : Inst} {r : Res} (h : runSetSharedKey u w x s = r) :
      exec (.setSharedKey u w x) s = Res.outcome .mainline s r := congrArg (Res.outcome .mainline s) h
  refine ⟨fun h => runs (runSetSharedKey_invalid h), fun k hk hx hi => ⟨fun h h' => ?_, fun hs q => ?_⟩⟩
  · have busy := configurable_not.mpr ⟨h, h'⟩
    exact runs ((runSetSharedKey_valid hk hx hi).trans (if_neg (by simp [busy])))
  · have idle := runSetSharedKey_idle hk hx hi hs q
    refine ⟨fun hn => ?_, fun hn => ?_⟩
    · rw [runs (idle.trans (receiveSharedKey_empty (by rw [State.modify_periph]; rfl)
        (by rwa [State.modify_shareSlots]))), State.modify_modify]
      rfl
    · rw [runs (idle.trans (receiveSharedKey_filled (by rw [State.modify_periph]; rfl)
        (by rwa [State.modify_shareSlots]))), State.modify_modify]
      rfl

/-- Settles O54: the guards in their order, then the fields whose write starts something. -/
theorem busCrWriteWritesItsField : Obligations.BusCrWriteWritesItsField := by
  intro u f v s
  refine ⟨fun h => ?_, fun w hw => ?_⟩
  · show Res.outcome .mainline s (runBusCrWrite u f v s) = _
    rw [runBusCrWrite, h]
    rfl
  dsimp only
  rw [exec_busCrWrite hw]
  obtain rfl := crFieldOf_of_crWriteOf hw
  split
  next absent => rw [crWrite_absent absent]; rfl
  next present =>
  rw [crWrite_present present]
  simp only [← crWritableEnabled_iff, ← crNeedsNoJob_iff, Bool.not_eq_true]
  split
  · rfl
  split
  · rfl
  split
  next isEn =>
    subst isEn
    refine ⟨fun he => ?_, fun he hk hb => ?_, fun he hk => ?_⟩
    · exact congrArg (Res.outcome .mainline s) (enable_enabled he)
    · exact congrArg (Res.outcome .mainline s) (enable_withoutKey he hk hb)
    · exact congrArg (Res.outcome .mainline s) (enable_withKey he hk)
  next notEnable =>
  split
  next isEn =>
    subst isEn
    exact fun q => congrArg (fun t => Res.outcome .mainline s (.ok t)) (disable_quiet q)
  next notDisable =>
  split
  next final =>
    obtain ⟨rfl, hc, he⟩ := final
    exact congrArg (fun t => Res.outcome .mainline s (.ok t)) (writePhase_finalCcm hc he)
  next notFinal =>
  split
  next hardware =>
    obtain ⟨hf, hk⟩ := hardware
    obtain ⟨k, rfl⟩ := eq_keysel_of_crFieldOf hf
    have notSoftware : k ≠ .software := fun e => hk (e ▸ rfl)
    exact ⟨k, rfl, congrArg (fun t => Res.outcome .mainline s (.ok t)) (writeKeySel_hw notSoftware)⟩
  next notHardware =>
    have plain : ¬crStarts w (s.periph u).cr := by
      rintro (⟨_ | _, rfl⟩ | final | hardware)
      · exact notDisable rfl
      · exact notEnable rfl
      · exact notFinal final
      · exact notHardware hardware
    exact congrArg (Res.outcome .mainline s) (crEffect_plain plain)

/-- Settles O55: each read returns its value, each clear is the one of its flag. -/
theorem busReadsAndFlagClears : Obligations.BusReadsAndFlagClears := by
  intro u n s
  refine ⟨rfl, rfl, rfl, rfl, rfl, rfl, rfl, rfl, rfl, fun _ => rfl, fun _ => rfl, ?_, ?_, ?_, ?_, ?_⟩
  case refine_5 => rintro (rfl | rfl | rfl | rfl) <;> rfl
  all_goals
    rintro rfl
    rfl

/-- Settles O56: the core takes the word or does not, and the FIFO has its four words or not. -/
theorem busDinWriteFeedsTheCore : Obligations.BusDinWriteFeedsTheCore := by
  intro u w s
  have runs {r : Res} (h : dinWrite u w s = r) :
      exec (.busDinWrite u w) s = Res.outcome .mainline s r := congrArg (Res.outcome .mainline s) h
  refine ⟨fun he => runs (dinWrite_disabled he), fun he hn => runs (dinWrite_refused he hn),
    fun he ⟨hj, ho, hi⟩ h3 => ?_, fun a b c he ⟨hj, ho, hi⟩ habc => ?_⟩
  · refine (runs (dinWrite_taken he hj ho hi)).trans (congrArg _ (State.modify_congr ?_))
    rw [pushInput_append h3]
  · refine (runs (dinWrite_taken he hj ho hi)).trans (congrArg _ (State.modify_congr ?_))
    rw [pushInput_fourth habc]

/-- Settles O57: the three reads of the output FIFO. -/
theorem busDoutReadTakesAWord : Obligations.BusDoutReadTakesAWord := fun _ s =>
  ⟨fun he => exec_busDoutRead (doutRead_disabled he),
    fun he ho => ⟨Config.readErrorWord s.draws, exec_busDoutRead (doutRead_empty he ho)⟩,
    fun _ _ he ho => exec_busDoutRead (doutRead_cons he ho)⟩

/-- Settles O58: each register's write with `EN = 1` and with `EN = 0`. -/
theorem busRegisterWrites : Obligations.BusRegisterWrites := by
  intro u w s
  have runs {r r' : Res} (h : r = r') : Res.outcome .mainline s r = Res.outcome .mainline s r' :=
    congrArg (Res.outcome .mainline s) h
  refine ⟨fun i => ⟨fun he => runs (ivrWrite_enabled he), fun he => runs (ivrWrite_disabled he)⟩,
    fun i => ⟨fun he => ⟨runs (susprWrite_enabled he), runs (keyrWrite_enabled he)⟩,
      fun he => runs (susprWrite_disabled he), fun he hi => runs (keyrWrite_beyond he hi),
      fun he hi => runs (keyrWrite_within he hi)⟩,
    fun a b c d => ?_⟩
  show Res.outcome .mainline s (.ok (ierWrite u (ierOfMask _) s)) = _
  rw [ierOfMask_bits]
  cases u <;> rfl

end Sys2Proof.Machine

/-! The lifecycle, configuration and query commands (41_lifecycle_config.md R180 to R198): the lists of their
operands, one lemma for what each command does past its checks; then the statements O18 to O20 and O23 to O25. -/

namespace Sys2Proof.Machine

/-! ### Enumerated operands (30_encoding.md R112) -/

theorem instOfWord_eq_some {w : Word} {u : Inst} : instOfWord w = some u ↔ w = instWord u := by
  constructor
  · intro h
    unfold instOfWord at h
    split at h
    next h0 => cases h; exact BitVec.eq_of_toNat_eq h0
    next h1 => cases h; exact BitVec.eq_of_toNat_eq h1
    · cases h
  · rintro rfl
    cases u <;> rfl

theorem dataTypeOfWord_dataTypeWord (t : DataType) : dataTypeOfWord (dataTypeWord t) = some t := by
  cases t <;> rfl

theorem eq_of_toNat_lt_two {w : Word} (h : w.toNat < 2) : w = 0 ∨ w = 1 := by bv_omega

theorem eq_of_toNat_lt_four {w : Word} (h : w.toNat < 4) : w = 0 ∨ w = 1 ∨ w = 2 ∨ w = 3 := by bv_omega

/-- The encodings of the data types are the words below 4. -/
theorem exists_dataTypeWord {w : Word} (h : w.toNat < 4) : ∃ t, w = dataTypeWord t := by
  rcases eq_of_toNat_lt_four h with rfl | rfl | rfl | rfl
  · exact ⟨.none, rfl⟩
  · exact ⟨.halfword, rfl⟩
  · exact ⟨.byte, rfl⟩
  · exact ⟨.bit, rfl⟩

theorem dataTypeOfWord_outside {w : Word} (h : 4 ≤ w.toNat) : dataTypeOfWord w = none := by
  unfold dataTypeOfWord
  split
  case h_5 => rfl
  all_goals omega

theorem cbKindOfWord_outside {w : Word} (h : 4 ≤ w.toNat) : cbKindOfWord w = none := by
  unfold cbKindOfWord
  split
  case h_5 => rfl
  all_goals omega

theorem fifoOfWord_outside {w : Word} (h : 2 ≤ w.toNat) : fifoOfWord w = none := by
  unfold fifoOfWord
  split
  case h_3 => rfl
  all_goals omega

/-- A configuration command past its checks of the operands: the state decides (41_lifecycle_config.md R180). -/
theorem ite_not_configurable {α : Type} (l : Life) (x y : α) :
    (if !configurable l then x else y) = if l = .init ∨ l = .idle then y else x := by
  cases l <;> rfl

/-! ### INIT and DEINIT (R182, R183) -/

section Lifecycle

variable {u : Inst} {w : Word} {s : State}

/-- Past the check of the operand, the state decides (R181, R182). -/
theorem runInit_own : runInit u (instWord u) s =
    if (s.h u).state ≠ .reset then ret .busy s
    else ret .ok (s.modify u fun p => { p with h := { Handle.reset with inst := some u, state := .init } }) :=
  if_neg (not_not.mpr (instOfWord_eq_some.mpr rfl))

/-- The four flag clears at the end of a call (60_exceptions.md R503): `RNGEIF` is cleared on a SAES handle. -/
theorem clearFlags_eq (u : Inst) (s : State) :
    clearRngeifOnSaes u (clearRweif u (clearKeif u (clearCcf u s))) =
      s.modify u fun p => { p with fl := flagsCleared p.h.inst p.fl } := by
  unfold clearRngeifOnSaes clearRweif clearKeif clearCcf clearRngeif
  simp only [State.modFl_eq, State.modify_modify, State.h_eq, State.modify_periph]
  split
  next saes => exact State.modify_congr (by simp [flagsCleared, saes])
  next other => exact State.modify_congr (by simp [flagsCleared, other])

/-- `DEINIT` of an initialised handle (R183). -/
theorem runDeinit_eq (hs : (s.h u).state ≠ .reset) (q : coreQuiet (s.periph u)) :
    runDeinit u s = ret .ok (s.modify u fun p => dmaAbandoned
      { idled p with
        h := Handle.reset
        cr := { p.cr with en := false, dmainen := false, dmaouten := false }
        fl := flagsCleared p.h.inst p.fl
        ier := ierNone }) := by
  unfold runDeinit
  rw [if_neg hs, disable_quiet (by simpa [coreQuiet] using q)]
  simp only [clearFlags_eq, ierWrite, abandonDma, State.modH_eq, State.modCr_eq, State.modify_modify]
  rfl

end Lifecycle

/-- Settles O18: the operand, then the state. -/
theorem initSetsUpTheHandle : Obligations.InitSetsUpTheHandle := by
  intro u w s
  have runs {r : Res} (h : runInit u w s = r) :
      exec (.init u w) s = Res.outcome .mainline s r := congrArg (Res.outcome .mainline s) h
  refine ⟨fun hw => runs (if_pos (mt instOfWord_eq_some.mp hw)), ?_, ?_⟩
  · rintro rfl hs
    exact runs (runInit_own.trans (if_pos hs))
  · rintro rfl hs
    exact runs (runInit_own.trans (if_neg (not_not.mpr hs)))

/-- Settles O19: nothing at RESET, else the one change of `runDeinit_eq`. -/
theorem deinitResetsTheHandle : Obligations.DeinitResetsTheHandle := by
  intro u s q
  have runs {r : Res} (h : runDeinit u s = r) :
      exec (.deinit u) s = Res.outcome .mainline s r := congrArg (Res.outcome .mainline s) h
  split
  next hs => exact runs (if_pos hs)
  next hs => exact runs (runDeinit_eq hs q)

/-! ### Configuration, callbacks and DMA linkage (R185, R190, R196, R197) -/

section Configuration

variable {u : Inst} {w f : Word} {s : State}

theorem runSetConfigEcb_eq (q : coreQuiet (s.periph u)) : runSetConfigEcb u s =
    if (s.h u).state = .init ∨ (s.h u).state = .idle then ret .ok (s.modify u (configured .ecb null 0))
    else ret .busy s := by
  unfold runSetConfigEcb
  rw [ite_not_configurable, configCommon_eq q, ok_bind]

/-- What `SET_DATA_SWAP` does once its checks have passed (R190). -/
def writeDataSwap (u : Inst) (t : DataType) (s : State) : Res := do
  let s ← crWrite u (.datatype t) (disable u s)
  ret .ok (closeCommitted u s)

theorem writeDataSwap_eq {t : DataType} (q : coreQuiet (s.periph u)) :
    writeDataSwap u t s = ret .ok (s.modify u fun p =>
      { idled p with h := committedClosed p.h, cr := { p.cr with en := false, datatype := t } }) := by
  unfold writeDataSwap
  rw [disable_quiet q, crWrite_config (by simp [idled]) (.inl rfl) rfl (by simp), ok_bind, closeCommitted_eq,
    State.modify_modify, State.modify_modify]
  rfl

theorem runSetDataSwap_outside (h : 4 ≤ w.toNat) : runSetDataSwap u w s = ret .invalidParam s := by
  unfold runSetDataSwap
  rw [dataTypeOfWord_outside h]

/-- Past the check of the operand, the state decides (R181, R190). -/
theorem runSetDataSwap_within (t : DataType) : runSetDataSwap u (dataTypeWord t) s =
    if (s.h u).state = .init ∨ (s.h u).state = .idle then writeDataSwap u t s else ret .busy s := by
  unfold runSetDataSwap
  rw [dataTypeOfWord_dataTypeWord]
  exact ite_not_configurable _ _ _

/-- The handle with the callback of the kind `w` written (R196). -/
def callbackSet (w f : Word) (h : Handle) : Handle :=
  { h with
    cbInCplt := if w = 0 then some f else h.cbInCplt
    cbOutCplt := if w = 1 then some f else h.cbOutCplt
    cbError := if w = 2 then some f else h.cbError
    cbSuspend := if w = 3 then some f else h.cbSuspend }

/-- A kind inside the list names one callback field. -/
theorem cbKindOfWord_within (h : w.toNat < 4) :
    ∃ k, cbKindOfWord w = some k ∧ setCallback k f = callbackSet w f := by
  rcases eq_of_toNat_lt_four h with rfl | rfl | rfl | rfl
  · exact ⟨.inCplt, rfl, rfl⟩
  · exact ⟨.outCplt, rfl, rfl⟩
  · exact ⟨.error, rfl, rfl⟩
  · exact ⟨.suspend, rfl, rfl⟩

theorem runRegisterCallback_invalid (h : 4 ≤ w.toNat ∨ f = null) :
    runRegisterCallback u w f s = ret .invalidParam s := by
  unfold runRegisterCallback
  split
  · rfl
  next k hk =>
  refine if_pos (h.resolve_left fun outside => ?_)
  rw [cbKindOfWord_outside outside] at hk
  cases hk

/-- Past the checks of the operands, the state decides (R181, R196). -/
theorem runRegisterCallback_valid (hw : w.toNat < 4) (hf : f ≠ null) : runRegisterCallback u w f s =
    if (s.h u).state = .init ∨ (s.h u).state = .idle then
      ret .ok (s.modify u fun p => { p with h := callbackSet w f p.h })
    else ret .busy s := by
  obtain ⟨k, hk, written⟩ := cbKindOfWord_within (f := f) hw
  unfold runRegisterCallback
  rw [hk]
  dsimp only
  rw [if_neg hf, ite_not_configurable, written, State.modH_eq]

/-- The handle with the channel of the FIFO `w` written (R197). -/
def channelSet (w c : Word) (h : Handle) : Handle :=
  { h with
    hdmaIn := if w = 0 then c else h.hdmaIn
    hdmaOut := if w = 1 then c else h.hdmaOut }

/-- A FIFO inside the list names one channel field. -/
theorem fifoOfWord_within (h : w.toNat < 2) :
    ∃ q, fifoOfWord w = some q ∧ setChannel q f = channelSet w f := by
  rcases eq_of_toNat_lt_two h with rfl | rfl
  · exact ⟨.input, rfl, rfl⟩
  · exact ⟨.output, rfl, rfl⟩

theorem runLinkDma_invalid (h : 2 ≤ w.toNat ∨ f = null) : runLinkDma u w f s = ret .invalidParam s := by
  unfold runLinkDma
  split
  · rfl
  next q hq =>
  refine if_pos (h.resolve_left fun outside => ?_)
  rw [fifoOfWord_outside outside] at hq
  cases hq

/-- Past the checks of the operands, the state decides (R181, R197). -/
theorem runLinkDma_valid (hw : w.toNat < 2) (hf : f ≠ null) : runLinkDma u w f s =
    if (s.h u).state = .init ∨ (s.h u).state = .idle then
      ret .ok (s.modify u fun p => { p with h := channelSet w f p.h })
    else ret .busy s := by
  obtain ⟨q, hq, written⟩ := fifoOfWord_within (f := f) hw
  unfold runLinkDma
  rw [hq]
  dsimp only
  rw [if_neg hf, ite_not_configurable, written, State.modH_eq]

end Configuration

/-- Settles O20: the state, then the common part of a configuration. -/
theorem setConfigEcbConfigures : Obligations.SetConfigEcbConfigures := by
  intro u s q
  have runs {r : Res} (h : runSetConfigEcb u s = r) :
      exec (.setConfigEcb u) s = Res.outcome .mainline s r := congrArg (Res.outcome .mainline s) h
  split
  next hs => exact runs ((runSetConfigEcb_eq q).trans (if_pos hs))
  next hs => exact runs ((runSetConfigEcb_eq q).trans (if_neg hs))

/-- Settles O23: the operand, the state, then the field and the message. -/
theorem setDataSwapWritesDatatype : Obligations.SetDataSwapWritesDatatype := by
  intro u w s
  have runs {r : Res} (h : runSetDataSwap u w s = r) :
      exec (.setDataSwap u w) s = Res.outcome .mainline s r := congrArg (Res.outcome .mainline s) h
  refine ⟨fun h => runs (runSetDataSwap_outside h), fun h hs hs' => ?_, ?_⟩
  · obtain ⟨t, rfl⟩ := exists_dataTypeWord h
    exact runs ((runSetDataSwap_within t).trans (if_neg (not_or.mpr ⟨hs, hs'⟩)))
  · rintro t rfl hs q
    exact runs ((runSetDataSwap_within t).trans ((if_pos hs).trans (writeDataSwap_eq q)))

/-- Settles O25: for each command the operands, the state, then the field. -/
theorem callbacksAndDmaLinksAreWritten : Obligations.CallbacksAndDmaLinksAreWritten := by
  intro u k q f s
  have callback {r : Res} (h : runRegisterCallback u k f s = r) :
      exec (.registerCallback u k f) s = Res.outcome .mainline s r := congrArg (Res.outcome .mainline s) h
  have link {r : Res} (h : runLinkDma u q f s = r) :
      exec (.linkDma u q f) s = Res.outcome .mainline s r := congrArg (Res.outcome .mainline s) h
  exact ⟨fun h => callback (runRegisterCallback_invalid h),
    fun hk hf hs => callback ((runRegisterCallback_valid hk hf).trans (if_neg hs)),
    fun hk hf hs => callback ((runRegisterCallback_valid hk hf).trans (if_pos hs)),
    fun h => link (runLinkDma_invalid h),
    fun hq hf hs => link ((runLinkDma_valid hq hf).trans (if_neg hs)),
    fun hq hf hs => link ((runLinkDma_valid hq hf).trans (if_pos hs))⟩

/-- Settles O24: the queries return what they read; the user data is written outside RESET. -/
theorem queriesAndUserData : Obligations.QueriesAndUserData := by
  intro u a s
  refine ⟨rfl, rfl, rfl, rfl, ?_⟩
  have runs {r : Res} (h : runSetUserData u a s = r) :
      exec (.setUserData u a) s = Res.outcome .mainline s r := congrArg (Res.outcome .mainline s) h
  split
  next hs => exact runs (if_pos hs)
  next hs => exact runs (if_neg hs)

end Sys2Proof.Machine

/-! The checks before the process, tag, wrap and share commands (45_transport.md R323, 44_phase_machine.md R299
to R301, 47_key_wrap_share.md R405): each is a chain of conditions in the order of 41_lifecycle_config.md R181,
walked through one condition at a time; then the statements O32 and O42. -/

namespace Sys2Proof.Machine

/-! ### A chain of checks -/

section Chain

variable {x r r' : Res} {s : State} {o : Outcome} {c d P : Prop} [Decidable c] [Decidable d]

/-- The first check of a command: where it fails the command answers `o`, and else the rest of the chain
speaks. The claim may spell the condition another way than the model. -/
theorem first_check (hx : (if d then r else r') = x) (hcd : c ↔ d) (ho : Res.outcome .mainline s r = o)
    (rest : r' = x → P) : if c then Res.outcome .mainline s x = o else P := by
  by_cases h : d
  · rw [if_pos (hcd.mpr h), ← hx, if_pos h]
    exact ho
  · rw [if_neg (mt hcd.mp h)]
    exact rest ((if_neg h).symm.trans hx)

/-- The same of a check that answers a refusal, in front of the result `k`. -/
theorem first_refusal {m : Option Refusal} {e : Refusal} {k : Res}
    (hx : (if d then some e else m).elim k refuse = x) (hcd : c ↔ d)
    (rest : m.elim k refuse = x → P) : if c then Res.outcome .mainline s x = .refused e else P :=
  first_check ((apply_ite (Option.elim · k refuse) d (some e) m).symm.trans hx) hcd rfl rest

omit [Decidable c] in
/-- The last check of a chain that the claim follows. -/
theorem last_check (hx : (if d then r else r') = x) (hcd : c ↔ d)
    (ho : Res.outcome .mainline s r = o) : c → Res.outcome .mainline s x = o := by
  intro h
  rw [← hx, if_pos (hcd.mp h)]
  exact ho

end Chain

theorem misaligned_iff (a : Word) : a.toNat % 4 ≠ 0 ↔ (!aligned a) = true := by
  rw [Bool.not_eq_true', aligned_not]

theorem misaligned_or_iff (a o : Word) :
    a.toNat % 4 ≠ 0 ∨ o.toNat % 4 ≠ 0 ↔ (!aligned a || !aligned o) = true := by
  rw [Bool.or_eq_true, misaligned_iff, misaligned_iff]

theorem overlaps_iff (a n o : Word) :
    a.toNat < o.toNat ∧ o.toNat < a.toNat + 4 * ceilDiv n.toNat 4 ↔ overlaps a n o = true := by
  rw [overlaps, Bool.and_eq_true, decide_eq_true_iff, decide_eq_true_iff]

/-! ### Process calls (45_transport.md R323, 44_phase_machine.md R299) -/

/-- `EntryCheck` once `MsgCheck` has passed (R323). -/
def enterCall (u : Inst) (dir : Direction) (t : Transport) (a n o : Word) (s : State) (go : State → Res) : Res :=
  if t = .dma ∧ ((s.periph u).dmaIn.isSome ∨ (s.periph u).dmaOut.isSome) then refuse .staleDma
  else
    let s := s.modH u (enterHandle dir t a n o)
    if !(s.fl u).keyvalid then failMain u .error errKey s else go s

/-- `EntryCheck` as one chain of checks; those of `MsgCheck` stand before the last (R299, R323). -/
theorem entryCheck_chain (u : Inst) (dir : Direction) (t : Transport) (a n o : Word) (s : State)
    (go : State → Res) :
    entryCheck u dir t a n o s go =
      if a = null ∨ o = null ∨ n = 0 ∨ flatAlg (s.h u).algorithm = true ∧ n.toNat % 16 ≠ 0 ∨
          t = .dma ∧ ((s.h u).hdmaIn = null ∨ (s.h u).hdmaOut = null) then
        ret .invalidParam s
      else if !aligned a || !aligned o then refuse .misalignedBuffer
      else if overlaps a n o then refuse .outputOverlap
      else if (s.h u).state ≠ .idle then ret .busy s
      else if t = .dma ∧ outputSkip u (s.cr u) = true then refuse .dmaOutputSkip
      else (msgCheck u dir n s).elim (enterCall u dir t a n o s go) refuse := by
  unfold entryCheck
  simp only [← ite_or, or_assoc]
  cases msgCheck u dir n s <;> rfl

/-- Settles O32: the checks of `EntryCheck`, with those of `MsgCheck` before the last. -/
theorem processCallChecks : Obligations.ProcessCallChecks := by
  intro u a n o t s c hc
  dsimp only
  rw [processCall_form hc]
  generalize hx : entryCheck u c.dir c.transport a n o s _ = x
  rw [entryCheck_chain] at hx
  refine first_check hx .rfl rfl fun hx => ?_
  refine first_check hx (misaligned_or_iff a o) rfl fun hx => ?_
  refine first_check hx (overlaps_iff a n o) rfl fun hx => ?_
  refine first_check hx .rfl rfl fun hx => ?_
  refine first_check hx .rfl rfl fun hx => ?_
  -- The six checks of `MsgCheck` (R299).
  unfold msgCheck at hx
  refine first_refusal hx .rfl fun hx => ?_
  refine first_refusal hx .rfl fun hx => ?_
  refine first_refusal hx .rfl fun hx => ?_
  refine first_refusal hx .rfl fun hx => ?_
  refine first_refusal hx .rfl fun hx => ?_
  refine first_refusal hx .rfl fun hx => ?_
  exact last_check hx (by simp only [Option.isSome_iff_ne_none]) rfl

/-! ### Tag, wrap and share commands (44_phase_machine.md R300, R301, 47_key_wrap_share.md R405) -/

/-- The one form of the two tag commands. -/
theorem tagInstr_form (u : Inst) (k : TagKind) (a t : Word) (s : State) :
    ∃ go, exec (tagInstr u k a t) s = Res.outcome .mainline s (tagCheck u k a s go) := by
  cases k <;> exact ⟨_, rfl⟩

section KeyCalls

variable {u : Inst} {a o k t : Word} {c : KeyCall}

/-- The one form of the four wrap and share commands. -/
theorem keyCall_form (h : c ∈ keyCalls u a o k t) (s : State) :
    ∃ go, exec c.instr s = Res.outcome .mainline s (keyOpCheck u c.kmod a c.out c.shareId s go) := by
  simp only [keyCalls, List.mem_cons, List.not_mem_nil, or_false] at h
  rcases h with rfl | rfl | rfl | rfl <;> exact ⟨_, rfl⟩

theorem keyCall_out (h : c ∈ keyCalls u a o k t) : c.out = none ∨ c.out = some o := by
  simp only [keyCalls, List.mem_cons, List.not_mem_nil, or_false] at h
  rcases h with rfl | rfl | rfl | rfl
  · exact .inr rfl
  · exact .inl rfl
  · exact .inr rfl
  · exact .inl rfl

theorem keyCall_shareId (h : c ∈ keyCalls u a o k t) : c.shareId = none ∨ c.shareId = some k := by
  simp only [keyCalls, List.mem_cons, List.not_mem_nil, or_false] at h
  rcases h with rfl | rfl | rfl | rfl
  · exact .inl rfl
  · exact .inl rfl
  · exact .inr rfl
  · exact .inr rfl

/-- A check of an operand that only some of the commands have: it fails where they have it and it is bad. -/
theorem not_all_iff {m : Option Word} {v : Word} (p : Word → Bool) (h : m = none ∨ m = some v) :
    (!(m.all p)) = true ↔ m = some v ∧ p v = false := by
  rcases h with rfl | rfl <;> simp

theorem shareId_invalid_iff (h : c ∈ keyCalls u a o k t) :
    (!(c.shareId.all shareIdValid)) = true ↔
      c.shareId = some k ∧ Config.kshareidValues ≤ k.toNat := by
  rw [not_all_iff _ (keyCall_shareId h), ← Bool.not_eq_true, shareIdValid_iff, not_lt]

theorem keyCall_misaligned_iff (h : c ∈ keyCalls u a o k t) :
    (!aligned a || !(c.out.all aligned)) = true ↔
      a.toNat % 4 ≠ 0 ∨ c.out = some o ∧ o.toNat % 4 ≠ 0 := by
  rw [Bool.or_eq_true, ← misaligned_iff, not_all_iff _ (keyCall_out h), aligned_not]

end KeyCalls

/-- Settles O42: the checks of `tagCheck`, and those of `KeyOpCheck`. -/
theorem tagAndKeyCommandChecks : Obligations.TagAndKeyCommandChecks := by
  refine ⟨fun u k a t s => ?tag, fun u a o k t s c hc => ?key⟩
  case tag =>
    obtain ⟨go, form⟩ := tagInstr_form u k a t s
    dsimp only
    rw [form]
    generalize hx : tagCheck u k a s go = x
    unfold tagCheck at hx
    simp only [← ite_or] at hx
    refine first_check hx .rfl rfl fun hx => ?_
    refine first_check hx (misaligned_iff a) rfl fun hx => ?_
    refine first_check hx .rfl rfl fun hx => ?_
    refine first_check hx .rfl rfl fun hx => ?_
    refine first_check hx .rfl rfl fun hx => ?_
    refine first_check hx .rfl rfl fun hx => ?_
    refine first_check hx .rfl rfl fun hx => ?_
    exact last_check hx .rfl rfl
  case key =>
    obtain ⟨go, form⟩ := keyCall_form hc s
    dsimp only
    rw [form]
    generalize hx : keyOpCheck u c.kmod a c.out c.shareId s go = x
    unfold keyOpCheck at hx
    simp only [← ite_or, shareId_invalid_iff hc, keyCall_misaligned_iff hc, Bool.not_eq_true', or_assoc] at hx
    refine first_check hx .rfl rfl fun hx => ?_
    refine first_check hx .rfl rfl fun hx => ?_
    refine first_check hx .rfl rfl fun hx => ?_
    refine first_check hx .rfl rfl fun hx => ?_
    refine first_check hx .rfl rfl fun hx => ?_
    exact last_check hx .rfl rfl

end Sys2Proof.Machine

/-! The key commands (42_key_iv.md R220 to R229): `SET_NORMAL_KEY`, `SET_HW_KEY` and the two key-protection
commands, each as its checks and what it writes past them; how the wait of a key load ends; then the statements
O26 to O28, O30 and O31. -/

namespace Sys2Proof.Machine

/-! ### Enumerated operands (30_encoding.md R112) -/

theorem exists_keySizeOfWord {w : Word} (h : w.toNat < 2) : ∃ k, keySizeOfWord w = some k := by
  rcases eq_of_toNat_lt_two h with rfl | rfl
  · exact ⟨.k128, rfl⟩
  · exact ⟨.k256, rfl⟩

/-- The hardware keys are the values 1 to 3. -/
theorem keySelOfWord_hardware {w : Word} {k : KeySel} (h : keySelOfWord w = some k) (hk : k ≠ .software) :
    1 ≤ w.toNat ∧ w.toNat < 4 := by
  unfold keySelOfWord at h
  split at h
  case h_1 => cases h; exact absurd rfl hk
  case h_5 => cases h
  all_goals omega

theorem kModOfWord_within {w : Word} {m : KMod} (h : kModOfWord w = some m) : w.toNat < 3 := by
  unfold kModOfWord at h
  split at h
  case h_4 => cases h
  all_goals omega

theorem keySizeOfWord_within {w : Word} {k : KeySize} (h : keySizeOfWord w = some k) : w.toNat < 2 := by
  by_contra outside
  rw [keySizeOfWord_outside (not_lt.mp outside)] at h
  cases h

/-! ### SET_NORMAL_KEY (R220, R221, R223) -/

/-- `SET_NORMAL_KEY` once its checks have passed. -/
def loadNormalKey (u : Inst) (a : Word) (k : KeySize) (s : State) : Res := do
  let s := keyPrologue u s
  let s ← doIf ((s.h u).inst = some .saes) (crWrite u (.keysel .software)) s
  let s ← crWrite u (.kmod .normal) s
  let s ← crWrite u (.keysize k) s
  let s ← writeKey u a k s
  .ok (park ⟨u, .setNormalKey a k, .keyLoad, .keyTimeout⟩ s)

section NormalKey

variable {u : Inst} {a w : Word} {k : KeySize} {s : State}

theorem runSetNormalKey_invalid (h : 2 ≤ w.toNat ∨ a = null) :
    runSetNormalKey u a w s = ret .invalidParam s := by
  unfold runSetNormalKey
  split
  · rfl
  next k hk => exact if_pos (h.resolve_left (not_le.mpr (keySizeOfWord_within hk)))

theorem runSetNormalKey_misaligned (hk : keySizeOfWord w = some k) (ha : a ≠ null) (hm : a.toNat % 4 ≠ 0) :
    runSetNormalKey u a w s = refuse .misalignedBuffer := by
  unfold runSetNormalKey
  rw [hk]
  exact (if_neg ha).trans (if_pos ((misaligned_iff a).mp hm))

/-- Past the checks of the operands, the state decides (R181). -/
theorem runSetNormalKey_valid (hk : keySizeOfWord w = some k) (ha : a ≠ null) (hm : a.toNat % 4 = 0) :
    runSetNormalKey u a w s =
      if (s.h u).state = .init ∨ (s.h u).state = .idle then loadNormalKey u a k s else ret .busy s := by
  unfold runSetNormalKey
  rw [hk]
  dsimp only
  rw [if_neg ha, if_neg (mt (misaligned_iff a).mpr (not_not.mpr hm))]
  exact ite_not_configurable _ _ _

/-- The peripheral with the software key selected: a SAES handle writes `KEYSEL`, which the AES does not have
(10_state.md R41). -/
def softwareSelected (u : Inst) (p : Periph) : Periph :=
  { p with
    cr := { p.cr with keysel := if u = .saes ∧ p.h.inst = some .saes then .software else p.cr.keysel } }

theorem doIf_selectSoftware (he : (s.periph u).cr.en = false) :
    doIf ((s.h u).inst = some .saes) (crWrite u (.keysel .software)) s =
      .ok (s.modify u (softwareSelected u)) := by
  unfold doIf
  by_cases hi : (s.h u).inst = some .saes
  · rw [if_pos hi]
    cases u
    case aes =>
      rw [crWrite_saesOnly s rfl]
      exact congrArg Except.ok (State.modify_id rfl).symm
    case saes =>
      rw [crWrite_keysel he, writeKeySel, if_pos rfl, State.modCr_eq]
      refine congrArg Except.ok (State.modify_congr ?_)
      unfold softwareSelected
      rw [if_pos ⟨rfl, hi⟩]
      rfl
  · rw [if_neg hi]
    refine congrArg Except.ok (State.modify_id ?_).symm
    unfold softwareSelected
    rw [if_neg fun h => hi h.2]

/-- The fields are written, the key words read and the software key load started. -/
theorem loadNormalKey_eq (q : coreQuiet (s.periph u))
    (hm : (s.periph u).core.keyMarks = Vector.replicate 8 false) (ha : wordsAdmitted s a k.words) :
    loadNormalKey u a k s = .ok (waiting ⟨u, .setNormalKey a k, .keyLoad, .keyTimeout⟩
      (s.modify u fun p => loadStarted .software
        { keyCleared p with
          cr := { p.cr with
            en := false, keysize := k, kmod := .normal
            keysel := if u = .saes ∧ p.h.inst = some .saes then .software else p.cr.keysel }
          keyr := keyOfMemory s.mem a k p.keyr })) := by
  unfold loadNormalKey
  dsimp only
  rw [keyPrologue_eq q, doIf_selectSoftware (by rw [State.modify_periph]; rfl), ok_bind, State.modify_modify,
    crWrite_config (by rw [State.cr_eq, State.modify_periph]; rfl) (.inl rfl) rfl (by simp), ok_bind,
    State.modify_modify,
    crWrite_config (by rw [State.cr_eq, State.modify_periph]; rfl) (.inl rfl) rfl (by simp), ok_bind,
    State.modify_modify,
    writeKey_eq (by rw [State.modify_periph]; rfl) (by rw [State.modify_periph]; rfl)
      (by rw [State.modify_periph]; exact hm) (wordsAdmitted_modify.mpr ha), ok_bind, State.modify_modify,
    State.modify_mem, park_waiting _ rfl]
  rfl

end NormalKey

/-! ### SET_HW_KEY (R225, R226) -/

section HwKey

variable {u : Inst} {a b c : Word} {ks : KeySel} {m : KMod} {k : KeySize} {s : State}

theorem runSetHwKey_invalid
    (h : (s.h u).inst ≠ some .saes ∨ a.toNat = 0 ∨ 4 ≤ a.toNat ∨ 3 ≤ b.toNat ∨ 2 ≤ c.toNat) :
    runSetHwKey u a b c s = ret .invalidParam s := by
  unfold runSetHwKey
  split
  next ks m k ha hb hc =>
    split
    · rfl
    next hardware =>
    refine if_pos (h.resolve_right ?_)
    have := keySelOfWord_hardware ha hardware
    have := kModOfWord_within hb
    have := keySizeOfWord_within hc
    omega
  · rfl

/-- Past the checks of the operands and the peripheral, the state decides (R181). -/
theorem runSetHwKey_valid (hs : ks ≠ .software) (ha : keySelOfWord a = some ks) (hb : kModOfWord b = some m)
    (hc : keySizeOfWord c = some k) (hi : (s.h u).inst = some .saes) :
    runSetHwKey u a b c s =
      if (s.h u).state = .init ∨ (s.h u).state = .idle then
        (do
          let s ← crWrite u (.keysize k) (keyPrologue u s)
          crWrite u (.kmod m) s : Res) >>= fun s => do
            let s ← crWrite u (.keysel ks) s
            .ok (park ⟨u, .setHwKey k, .keyLoad, .keyTimeout⟩ s)
      else ret .busy s := by
  unfold runSetHwKey
  rw [ha, hb, hc]
  dsimp only
  rw [if_neg hs, if_neg (not_not.mpr hi), ite_not_configurable, bind_assoc]

/-- The command in a state that admits it: writing `KEYSEL` starts the load (40_register_access.md R154). -/
theorem runSetHwKey_idle (hs : ks ≠ .software) (ha : keySelOfWord a = some ks) (hb : kModOfWord b = some m)
    (hc : keySizeOfWord c = some k) (hi : (s.h .saes).inst = some .saes)
    (hl : (s.h .saes).state = .init ∨ (s.h .saes).state = .idle) (q : coreQuiet (s.periph .saes)) :
    runSetHwKey .saes a b c s = .ok (waiting ⟨.saes, .setHwKey k, .keyLoad, .keyTimeout⟩
      (s.modify .saes fun p => loadStarted (.hw ks)
        { keyConfigured k m p with
          cr := { p.cr with en := false, keysize := k, kmod := m, keysel := ks } })) := by
  rw [runSetHwKey_valid hs ha hb hc hi, if_pos hl, keyConfigured_eq q, ok_bind,
    crWrite_keysel (by rw [State.cr_eq, State.modify_periph]; rfl), ok_bind, writeKeySel_hw hs,
    State.modify_modify, park_waiting _ rfl]
  rfl

end HwKey

/-! ### Key protection (R227 to R229) -/

/-- On the SAES the state decides (R181, R227). -/
theorem writeKeyProtection_saes {v : Bool} {s : State} (hi : (s.h .saes).inst = some .saes)
    (q : coreQuiet (s.periph .saes)) :
    writeKeyProtection .saes v s =
      if (s.h .saes).state = .init ∨ (s.h .saes).state = .idle then
        ret .ok (s.modify .saes fun p =>
          { idled p with h := committedClosed p.h, cr := { p.cr with en := false, keyprot := v } })
      else ret .busy s := by
  unfold writeKeyProtection
  rw [if_neg (not_not.mpr hi), ite_not_configurable, disable_quiet q, closeCommitted_eq, State.modify_modify,
    crWrite_config (by rw [State.cr_eq, State.modify_periph]; rfl) (.inr rfl) rfl (by simp), ok_bind,
    State.modify_modify]
  rfl

theorem writeKeyProtection_busy {u : Inst} {v : Bool} {s : State} (hi : (s.h u).inst = some .saes)
    (hs : (s.h u).state ≠ .init) (hs' : (s.h u).state ≠ .idle) : writeKeyProtection u v s = ret .busy s := by
  unfold writeKeyProtection
  rw [if_neg (not_not.mpr hi), ite_not_configurable, if_neg (not_or.mpr ⟨hs, hs'⟩)]

/-! ### The wait of a key load (R222) -/

/-- The position of a key-load command with the key that it gives the handle: `SET_NORMAL_KEY` a software key
with its pointer, the other two a key without pointer (R220, R224, R225). -/
def keyLoadProc (pr : Proc) (a : Word) (k : KeySize) (o : KeyOrigin) : Prop :=
  pr = .setNormalKey a k ∧ o = .software ∨ pr = .setHwKey k ∧ a = null ∧ o = .hw ∨
    pr = .setSharedKey k ∧ a = null ∧ o = .shared

/-- The peripheral with its key mode back to NORMAL after a shared key load (R224). -/
def keyModeBack (o : KeyOrigin) (p : Periph) : Periph :=
  { p with cr := if o = .shared then { p.cr with kmod := .normal } else p.cr }

section KeyLoadWait

variable {u : Inst} {pr : Proc} {a : Word} {k : KeySize} {o : KeyOrigin} {b : Bound} {s : State}

theorem keyLoadProc_mainline (h : keyLoadProc pr a k o) : inHandler pr = false := by
  rcases h with ⟨rfl, -⟩ | ⟨rfl, -⟩ | ⟨rfl, -⟩ <;> rfl

theorem modify_keyModeBack (h : o ≠ .shared) : s.modify u (keyModeBack o) = s := by
  refine State.modify_id ?_
  unfold keyModeBack
  rw [if_neg h]

theorem crWrite_keyModeBack (he : (s.periph u).cr.en = false) :
    crWrite u (.kmod .normal) s = .ok (s.modify u (keyModeBack .shared)) :=
  crWrite_config he (.inl rfl) rfl (by simp)

/-- After a good wait `KEYVALID` decides, whichever command waited. -/
theorem waitDone_keyLoad (h : keyLoadProc pr a k o) (he : (s.periph u).cr.en = false) :
    waitDone ⟨u, pr, .keyLoad, b⟩ s = keyLoadEnd u a k o (s.modify u (keyModeBack o)) := by
  rcases h with ⟨rfl, rfl⟩ | ⟨rfl, rfl, rfl⟩ | ⟨rfl, rfl, rfl⟩
  · rw [modify_keyModeBack (by simp)]
    rfl
  · rw [modify_keyModeBack (by simp)]
    rfl
  · show sharedKeyEnd u k s = _
    rw [sharedKeyEnd, crWrite_keyModeBack he, ok_bind]

theorem waitFailed_keyLoad {r : WaitFail} (h : keyLoadProc pr a k o) (he : (s.periph u).cr.en = false) :
    waitFailed ⟨u, pr, .keyLoad, b⟩ r s = keyFail u (some r) (s.modify u (keyModeBack o)) := by
  rcases h with ⟨rfl, rfl⟩ | ⟨rfl, rfl, rfl⟩ | ⟨rfl, rfl, rfl⟩
  · rw [modify_keyModeBack (by simp)]
    rfl
  · rw [modify_keyModeBack (by simp)]
    rfl
  · show (crWrite u (.kmod .normal) s >>= fun s => keyFail u (some r) s) = _
    rw [crWrite_keyModeBack he, ok_bind]

theorem keyFail_hwErr {e : Word} : keyFail u (some (.hwErr e)) s =
    ret .error (s.modify u fun p =>
      { p with h := keyLoadFailed e p.h, fl := { p.fl with keif := false } }) := by
  simp only [keyFail, addErrors, clearKeif, State.modH_eq, State.modFl_eq, State.modify_modify]
  rfl

theorem keyFail_timeout : keyFail u (some .timeout) s =
    ret .error (s.modify u fun p => { p with h := keyLoadFailed errTimeout p.h }) := by
  simp only [keyFail, addErrors, State.modH_eq, State.modify_modify]
  rfl

theorem keyFail_invalid : keyFail u none s =
    ret .error (s.modify u fun p => { p with h := keyLoadFailed errKey p.h }) := by
  simp only [keyFail, addErrors, State.modH_eq, State.modify_modify]
  rfl

theorem keyLoadEnd_valid (h : (s.periph u).fl.keyvalid = true) : keyLoadEnd u a k o s =
    ret .ok (s.modify u fun p => { p with h := keyLoadEnded a k o p.h }) :=
  if_pos h

theorem keyLoadEnd_invalid (h : (s.periph u).fl.keyvalid = false) :
    keyLoadEnd u a k o s = keyFail u none s :=
  if_neg (by simp [h])

theorem waitStep_again {p : Pos} {el : Bool} (h : waitCheck (s.h p.u).inst p.wp el (s.fl p.u) = .again) :
    waitStep p el s = .ok s := by
  unfold waitStep
  rw [h]

end KeyLoadWait

/-! ### The statements -/

/-- Settles O26: the operands, the state, then the fields and the key words. -/
theorem setNormalKeyStartsTheLoad : Obligations.SetNormalKeyStartsTheLoad := by
  intro u a w s
  have runs {r : Res} (h : runSetNormalKey u a w s = r) :
      exec (.setNormalKey u a w) s = Res.outcome .mainline s r := congrArg (Res.outcome .mainline s) h
  refine ⟨fun h => runs (runSetNormalKey_invalid h), fun hw ha hm => ?_, fun hw ha hm hs hs' => ?_,
    fun k hk ha hm hs q marks admitted => ?_⟩
  · obtain ⟨k, hk⟩ := exists_keySizeOfWord hw
    exact runs (runSetNormalKey_misaligned hk ha hm)
  · obtain ⟨k, hk⟩ := exists_keySizeOfWord hw
    exact runs ((runSetNormalKey_valid hk ha hm).trans (if_neg (not_or.mpr ⟨hs, hs'⟩)))
  · exact runs ((runSetNormalKey_valid hk ha hm).trans
      ((if_pos hs).trans (loadNormalKey_eq q marks admitted)))

/-- Settles O27: the state, then the load that `KEYSEL` starts. -/
theorem setHwKeyStartsTheLoad : Obligations.SetHwKeyStartsTheLoad := by
  intro ks m k a b c s hs ha hb hc hi
  have runs {r : Res} (h : runSetHwKey .saes a b c s = r) :
      exec (.setHwKey .saes a b c) s = Res.outcome .mainline s r := congrArg (Res.outcome .mainline s) h
  refine ⟨fun hl hl' => ?_, fun hl q => runs (runSetHwKey_idle hs ha hb hc hi hl q)⟩
  exact runs ((runSetHwKey_valid hs ha hb hc hi).trans (if_neg (not_or.mpr ⟨hl, hl'⟩)))

/-- Settles O28: the checks of the operands and of the peripheral stand before the state check. -/
theorem setHwKeyElsewhereWritesNothing : Obligations.SetHwKeyElsewhereWritesNothing := fun _ _ _ _ s h =>
  congrArg (Res.outcome .mainline s) (runSetHwKey_invalid h)

/-- Settles O30: the peripheral, the state, then the field. -/
theorem keyProtectionWritesKeyprot : Obligations.KeyProtectionWritesKeyprot := by
  intro u s i v hi
  have runs {r : Res} (h : writeKeyProtection u v s = r) : exec i s = Res.outcome .mainline s r := by
    rcases hi with ⟨rfl, rfl⟩ | ⟨rfl, rfl⟩ <;> exact congrArg (Res.outcome .mainline s) h
  refine ⟨fun h => runs (if_pos h), fun _ h hs hs' => runs (writeKeyProtection_busy h hs hs'), ?_⟩
  rintro rfl h hs q
  exact runs ((writeKeyProtection_saes h q).trans (if_pos hs))

/-- Settles O31: the key mode goes back first, then the result of the wait and `KEYVALID` decide. -/
theorem keyLoadWaitEnds : Obligations.KeyLoadWaitEnds := by
  intro u pr a k o el s hp _ he back out done r
  let s0 : State := unpark ⟨u, pr, .keyLoad, .keyTimeout⟩ s
  have main : s0 = { s with mainPos := none } := if_neg (by simp [keyLoadProc_mainline hp])
  have periph : s0.periph u = s.periph u := unpark_periph s _ u
  have he0 : (s0.periph u).cr.en = false := by rw [periph]; exact he
  have valid {v : Bool} (h : (s.fl u).keyvalid = v) :
      ((s0.modify u (keyModeBack o)).periph u).fl.keyvalid = v := by
    rw [State.modify_periph, periph]
    exact h
  have outcome {x : Res} (h : waitStep ⟨u, pr, .keyLoad, .keyTimeout⟩ el s = x) :
      out = Res.outcome (runnerOf pr) s x := congrArg (Res.outcome (runnerOf pr) s) h
  -- The key mode is written before the handle, and neither write reads the other.
  have ends (c : RetCode) (f : Periph → Periph)
      (hf : f (keyModeBack o (s.periph u)) = { f (s.periph u) with cr := back (s.cr u) }) :
      Res.outcome (runnerOf pr) s (ret c ((s0.modify u (keyModeBack o)).modify u f)) = done c f := by
    refine outcome_ret ?_
    rw [main, State.modify_modify, State.with_mainPos_modify]
    refine congrArg (fun t : State => { t with mainPos := none }) (State.modify_congr ?_)
    exact hf
  refine ⟨fun e h => ?_, fun h => ?_, fun h hv => ?_, fun h hv => ?_, fun h => ?_⟩
  · rw [outcome ((waitStep_failed h).trans (waitFailed_keyLoad hp he0)), keyFail_hwErr]
    exact ends _ _ rfl
  · rw [outcome ((waitStep_failed h).trans (waitFailed_keyLoad hp he0)), keyFail_timeout]
    exact ends _ _ rfl
  · rw [outcome ((waitStep_ok h).trans (waitDone_keyLoad hp he0)), keyLoadEnd_invalid (valid hv),
      keyFail_invalid]
    exact ends _ _ rfl
  · rw [outcome ((waitStep_ok h).trans (waitDone_keyLoad hp he0)), keyLoadEnd_valid (valid hv)]
    exact ends _ _ rfl
  · exact outcome (waitStep_again h)

end Sys2Proof.Machine

/-! Where a command starts after a key derivation or without one (42_key_iv.md R231, R234): the first call of an
ECB or CBC decryption (44_phase_machine.md R282) and the wrap and share commands (47_key_wrap_share.md R400 to
R405); then the statements O37 and O49. -/

namespace Sys2Proof.Machine

theorem nextAdmitted_modify {s : State} {u : Inst} {f : Periph → Periph} {ph : PumpPhase} {p : Periph} :
    nextAdmitted (s.modify u f) ph p ↔ nextAdmitted s ph p := by
  unfold nextAdmitted blockAdmitted
  simp only [admits_mono (State.modify_alloc s u f)]

/-! ### The end of a key derivation (R231) -/

/-- The enable that follows a key derivation leaves a core that takes a block. -/
theorem enabledDerived_ready (p : Periph) : coreReady (enabledWith none (derivEnded p)) :=
  ⟨rfl, rfl, rfl, rfl⟩

/-- After a derivation's wait the schedule is the derived one and the peripheral is enabled in mode DECRYPT; an
ECB or CBC peripheral starts no job (40_register_access.md R151). -/
theorem keyDerivEnd_enable {u : Inst} {s : State} (q : coreQuiet (s.periph u))
    (k : (s.periph u).fl.keyvalid = true ∨ (s.periph u).fl.busy = true)
    (c : (s.periph u).cr.chmod = .ecb ∨ (s.periph u).cr.chmod = .cbc) :
    (keyDerivEnd u s >>= fun s => do
      let s ← crWrite u (.mode .decrypt) s
      crWrite u (.en true) s : Res) = .ok (s.modify u fun p => enabledWith none (derivEnded p)) := by
  rw [keyDerivEnd_eq q, ok_bind, enable_derived, State.modify_modify]
  all_goals rw [State.modify_periph]
  case he | hm | j => rfl
  case k => exact k
  case c => exact c

/-! ### The first call of an ECB or CBC decryption (44_phase_machine.md R282) -/

section Call

variable {u : Inst} {pr : Proc} {b : Bound} {s : State}

theorem callSetup_derives (h0 : (s.periph u).h.dataSizeSum = 0)
    (ha : ecbOrCbc (s.periph u).h.algorithm = true) (q : coreQuiet (s.periph u))
    (k : (s.periph u).fl.keyvalid = true) :
    callSetup u pr .dec b s =
      .ok (park ⟨u, pr, .keyDeriv, .keyDerivBudget⟩ (s.modify u derivStarted)) := by
  have flat : flatAlg (s.periph u).h.algorithm = true := by simp [flatAlg, ha]
  unfold callSetup
  dsimp only
  rw [if_neg (not_not.mpr h0), if_pos flat, if_pos ⟨rfl, ha⟩, disable_quiet q,
    keyDerivStart_eq (by rw [State.modify_periph]; exact coreQuiet_idled _)
      (by rw [State.modify_periph]; exact k), ok_bind, State.modify_modify]
  rfl

/-- What follows the wait of the derivation, up to the start of the call. -/
theorem setupDerived_eq (q : coreQuiet (s.periph u))
    (k : (s.periph u).fl.keyvalid = true ∨ (s.periph u).fl.busy = true)
    (c : (s.periph u).cr.chmod = .ecb ∨ (s.periph u).cr.chmod = .cbc) :
    setupDerived u pr .dec s = afterSetup u pr (s.modify u fun p =>
      enabledWith none { derivEnded p with h := { (derivEnded p).h with blockIndex := 0 } }) := by
  calc setupDerived u pr .dec s
    _ = (keyDerivEnd u s >>= fun s => do
          let s ← crWrite u (.mode .decrypt) s
          crWrite u (.en true) s : Res) >>= fun s => afterSetup u pr (restartBlocks u s) := by
      simp only [setupDerived, flatSetupEnd, modeOfDirection, bind_assoc]
    _ = _ := by
      rw [keyDerivEnd_enable q k c, ok_bind, restartBlocks, State.modH_eq, State.modify_modify]
      rfl

/-- After its derivation a process command goes on with the setup. -/
theorem waitDone_derived {a n o t : Word} {c : ProcessCall} (h : c ∈ processCalls u a n o t) :
    waitDone ⟨u, c.proc, .keyDeriv, b⟩ s = setupDerived u c.proc c.dir s := by
  simp only [processCalls, List.mem_cons, List.not_mem_nil, or_false] at h
  rcases h with rfl | rfl | rfl | rfl | rfl | rfl <;> rfl

end Call

/-- Settles O37: the checks and the setup up to the derivation; then its end and the start of the call. -/
theorem decryptStartsKeyDerivation : Obligations.DecryptStartsKeyDerivation := by
  intro u a n o t s c hc hdir ha q
  refine ⟨?start, ?goesOn⟩
  case start =>
    intro admitted h0
    have hv : (s.fl u).keyvalid = true := admitted.2
    have parked := callSetup_derives (u := u) (pr := c.proc) (b := c.bound)
      (s := s.modify u (entered .dec c.transport a n o)) (by rw [State.modify_periph]; exact h0)
      (by rw [State.modify_periph]; exact ha) (by rw [State.modify_periph]; exact q)
      (by rw [State.modify_periph]; exact hv)
    rw [processCall_form hc, hdir, entryCheck_admitted admitted, parked,
      park_waiting _ (processCall_mainline hc), State.modify_modify]
    rfl
  case goesOn =>
    intro el hw mirrored hk hn d p hadm
    have chmod := chmod_of_ecbOrCbc mirrored ha
    let s0 : State := { s with mainPos := none }
    have periph : s0.periph u = s.periph u := State.with_mainPos_periph s u none
    have unparked : unpark ⟨u, c.proc, .keyDeriv, .keyDerivBudget⟩ s = s0 :=
      if_neg (by simp [processCall_mainline hc])
    have setup : setupDerived u c.proc .dec s0 = afterSetup u c.proc (s0.modify u fun _ => p) := by
      rw [setupDerived_eq (by rwa [periph]) (by rwa [periph]) (by rwa [periph])]
      exact congrArg (afterSetup u c.proc) (State.modify_congr (by rw [periph]))
    have started : afterSetup u c.proc (s0.modify u fun _ => p) = .ok (callStarted u c.proc .flat p s0) :=
      afterSetup_eq (processCall_proc hc) (phaseOf_ecbOrCbc ha) (enabledDerived_ready _) rfl hn (by simp) hadm
    exact congrArg (Res.outcome (runnerOf c.proc) s) (calc
      waitStep ⟨u, c.proc, .keyDeriv, .keyDerivBudget⟩ el s
      _ = waitDone ⟨u, c.proc, .keyDeriv, .keyDerivBudget⟩ s0 := by rw [waitStep_ok hw, unparked]
      _ = setupDerived u c.proc .dec s0 := by rw [waitDone_derived hc, hdir]
      _ = _ := setup.trans started)

/-! ### The wrap and share commands (47_key_wrap_share.md R400 to R405) -/

/-- `CR.KSHAREID <- k` of the two share commands (R402, R404). -/
def shareIdWrite (k : Option Word) (s : State) : Res := k.elim (.ok s) (writeShareId .saes · s)

theorem shareIdWrite_eq {k : Option Word} {s : State} (he : (s.periph .saes).cr.en = false) :
    shareIdWrite k s = .ok (s.modify .saes (shareIdSet k)) := by
  cases k with
  | none => exact congrArg Except.ok (State.modify_id rfl).symm
  | some k => exact writeShareId_eq he

/-- A wrap or share command once its checks have passed: those without an output buffer derive their key
first (R400 to R404). -/
def keyCallStart (c : KeyCall) (t : Word) (s : State) : Res := do
  let s ← shareIdWrite c.shareId (disable .saes s)
  if c.out = none then keyOpDecrypt .saes c.op t s else keyOpEncrypt .saes c.op t s

section KeyCall

variable {a o k t : Word} {c : KeyCall} {s : State}

theorem keyCall_runs (h : c ∈ keyCalls .saes a o k t) (s : State) :
    exec c.instr s = Res.outcome .mainline s
      (keyOpCheck .saes c.kmod a c.out c.shareId s (keyCallStart c t)) := by
  simp only [keyCalls, List.mem_cons, List.not_mem_nil, or_false] at h
  rcases h with rfl | rfl | rfl | rfl <;> rfl

/-- The checks pass, the SAES is disabled and the share id written. -/
theorem keyCall_admitted (h : c ∈ keyCalls .saes a o k t)
    (ha : keyOpAdmitted c.kmod a c.out c.shareId s) (q : coreQuiet (s.periph .saes)) :
    exec c.instr s = Res.outcome .mainline s
      ((if c.out = none then keyOpDecrypt .saes c.op t else keyOpEncrypt .saes c.op t)
        (s.modify .saes fun p => shareIdSet c.shareId (idled (keyOpEntered a (c.out.getD null) p)))) := by
  rw [keyCall_runs h, keyOpCheck_checked ha.1]
  dsimp only
  rw [if_pos ha.2, keyCallStart, disable_quiet (by rw [State.modify_periph]; exact q),
    shareIdWrite_eq (by simp only [State.modify_periph]; rfl), ok_bind, State.modify_modify,
    State.modify_modify]
  split <;> rfl

/-- The block loop writes a block while one is left (R400). -/
theorem keyOpLoop_next {op : KeyOp} (hr : coreReady (s.periph .saes))
    (hp : phaseOf (s.periph .saes).h.algorithm (s.periph .saes).cr.gcmph = some .flat)
    (hb : (s.periph .saes).h.blockIndex.toNat < (s.periph .saes).cr.keysize.words / 4)
    (hn : nextAdmitted s .flat (s.periph .saes)) :
    keyOpLoop .saes op t s = .ok (waiting ⟨.saes, .keyOp op t, .block, .ms t⟩
      (s.modify .saes (nextBlock .flat s.mem))) := by
  obtain ⟨en, job, input, output⟩ := hr
  unfold keyOpLoop
  rw [if_pos hb, writeNext_eq hp en job output input hn, ok_bind, park_waiting _ rfl]

/-- After its derivation a decrypting key command writes its first block in mode DECRYPT (R401, R404). -/
theorem keyOpDerived_eq {op : KeyOp} (q : coreQuiet (s.periph .saes))
    (k : (s.periph .saes).fl.keyvalid = true ∨ (s.periph .saes).fl.busy = true)
    (hm : algMirrored (s.periph .saes)) (ha : ecbOrCbc (s.periph .saes).h.algorithm = true)
    (hb : (s.periph .saes).h.blockIndex.toNat < (s.periph .saes).cr.keysize.words / 4)
    (hn : nextAdmitted s .flat (enabledWith none (derivEnded (s.periph .saes)))) :
    keyOpDerived .saes op t s = .ok (waiting ⟨.saes, .keyOp op t, .block, .ms t⟩
      (s.modify .saes fun p => nextBlock .flat s.mem (enabledWith none (derivEnded p)))) := by
  calc keyOpDerived .saes op t s
    _ = (keyDerivEnd .saes s >>= fun s => do
          let s ← crWrite .saes (.mode .decrypt) s
          crWrite .saes (.en true) s : Res) >>= keyOpLoop .saes op t := by
      simp only [keyOpDerived, keyOpBlocks, bind_assoc]
    _ = keyOpLoop .saes op t (s.modify .saes fun p => enabledWith none (derivEnded p)) := by
      rw [keyDerivEnd_enable q k (chmod_of_ecbOrCbc hm ha), ok_bind]
    _ = _ := by
      rw [keyOpLoop_next, State.modify_modify, State.modify_mem]
      all_goals rw [State.modify_periph]
      · exact enabledDerived_ready _
      · exact phaseOf_ecbOrCbc ha
      · exact hb
      · exact nextAdmitted_modify.mpr hn

end KeyCall

/-- Settles O49: the checks and the two ways to start; then the end of the derivation. -/
theorem keyCommandsStart : Obligations.KeyCommandsStart := by
  intro a o k t s c hc q mirrored
  refine ⟨fun admitted => ?starts, ?goesOn⟩
  case starts =>
    intro p
    -- The peripheral is disabled before the share id is written.
    have quiet : coreQuiet (idled p) := coreQuiet_idled p
    have periph : (s.modify .saes fun p =>
        shareIdSet c.shareId (idled (keyOpEntered a (c.out.getD null) p))).periph .saes = idled p :=
      State.modify_periph _ _ _
    refine ⟨?encrypts, ?derives⟩
    case encrypts =>
      intro hout x hn
      have ⟨⟨_, _, _, _, ecbCbc, _⟩, valid⟩ := admitted
      rw [keyCall_admitted hc admitted q, if_neg hout,
        keyOpEncrypt_eq periph quiet rfl valid (q := x) rfl (chmod_of_ecbOrCbc mirrored ecbCbc)
          (phaseOf_ecbOrCbc ecbCbc) rfl (nextAdmitted_modify.mpr hn), State.modify_modify, State.modify_mem]
      rfl
    case derives =>
      intro hout
      rw [keyCall_admitted hc admitted q, if_pos hout, keyOpDecrypt_eq periph quiet admitted.2,
        State.modify_modify]
      rfl
  case goesOn =>
    intro el hw ha hk hb x hn
    let s0 : State := { s with mainPos := none }
    exact congrArg (Res.outcome .mainline s) (calc
      waitStep ⟨.saes, .keyOp c.op t, .keyDeriv, .keyDerivBudget⟩ el s
      _ = keyOpDerived .saes c.op t s0 := waitStep_ok hw
      _ = _ := keyOpDerived_eq (s := s0) q hk mirrored ha hb hn)

end Sys2Proof.Machine

/-! What one iteration of a wait reports (43_block_pump.md R250), how a command leaves its WaitFlag, and the
epilogue of a failed wait (60_exceptions.md R503, R508); then the statements O39 and O40. -/

namespace Sys2Proof.Machine

/-! ### One iteration (43_block_pump.md R250) -/

section Iteration

variable {i : Option Inst} {w : WaitPoint} {el : Bool} {f : Flags}

/-- A key load waits for `BUSY = 0`, every other wait point for `CCF = 1`. -/
theorem waitCond_iff : waitCond w f = true ↔ if w = .keyLoad then f.busy = false else f.ccf = true := by
  cases w <;> simp [waitCond]

theorem waitCheck_keyError (hk : f.keif = true) : waitCheck i w el f = .failed (.hwErr errKey) := if_pos hk

theorem waitCheck_rngError (hk : f.keif = false) (hi : i = some .saes) (hr : f.rngeif = true) :
    waitCheck i w el f = .failed (.hwErr errRng) := by
  unfold waitCheck
  rw [if_neg (by simp [hk]), if_pos (by simp [hi, hr])]

/-- With no key error and, on the SAES, no RNG error, the FIFO error decides, then the condition, then the
bound. -/
theorem waitCheck_noCoreError (hk : f.keif = false) (hr : i = some .saes → f.rngeif = false) :
    waitCheck i w el f =
      if f.rweif = true then .failed (.hwErr (rwErrBits f))
      else if waitCond w f = true then .ok
      else if el = true then .failed .timeout else .again := by
  unfold waitCheck
  rw [if_neg (by simp [hk]), if_neg]
  rw [Bool.and_eq_true, beq_iff_eq]
  rintro ⟨hi, h⟩
  exact absurd (hr hi) (by simp [h])

end Iteration

/-- Settles O39: the errors in their order, then the condition, then the bound. -/
theorem waitReportsInOrder : Obligations.WaitReportsInOrder := by
  intro i w el f
  refine ⟨waitCheck_keyError, waitCheck_rngError, fun hk hr hw => ?_,
    fun hk hr hw => ⟨fun hc => ?_, fun hc => ?_⟩⟩
  · exact (waitCheck_noCoreError hk hr).trans (if_pos hw)
  · rw [waitCheck_noCoreError hk hr, if_neg (by simp [hw]), if_pos (waitCond_iff.mpr hc)]
  · rw [waitCheck_noCoreError hk hr, if_neg (by simp [hw]), if_neg (mt waitCond_iff.mp hc)]

/-! ### Leaving a WaitFlag (10_state.md R37) -/

section Leaving

variable {p : Pos} {el : Bool} {s t : State}

theorem unpark_mainline (h : inHandler p.proc = false) : unpark p s = { s with mainPos := none } :=
  if_neg (by simp [h])

theorem unpark_entry (h : inHandler p.proc = true) : unpark p s = { s with isrPos := none } := if_pos h

/-- A good wait of a mainline command: what follows it runs with the position empty. -/
theorem waitOutcome_ok (hm : inHandler p.proc = false) (h : waitCheck (s.h p.u).inst p.wp el (s.fl p.u) = .ok)
    (hd : waitDone p { s with mainPos := none } = .ok t) : waitOutcome p el s = .next t := by
  rw [waitOutcome, waitStep_ok h, unpark_mainline hm, hd]
  rfl

end Leaving

/-! ### The failure epilogue (60_exceptions.md R503) -/

/-- A process, tag, wrap or share command. -/
def failsByEpilogue (pr : Proc) : Prop :=
  (∃ dir t, pr = .poll dir t) ∨ (∃ dir, pr = .startIt dir) ∨ (∃ dir, pr = .startDma dir) ∨
    (∃ k a t, pr = .tag k a t) ∨ ∃ k t, pr = .keyOp k t

section Failing

variable {u : Inst} {pr : Proc} {w : WaitPoint} {b : Bound} {r : WaitFail} {el : Bool} {s : State}

theorem failsByEpilogue_mainline (h : failsByEpilogue pr) : inHandler pr = false := by
  rcases h with ⟨_, _, rfl⟩ | ⟨_, rfl⟩ | ⟨_, rfl⟩ | ⟨_, _, _, rfl⟩ | ⟨_, _, rfl⟩ <;> rfl

theorem waitFailed_command (h : failsByEpilogue pr) :
    waitFailed ⟨u, pr, w, b⟩ r s = failMain u (failCode b r).1 (failCode b r).2 s := by
  rcases h with ⟨_, _, rfl⟩ | ⟨_, rfl⟩ | ⟨_, rfl⟩ | ⟨_, _, _, rfl⟩ | ⟨_, _, rfl⟩ <;> rfl

/-- A failed wait of a command. -/
theorem waitOutcome_command_failed (h : failsByEpilogue pr) (q : coreQuiet (s.periph u))
    (hw : waitCheck (s.h u).inst w el (s.fl u) = .failed r) :
    waitOutcome ⟨u, pr, w, b⟩ el s = .next (returning (failCode b r).1
      { s.modify u (failed (failCode b r).2) with mainPos := none }) := by
  rw [waitOutcome, waitStep_failed hw, unpark_mainline (failsByEpilogue_mainline h), waitFailed_command h,
    failMain_eq (by rwa [State.with_mainPos_periph]), State.with_mainPos_modify]

/-- A failed wait of the DMA partial block (R508). -/
theorem waitOutcome_dmaFinish_failed {x : Bool} (q : coreQuiet (s.periph u))
    (hw : waitCheck (s.h u).inst w el (s.fl u) = .failed r) :
    waitOutcome ⟨u, .dmaFinish x, w, b⟩ el s = .next
      (logging [eventOf .error (failed (failCode b r).2 (s.periph u)).h]
        { s.modify u (failed (failCode b r).2) with isrPos := none }) := by
  have fails : waitFailed ⟨u, .dmaFinish x, w, b⟩ r { s with isrPos := none } =
      failIsr u (failCode b r).2 { s with isrPos := none } := rfl
  rw [waitOutcome, waitStep_failed hw, unpark_entry rfl, fails,
    failIsr_eq (by rwa [State.with_isrPos_periph]), State.with_isrPos_periph, State.with_isrPos_modify]
  rfl

end Failing

/-- Settles O40: the code and the bits of `Fail(r)` by the bound, and the two ways the epilogue ends. -/
theorem failedWaitRunsTheEpilogue : Obligations.FailedWaitRunsTheEpilogue := by
  intro u pr w b el r s q hw e c
  have code : failCode b r = (c, e) := by cases r <;> cases b <;> rfl
  refine ⟨fun h => ?command, ?entry⟩
  case command => simpa only [code] using waitOutcome_command_failed (b := b) h q hw
  case entry =>
    rintro ⟨x, rfl⟩
    simpa only [code] using waitOutcome_dmaFinish_failed (b := b) (x := x) q hw

end Sys2Proof.Machine

/-! The start of a process call (45_transport.md R320 to R342): after a setup that waits for nothing, and for a
GCM, GMAC or CCM message through its INIT phase (44_phase_machine.md R282, R283); then the statements O33, O34
and O36. -/

namespace Sys2Proof.Machine

/-! ### A setup that waits for nothing -/

section Calls

variable {u : Inst} {a n o t : Word} {s : State} {c : ProcessCall} {ph : PumpPhase} {q : Periph}

theorem processCall_poll (h : c ∈ processCalls u a n o t) (hc : c.transport = .poll) :
    c.proc = .poll c.dir t := by
  simp only [processCalls, List.mem_cons, List.not_mem_nil, or_false] at h
  rcases h with rfl | rfl | rfl | rfl | rfl | rfl
  · rfl
  · rfl
  all_goals cases hc

theorem processCall_it (h : c ∈ processCalls u a n o t) (hc : c.transport = .it) :
    c.proc = .startIt c.dir := by
  simp only [processCalls, List.mem_cons, List.not_mem_nil, or_false] at h
  rcases h with rfl | rfl | rfl | rfl | rfl | rfl
  case' inr.inr.inl | inr.inr.inr.inl => rfl
  all_goals cases hc

/-- Whatever its transport, an admitted call whose setup waits for nothing is started in its first step. -/
theorem exec_processCall_setUp (hc : c ∈ processCalls u a n o t)
    (admitted : callAdmitted u c.dir c.transport a n o s) (hs : setUp u c.dir c.transport a n o s ph q)
    (hn : startsWithBlock c.proc ph q.h → nextAdmitted s ph q) :
    exec c.instr s = .next (callStarted u c.proc ph q s) := by
  obtain ⟨notHeader, index, size⟩ := setUp_handle hs
  obtain ⟨en, job, output, input, phase⟩ := setUp_ready hs
  have ⟨⟨_, _, n0, _⟩, valid⟩ := admitted
  rw [processCall_form hc, entryCheck_admitted admitted, callSetup_setUp hs valid,
    afterSetup_eq (processCall_proc hc) phase ⟨en, job, input, output⟩ index (by rwa [size])
      (fun e => absurd e notHeader) hn]
  rfl

end Calls

/-- Settles O33. -/
theorem pollWritesFirstBlock : Obligations.PollWritesFirstBlock := by
  intro u a n o t s c ph q hc ht admitted hs hn
  rw [← ht] at admitted hs
  rw [exec_processCall_setUp hc admitted hs fun _ => hn, processCall_poll hc ht]
  rfl

/-- Settles O34. -/
theorem itWritesFirstBlock : Obligations.ItWritesFirstBlock := by
  intro u a n o t s c ph q hc ht admitted hs hn
  rw [← ht] at admitted hs
  rw [exec_processCall_setUp hc admitted hs fun _ => hn, processCall_it hc ht]
  rfl

/-! ### The INIT phase of a GCM, GMAC or CCM message (44_phase_machine.md R282, R283) -/

theorem flatAlg_of_authAlg {x : Option Alg} (h : authAlg x = true) : flatAlg x = false := by
  rcases (authAlg_iff x).mp h with rfl | rfl <;> rfl

theorem chmod_of_authAlg {p : Periph} (hm : algMirrored p) (h : authAlg p.h.algorithm = true) :
    p.cr.chmod = .gcmGmac ∨ p.cr.chmod = .ccm := by
  rw [hm] at h
  exact ((authAlg_iff _).mp h).imp (Option.some.inj ·) (Option.some.inj ·)

theorem modeOfDirection_ne_keyDeriv (d : Direction) : modeOfDirection d ≠ .keyDeriv := by cases d <;> decide

section Init

variable {u : Inst} {pr : Proc} {dir : Direction} {b : Bound} {s : State}

theorem callSetup_inits (h0 : (s.periph u).h.dataSizeSum = 0) (ha : authAlg (s.periph u).h.algorithm = true)
    (hm : algMirrored (s.periph u)) (q : coreQuiet (s.periph u)) (k : (s.periph u).fl.keyvalid = true) :
    callSetup u pr dir b s =
      .ok (park ⟨u, pr, .phaseInit, b⟩ (s.modify u (initStarted (modeOfDirection dir)))) := by
  unfold callSetup
  dsimp only
  rw [if_neg (not_not.mpr h0), if_neg (by rw [State.h_eq, flatAlg_of_authAlg ha]; simp),
    phaseInitStart_eq q k (chmod_of_authAlg hm ha) (modeOfDirection_ne_keyDeriv dir), ok_bind]

/-- What follows the wait of INIT, up to the start of the call. -/
theorem setupPhaseInit_eq (q : coreQuiet (s.periph u))
    (k : (s.periph u).fl.keyvalid = true ∨ (s.periph u).fl.busy = true)
    (hm : (s.periph u).cr.mode ≠ .keyDeriv) :
    setupPhaseInit u pr s = afterSetup u pr (s.modify u initEnded) := by
  rw [setupPhaseInit, phaseInitEnd_eq q k hm, ok_bind, restartBlocks, State.modH_eq, State.modify_modify]
  rfl

/-- After its INIT phase a process command goes on with the setup. -/
theorem waitDone_phaseInit {a n o t : Word} {c : ProcessCall} (h : c ∈ processCalls u a n o t) :
    waitDone ⟨u, c.proc, .phaseInit, b⟩ s = setupPhaseInit u c.proc s := by
  simp only [processCalls, List.mem_cons, List.not_mem_nil, or_false] at h
  rcases h with rfl | rfl | rfl | rfl | rfl | rfl <;> rfl

end Init

/-- INIT leads to HEADER only where there is a header byte (R283). -/
theorem headerSize_of_phaseOfHeader {h : Handle} (e : phaseOfHeader h = .header) : h.headerSize ≠ 0 := by
  intro z
  rw [phaseOfHeader, if_pos z] at e
  cases e

/-- Settles O36: the checks and the setup up to the INIT phase; then its end and the start of the call. -/
theorem authCallStartsInit : Obligations.AuthCallStartsInit := by
  intro u a n o t s c hc
  refine ⟨?starts, ?goesOn⟩
  case starts =>
    intro admitted ha h0 mirrored q
    have hv : (s.fl u).keyvalid = true := admitted.2
    have parked := callSetup_inits (u := u) (pr := c.proc) (dir := c.dir) (b := c.bound)
      (s := s.modify u (entered c.dir c.transport a n o)) (by rw [State.modify_periph]; exact h0)
      (by rw [State.modify_periph]; exact ha) (by rw [State.modify_periph]; exact mirrored)
      (by rw [State.modify_periph]; exact q) (by rw [State.modify_periph]; exact hv)
    rw [processCall_form hc, entryCheck_admitted admitted, parked, park_waiting _ (processCall_mainline hc),
      State.modify_modify]
    rfl
  case goesOn =>
    intro el hw ha q hk hm hn ph p hadm
    let s0 : State := { s with mainPos := none }
    have periph : s0.periph u = s.periph u := State.with_mainPos_periph s u none
    obtain ⟨ready, index, phase⟩ := initEnded_ready (s.periph u)
    refine waitOutcome_ok (processCall_mainline hc) hw ?_
    calc waitDone ⟨u, c.proc, .phaseInit, c.bound⟩ s0
      _ = setupPhaseInit u c.proc s0 := waitDone_phaseInit hc
      _ = afterSetup u c.proc (s0.modify u initEnded) := by
        rw [setupPhaseInit_eq] <;> rwa [periph]
      _ = afterSetup u c.proc (s0.modify u fun _ => p) :=
        congrArg (afterSetup u c.proc) (State.modify_congr (by rw [periph]))
      _ = .ok (callStarted u c.proc ph p s0) :=
        afterSetup_eq (processCall_proc hc) (phase ha) ready index hn headerSize_of_phaseOfHeader hadm

end Sys2Proof.Machine

/-! The end of a block (43_block_pump.md R254, R260): its output is stored or, for a header block and for a
received key, nothing is; then the loop of a polling call (45_transport.md R322) or of a wrap or share command
(47_key_wrap_share.md R400 to R405) goes on; then the statements O41 and O50. -/

namespace Sys2Proof.Machine

/-! ### The output of the block -/

theorem clearCcf_eq (u : Inst) (s : State) : clearCcf u s = s.modify u ccfCleared := rfl

section Output

variable {u : Inst} {s : State} {ph : PumpPhase}

/-- In output-skip mode no output word is read (43_block_pump.md R253). -/
theorem blockEnd_skipped (hp : phaseOf (s.periph u).h.algorithm (s.periph u).cr.gcmph = some ph)
    (ho : outputSkip u (s.periph u).cr = true) : blockEnd u s = .ok (s.modify u ccfCleared) := by
  have phase : currentPhase u (clearCcf u s) = .ok ph := by simp [currentPhase, clearCcf, hp]
  have skips : outputSkip u ((clearCcf u s).cr u) = true := by simpa [clearCcf] using ho
  rw [blockEnd, readOut, phase, ok_bind, if_pos (.inr skips), clearCcf_eq]

/-- The state in which a block's output was stored as `m`, its command out of the wait. -/
def outputDone (u : Inst) (m : List Host.Cell) (s : State) : State :=
  { s.modify u outputRead with mem := m, mainPos := none }

theorem outputDone_periph (m : List Host.Cell) : (outputDone u m s).periph u = outputRead (s.periph u) := by
  cases u <;> rfl

theorem outputDone_modify (m : List Host.Cell) (f : Periph → Periph) :
    (outputDone u m s).modify u f =
      { s.modify u (fun p => f (outputRead p)) with mem := m, mainPos := none } := by
  cases u <;> rfl

theorem nextAdmitted_outputDone {m : List Host.Cell} {p : Periph} :
    nextAdmitted (outputDone u m s) ph p ↔ nextAdmitted s ph p := by
  unfold nextAdmitted blockAdmitted
  simp only [admits_mono (s := s) (t := outputDone u m s) (State.modify_alloc s u outputRead)]

/-- A block with output ends (R254, R260). -/
theorem blockEnd_stored {c0 c1 c2 c3 : Word}
    (hp : phaseOf (s.periph u).h.algorithm (s.periph u).cr.gcmph = some ph) (hh : ph ≠ .header)
    (ho : outputSkip u (s.periph u).cr = false) (hw : outputWords (s.periph u) c0 c1 c2 c3)
    (ha : outputAdmitted s (s.periph u)) :
    blockEnd u { s with mainPos := none } =
      .ok (outputDone u (outputMemory (s.periph u) s.mem c0 c1 c2 c3) s) := by
  have periph : ({ s with mainPos := none } : State).periph u = s.periph u := State.with_mainPos_periph s u none
  rw [blockEnd_out (ph := ph) (c0 := c0) (c1 := c1) (c2 := c2) (c3 := c3) (by rwa [periph]) hh (by rwa [periph])
    (by rwa [periph]) (by rw [periph]; exact ha), periph, State.with_mainPos_modify]
  rfl

/-- After its output was read the core takes a block. -/
theorem outputRead_ready {p : Periph} {c0 c1 c2 c3 : Word} (h : outputWords p c0 c1 c2 c3) :
    coreReady (outputRead p) := by
  obtain ⟨en, -, job, input⟩ := h
  exact ⟨en, job, input, rfl⟩

theorem coreQuiet_of_ready {p : Periph} (h : coreReady p) : coreQuiet p := by
  obtain ⟨-, job, input, output⟩ := h
  simp [coreQuiet, job, input, output]

end Output

/-! ### The loop of a polling call (45_transport.md R322) -/

section PollLoop

variable {u : Inst} {dir : Direction} {t : Word} {s : State} {ph : PumpPhase}

/-- A block is left to write once the boundary is passed. -/
def blockLeft (ph : PumpPhase) (p : Periph) : Prop :=
  boundaryPhase ph p.h = .header ∨
    (boundaryMoved ph p).h.blockIndex.toNat ≠ phaseBlocks (boundaryPhase ph p.h) (boundaryMoved ph p).h

/-- A call has data to process, so after the header there is a block left. -/
theorem blockLeft_header {p : Periph} (h : p.h.dataSizeByte ≠ 0) : blockLeft .header p := by
  unfold blockLeft boundaryPhase boundaryMoved
  by_cases last : p.h.blockIndex.toNat = phaseBlocks .header p.h
  · have pos : p.h.dataSizeByte.toNat ≠ 0 := fun e => h (BitVec.eq_of_toNat_eq e)
    rw [if_pos ⟨rfl, last⟩, if_pos ⟨rfl, last⟩]
    have restarted : (0 : Word).toNat = 0 := rfl
    refine .inr (Nat.ne_of_lt ?_)
    simp only [phaseBlocks, phaseLen, ceilDiv, restarted]
    omega
  · exact .inl (if_neg fun e => last e.2)

theorem boundaryPhase_of_ne {h : Handle} (hp : ph ≠ .header) : boundaryPhase ph h = ph := if_neg fun e => hp e.1

theorem boundaryMoved_of_ne {p : Periph} (hp : ph ≠ .header) : boundaryMoved ph p = p := if_neg fun e => hp e.1

theorem boundaryWritten_of_ne {m : List Host.Cell} {p : Periph} (hp : ph ≠ .header) :
    boundaryWritten ph m p = nextBlock ph m p := by
  rw [boundaryWritten, boundaryPhase_of_ne hp, boundaryMoved_of_ne hp]

/-- The move to PAYLOAD, where it is due (44_phase_machine.md R284). -/
theorem doIf_headerToPayload (hj : (s.periph u).core.job = none) :
    doIf (ph = .header ∧ (s.h u).blockIndex.toNat = phaseBlocks .header (s.h u)) (headerToPayload u) s =
      .ok (s.modify u (boundaryMoved ph)) := by
  by_cases due : ph = .header ∧ (s.periph u).h.blockIndex.toNat = phaseBlocks .header (s.periph u).h
  · rw [doIf, if_pos due, headerToPayload, crWrite_phase hj (by decide), ok_bind, restartBlocks, State.modH_eq,
      State.modify_modify]
    exact congrArg Except.ok (State.modify_congr (if_pos due).symm)
  · exact (if_neg due).trans (congrArg Except.ok (State.modify_id (if_neg due)).symm)

/-- The loop writes the next block while one is left, and waits for it. -/
theorem pollLoop_next (hp : phaseOf (s.periph u).h.algorithm (s.periph u).cr.gcmph = some ph)
    (hr : coreReady (s.periph u)) (hl : blockLeft ph (s.periph u))
    (hn : nextAdmitted s (boundaryPhase ph (s.periph u).h) (boundaryMoved ph (s.periph u))) :
    pollLoop u dir t s =
      .ok (waiting ⟨u, .poll dir t, .block, .ms t⟩ (s.modify u (boundaryWritten ph s.mem))) := by
  obtain ⟨writes, phase⟩ := boundary_eq hp hr hn
  have moved := doIf_headerToPayload (ph := ph) hr.2.1
  rw [moved, ok_bind] at writes phase
  have start : currentPhase u s = .ok ph := by simp [currentPhase, hp]
  have left : ¬(boundaryPhase ph (s.periph u).h ≠ .header ∧
      ((s.modify u (boundaryMoved ph)).h u).blockIndex.toNat =
        phaseBlocks (boundaryPhase ph (s.periph u).h) ((s.modify u (boundaryMoved ph)).h u)) := by
    rw [State.h_eq, State.modify_periph]
    rintro ⟨notHeader, done⟩
    exact hl.elim notHeader fun e => e done
  rw [pollLoop, start, ok_bind, moved, ok_bind, phase, ok_bind, if_neg left, writes, ok_bind,
    park_waiting _ rfl]

/-- After the last block the loop commits the call and returns. -/
theorem pollLoop_last (hp : phaseOf (s.periph u).h.algorithm (s.periph u).cr.gcmph = some ph) (hh : ph ≠ .header)
    (hb : (s.periph u).h.blockIndex.toNat = phaseBlocks ph (s.periph u).h) :
    pollLoop u dir t s = ret .ok (s.modify u fun p => { p with h := commitHandle p.h }) := by
  have phase : currentPhase u s = .ok ph := by simp [currentPhase, hp]
  rw [pollLoop, phase, ok_bind, doIf, if_neg fun e => hh e.1, ok_bind, phase, ok_bind, if_pos ⟨hh, hb⟩]
  rfl

end PollLoop

/-! ### A completed block of a polling call -/

section PollBlock

variable {u : Inst} {dir : Direction} {t : Word} {s : State} {ph : PumpPhase}

theorem pollBlockDone_header
    (hp : phaseOf (s.periph u).h.algorithm (s.periph u).cr.gcmph = some .header) (hr : coreReady (s.periph u))
    (hz : (s.periph u).h.dataSizeByte ≠ 0)
    (hn : nextAdmitted s (boundaryPhase .header (s.periph u).h)
      (boundaryMoved .header (ccfCleared (s.periph u)))) :
    pollBlockDone u dir t { s with mainPos := none } =
      .ok (waiting ⟨u, .poll dir t, .block, .ms t⟩
        (s.modify u fun p => boundaryWritten .header s.mem (ccfCleared p))) := by
  let s1 : State := ({ s with mainPos := none } : State).modify u ccfCleared
  have periph : s1.periph u = ccfCleared (s.periph u) :=
    (State.modify_periph _ _ _).trans (congrArg _ (State.with_mainPos_periph s u none))
  have ended : blockEnd u { s with mainPos := none } = .ok s1 :=
    blockEnd_header (by rwa [State.with_mainPos_periph])
  have next := pollLoop_next (u := u) (dir := dir) (t := t) (s := s1) (ph := .header) (by rwa [periph])
    (by rw [periph]; exact hr) (by rw [periph]; exact blockLeft_header hz)
    (by rw [periph]; exact nextAdmitted_modify.mpr hn)
  rw [pollBlockDone, ended, ok_bind, next, State.modify_modify, State.modify_mem, State.with_mainPos_modify]
  rfl

variable {m : List Host.Cell}

/-- The block's output stored, the next block is written. -/
theorem pollLoop_outputDone_next
    (hp : phaseOf (s.periph u).h.algorithm (s.periph u).cr.gcmph = some ph) (hh : ph ≠ .header)
    (hr : coreReady (outputRead (s.periph u)))
    (hb : (s.periph u).h.blockIndex.toNat ≠ phaseBlocks ph (s.periph u).h)
    (hn : nextAdmitted s ph (outputRead (s.periph u))) :
    pollLoop u dir t (outputDone u m s) = .ok (waiting ⟨u, .poll dir t, .block, .ms t⟩
      { s.modify u fun p => nextBlock ph m (outputRead p) with mem := m }) := by
  rw [pollLoop_next (ph := ph), outputDone_modify]
  · simp only [boundaryWritten_of_ne hh]
    rfl
  all_goals rw [outputDone_periph]
  · exact hp
  · exact hr
  · rw [blockLeft, boundaryPhase_of_ne hh, boundaryMoved_of_ne hh]
    exact .inr hb
  · rw [boundaryPhase_of_ne hh, boundaryMoved_of_ne hh]
    exact nextAdmitted_outputDone.mpr hn

/-- The block's output stored, the call is committed after its last block (44_phase_machine.md R296). -/
theorem pollLoop_outputDone_last
    (hp : phaseOf (s.periph u).h.algorithm (s.periph u).cr.gcmph = some ph) (hh : ph ≠ .header)
    (hb : (s.periph u).h.blockIndex.toNat = phaseBlocks ph (s.periph u).h) :
    pollLoop u dir t (outputDone u m s) = .ok (returning .ok
      { s.modify u fun p => { outputRead p with h := commitHandle p.h } with mem := m, mainPos := none }) := by
  rw [pollLoop_last (by rw [outputDone_periph]; exact hp) hh (by rw [outputDone_periph]; exact hb),
    outputDone_modify]
  rfl

end PollBlock

/-! ### A completed block of a wrap or share command (47_key_wrap_share.md R400 to R405) -/

section KeyBlock

variable {k : KeyOp} {t : Word} {s : State} {m : List Host.Cell}

theorem keyOpLoop_last (hb : (s.periph .saes).cr.keysize.words / 4 ≤ (s.periph .saes).h.blockIndex.toNat) :
    keyOpLoop .saes k t s = keyOpEnd .saes k s := if_neg (Nat.not_lt.mpr hb)

theorem keyOpLoop_outputDone_next (hr : coreReady (outputRead (s.periph .saes)))
    (ha : ecbOrCbc (s.periph .saes).h.algorithm = true)
    (hb : (s.periph .saes).h.blockIndex.toNat < (s.periph .saes).cr.keysize.words / 4)
    (hn : nextAdmitted s .flat (outputRead (s.periph .saes))) :
    keyOpLoop .saes k t (outputDone .saes m s) = .ok (waiting ⟨.saes, .keyOp k t, .block, .ms t⟩
      { s.modify .saes fun p => nextBlock .flat m (outputRead p) with mem := m }) := by
  rw [keyOpLoop_next, outputDone_modify]
  · rfl
  all_goals rw [outputDone_periph]
  · exact hr
  · exact phaseOf_ecbOrCbc ha
  · exact hb
  · exact nextAdmitted_outputDone.mpr hn

/-- After the last block of a wrapped or shared key the message is closed (R405). -/
theorem keyOpLoop_outputDone_last (hk : k = .wrap ∨ k = .encryptShared)
    (hr : coreReady (outputRead (s.periph .saes)))
    (hb : (s.periph .saes).cr.keysize.words / 4 ≤ (s.periph .saes).h.blockIndex.toNat) :
    keyOpLoop .saes k t (outputDone .saes m s) = .ok (returning .ok
      { s.modify .saes fun p => { idled (outputRead p) with h := messageClosed p.h } with
        mem := m, mainPos := none }) := by
  have closes : keyOpEnd .saes k (outputDone .saes m s) = ret .ok (closeMessage .saes (outputDone .saes m s)) := by
    rcases hk with rfl | rfl <;> rfl
  rw [keyOpLoop_last (by rw [outputDone_periph]; exact hb), closes,
    closeMessage_eq (by rw [outputDone_periph]; exact coreQuiet_of_ready hr), outputDone_modify]
  rfl

end KeyBlock

/-- Settles O41: `blockEnd_header` or `blockEnd_stored`, then the loop. -/
theorem pollBlockEnds : Obligations.PollBlockEnds := by
  refine ⟨?poll, ?key⟩
  case poll =>
    intro u dir t el s ph p pos x hw hp
    refine ⟨?header, ?output⟩
    case header =>
      rintro rfl hr q hn hz
      exact waitOutcome_ok rfl hw (pollBlockDone_header hp hr hz hn)
    case output =>
      intro c0 c1 c2 c3 hh ho words admitted m
      have ready := outputRead_ready words
      have goes {r : State} (h : pollLoop u dir t (outputDone u m s) = .ok r) : x = .next r := by
        refine waitOutcome_ok rfl hw ?_
        change pollBlockDone u dir t { s with mainPos := none } = _
        rw [pollBlockDone, blockEnd_stored hp hh ho words admitted, ok_bind, h]
      exact ⟨fun last => goes (pollLoop_outputDone_last hp hh last),
        fun more hn => goes (pollLoop_outputDone_next hp hh ready more hn)⟩
  case key =>
    intro k t el s c0 c1 c2 c3 hk p pos x m hw ha ho words admitted
    have ready := outputRead_ready words
    have goes {r : State} (h : keyOpLoop .saes k t (outputDone .saes m s) = .ok r) : x = .next r := by
      refine waitOutcome_ok rfl hw ?_
      change keyOpBlockDone .saes k t { s with mainPos := none } = _
      rw [keyOpBlockDone, blockEnd_stored (phaseOf_ecbOrCbc ha) (by decide) ho words admitted, ok_bind, h]
    exact ⟨fun more hn => goes (keyOpLoop_outputDone_next ready ha more hn),
      fun last => goes (keyOpLoop_outputDone_last hk ready last)⟩

/-! ### The end of a received key (47_key_wrap_share.md R401, R404) -/

section Received

variable {k : KeyOp} {s : State}

theorem keyOpReceived_invalid (q : coreQuiet (s.periph .saes)) (hv : (s.periph .saes).fl.keyvalid = false) :
    keyOpReceived .saes k s = ret .error (s.modify .saes (failed errKey)) := by
  unfold keyOpReceived failMain
  rw [if_pos (by rw [State.fl_eq, hv]; rfl), failEpilogue_eq q]

theorem keyOpReceived_valid (q : coreQuiet (s.periph .saes)) (hv : (s.periph .saes).fl.keyvalid = true) :
    keyOpReceived .saes k s = ret .ok (s.modify .saes fun p =>
      { idled p with
        h := messageClosed (keyLoadEnded null p.cr.keysize (keyOpOrigin k) p.h)
        cr := { p.cr with en := false, kmod := .normal } }) := by
  unfold keyOpReceived
  rw [if_neg (by rw [State.fl_eq, hv]; decide), disable_quiet q,
    crWrite_config (by rw [State.cr_eq, State.modify_periph]; rfl) (.inl rfl) rfl (by simp), ok_bind,
    State.modify_modify, keyLoaded, State.modH_eq, State.modify_modify,
    closeMessage_eq (by rw [State.modify_periph]; exact coreQuiet_idled (s.periph .saes)), State.modify_modify]
  simp only [State.cr_eq, State.modify_periph]
  exact congrArg (ret .ok) (State.modify_congr rfl)

end Received

/-- Settles O50: no output word is read, then the loop or the end of the received key. -/
theorem receivedKeyIsNeverStored : Obligations.ReceivedKeyIsNeverStored := by
  intro k t el s hk p pos hw ho ha
  let s1 : State := ({ s with mainPos := none } : State).modify .saes ccfCleared
  have skipped : blockEnd .saes { s with mainPos := none } = .ok s1 := blockEnd_skipped (phaseOf_ecbOrCbc ha) ho
  have goes {r : State} (h : keyOpLoop .saes k t s1 = .ok r) : waitOutcome pos el s = .next r := by
    refine waitOutcome_ok rfl hw ?_
    change keyOpBlockDone .saes k t { s with mainPos := none } = _
    rw [keyOpBlockDone, skipped, ok_bind, h]
  refine ⟨fun more ready hn => goes ?next, fun last q => ?last⟩
  case next => exact keyOpLoop_next (s := s1) ready (phaseOf_ecbOrCbc ha) more hn
  case last =>
    have ends : keyOpLoop .saes k t s1 = keyOpReceived .saes k s1 := by
      rw [keyOpLoop_last (s := s1) last]
      rcases hk with rfl | rfl <;> rfl
    refine ⟨fun hv => goes ?_, fun hv => goes ?_⟩
    · rw [ends, keyOpReceived_invalid (s := s1) q hv]
      rfl
    · rw [ends, keyOpReceived_valid (s := s1) q hv]
      rcases hk with rfl | rfl <;> rfl

end Sys2Proof.Machine

/-! Where the interrupt handler stores to caller memory (43_block_pump.md R254, 45_transport.md R331); then the
statement O15. -/

namespace Sys2Proof.Machine

/-- The address lies in an output word of block `i` that holds a byte of the call (R254). -/
def outputByte (h : Handle) (i a : Nat) : Prop :=
  h.pOut.toNat + 16 * i ≤ a ∧ a < h.pOut.toNat + 16 * i + 16 ∧
    a < h.pOut.toNat + 4 * ceilDiv h.dataSizeByte.toNat 4

/-- Outside block `i` of the output buffer of `h` every byte of `t` reads as in `s`. -/
def storesOnlyBlock (h : Handle) (i : Nat) (s t : State) : Prop :=
  ∀ a, ¬outputByte h i a → Memory.readByte t.mem a = Memory.readByte s.mem a

section Stores

variable {u : Inst} {h : Handle} {i : Nat} {s t : State}

theorem storesOnlyBlock.refl : storesOnlyBlock h i s s := fun _ _ => rfl

theorem storesOnlyBlock.of_mem {t' : State} (k : storesOnlyBlock h i s t) (e : t'.mem = t.mem) :
    storesOnlyBlock h i s t' := fun a ha => by rw [e]; exact k a ha

/-- Every operation but a store keeps it. -/
theorem closed_storesOnlyBlock : Closed u (storesOnlyBlock h i s) :=
  closed_stores _ (fun _ _ hm _ _ _ k => k.of_mem hm) u

/-- Word `j` of the block, where its first byte lies within the byte count, is a word of the block. -/
theorem storesOnlyBlock.writeWord {j : Nat} {w : Word} (k : storesOnlyBlock h i s t) (hj : j < 4)
    (hb : 16 * i + 4 * j < h.dataSizeByte.toNat) :
    storesOnlyBlock h i s
      { t with mem := Memory.writeWord t.mem (h.pOut.toNat + (16 * i + 4 * j)) w } := by
  intro a ha
  refine (Memory.readByte_writeWord_other t.mem w ?_).trans (k a ha)
  unfold outputByte ceilDiv at ha
  omega

/-- Reading an output word changes neither the handle nor caller memory (40_register_access.md R146, R148). -/
theorem doutRead_keeps :
    Post (fun r => (r.2.periph u).h = (s.periph u).h ∧ r.2.mem = s.mem) (doutRead u s) := by
  unfold doutRead
  dsimp only
  refine Post.ite (fun _ => Post.error _) fun _ => ?_
  split
  · exact Post.ok ⟨by rw [State.with_draws_periph, State.modFl_periph], State.modFl_mem _ _ _⟩
  · exact Post.ok ⟨by rw [State.modCore_periph], State.modCore_mem _ _ _⟩

theorem readBlockWord_stores {j : Nat} (hj : j < 4) (hh : (t.periph u).h = h) (k : storesOnlyBlock h i s t) :
    Post (fun t => (t.periph u).h = h ∧ storesOnlyBlock h i s t) (readBlockWord u i j t) := by
  refine Post.bind doutRead_keeps ?_
  rintro ⟨w, t'⟩ ⟨handle, mem⟩
  have hh' : (t'.periph u).h = h := handle.trans hh
  have k' : storesOnlyBlock h i s t' := k.of_mem mem
  dsimp only
  rw [State.h_eq, hh']
  refine Post.ite (fun within x hx => ?_) fun _ => Post.ok ⟨hh', k'⟩
  obtain ⟨-, rfl⟩ := memWrite_ok hx
  exact ⟨by rwa [State.with_mem_periph], k'.writeWord hj within⟩

/-- `ReadOut(i)` stores to block `i` only (R254). -/
theorem readOut_stores (hh : (t.periph u).h = h) (k : storesOnlyBlock h i s t) :
    Post (storesOnlyBlock h i s) (readOut u i t) := by
  refine Post.bind (Post.trivially _) fun ph _ => Post.ite (fun _ => Post.ok k) fun _ => ?_
  have word (j : Nat) (hj : j < 4) (x : State) (hx : (x.periph u).h = h ∧ storesOnlyBlock h i s x) :=
    readBlockWord_stores hj hx.1 hx.2
  exact Post.mono (Post.bind (word 0 (by decide) t ⟨hh, k⟩) fun x hx => Post.bind (word 1 (by decide) x hx)
    fun x hx => Post.bind (word 2 (by decide) x hx) (word 3 (by decide))) fun _ hx => hx.2

/-- `IT_Advance` stores to the block before the handle's index only (45_transport.md R331). -/
theorem itAdvance_stores (hh : (t.periph u).h = h) (k : storesOnlyBlock h (h.blockIndex - 1).toNat s t) :
    Post (storesOnlyBlock h (h.blockIndex - 1).toNat s) (itAdvance u t) := by
  have C := closed_storesOnlyBlock (u := u) (h := h) (i := (h.blockIndex - 1).toNat) (s := s)
  unfold itAdvance
  refine Post.ite (fun _ => C.failIsr _ k) fun _ => ?_
  rw [State.h_eq, hh]
  exact Post.bind (readOut_stores hh k) fun x hx => Post.bind (C.itBoundary _ hx) fun _ hx => Post.ok hx

/-- Of the branches of `IRQ` only `IT_Advance` stores (45_transport.md R330). -/
theorem runIrq_stores :
    Post (storesOnlyBlock (s.periph u).h ((s.periph u).h.blockIndex - 1).toNat s) (runIrq u s) := by
  have C := closed_storesOnlyBlock (u := u) (h := (s.periph u).h) (i := ((s.periph u).h.blockIndex - 1).toNat)
    (s := s)
  have start := storesOnlyBlock.refl (h := (s.periph u).h) (i := ((s.periph u).h.blockIndex - 1).toNat) (s := s)
  have cleared := C.ccf s start
  unfold runIrq
  dsimp only
  refine Post.ite (fun _ => Post.ite (fun _ => ?_) fun _ => ?_) fun _ => Post.ite (fun _ => Post.ite (fun _ => ?_)
    fun _ => ?_) fun _ => ?_
  · exact C.failIsr _ start
  · exact Post.ok (C.clearRngeifOnSaes (C.rweif _ (C.keif _ start)))
  · exact itAdvance_stores (by simp [clearCcf]) cleared
  · exact Post.ok cleared
  · exact Post.ok (C.clearFound start)

end Stores

/-- Settles O15. -/
theorem irqStoresOnlyTheCompletedBlock : Obligations.IrqStoresOnlyTheCompletedBlock := by
  intro u s t ht
  exact Post.outcome (storesOnlyBlock.refl.of_mem (stuckState_mem _ _)) runIrq_stores ht

end Sys2Proof.Machine

/-! The tag commands (44_phase_machine.md R283, R300 to R303): their checks, then FINAL, or INIT and the header
blocks of a message without payload first; the end of the tag; and the commands that find no valid key
(60_exceptions.md R503); then the statements O38, O43 and O44. -/

namespace Sys2Proof.Machine

/-! ### The start of a tag command (R300, R301) -/

/-- The peripheral once the checks of a tag command have passed (R300). -/
def tagEntered (p : Periph) : Periph := { p with h := activatePoll p.h }

/-- The handle's algorithm, checked by a tag command, is mirrored in `CR.CHMOD` (10_state.md R23). -/
theorem chmod_of_tagAlg {p : Periph} {k : TagKind} (hm : algMirrored p) (ha : p.h.algorithm = some (tagAlg k)) :
    p.cr.chmod = tagAlg k := Option.some.inj (hm.symm.trans ha)

section Tag

variable {u : Inst} {k : TagKind} {a t : Word} {s : State}

/-- Both tag commands run one rule. -/
theorem tagInstr_runs : exec (tagInstr u k a t) s = Res.outcome .mainline s (runTag u k a t s) := by
  cases k <;> rfl

theorem runTag_noKey (h : tagChecked u k a s) (hv : (s.fl u).keyvalid = false) :
    runTag u k a t s = failMain u .error errKey (s.modify u tagEntered) := by
  rw [runTag, tagCheck_checked h]
  exact if_pos (by rw [State.fl_eq, State.modH_periph, hv]; rfl)

theorem runTag_admitted (h : tagAdmitted u k a s) :
    runTag u k a t s =
      if (s.h u).dataSizeSum = 0 then do
        let s ← phaseInitStart u .encrypt (s.modify u tagEntered)
        .ok (park ⟨u, .tag k a t, .phaseInit, .ms t⟩ s)
      else tagFinal u k a t (s.modify u tagEntered) := by
  obtain ⟨checked, valid⟩ := h
  rw [runTag, tagCheck_checked checked]
  refine (if_neg (by rw [State.fl_eq, State.modH_periph, valid]; decide)).trans ?_
  rw [State.h_eq, State.modH_periph]
  rfl

/-- With payload processed a tag command starts FINAL (R300). -/
theorem runTag_final (h : tagAdmitted u k a s) (h0 : (s.h u).dataSizeSum ≠ 0) (hm : algMirrored (s.periph u))
    (hr : coreReady (s.periph u)) :
    runTag u k a t s = .ok (waiting ⟨u, .tag k a t, .tagWords, .ms t⟩
      (s.modify u fun p => finalStarted k (tagEntered p))) := by
  have ⟨⟨_, alg, _⟩, _⟩ := h
  have starts := tagFinal_eq (u := u) (k := k) (a := a) (t := t) (s := s.modify u tagEntered)
    (by rw [State.modify_periph]; exact hr) (by rw [State.modify_periph]; exact chmod_of_tagAlg hm alg)
  rw [runTag_admitted h, if_neg h0, starts, State.modify_modify]

/-- With no payload a tag command starts INIT (R283). -/
theorem runTag_init (h : tagAdmitted u k a s) (h0 : (s.h u).dataSizeSum = 0) (hm : algMirrored (s.periph u))
    (q : coreQuiet (s.periph u)) :
    runTag u k a t s = .ok (waiting ⟨u, .tag k a t, .phaseInit, .ms t⟩
      (s.modify u fun p => initStarted .encrypt (tagEntered p))) := by
  have ⟨⟨_, alg, _⟩, valid⟩ := h
  have auth : authAlg (s.periph u).h.algorithm = true := by
    rw [alg]
    cases k <;> rfl
  have starts := phaseInitStart_eq (u := u) (m := .encrypt) (s := s.modify u tagEntered)
    (by rw [State.modify_periph]; exact q) (by rw [State.modify_periph]; exact valid)
    (by rw [State.modify_periph]; exact chmod_of_authAlg hm auth) (by decide)
  rw [runTag_admitted h, if_pos h0, starts, ok_bind, park_waiting _ rfl, State.modify_modify]

end Tag

/-! ### The waits of a tag command without payload (R283, R300) -/

section TagWaits

variable {u : Inst} {k : TagKind} {a t : Word} {s : State} {p : Periph}

/-- INIT ends in HEADER or PAYLOAD, and the command goes on from there. -/
theorem tagInitDone_eq (hp : s.periph u = p) (ha : p.h.algorithm = some (tagAlg k)) (hm : algMirrored p)
    (q : coreQuiet p) (hk : p.fl.keyvalid = true ∨ p.fl.busy = true) (hd : p.cr.mode ≠ .keyDeriv)
    (hn : (initEnded p).cr.gcmph = .header → nextAdmitted s .header (initEnded p)) :
    tagInitDone u k a t s = .ok (tagContinued u k a t (initEnded p) s) := by
  subst hp
  obtain ⟨ready, -, -⟩ := initEnded_ready (s.periph u)
  have phase : (initEnded (s.periph u)).cr.gcmph = .header ∨ (initEnded (s.periph u)).cr.gcmph = .payload :=
    (ite_eq_or_eq ((s.periph u).h.headerSize = 0) Phase.payload Phase.header).symm
  have ended : phaseInitEnd u s = .ok (s.modify u fun _ => initEnded (s.periph u)) :=
    (phaseInitEnd_eq q hk hd).trans (congrArg Except.ok (State.modify_congr rfl))
  rw [tagInitDone, ended, ok_bind]
  exact tagLoop_eq ready (chmod_of_tagAlg hm ha) ha phase fun header _ => hn header

/-- A header block ends without output, and the command goes on. -/
theorem tagHeaderDone_eq (hp : s.periph u = p) (ha : p.h.algorithm = some (tagAlg k)) (hm : algMirrored p)
    (hr : coreReady p) (hg : p.cr.gcmph = .header)
    (hn : p.h.blockIndex.toNat < phaseBlocks .header p.h → nextAdmitted s .header (ccfCleared p)) :
    tagHeaderDone u k a t s = .ok (tagContinued u k a t (ccfCleared p) s) := by
  subst hp
  have phase : phaseOf (s.periph u).h.algorithm (s.periph u).cr.gcmph = some .header := by
    rw [ha, hg]
    cases k <;> rfl
  have ended : blockEnd u s = .ok (s.modify u fun _ => ccfCleared (s.periph u)) :=
    (blockEnd_header phase).trans (congrArg Except.ok ((clearCcf_eq u s).trans (State.modify_congr rfl)))
  rw [tagHeaderDone, ended, ok_bind]
  exact tagLoop_eq (p := ccfCleared (s.periph u)) hr (chmod_of_tagAlg hm ha) ha (.inl hg) fun _ left => hn left

end TagWaits

/-- Settles O43: the two starts by the payload count; then what follows INIT and each header block. -/
theorem tagCommandStarts : Obligations.TagCommandStarts := by
  intro u k a t s mirrored p
  have periph : ({ s with mainPos := none } : State).periph u = p := State.with_mainPos_periph s u none
  refine ⟨fun admitted payload ready => ?final, fun admitted empty quiet => ?init,
    fun alg el => ⟨?initEnds, ?headerEnds⟩⟩
  case final => exact tagInstr_runs.trans (congrArg _ (runTag_final admitted payload mirrored ready))
  case init => exact tagInstr_runs.trans (congrArg _ (runTag_init admitted empty mirrored quiet))
  case initEnds =>
    intro hw quiet hk hd q hn
    exact waitOutcome_ok rfl hw (tagInitDone_eq periph alg mirrored quiet hk hd hn)
  case headerEnds =>
    intro hw ready hg q hn
    exact waitOutcome_ok rfl hw (tagHeaderDone_eq periph alg mirrored ready hg hn)

/-! ### The end of the tag (R300, R303) -/

/-- Caller memory with the four tag words stored at `a` (R303). -/
def tagMemory (d : DataType) (m : List Host.Cell) (a c0 c1 c2 c3 : Word) : List Host.Cell :=
  Memory.writeWord (Memory.writeWord (Memory.writeWord (Memory.writeWord m
    a.toNat (swap d c0)) (a.toNat + 4) (swap d c1)) (a.toNat + 8) (swap d c2)) (a.toNat + 12) (swap d c3)

section TagEnd

variable {u : Inst} {a c0 c1 c2 c3 : Word} {s : State}

/-- The read empties the output FIFO, with `CCF` cleared before it (R303). -/
theorem readTag_stored (hw : outputWords (s.periph u) c0 c1 c2 c3) (ha : wordsAdmitted s a 4) :
    readTag u a (clearCcf u { s with mainPos := none }) =
      .ok (outputDone u (tagMemory (s.periph u).cr.datatype s.mem a c0 c1 c2 c3) s) := by
  let s1 : State := ({ s with mainPos := none } : State).modify u ccfCleared
  have periph : s1.periph u = ccfCleared (s.periph u) := by
    rw [State.modify_periph, State.with_mainPos_periph]
  have alloc : s1.alloc = s.alloc := State.modify_alloc _ _ _
  have mem : s1.mem = s.mem := State.modify_mem _ _ _
  obtain ⟨en, words, -, -⟩ := hw
  have reads := readTag_eq (u := u) (s := s1) (c0 := c0) (c1 := c1) (c2 := c2) (c3 := c3) (by rw [periph]; exact en)
    (by rw [periph]; exact words) fun j hj => (admits_mono alloc).trans (ha j hj)
  rw [clearCcf_eq, reads, periph, mem]
  cases u <;> rfl

/-- The tag is stored, the peripheral disabled and the message closed. -/
theorem tagEnd_eq (hw : outputWords (s.periph u) c0 c1 c2 c3) (ha : wordsAdmitted s a 4) :
    tagEnd u a { s with mainPos := none } = .ok (returning .ok
      { s.modify u fun p => { idled (outputRead p) with h := messageClosed p.h } with
        mem := tagMemory (s.periph u).cr.datatype s.mem a c0 c1 c2 c3, mainPos := none }) := by
  rw [tagEnd, readTag_stored hw ha, ok_bind,
    closeMessage_eq (by rw [outputDone_periph]; exact coreQuiet_of_ready (outputRead_ready hw)), outputDone_modify]
  rfl

end TagEnd

/-- Settles O44: the wait is left, and `tagEnd_eq` says the rest. -/
theorem tagWordsStored : Obligations.TagWordsStored := by
  intro u k a t el s c0 c1 c2 c3 p d hw words admitted
  exact waitOutcome_ok rfl hw (tagEnd_eq words admitted)

/-! ### No valid key (60_exceptions.md R503) -/

section NoKey

variable {u : Inst} {s : State}

/-- A command that finds no valid key once its checks have written the handle by `f` fails with ERR_KEY. -/
theorem keyFailure_modify {f : Periph → Periph} (q : coreQuiet (f (s.periph u))) :
    Res.outcome .mainline s (failMain u .error errKey (s.modify u f)) =
      .next (returning .error (s.modify u fun p => failed errKey (f p))) := by
  rw [failMain_eq (by rw [State.modify_periph]; exact q), State.modify_modify]

theorem entryCheck_noKey {dir : Direction} {tr : Transport} {a n o : Word} {go : State → Res}
    (h : callChecked u dir tr a n o s) (hv : (s.fl u).keyvalid = false) :
    entryCheck u dir tr a n o s go = failMain u .error errKey (s.modify u (entered dir tr a n o)) := by
  rw [entryCheck_checked h]
  exact if_neg (by simp [hv])

theorem keyOpCheck_noKey {m : KMod} {a : Word} {o k : Option Word} {go : State → Res}
    (h : keyOpChecked m a o k s) (hv : (s.fl .saes).keyvalid = false) :
    keyOpCheck .saes m a o k s go =
      failMain .saes .error errKey (s.modify .saes (keyOpEntered a (o.getD null))) := by
  rw [keyOpCheck_checked h]
  exact if_neg (by simp [hv])

theorem runResume_noKey (hs : (s.h u).state = .suspended) (hv : (s.fl u).keyvalid = false) :
    runResume u s =
      failMain u .error errKey (s.modify u fun p => { p with h := { p.h with state := .active } }) := by
  rw [runResume, if_neg (not_not.mpr hs), if_pos (by rw [hv]; rfl)]
  rfl

end NoKey

/-- Settles O38: in each family the checks pass, and the failure epilogue finds a core as quiet as before. -/
theorem noKeyFailsTheCommand : Obligations.NoKeyFailsTheCommand := by
  refine ⟨?call, ?tag, ?keyOp, ?resume⟩
  case call =>
    intro u a n o t s c hc checked hv q
    rw [processCall_form hc, entryCheck_noKey checked hv]
    exact keyFailure_modify q
  case tag =>
    intro u k a t s checked hv q
    rw [tagInstr_runs, runTag_noKey checked hv]
    exact keyFailure_modify q
  case keyOp =>
    intro a o k t s c hc checked hv q
    rw [keyCall_runs hc, keyOpCheck_noKey checked hv]
    exact keyFailure_modify q
  case resume =>
    intro u s hs hv q
    change Res.outcome .mainline s (runResume u s) = _
    rw [runResume_noKey hs hv]
    exact keyFailure_modify q

end Sys2Proof.Machine

/-! The start of a DMA call whose setup waits for nothing (45_transport.md R340 to R343); then the statement
O35. -/

namespace Sys2Proof.Machine

section DmaStart

variable {u : Inst} {a n o t : Word} {s : State} {c : ProcessCall} {ph : PumpPhase} {q : Periph} {d : Direction}

theorem processCall_dma (h : c ∈ processCalls u a n o t) (hc : c.transport = .dma) :
    c.proc = .startDma c.dir := by
  simp only [processCalls, List.mem_cons, List.not_mem_nil, or_false] at h
  rcases h with rfl | rfl | rfl | rfl | rfl | rfl
  case' inr.inr.inr.inr.inl | inr.inr.inr.inr.inr => rfl
  all_goals cases hc

theorem setUp_buffers {dir : Direction} {tr : Transport} (h : setUp u dir tr a n o s ph q) :
    q.h.pIn = a ∧ q.h.pOut = o := by
  rcases h with ⟨-, -, -, -, -, -, rfl⟩ | ⟨-, -, -, -, rfl⟩ <;> exact ⟨rfl, rfl⟩

/-- A DMA call goes on with its header blocks (R342). -/
theorem callStarted_dmaHeader : callStarted u (.startDma d) .header q s =
    waiting ⟨u, .startDma d, .headerBlock, .ccfBudget⟩ (s.modify u fun _ => nextBlock .header s.mem q) := rfl

/-- A DMA call with no whole block writes its only block (R343). -/
theorem callStarted_dmaShort (hh : ph ≠ .header) (hl : q.h.dataSizeByte.toNat < 16) :
    callStarted u (.startDma d) ph q s =
      waiting ⟨u, .startDma d, .block, .ccfBudget⟩ (s.modify u fun _ => nextBlock ph s.mem q) :=
  (if_neg hh).trans (if_pos hl)

/-- A DMA call with whole blocks starts its transfers and returns (R342). -/
theorem callStarted_dmaTransfers (hh : ph ≠ .header) (hl : 16 ≤ q.h.dataSizeByte.toNat) :
    callStarted u (.startDma d) ph q s = returning .ok (s.modify u fun _ => dmaStarted u q) :=
  (if_neg hh).trans (if_neg (Nat.not_lt.mpr hl))

/-- A DMA call past its header that has a whole block writes no block itself. -/
theorem not_startsWithBlock (hh : ph ≠ .header) (hl : 16 ≤ q.h.dataSizeByte.toNat) :
    ¬startsWithBlock (.startDma d) ph q.h := by
  rintro (other | header | short)
  · exact other d rfl
  · exact hh header
  · exact Nat.not_lt.mpr hl short

end DmaStart

/-- Settles O35: the checks and the setup, then the byte count decides. -/
theorem dmaStartsItsTransfers : Obligations.DmaStartsItsTransfers := by
  intro u a n o t s c ph q hc ht admitted hs
  rw [← ht] at admitted hs
  obtain ⟨notHeader, -, rfl⟩ := setUp_handle hs
  obtain ⟨rfl, rfl⟩ := setUp_buffers hs
  have proc := processCall_dma hc ht
  refine ⟨fun whole => ?transfers, fun short hn => ?block⟩
  case transfers =>
    have noBlock : ¬startsWithBlock c.proc ph q.h := by rw [proc]; exact not_startsWithBlock notHeader whole
    rw [exec_processCall_setUp hc admitted hs fun h => absurd h noBlock, proc,
      callStarted_dmaTransfers notHeader whole]
    rfl
  case block =>
    rw [exec_processCall_setUp hc admitted hs fun _ => hn, proc, callStarted_dmaShort notHeader short]

end Sys2Proof.Machine

/-! `RESUME` (46_suspend_resume.md R379, R380); then the statement O48. -/

namespace Sys2Proof.Machine

section Resume

variable {u : Inst} {s : State}

/-- The peripheral that `RESUME` takes to the boundary: enabled, ACTIVE, its interrupts enabled. -/
def resumed (u : Inst) (p : Periph) : Periph :=
  { (if p.cr.en = true then p else enabledWith none p) with
    h := { p.h with state := .active }, ier := callEnables true u p.h.inst }

theorem resumed_phase (p : Periph) :
    phaseOf (resumed u p).h.algorithm (resumed u p).cr.gcmph = phaseOf p.h.algorithm p.cr.gcmph := by
  unfold resumed
  split <;> rfl

theorem resumed_ready {p : Periph} (hj : p.core.job = none) (hi : p.core.inFifo = [])
    (ho : p.core.outFifo = []) : coreReady (resumed u p) := by
  unfold resumed
  split
  · next en => exact ⟨en, hj, hi, ho⟩
  · exact ⟨rfl, rfl, hi, ho⟩

/-- The enable of R379 finds no job to start. -/
theorem doIf_enable (hv : (s.periph u).fl.keyvalid = true)
    (hj : (s.periph u).cr.en = false → jobOnEnable (s.periph u) = none) :
    doIf ((s.cr u).en = false) (crWrite u (.en true)) s =
      .ok (s.modify u fun p => if p.cr.en = true then p else enabledWith none p) := by
  by_cases en : (s.periph u).cr.en = true
  · rw [doIf, if_neg (by rw [State.cr_eq, en]; decide)]
    exact congrArg Except.ok (State.modify_id (by exact if_pos en)).symm
  · have off : (s.periph u).cr.en = false := Bool.eq_false_iff.mpr en
    rw [doIf, if_pos off, crWrite_en off (.inl hv)]
    exact congrArg Except.ok (State.modify_congr (by rw [hj off, if_neg en]))

theorem runResume_busy (hs : (s.h u).state ≠ .suspended) : runResume u s = ret .busy s := if_pos hs

/-- A suspended call with a valid key goes to the boundary. -/
theorem runResume_valid (hs : (s.h u).state = .suspended) (hv : (s.fl u).keyvalid = true)
    (hj : (s.periph u).cr.en = false → jobOnEnable (s.periph u) = none) :
    runResume u s = itBoundary u false (s.modify u (resumed u)) >>= fun t => ret .ok t := by
  have goes : ierWrite u (itMask (s.periph u).h.inst)
      (setActive u (s.modify u fun p => if p.cr.en = true then p else enabledWith none p)) =
        s.modify u (resumed u) := by
    rw [setActive, State.modH_eq, ierWrite, State.modify_modify, State.modify_modify]
    refine State.modify_congr ?_
    unfold resumed
    split <;> rfl
  have inst : ((setActive u (s.modify u fun p => if p.cr.en = true then p else enabledWith none p)).h u).inst =
      (s.periph u).h.inst := by
    rw [setActive, State.h_eq, State.modH_periph, State.modify_periph]
    split <;> rfl
  rw [runResume, if_neg (not_not.mpr hs), if_neg (by rw [hv]; decide), doIf_enable hv hj, ok_bind]
  dsimp only
  rw [inst, goes]

end Resume

/-- Settles O48: the state check, then the boundary from the resumed peripheral. -/
theorem resumeWritesTheNextBlock : Obligations.ResumeWritesTheNextBlock := by
  intro u s ph
  refine ⟨?busy, ?next⟩
  case busy =>
    intro hs
    change Res.outcome .mainline s (runResume u s) = _
    rw [runResume_busy hs]
    rfl
  case next =>
    intro hs hv p q hp left hj hi ho enables hn t
    have next := itBoundary_next (check := false) (y := s.modify u (resumed u)) (q := resumed u p) (ph := ph)
      (State.modify_periph s u (resumed u)) ((resumed_phase p).trans hp) (resumed_ready hj hi ho) left rfl
      (nextAdmitted_modify.mpr hn)
    change Res.outcome .mainline s (runResume u s) = _
    rw [runResume_valid hs hv enables, next, ok_bind, State.modify_modify, State.modify_mem]
    rfl

end Sys2Proof.Machine

/-! `IRQ` with an enabled error, with a completion no call waits for, and with no enabled flag set
(45_transport.md R330, R334, R335); then the statement O51. -/

namespace Sys2Proof.Machine

section Irq

variable {u : Inst} {s t : State}

theorem exec_irq (h : runIrq u s = .ok t) : exec (.irq u) s = .next t := by
  change Res.outcome .entry s (runIrq u s) = _
  rw [h]
  rfl

/-- The error flags are cleared, `RNGEIF` on a SAES handle only (R330, 40_register_access.md R143). -/
theorem clearErrors_eq (u : Inst) (s : State) : clearRngeifOnSaes u (clearRweif u (clearKeif u s)) =
    s.modify u fun p => { p with
      fl := { p.fl with
        keif := false, rweif := false, rderr := false, wrerr := false
        rngeif := p.fl.rngeif && p.h.inst != some .saes } } := by
  unfold clearRngeifOnSaes clearRngeif clearRweif clearKeif
  simp only [State.modFl_eq, State.h_eq, State.modify_modify, State.modify_periph]
  split
  · next saes => exact State.modify_congr (by simp [saes])
  · next other => exact State.modify_congr (by simp [other])

/-- A spurious interrupt clears what it finds (R335, log 38). -/
theorem clearFound_eq (u : Inst) (s : State) : clearFound u s = s.modify u fun p => { p with
    fl := if p.fl.keif = true ∨ p.fl.rweif = true ∨ p.fl.rngeif = true then
        { p.fl with keif := false, rweif := false, rderr := false, wrerr := false, rngeif := false }
      else { p.fl with ccf := false } } := by
  unfold clearFound clearRngeif clearRweif clearKeif clearCcf
  simp only [State.modFl_eq, State.fl_eq, State.modify_modify, Bool.or_eq_true, or_assoc]
  split
  · next found => exact State.modify_congr (by simp only [if_pos found])
  · next found => exact State.modify_congr (by simp only [if_neg found])

/-- An enabled error in an ACTIVE interrupt or DMA call (R330, 60_exceptions.md R503). -/
theorem runIrq_failed (he : irqErrors (s.periph u).h.inst (s.periph u).fl (s.periph u).ier ≠ 0)
    (hc : (s.periph u).h.state = .active ∧ ((s.periph u).h.transport = .it ∨ (s.periph u).h.transport = .dma)) :
    runIrq u s = failIsr u (irqErrors (s.periph u).h.inst (s.periph u).fl (s.periph u).ier) s :=
  (if_pos he).trans (if_pos hc)

/-- An enabled error outside such a call (R330). -/
theorem runIrq_error (he : irqErrors (s.periph u).h.inst (s.periph u).fl (s.periph u).ier ≠ 0)
    (hc : ¬((s.periph u).h.state = .active ∧
      ((s.periph u).h.transport = .it ∨ (s.periph u).h.transport = .dma))) :
    runIrq u s = .ok (clearRngeifOnSaes u (clearRweif u (clearKeif u s))) :=
  (if_pos he).trans (if_neg hc)

/-- A completion and no enabled error (R330). -/
theorem runIrq_completed (he : irqErrors (s.periph u).h.inst (s.periph u).fl (s.periph u).ier = 0)
    (hi : (s.periph u).ier.ccfie = true) (hf : (s.periph u).fl.ccf = true) :
    runIrq u s = if (s.periph u).h.state = .active ∧ (s.periph u).h.transport = .it then
      itAdvance u (clearCcf u s) else .ok (clearCcf u s) :=
  (if_neg (not_not.mpr he)).trans (if_pos (by rw [hi, hf]; rfl))

/-- No enabled flag is set (R335). -/
theorem runIrq_spurious (he : irqErrors (s.periph u).h.inst (s.periph u).fl (s.periph u).ier = 0)
    (hf : ¬((s.periph u).ier.ccfie = true ∧ (s.periph u).fl.ccf = true)) :
    runIrq u s = .ok (clearFound u s) :=
  (if_neg (not_not.mpr he)).trans (if_neg (by rwa [Bool.and_eq_true]))

/-- The error bits of R330, as the rule lists them. -/
theorem irqErrors_eq (i : Option Inst) (f : Flags) (e : Ier) : irqErrors i f e =
    (if e.keie ∧ f.keif then 0x01 else 0) ||| (if i = some .saes ∧ e.rngeie ∧ f.rngeif then 0x02 else 0) |||
      (if e.rweie ∧ f.rweif then (if f.rderr then 0x04 else 0) ||| (if f.wrerr then 0x08 else 0) else 0) := by
  simp only [irqErrors, rwErrBits, errKey, errRng, errRead, errWrite, Bool.and_eq_true, beq_iff_eq, and_assoc]

end Irq

/-- Settles O51: an enabled error in a call and outside one, a completion, and neither. -/
theorem irqHandlesErrors : Obligations.IrqHandlesErrors := by
  intro u s p e call
  have bits : irqErrors p.h.inst p.fl p.ier = e := irqErrors_eq p.h.inst p.fl p.ier
  refine ⟨fun he hc q => exec_irq ?failed, fun he hc => exec_irq ?cleared,
    fun he hi hf hc => exec_irq ?completed, fun he hf => exec_irq ?spurious⟩
  case failed => rw [runIrq_failed (by rwa [bits]) hc, failIsr_eq q, bits]
  case cleared => rw [runIrq_error (by rwa [bits]) hc, clearErrors_eq]
  case completed =>
    rw [runIrq_completed (bits.trans he) hi hf, if_neg hc]
    rfl
  case spurious => rw [runIrq_spurious (bits.trans he) hf, clearFound_eq]

end Sys2Proof.Machine

/-! `IRQ` at a completed block of an interrupt call (45_transport.md R331 to R333, R336, R337): the output, then
the boundary; then the statement O52. -/

namespace Sys2Proof.Machine

section Boundary

variable {u : Inst} {check : Bool} {s : State} {ph : PumpPhase}

/-- After the last block the boundary commits the call (R332). -/
theorem itBoundary_last (hp : phaseOf (s.periph u).h.algorithm (s.periph u).cr.gcmph = some ph) (hh : ph ≠ .header)
    (hb : phaseBlocks ph (s.periph u).h ≤ (s.periph u).h.blockIndex.toNat) :
    itBoundary u check s = .ok (itComplete u s) := by
  have phase : currentPhase u s = .ok ph := by simp [currentPhase, hp]
  rw [itBoundary, phase, ok_bind]
  exact if_pos (by rintro (header | left); exacts [hh header, Nat.not_lt.mpr hb left])

/-- A suspend request is honoured where a block remains (R333). -/
theorem itBoundary_suspend (hp : phaseOf (s.periph u).h.algorithm (s.periph u).cr.gcmph = some ph)
    (hb : ph = .header ∨ (s.periph u).h.blockIndex.toNat < phaseBlocks ph (s.periph u).h)
    (hr : (s.periph u).h.suspendRequest = true) :
    itBoundary u true s = .ok (itSuspend u s) := by
  have phase : currentPhase u s = .ok ph := by simp [currentPhase, hp]
  rw [itBoundary, phase, ok_bind]
  exact (if_neg (not_not.mpr hb)).trans (if_pos hr)

end Boundary

section Advance

variable {u : Inst} {s : State} {ph : PumpPhase} {q : Periph} {m : List Host.Cell}

theorem phaseError_iff {h : Handle} {c : CR} :
    phaseError h c = true ↔ authAlg h.algorithm = true ∧ c.gcmph ≠ .header ∧ c.gcmph ≠ .payload := by
  simp [phaseError, authAlg]

theorem phaseError_of_phase {h : Handle} {c : CR} (hp : phaseOf h.algorithm c.gcmph = some ph) :
    phaseError h c = false := by
  refine Bool.eq_false_iff.mpr fun he => ?_
  obtain ⟨auth, notHeader, notPayload⟩ := phaseError_iff.mp he
  have bare : phaseOf h.algorithm c.gcmph = none := by
    revert notHeader notPayload
    rcases (authAlg_iff _).mp auth with ha | ha
    all_goals
      rw [ha]
      cases c.gcmph <;> simp [phaseOf]
  rw [bare] at hp
  cases hp

/-- A completed block of an ACTIVE interrupt call, with no enabled error (R330). -/
def itCompleted (p : Periph) : Prop :=
  irqErrors p.h.inst p.fl p.ier = 0 ∧ p.ier.ccfie = true ∧ p.fl.ccf = true ∧ p.h.state = .active ∧
    p.h.transport = .it

theorem runIrq_advances (h : itCompleted (s.periph u)) : runIrq u s = itAdvance u (clearCcf u s) := by
  obtain ⟨noError, enabled, done, active, it⟩ := h
  rw [runIrq_completed noError enabled done, if_pos ⟨active, it⟩]

theorem bind_isrReturn (r : Res) : r >>= isrReturn = r := by cases r <;> rfl

/-- A phase outside HEADER and PAYLOAD (R331, R336). -/
theorem itAdvance_phaseError (he : phaseError (s.periph u).h (s.periph u).cr = true) :
    itAdvance u s = failIsr u errPhase s := if_pos he

/-- `CCF` cleared, `IT_Advance` is the end of a block and the boundary (R331, 43_block_pump.md R260). -/
theorem itAdvance_eq (hp : phaseOf (s.periph u).h.algorithm (s.periph u).cr.gcmph = some ph) :
    itAdvance u (clearCcf u s) = blockEnd u s >>= itBoundary u true := by
  have periph : (clearCcf u s).periph u = ccfCleared (s.periph u) := State.modify_periph s u ccfCleared
  have fine : ¬phaseError ((clearCcf u s).h u) ((clearCcf u s).cr u) = true := by
    rw [State.h_eq, State.cr_eq, periph]
    exact Bool.eq_false_iff.mp (phaseError_of_phase hp)
  have index : ((clearCcf u s).h u).blockIndex = (s.h u).blockIndex := by rw [State.h_eq, periph]; rfl
  rw [itAdvance, if_neg fine, index, blockEnd]
  exact congrArg _ (funext fun t => bind_isrReturn _)

/-- The peripheral `q` and caller memory `m` once the end of a block has read what there is of output: nothing
of a header block (43_block_pump.md R254, R259). -/
def blockRead (u : Inst) (s : State) (ph : PumpPhase) (p q : Periph) (m : List Host.Cell) : Prop :=
  ph = .header ∧ coreReady p ∧ q = ccfCleared p ∧ m = s.mem ∨
    ph ≠ .header ∧ outputSkip u p.cr = false ∧ outputAdmitted s p ∧ q = outputRead p ∧
      ∃ c0 c1 c2 c3, outputWords p c0 c1 c2 c3 ∧ m = outputMemory p s.mem c0 c1 c2 c3

theorem blockRead_kept {p : Periph} (h : blockRead u s ph p q m) : coreReady q ∧ q.h = p.h ∧ q.cr = p.cr := by
  rcases h with ⟨-, ready, rfl, -⟩ | ⟨-, -, -, rfl, _, _, _, _, words, -⟩
  · exact ⟨ready, rfl, rfl⟩
  · exact ⟨outputRead_ready words, rfl, rfl⟩

/-- The state in which the end of a block has left the peripheral as `q` and caller memory as `m`. -/
def readDone (u : Inst) (q : Periph) (m : List Host.Cell) (s : State) : State :=
  { s.modify u fun _ => q with mem := m }

theorem readDone_periph : (readDone u q m s).periph u = q := by cases u <;> rfl

theorem readDone_modify (f : Periph → Periph) : (readDone u q m s).modify u f = readDone u (f q) m s := by
  cases u <;> rfl

theorem nextAdmitted_readDone {p : Periph} : nextAdmitted (readDone u q m s) ph p ↔ nextAdmitted s ph p := by
  unfold nextAdmitted blockAdmitted
  simp only [admits_mono (s := s) (t := readDone u q m s) (State.modify_alloc s u fun _ => q)]

theorem blockEnd_read (hp : phaseOf (s.periph u).h.algorithm (s.periph u).cr.gcmph = some ph)
    (hr : blockRead u s ph (s.periph u) q m) : blockEnd u s = .ok (readDone u q m s) := by
  rcases hr with ⟨rfl, -, rfl, rfl⟩ | ⟨hh, ho, ha, rfl, c0, c1, c2, c3, words, rfl⟩
  · rw [blockEnd_header hp, clearCcf_eq]
    cases u <;> rfl
  · rw [blockEnd_out hp hh ho words ha]
    cases u <;> rfl

end Advance

/-- Settles O52: the phase error, or the end of the block and what the boundary finds. -/
theorem irqAdvancesTheCall : Obligations.IrqAdvancesTheCall := by
  intro u s p noError enabled done active it x e
  have goes {t : State} (h : itAdvance u (clearCcf u s) = .ok t) : x = .next t :=
    exec_irq ((runIrq_advances ⟨noError, enabled, done, active, it⟩).trans h)
  have cleared : (s.modify u ccfCleared).periph u = e := State.modify_periph s u ccfCleared
  refine ⟨?phaseError, ?block⟩
  case phaseError =>
    intro auth notHeader notPayload quiet
    refine goes ?_
    rw [clearCcf_eq, itAdvance_phaseError, failIsr_eq, cleared, State.modify_modify]
    · rfl
    · rw [cleared]
      exact quiet
    · rw [cleared]
      exact phaseError_iff.mpr ⟨auth, notHeader, notPayload⟩
  case block =>
    intro ph q m hp read
    obtain ⟨ready, handle, control⟩ := blockRead_kept (u := u) read
    have goes {t : State} (h : itBoundary u true (readDone u q m s) = .ok t) : x = .next t :=
      goes (by rw [itAdvance_eq hp, blockEnd_read hp read, ok_bind, h])
    have phase : phaseOf q.h.algorithm q.cr.gcmph = some ph := by rw [handle, control]; exact hp
    refine ⟨fun hh last => goes ?last, fun left request => goes ?suspend, fun left request hn => goes ?next⟩
    case last =>
      rw [itBoundary_last (by rwa [readDone_periph]) hh (by rwa [readDone_periph, handle]), itComplete_eq,
        readDone_periph, readDone_modify, handle]
      rfl
    case suspend =>
      rw [itBoundary_suspend (by rwa [readDone_periph]) (by rwa [readDone_periph, handle])
        (by rwa [readDone_periph, handle]), itSuspend_eq, readDone_periph, readDone_modify, handle]
      rfl
    case next =>
      rw [itBoundary_next readDone_periph phase ready (by rwa [handle]) (by rw [handle]; exact request)
        (nextAdmitted_readDone.mpr (by rwa [handle])), readDone_modify, handle]
      rfl

end Sys2Proof.Machine

/-! The DMA events and the blocks that a DMA call writes itself (45_transport.md R342, R343, R345 to R349); then
the statement O53. -/

namespace Sys2Proof.Machine

theorem callback_eq (u : Inst) (k : CbKind) (s : State) :
    callback u k s = logging [eventOf k (s.periph u).h] s := rfl

theorem logging_logging (k l : List CallbackEvent) (s : State) :
    logging l (logging k s) = logging (k ++ l) s := by
  simp [logging]

theorem logging_nil (s : State) : logging [] s = s := by simp [logging]

theorem logging_periph (l : List CallbackEvent) (s : State) (u : Inst) : (logging l s).periph u = s.periph u :=
  State.with_callbackLog_periph s u _

/-! ### The end of a DMA call (R349) -/

section Finish

variable {u : Inst} {b : Bool} {s : State} {ph : PumpPhase} {q : Periph}

/-- The peripheral at the start of `DMA_Finish`: the whole blocks counted, `CCF` cleared. -/
def wholeCounted (p : Periph) : Periph :=
  { p with
    fl := { p.fl with ccf := false }
    h := { p.h with blockIndex := BitVec.ofNat 32 (p.h.dataSizeByte.toNat / 16) } }

/-- The peripheral at the end of `DMA_Finish`. -/
def dmaCommitted (p : Periph) : Periph :=
  { wholeCounted p with h := commitHandle (wholeCounted p).h, ier := ierNone }

theorem clearCcf_wholeCounted (u : Inst) (s : State) :
    ((clearCcf u s).modH u fun h => { h with blockIndex := BitVec.ofNat 32 (h.dataSizeByte.toNat / 16) }) =
      s.modify u wholeCounted := by
  rw [clearCcf_eq, State.modH_eq, State.modify_modify]
  rfl

/-- With whole blocks only, the call is committed at once. -/
theorem dmaFinish_whole (h : q.h.dataSizeByte.toNat % 16 = 0) :
    dmaFinish u b (s.modify u fun _ => q) = .ok (logging
      ((if b then [eventOf .inCplt (dmaCommitted q).h] else []) ++ [eventOf .outCplt (dmaCommitted q).h])
      (s.modify u fun _ => dmaCommitted q)) := by
  have whole : ((s.modify u fun _ => wholeCounted q).h u).dataSizeByte.toNat % 16 = 0 := by
    rw [State.h_eq, State.modify_periph]
    exact h
  have noPartial : ((wholeCounted q).h.dataSizeByte.toNat % 16 != 0 || b) = b := by
    rw [show (wholeCounted q).h.dataSizeByte.toNat % 16 = 0 from h]
    rfl
  unfold dmaFinish
  rw [clearCcf_wholeCounted, State.modify_modify]
  dsimp only
  rw [if_neg (not_not.mpr whole), dmaFinishEnd_eq, State.modify_periph, State.modify_modify, noPartial]
  rfl

/-- With a partial block, that block is written and awaited. -/
theorem dmaFinish_partial (h : q.h.dataSizeByte.toNat % 16 ≠ 0)
    (hp : phaseOf q.h.algorithm q.cr.gcmph = some ph) (hr : coreReady q) (hn : nextAdmitted s ph (wholeCounted q)) :
    dmaFinish u b (s.modify u fun _ => q) =
      .ok { s.modify u (fun _ => nextBlock ph s.mem (wholeCounted q)) with
        isrPos := some ⟨u, .dmaFinish b, .block, .ccfBudget⟩ } := by
  obtain ⟨en, job, input, output⟩ := hr
  have broken : ((s.modify u fun _ => wholeCounted q).h u).dataSizeByte.toNat % 16 ≠ 0 := by
    rw [State.h_eq, State.modify_periph]
    exact h
  have writes : writeNext u (s.modify u fun _ => wholeCounted q) =
      .ok (s.modify u fun _ => nextBlock ph s.mem (wholeCounted q)) := by
    rw [writeNext_eq (ph := ph), State.modify_modify, State.modify_mem]
    all_goals rw [State.modify_periph]
    exacts [hp, en, job, output, input, nextAdmitted_modify.mpr hn]
  unfold dmaFinish
  rw [clearCcf_wholeCounted, State.modify_modify]
  dsimp only
  rw [if_pos broken, writes, ok_bind]
  rfl

end Finish

/-! ### The events (R345 to R348) -/

section Events

variable {u : Inst} {s t : State}

theorem exec_dmaInCplt (h : runDmaInCplt u s = .ok t) : exec (.dmaInCplt u) s = .next t := by
  change Res.outcome .entry s (runDmaInCplt u s) = _
  rw [h]
  rfl

theorem exec_dmaOutCplt (h : runDmaOutCplt u s = .ok t) : exec (.dmaOutCplt u) s = .next t := by
  change Res.outcome .entry s (runDmaOutCplt u s) = _
  rw [h]
  rfl

theorem exec_dmaError {q : Fifo} (h : runDmaError u s = .ok t) : exec (.dmaError u q) s = .next t := by
  change Res.outcome .entry s (runDmaError u s) = _
  rw [h]
  rfl

/-- An ACTIVE DMA call (R348). -/
def dmaLive (h : Handle) : Prop := h.state = .active ∧ h.transport = .dma

/-- The peripheral whose input transfer is complete (R345). -/
def dmaInEnded (p : Periph) : Periph :=
  { p with cr := { p.cr with dmainen := false }, h := { p.h with dmaInDone := true } }

/-- The peripheral whose output transfer is complete (R346). -/
def dmaOutEnded (p : Periph) : Periph :=
  { p with cr := { p.cr with dmaouten := false }, h := { p.h with dmaOutDone := true } }

theorem runDmaInCplt_stale (h : ¬dmaLive (s.periph u).h ∨ (s.periph u).h.dmaInDone = true) :
    runDmaInCplt u s = .ok s :=
  if_pos (by rw [← or_assoc]; exact h.imp_left not_and_or.mp)

theorem runDmaOutCplt_stale (h : ¬dmaLive (s.periph u).h ∨ (s.periph u).h.dmaOutDone = true) :
    runDmaOutCplt u s = .ok s :=
  if_pos (by rw [← or_assoc]; exact h.imp_left not_and_or.mp)

theorem runDmaError_stale (h : ¬dmaLive (s.periph u).h) : runDmaError u s = .ok s :=
  if_pos (not_and_or.mp h)

/-- The first input completion of a live call (R345). -/
theorem runDmaInCplt_live (h : dmaLive (s.periph u).h) (hd : (s.periph u).h.dmaInDone = false) :
    runDmaInCplt u s = if (s.periph u).h.dmaOutDone = true then dmaFinish u true (s.modify u dmaInEnded)
      else if (s.periph u).h.dataSizeByte.toNat % 16 = 0 then .ok (callback u .inCplt (s.modify u dmaInEnded))
      else .ok (s.modify u dmaInEnded) := by
  have fresh : ¬((s.h u).state ≠ .active ∨ (s.h u).transport ≠ .dma ∨ (s.h u).dmaInDone = true) := by
    rintro (e | e | e)
    exacts [e h.1, e h.2, absurd e (by rw [State.h_eq, hd]; decide)]
  unfold runDmaInCplt
  dsimp only
  rw [if_neg fresh, crWrite_dmainen, ok_bind, State.modH_eq, State.modify_modify]
  rfl

/-- The first output completion of a live call (R346). -/
theorem runDmaOutCplt_live (h : dmaLive (s.periph u).h) (hd : (s.periph u).h.dmaOutDone = false) :
    runDmaOutCplt u s = if (s.periph u).h.dmaInDone = true then dmaFinish u false (s.modify u dmaOutEnded)
      else .ok (s.modify u dmaOutEnded) := by
  have fresh : ¬((s.h u).state ≠ .active ∨ (s.h u).transport ≠ .dma ∨ (s.h u).dmaOutDone = true) := by
    rintro (e | e | e)
    exacts [e h.1, e h.2, absurd e (by rw [State.h_eq, hd]; decide)]
  unfold runDmaOutCplt
  dsimp only
  rw [if_neg fresh, crWrite_dmaouten, ok_bind, State.modH_eq, State.modify_modify]
  rfl

/-- A channel error of a live call (R347). -/
theorem runDmaError_live (h : dmaLive (s.periph u).h) (q : coreQuiet (s.periph u)) :
    runDmaError u s =
      .ok (logging [eventOf .error (failed errDma (s.periph u)).h] (s.modify u (failed errDma))) := by
  have live : ¬((s.h u).state ≠ .active ∨ (s.h u).transport ≠ .dma) := by
    rintro (e | e)
    exacts [e h.1, e h.2]
  unfold runDmaError
  dsimp only
  rw [if_neg live, crWrite_dmainen, ok_bind, crWrite_dmaouten, ok_bind, clearCcf_eq, State.modify_modify,
    State.modify_modify, failIsr_eq (by rw [State.modify_periph]; exact q), State.modify_periph,
    State.modify_modify]
  rfl

end Events

/-! ### The blocks a DMA call writes itself (R342, R343, R349) -/

section Blocks

variable {u : Inst} {d : Direction} {s : State} {ph : PumpPhase} {p : Periph}

theorem boundaryMoved_size (ph : PumpPhase) (p : Periph) :
    (boundaryMoved ph p).h.dataSizeByte = p.h.dataSizeByte := by
  unfold boundaryMoved
  split <;> rfl

/-- The block that follows a boundary is written once the boundary is passed (44_phase_machine.md R284). -/
theorem writeNext_boundaryMoved (hp : phaseOf p.h.algorithm p.cr.gcmph = some ph) (hr : coreReady p)
    (hn : nextAdmitted s (boundaryPhase ph p.h) (boundaryMoved ph p)) :
    writeNext u (s.modify u fun _ => boundaryMoved ph p) =
      .ok (s.modify u fun _ => boundaryWritten ph s.mem p) := by
  have periph : (s.modify u fun _ => p).periph u = p := State.modify_periph s u _
  have moves := doIf_headerToPayload (ph := ph) (s := s.modify u fun _ => p) (by rw [periph]; exact hr.2.1)
  have next := (boundary_eq (s := s.modify u fun _ => p) (by rwa [periph]) (by rwa [periph])
    (by rw [periph]; exact nextAdmitted_modify.mpr hn)).1
  rwa [moves, ok_bind, State.modify_modify, State.modify_modify, State.modify_mem] at next

/-- The loop of a DMA call while a header block is left (R342). -/
theorem dmaLoop_header (hp : phaseOf p.h.algorithm p.cr.gcmph = some .header) (hr : coreReady p)
    (left : p.h.blockIndex.toNat < phaseBlocks .header p.h) (hn : nextAdmitted s .header p) :
    dmaLoop u d (s.modify u fun _ => p) = .ok (callStarted u (.startDma d) .header p s) := by
  obtain ⟨en, job, input, output⟩ := hr
  have phase : currentPhase u (s.modify u fun _ => p) = .ok .header := by simp [currentPhase, hp]
  have writes : writeNext u (s.modify u fun _ => p) = .ok (s.modify u fun _ => nextBlock .header s.mem p) := by
    rw [writeNext_eq (ph := .header), State.modify_modify, State.modify_mem]
    all_goals rw [State.modify_periph]
    exacts [hp, en, job, output, input, nextAdmitted_modify.mpr hn]
  rw [dmaLoop, phase, ok_bind, State.h_eq, State.modify_periph, if_pos ⟨rfl, left⟩, writes, ok_bind,
    park_waiting _ rfl, callStarted_dmaHeader]

/-- The loop of a DMA call with no header block left, once in PAYLOAD where that is due (R342, R343). -/
theorem dmaLoop_payload (hp : phaseOf p.h.algorithm p.cr.gcmph = some ph) (hr : coreReady p)
    (due : ph = .header → p.h.blockIndex.toNat = phaseBlocks .header p.h)
    (hn : startsWithBlock (.startDma d) (boundaryPhase ph p.h) p.h →
      nextAdmitted s (boundaryPhase ph p.h) (boundaryMoved ph p)) :
    dmaLoop u d (s.modify u fun _ => p) =
      .ok (callStarted u (.startDma d) (boundaryPhase ph p.h) (boundaryMoved ph p) s) := by
  have periph : (s.modify u fun _ => p).periph u = p := State.modify_periph s u _
  have phase : currentPhase u (s.modify u fun _ => p) = .ok ph := by simp [currentPhase, hp]
  have moves : doIf (ph = .header) (headerToPayload u) (s.modify u fun _ => p) =
      .ok (s.modify u fun _ => boundaryMoved ph p) := by
    have moved := doIf_headerToPayload (ph := ph) (s := s.modify u fun _ => p) (by rw [periph]; exact hr.2.1)
    rw [State.modify_modify, State.h_eq, periph] at moved
    exact (if_congr ⟨fun e => ⟨e, due e⟩, And.left⟩ rfl rfl).trans moved
  have inHeader : ¬(ph = .header ∧ p.h.blockIndex.toNat < phaseBlocks .header p.h) :=
    fun ⟨e, left⟩ => Nat.ne_of_lt left (due e)
  have left : boundaryPhase ph p.h ≠ .header := by
    unfold boundaryPhase
    split
    · decide
    · next e => exact fun h => e ⟨h, due h⟩
  have size : ((s.modify u fun _ => boundaryMoved ph p).h u).dataSizeByte = p.h.dataSizeByte := by
    rw [State.h_eq, State.modify_periph, boundaryMoved_size]
  rw [dmaLoop, phase, ok_bind, State.h_eq, periph, if_neg inHeader, moves, ok_bind]
  dsimp only
  by_cases short : p.h.dataSizeByte.toNat < 16
  · rw [if_pos (by rw [size]; omega), writeNext_boundaryMoved hp hr (hn (.inr (.inr short))), ok_bind,
      park_waiting _ rfl, callStarted_dmaShort left (by rwa [boundaryMoved_size])]
    rfl
  · rw [if_neg (by rw [size]; omega), crWrite_dmaouten, ok_bind, crWrite_dmainen, ok_bind,
      callStarted_dmaTransfers left (by rw [boundaryMoved_size]; omega), dmaStartBoth, ierWrite]
    simp only [State.modify_modify, State.h_eq, State.modify_periph]
    rfl

/-- The loop of a DMA call at a boundary: the next header block, or the start of the payload (R342). -/
theorem dmaLoop_eq (hp : phaseOf p.h.algorithm p.cr.gcmph = some ph) (hr : coreReady p)
    (hb : ph = .header → p.h.blockIndex.toNat ≤ phaseBlocks .header p.h)
    (hn : startsWithBlock (.startDma d) (boundaryPhase ph p.h) p.h →
      nextAdmitted s (boundaryPhase ph p.h) (boundaryMoved ph p)) :
    dmaLoop u d (s.modify u fun _ => p) =
      .ok (callStarted u (.startDma d) (boundaryPhase ph p.h) (boundaryMoved ph p) s) := by
  by_cases more : ph = .header ∧ p.h.blockIndex.toNat < phaseBlocks .header p.h
  · obtain ⟨rfl, left⟩ := more
    have stays : boundaryPhase .header p.h = .header := if_neg fun e => Nat.ne_of_lt left e.2
    have still : boundaryMoved .header p = p := if_neg fun e => Nat.ne_of_lt left e.2
    rw [stays, still] at hn ⊢
    exact dmaLoop_header hp hr left (hn (.inr (.inl rfl)))
  · exact dmaLoop_payload hp hr
      (fun e => Nat.le_antisymm (hb e) (Nat.not_lt.mp fun left => more ⟨e, left⟩)) hn

/-- A header block of a DMA call ends (R342). -/
theorem dmaHeaderDone_eq (hp : phaseOf (s.periph u).h.algorithm (s.periph u).cr.gcmph = some .header)
    (hr : coreReady (s.periph u)) (hb : (s.periph u).h.blockIndex.toNat ≤ phaseBlocks .header (s.periph u).h)
    (hn : startsWithBlock (.startDma d) (boundaryPhase .header (s.periph u).h) (s.periph u).h →
      nextAdmitted s (boundaryPhase .header (s.periph u).h) (boundaryMoved .header (ccfCleared (s.periph u)))) :
    dmaHeaderDone u d s = .ok (callStarted u (.startDma d) (boundaryPhase .header (s.periph u).h)
      (boundaryMoved .header (ccfCleared (s.periph u))) s) := by
  have cleared : clearCcf u s = s.modify u fun _ => ccfCleared (s.periph u) :=
    (clearCcf_eq u s).trans (State.modify_congr rfl)
  rw [dmaHeaderDone, blockEnd_header hp, ok_bind, cleared]
  exact dmaLoop_eq (p := ccfCleared (s.periph u)) hp hr (fun _ => hb) hn

/-- The end of a DMA call with no whole block (R343). -/
theorem dmaSmallEnd_eq (u : Inst) (s : State) : dmaSmallEnd u s = .ok (returning .ok (logging
    [eventOf .inCplt (commitHandle (s.periph u).h), eventOf .outCplt (commitHandle (s.periph u).h)]
    (s.modify u fun p => { p with h := commitHandle p.h }))) := by
  rw [dmaSmallEnd, callCommit, State.modH_eq, callback_eq, callback_eq, logging_periph, logging_logging,
    State.modify_periph]
  rfl

variable {b : Bool} {c0 c1 c2 c3 : Word}

/-- The only block of a short DMA call ends (R343). -/
theorem dmaBlockDone_eq (hp : phaseOf (s.periph u).h.algorithm (s.periph u).cr.gcmph = some ph) (hh : ph ≠ .header)
    (ho : outputSkip u (s.periph u).cr = false) (hw : outputWords (s.periph u) c0 c1 c2 c3)
    (ha : outputAdmitted s (s.periph u)) :
    dmaBlockDone u { s with mainPos := none } = .ok (returning .ok (logging
      [eventOf .inCplt (commitHandle (s.periph u).h), eventOf .outCplt (commitHandle (s.periph u).h)]
      { s.modify u fun p => { outputRead p with h := commitHandle p.h } with
        mem := outputMemory (s.periph u) s.mem c0 c1 c2 c3, mainPos := none })) := by
  rw [dmaBlockDone, blockEnd_stored hp hh ho hw ha, ok_bind, dmaSmallEnd_eq, outputDone_periph, outputDone_modify]
  rfl

/-- The partial block of a DMA call ends (R349). -/
theorem dmaPartialDone_eq (hp : phaseOf (s.periph u).h.algorithm (s.periph u).cr.gcmph = some ph)
    (hh : ph ≠ .header) (ho : outputSkip u (s.periph u).cr = false) (hw : outputWords (s.periph u) c0 c1 c2 c3)
    (ha : outputAdmitted s (s.periph u)) (hz : (s.periph u).h.dataSizeByte.toNat % 16 ≠ 0) :
    dmaPartialDone u b s = .ok (logging
      [eventOf .inCplt (commitHandle (s.periph u).h), eventOf .outCplt (commitHandle (s.periph u).h)]
      { s.modify u fun p => { outputRead p with h := commitHandle p.h, ier := ierNone } with
        mem := outputMemory (s.periph u) s.mem c0 c1 c2 c3 }) := by
  have isPartial : ((outputRead (s.periph u)).h.dataSizeByte.toNat % 16 != 0 || b) = true :=
    Bool.or_eq_true_iff.mpr (.inl (bne_iff_ne.mpr hz))
  rw [dmaPartialDone, blockEnd_out hp hh ho hw ha, ok_bind, dmaFinishEnd_eq, State.with_mem_periph,
    State.modify_periph, if_pos isPartial, State.with_mem_modify, State.modify_modify]
  rfl

end Blocks

/-- Settles O53: the events by what is done already, then the three kinds of block. -/
theorem dmaEventsFinishTheCall : Obligations.DmaEventsFinishTheCall := by
  intro u s p live whole xi xo i o last committed
  refine ⟨?staleIn, ?staleOut, ?first, ?inSecond, ?outSecond, ?error, ?blocks⟩
  case staleIn => exact fun h => exec_dmaInCplt (runDmaInCplt_stale h)
  case staleOut => exact fun h => exec_dmaOutCplt (runDmaOutCplt_stale h)
  case first =>
    intro hl hi ho
    refine ⟨exec_dmaInCplt ?_, exec_dmaOutCplt ?_⟩
    · rw [runDmaInCplt_live hl hi, if_neg (Bool.eq_false_iff.mp ho)]
      by_cases hw : whole
      · rw [if_pos hw, if_pos hw, callback_eq, State.modify_periph]
        rfl
      · rw [if_neg hw, if_neg hw, logging_nil]
        rfl
    · rw [runDmaOutCplt_live hl ho, if_neg (Bool.eq_false_iff.mp hi)]
      rfl
  case inSecond =>
    intro hl hi ho
    have finishes : runDmaInCplt u s = dmaFinish u true (s.modify u fun _ => i) :=
      (runDmaInCplt_live hl hi).trans (if_pos ho)
    exact ⟨fun hw => exec_dmaInCplt (finishes.trans (dmaFinish_whole hw)), fun hw _ hp hr hn =>
      exec_dmaInCplt (finishes.trans (dmaFinish_partial hw hp hr hn))⟩
  case outSecond =>
    intro hl hi ho
    have finishes : runDmaOutCplt u s = dmaFinish u false (s.modify u fun _ => o) :=
      (runDmaOutCplt_live hl ho).trans (if_pos hi)
    exact ⟨fun hw => exec_dmaOutCplt (finishes.trans (dmaFinish_whole hw)), fun hw _ hp hr hn =>
      exec_dmaOutCplt (finishes.trans (dmaFinish_partial hw hp hr hn))⟩
  case error =>
    exact fun q => ⟨fun h => exec_dmaError (runDmaError_stale h), fun hl hq => exec_dmaError (runDmaError_live hl hq)⟩
  case blocks =>
    intro el ph hp
    refine ⟨?header, ?output⟩
    case header =>
      rintro dir hw rfl hr hb r pr hn
      let out : State := { s with mainPos := none }
      have periph : out.periph u = p := State.with_mainPos_periph s u none
      refine waitOutcome_ok rfl hw ?_
      change dmaHeaderDone u dir out = _
      rw [dmaHeaderDone_eq (by rwa [periph]) (by rwa [periph]) (by rwa [periph]) (by rw [periph]; exact hn), periph]
    case output =>
      intro hw hh ho c0 c1 c2 c3 words admitted r m both
      refine ⟨fun dir => waitOutcome_ok rfl hw (dmaBlockDone_eq hp hh ho words admitted), fun b hz => ?_⟩
      let out : State := { s with isrPos := none }
      have periph : out.periph u = p := State.with_isrPos_periph s u none
      have ends : dmaPartialDone u b out = _ := dmaPartialDone_eq (ph := ph) (by rwa [periph]) hh (by rwa [periph])
        (by rwa [periph]) (by rw [periph]; exact admitted) (by rwa [periph])
      rw [waitOutcome, waitStep_ok hw, unpark_entry rfl]
      change Res.outcome .entry s (dmaPartialDone u b out) = _
      rw [ends, periph, State.with_isrPos_modify]
      rfl

end Sys2Proof.Machine

/-! `REQUEST_SUSPEND` (46_suspend_resume.md R370): what it does in an ACTIVE interrupt call and what elsewhere;
then the statement O45. -/

namespace Sys2Proof.Machine

section RequestSuspend

variable {u : Inst} {s : State}

/-- The request waits for the interrupt handler to honour it at a boundary (R370, 45_transport.md R333). -/
theorem runRequestSuspend_activeIt (h : (s.h u).state = .active ∧ (s.h u).transport = .it) :
    runRequestSuspend u s =
      ret .ok (s.modify u fun p => { p with h := { p.h with suspendRequest := true } }) := by
  obtain ⟨active, it⟩ := h
  rw [runRequestSuspend, if_neg (not_or.mpr ⟨not_not.mpr active, not_not.mpr it⟩), State.modH_eq]

theorem runRequestSuspend_elsewhere (h : ¬((s.h u).state = .active ∧ (s.h u).transport = .it)) :
    runRequestSuspend u s = ret .error s := if_pos (not_and_or.mp h)

end RequestSuspend

/-- Settles O45: in an ACTIVE interrupt call and elsewhere. -/
theorem requestSuspendSetsTheFlag : Obligations.RequestSuspendSetsTheFlag := by
  intro u s
  have runs {r : Res} (h : runRequestSuspend u s = r) :
      exec (.requestSuspend u) s = Res.outcome .mainline s r := congrArg (Res.outcome .mainline s) h
  split
  next call => exact runs (runRequestSuspend_activeIt call)
  next elsewhere => exact runs (runRequestSuspend_elsewhere elsewhere)

end Sys2Proof.Machine
